-- ==== Sys2Proof/Word.lean ====
section
/-! DEFINITION. The word types of the SC-24: bytes, revisions and Timebase values, and the index
types of its fixed collections. -/

namespace Sys2Proof

/-- One byte of a frame (R184). -/
abbrev Byte := BitVec 8

/-- A store revision: 48 bits, 0 meaning "none" (R5). Group ids, bounds, pins, cursors and the
lost-up-to revision are revisions too. -/
abbrev Rev := BitVec 48

/-- A Timebase value: microseconds, 48 bits, wrapping to 0 (R128). -/
abbrev Time := BitVec 48

/-- Index of a stroke record (R7). -/
abbrev RecIdx := Fin 4096

/-- Number of a point block (R22). -/
abbrev BlockNo := Fin 8192

/-- A seat number (R31). -/
abbrev SeatNo := Fin 40

/-- A page number (R2). -/
abbrev PageNo := Fin 16

/-- A layer number (R2). -/
abbrev LayerNo := Fin 4

/-- A run of bytes, first sent first. -/
abbrev Bytes := List Byte

end Sys2Proof
end

