-- ==== Sys2Proof/Syntax.lean ====
section
/-! DEFINITION. The commands of the SC-24: one constructor per row of the opcode table. An ARRIVAL row
(a frame checked and received, or its failure) carries the frame's fields, because they come from
outside. A GRANT row carries no field: what it acts on stands in the part already, at the head of an
intake queue or in a scan context, and the Store Access Arbiter chooses it (R118 to R122). -/

namespace Sys2Proof

/-- The four links (section "How the part is reached"). -/
inductive Link where
  | board | tablet | console | display
  deriving DecidableEq, Repr

/-- The phase of a contact sample (R77). -/
inductive Phase where
  | down | move | up
  deriving DecidableEq, Repr

/-- The tool of a contact sample on the wire (R77). -/
inductive ContactTool where
  | pen | eraser | finger
  deriving DecidableEq, Repr

/-- A raw point: normalised coordinates and a wire pressure (R59, R61). -/
structure RawPoint where
  ux : BitVec 16
  uy : BitVec 16
  pressure : BitVec 16
  deriving DecidableEq, Repr

/-- The fields of a CONTACT frame (R198). -/
structure ContactFrame where
  contact : Byte
  phase : Phase
  tool : ContactTool
  point : RawPoint
  hint : Byte
  deriving DecidableEq, Repr

/-- The tablet frames that wait in Tablet Intake (R189), with their fields (R198). `begin` stands for
START and `finish` for END. -/
inductive TabletFrame where
  | begin (slot tag tool layer colour : Byte)
  | points (slot tag : Byte) (pts : List RawPoint)
  | finish (slot tag : Byte)
  | undo (slot : Byte)
  | hand (slot : Byte) (up : Bool)
  deriving DecidableEq, Repr

/-- The three forms of a sweep (R142), with page and layer as sent. -/
inductive SweepForm where
  | layer (page layer : Byte)
  | page (page : Byte) (mask : BitVec 4)
  | all (start : Byte) (mask : BitVec 4)
  deriving DecidableEq, Repr

/-- A handle as sent on a link: a two-byte record index, which may lie above 4095, and a generation
(R198). -/
structure WireHandle where
  index : BitVec 16
  gen : Byte
  deriving DecidableEq, Repr

/-- The display requests that may wait in the pending slot (R154). -/
inductive DisplayRequest where
  | sweep (form : SweepForm) (limit : BitVec 32)
  | resume (limit : BitVec 32)
  | follow (start : Rev) (timeout : BitVec 16) (limit : BitVec 32)
  | fetch (handle : WireHandle)
  deriving DecidableEq, Repr

/-- How a frame that is served at its arrival reaches its link: its tag, and whether it arrived while the
last granted transaction was still running. Its row stands behind that transaction's, which does not see it
(R48, R121, R159, R192, log entry 6). Nothing reads `running` of a LINK_RESET on a link other than the
Display Link, nor of a frame of unknown kind on a link other than the Console Link. -/
structure AnswerTag where
  tag : Byte
  running : Bool
  deriving DecidableEq, Repr

/-- A master clocks this many further bytes of a link's front outbound frame (R183, log entry 8). -/
structure Clocking where
  link : Link
  bytes : Nat
  deriving DecidableEq, Repr

/-- The commands: the rows of the opcode table, in its order. The operand `clocked` of the two Tablet Link
arrivals that are answered is how many bytes of the front answer have been shifted out while the frame was
shifted in (R183, log entry 8). -/
inductive Instr where
  | powerOnReset
  | powerOnClearance
  | classClearanceGrant
  | badFrame (link : Link)
  | unknownKind (link : Link) (kind : Byte) (tag : AnswerTag)
  | contact (frame : ContactFrame)
  | down
  | move
  | up
  | tabletFrameArrival (tag : Byte) (frame : TabletFrame) (clocked : Nat)
  | start
  | points
  | endFrame
  | undo
  | hand
  | noticeRead (tag : AnswerTag) (clocked : Nat)
  | command (tag : AnswerTag) (code : Byte) (params : Bytes)
  | admitSeat
  | vacateSeat
  | configureSeat
  | mute
  | unmute
  | bar
  | unbar
  | readSeat
  | freeze
  | thaw
  | showPage
  | resetClass
  | setClassOptions
  | readStatus
  | startStroke
  | addPoints
  | endStroke
  | clearLayer
  | eraseSeatInk
  | retract
  | restoreGroup
  | readStroke
  | handPoll
  | callNext
  | clearHands
  | startSnapshot
  | stopSnapshot
  | armWatch
  | disarmWatch
  | readWatch
  | readAttention
  | ackAttention
  | setAttention
  | configureAttention
  | readFault
  | readCounters
  | clearCounters
  | readTime
  | setArbiter
  | sweep (tag : Byte) (form : SweepForm) (limit : BitVec 32)
  | continueWalk (tag : Byte) (limit : BitVec 32)
  | follow (tag : Byte) (start : Rev) (timeout : BitVec 16) (limit : BitVec 32)
  | fetch (tag : Byte) (handle : WireHandle)
  | stop (tag : Byte)
  | outboundFrameRead (clocking : Clocking)
  | linkReset (link : Link) (tag : AnswerTag)
  | sweepBurst
  | followBurst
  | fetchBurst
  | snapshotBurst
  | followDeadlineReached
  | deadlineReached (seat : SeatNo)
  | maintenanceGrant
  deriving DecidableEq, Repr

end Sys2Proof
end

