-- ==== Sys2Proof/Config.lean ====
section
/-! DEFINITION. The fixed sizes of the part. The manual fixes every one of them: the SC-24 leaves no
value free to the implementation, so this file holds no opaque constant. -/

namespace Sys2Proof.Config

/-- Largest x of the canvas (R2). -/
def maxX : Nat := 16383

/-- Largest y of the canvas (R2). -/
def maxY : Nat := 9215

/-- Point entries one block holds (R23). -/
def blockEntries : Nat := 24

/-- Blocks one chain holds at most (R23). -/
def maxChain : Nat := 64

/-- Stroke records of the Stroke Table (section 1.3). -/
def records : Nat := 4096

/-- Blocks of the Point Pool (section 1.4). -/
def blocks : Nat := 8192

/-- Change entries the journal holds at most (R132). -/
def journalSize : Nat := 512

/-- Change entries one transaction writes at most (R104, R135). -/
def maxEntries : Nat := 8

/-- Entries of an undo stack (R43). -/
def undoDepth : Nat := 8

/-- Samples the Board Intake queue holds (R190). -/
def boardQueue : Nat := 64

/-- Frames the Tablet Intake queue holds (R189). -/
def tabletQueue : Nat := 48

/-- Commands the console queue holds (R192). -/
def consoleQueue : Nat := 8

/-- Answer slots of the Tablet Link (R187). -/
def answerSlots : Nat := 64

/-- Reply slots of the Console Link (R164). -/
def replySlots : Nat := 16

/-- Record slots of the snapshot context's share of the Console Link (R164). -/
def shareSlots : Nat := 32

/-- Record slots of the Display Link (R158). -/
def displaySlots : Nat := 48

/-- Records one burst places at most, and the free slots a scan context asks for (R138). -/
def burst : Nat := 16

/-- Items of one NOTICE_LIST at most (R48). -/
def noticeItems : Nat := 8

/-- Records one clearance grant frees at most (R30). -/
def clearancePerGrant : Nat := 64

/-- Members one reclaim grant frees at most (R116). -/
def reclaimPerGrant : Nat := 16

/-- Free-record count at or below which the table demand starts (R114). -/
def tableLow : Nat := 64

/-- Free-record count at or above which the table demand ends (R114). -/
def tableHigh : Nat := 128

/-- Blocks above R at which the pool demand ends (R114). -/
def poolRelief : Nat := 256

/-- Largest value of a saturating counter (R175, R176). -/
def counterMax : Nat := 65535

/-- Largest payload of a frame (R184). -/
def maxPayload : Nat := 500

/-- The sync byte of a frame (R184). -/
def sync : Byte := 0xA7#8

end Sys2Proof.Config
end

