-- ==== Sys2Proof/Machine/State.lean ====
section
/-! DEFINITION. The state of the SC-24 as plain data, its power-on value, and the reasons a step can
stop. Every piece of state the manual names stands here once; what the manual names twice (a count of
a list, an ATTN line, a completion queue inside an outbound buffer) is stored once and computed in
Machine/Ops.lean. -/

namespace Sys2Proof.Machine

/-- A collection of `n` places, kept as the places whose value is not the default: pairs in strictly
rising order of place, none holding the default. An unlisted place holds the default. -/
abbrev Table (n : Nat) (α : Type) := List (Fin n × α)

/-! ### The canvas store (Chapter 1) -/

/-- A handle: one life of a stroke record (R7). -/
structure Handle where
  idx : RecIdx
  gen : Byte
  deriving DecidableEq, Repr

/-- FREE, OPEN, CLOSED, ERASED (R9, R13). -/
inductive StrokeState where
  | free | opened | closed | erased
  deriving DecidableEq, Repr

/-- The tools that own records (R9). -/
inductive InkTool where
  | ink | highlight
  deriving DecidableEq, Repr

/-- The flags of a stroke (R11). -/
structure StrokeFlags where
  clipped : Bool := false
  broken : Bool := false
  truncated : Bool := false
  expired : Bool := false
  cut : Bool := false
  superseded : Bool := false
  orphan : Bool := false
  split : Bool := false
  deriving DecidableEq, Repr

/-- The cause a close is given (R16). -/
inductive CloseCause where
  | plain | expired | cut | superseded | split
  deriving DecidableEq, Repr

/-- A rectangle of the canvas, bounds included (R10). -/
structure Box where
  x0 : Nat
  x1 : Nat
  y0 : Nat
  y1 : Nat
  deriving DecidableEq, Repr

/-- A coded point entry (R24, R25). -/
inductive Entry where
  | abs (x y w : Nat) (lift : Bool)
  | delta (dx dy dw : Int)
  deriving DecidableEq, Repr

/-- A decoded point: position, width and lift-before (R24). -/
structure Point where
  x : Nat
  y : Nat
  w : Nat
  lift : Bool
  deriving DecidableEq, Repr

/-- A stroke record (R9). The group link is the order of the member list of its group (`EraseGroup`). -/
structure Stroke where
  state : StrokeState := .free
  gen : Byte := 0
  owner : SeatNo := 0
  page : PageNo := 0
  layer : LayerNo := 0
  tool : InkTool := .ink
  colour : Fin 64 := 0
  tag : Byte := 0
  openTime : Time := 0
  closeTime : Option Time := none
  openRev : Rev := 0
  lastRev : Rev := 0
  count : Nat := 0
  chain : List BlockNo := []
  box : Box := ⟨0, 0, 0, 0⟩
  flags : StrokeFlags := {}
  pred : Option Handle := none
  group : Option Rev := none
  eraseRev : Option Rev := none
  deriving DecidableEq, Repr

/-- The free list of records (R12): the records `fresh`..4095, which no stroke has used since
power-on, in ascending order, and behind them the freed records in the order they were freed. -/
structure FreeList where
  fresh : Nat := 0
  freed : List RecIdx := []
  deriving DecidableEq, Repr

/-- The free stack of blocks (R26), top first: the released blocks, last released on top, and under
them the blocks `fresh`..8191, which no stroke has used since power-on, in ascending order. -/
structure FreeStack where
  released : List BlockNo := []
  fresh : Nat := 0
  deriving DecidableEq, Repr

/-- The canvas store: the Stroke Table, the Point Pool, the 64 Z lists and the store revision. A
block holds the entries of its last use until it is used again (R26). Place 4 × page + layer of `z`
is the Z list of that page and layer, back first (R27). -/
structure Store where
  strokes : Table 4096 Stroke := []
  pool : Table 8192 (List Entry) := []
  freeRecs : FreeList := {}
  freeBlocks : FreeStack := {}
  z : Table 64 (List Handle) := []
  rev : Rev := 0
  deriving DecidableEq, Repr

/-! ### Seats and class (Chapter 2) -/

/-- VACANT, ADMITTED, MUTED, BARRED (R31). -/
inductive SeatState where
  | vacant | admitted | muted | barred
  deriving DecidableEq, Repr

/-- The port of a seat (R31). -/
inductive Port where
  | board | tablet | console
  deriving DecidableEq, Repr

/-- Scale and offset of a seat (R31, R61). -/
structure Mapping where
  sx : Nat := 16384
  sy : Nat := 9216
  ox : Int := 0
  oy : Int := 0
  deriving DecidableEq, Repr

/-- The window policy (R31, R62, R63). -/
inductive Policy where
  | clamp | drop
  deriving DecidableEq, Repr

/-- The window of a seat (R31). -/
structure Window where
  wx0 : Nat := 0
  wx1 : Nat := 16383
  wy0 : Nat := 0
  wy1 : Nat := 9215
  policy : Policy := .clamp
  deriving DecidableEq, Repr

/-- The pen context of a seat (R31). -/
structure Pen where
  colour : Fin 64 := 0
  tool : InkTool := .ink
  wmin : Nat := 4
  wmax : Nat := 24
  ew : Nat := 64
  deriving DecidableEq, Repr

/-- The erase scope of a seat (R31, R40). -/
inductive Scope where
  | own | any
  deriving DecidableEq, Repr

/-- The rights of a seat: layer mask, bit n for layer n, and erase scope (R31). -/
structure Rights where
  layers : BitVec 4 := 0
  scope : Scope := .own
  deriving DecidableEq, Repr

/-- The target page of a seat (R31, R40). -/
inductive Target where
  | follow
  | fixed (page : PageNo)
  deriving DecidableEq, Repr

/-- The held first point of a board contact (R42, R78). -/
structure HeldPoint where
  x : Nat
  y : Nat
  w : Nat
  clamped : Bool
  holdTime : Time
  tool : InkTool
  colour : Fin 64
  layer : LayerNo
  deriving DecidableEq, Repr

/-- The kinds of open item (R42). -/
inductive ItemKind where
  | ink (h : Handle) (tag : Byte)
  | armed (tag : Byte) (tool : InkTool) (layer : LayerNo) (colour : Fin 64)
  | held (p : HeldPoint)
  | eraser (tag : Byte) (layer : LayerNo) (page : PageNo) (group : Option Rev)
  deriving DecidableEq, Repr

/-- An open item with its break markers (R58), its pool-empty reported marker and its deadline
(R75). -/
structure OpenItem where
  kind : ItemKind
  lift : Bool := false
  drop : Bool := false
  poolReported : Bool := false
  deadline : Time := 0
  deriving DecidableEq, Repr

/-- An undo entry (R43). -/
inductive UndoEntry where
  | ink (h : Handle)
  | erase (g : Rev)
  deriving DecidableEq, Repr

/-- The notice kinds (R47), in the order of their bits in a NOTICE_LIST (R198). -/
inductive Notice where
  | admitted | vacated | muted | unmuted | barred
  | quotaReached | quotaCleared
  | undoDone | undoEmpty
  | pageShown | classReset
  deriving DecidableEq, Repr

/-- One seat record (R31). The top of the undo stack comes first. The pending-notice set has the bits
of R198. The port is fixed by the seat number (`portOf`). -/
structure Seat where
  state : SeatState := .vacant
  mapping : Mapping := {}
  window : Window := {}
  pen : Pen := {}
  rights : Rights := {}
  target : Target := .follow
  quota : Nat := 0
  blocksHeld : Nat := 0
  quotaReached : Bool := false
  item : Option OpenItem := none
  lastClosed : Option (Byte × Handle) := none
  cutDue : Bool := false
  undo : List UndoEntry := []
  handUp : Bool := false
  notices : BitVec 11 := 0
  clipped : Nat := 0
  dropped : Nat := 0
  discarded : Nat := 0
  deriving DecidableEq, Repr

/-- OPEN, FROZEN, RESETTING (R49). -/
inductive ClassState where
  | opened | frozen | resetting
  deriving DecidableEq, Repr

/-- The class options (R50). `layers` gives the default layer of board seats 0..3. -/
structure ClassOptions where
  fingerInk : Bool := false
  glitch : Nat := 12
  boardIdle : Nat := 500
  tabletIdle : Nat := 2000
  consoleIdle : Nat := 2000
  reserve : Nat := 512
  layers : Vector LayerNo 4 := Vector.replicate 4 1
  deriving DecidableEq, Repr

/-- The class-wide state: the class state and the prior state a clearance returns to (R49, R53), the
shown page (R51) and the class options. -/
structure ClassCtl where
  state : ClassState := .opened
  prior : ClassState := .opened
  shown : PageNo := 0
  options : ClassOptions := {}
  deriving DecidableEq, Repr

/-! ### Erase groups and maintenance (Chapters 4 and 5) -/

/-- The origin of an erase group (R98). -/
inductive Origin where
  | seat (n : SeatNo)
  | console
  deriving DecidableEq, Repr

/-- An erase group (R98). The member list is in erase order, oldest first: it is what the group links
of the records spell. The first erase revision is the id; the member count is the list's length. -/
structure EraseGroup where
  id : Rev
  origin : Origin
  lastRev : Rev
  members : List Handle
  isOpen : Bool
  deriving DecidableEq, Repr

/-- The Maintenance Unit: the due-expiry set, bit n for seat n (R94), the three reclaim demands
(R114) and the group under reclaim (R116). -/
structure Maintenance where
  due : BitVec 40 := 0
  poolDemand : Bool := false
  tableDemand : Bool := false
  tableFull : Bool := false
  underReclaim : Option EraseGroup := none
  deriving DecidableEq, Repr

/-! ### Arbiter (Chapter 6) -/

/-- The six requesters, in the fixed order (R118). -/
inductive Requester where
  | console | board | display | tablet | snapshot | maintenance
  deriving DecidableEq, Repr

/-- The arbiter (R124). Bit n of a flag set is the requester of place n + 1. -/
structure Arbiter where
  enabled : Bool := true
  period : Nat := 48
  counter : Nat := 0
  waiting : BitVec 6 := 0
  elevated : BitVec 6 := 0
  deriving DecidableEq, Repr

/-! ### Change Journal and scan contexts (Chapters 7 and 8) -/

/-- The kinds of change entry (R133). -/
inductive EntryKind where
  | opened | extended | closed | erased | restored | layerRefresh | pageShown | classReset
  deriving DecidableEq, Repr

/-- A change entry (R133). A field the table marks absent for the kind is `none`. -/
structure ChangeEntry where
  kind : EntryKind
  rev : Rev
  time : Time
  page : Option PageNo := none
  layer : Option LayerNo := none
  handle : Option Handle := none
  seat : Option SeatNo := none
  tool : Option InkTool := none
  colour : Option (Fin 64) := none
  pred : Option Handle := none
  first : Option Nat := none
  count : Option Nat := none
  flags : Option StrokeFlags := none
  group : Option Rev := none
  box : Option Box := none
  deriving DecidableEq, Repr

/-- The Change Journal, oldest first (R132), and the lost-up-to revision L (R134). -/
structure Journal where
  entries : List ChangeEntry := []
  lost : Rev := 0
  deriving DecidableEq, Repr

/-- IDLE, WALKING, WAITING, DONE (R137). -/
inductive WalkState where
  | idle | walking | waiting | done
  deriving DecidableEq, Repr

/-- The modes of a walk (R137), and CONTINUE, which only the WALK_DONE of a refused CONTINUE reports
(R155). -/
inductive WalkMode where
  | sweepLayer | sweepPage | sweepAll | follow | fetch | resume
  deriving DecidableEq, Repr

/-- The end statuses of a walk (R137, R160). -/
inductive EndStatus where
  | finished | limit | timeout | overrun | stopped | superseded | reset | gone | refused
  deriving DecidableEq, Repr

/-- The reasons a REFUSED carries (R155, R198). -/
inductive Reason where
  | none | range | state | resetting
  deriving DecidableEq, Repr

/-- The position of a sweep: the next stroke it will meet (R145). -/
structure Position where
  page : PageNo := 0
  layer : LayerNo := 0
  z : Nat := 0
  deriving DecidableEq, Repr

/-- The item in transit (R137, R144): its handle, the chain positions of its next chunk and of the
end of its chunk range, and for a stroke the entry count of its header. -/
structure Transit where
  handle : Handle
  next : Nat
  stop : Nat
  cap : Option Nat
  deriving DecidableEq, Repr

/-- The cursor of a follow with its complete marker (R137), and how many entries of the cursor's
revision have been sent, which R150's "not yet sent" reads. -/
structure Cursor where
  rev : Rev
  complete : Bool
  sent : Nat
  deriving DecidableEq, Repr

/-- A scan context (R137). `tag` is the tag of the request whose walk it runs (R158, R164). `limit` is
`none` for an unlimited walk. The completion queue of the context is the WALK_DONE records in its
link's outbound buffer. -/
structure ScanCtx where
  state : WalkState := .idle
  mode : WalkMode := .sweepLayer
  tag : Byte := 0
  mask : BitVec 4 := 0
  pos : Position := {}
  bound : Option Rev := none
  limit : Option Nat := none
  transit : Option Transit := none
  start : Rev := 0
  cursor : Option Cursor := none
  timeout : Nat := 0
  deadline : Option Time := none
  fetch : Option Handle := none
  endStatus : Option (EndStatus × Reason) := none
  deriving DecidableEq, Repr

/-- The contents of a STROKE_HEADER (R139). -/
structure HeaderRecord where
  handle : Handle
  owner : SeatNo
  page : PageNo
  layer : LayerNo
  tool : InkTool
  colour : Fin 64
  state : StrokeState
  flags : StrokeFlags
  count : Nat
  box : Box
  openRev : Rev
  lastRev : Rev
  pred : Option Handle
  erase : Option (Rev × Rev)
  afterBound : Bool
  deriving DecidableEq, Repr

/-- The contents of a WALK_DONE (R139, R160). -/
structure DoneRecord where
  status : EndStatus
  reason : Reason
  mode : WalkMode
  bound : Option Rev
  resume : Option Rev
  remaining : Nat
  deriving DecidableEq, Repr

/-- The records a walk sends (R139). -/
inductive ScanRecord where
  | header (r : HeaderRecord)
  | chunk (handle : Handle) (first : Nat) (gone : Bool) (entries : List Entry)
  | journal (e : ChangeEntry) (gone : Bool)
  | done (r : DoneRecord)
  deriving DecidableEq, Repr

/-- A record with the tag of the request whose walk placed it (R158). -/
structure TaggedRecord where
  tag : Byte
  body : ScanRecord
  deriving DecidableEq, Repr

/-! ### Watches, faults, counters, attention (Chapter 9) -/

/-- DISARMED, ARMED, FIRED (R167). -/
inductive WatchState where
  | disarmed | armed | fired
  deriving DecidableEq, Repr

/-- ALL or ANY (R167, R171). -/
inductive Combine where
  | all | any
  deriving DecidableEq, Repr

/-- A watch capture (R171). The point carries its point index. -/
structure Capture where
  rev : Rev
  time : Time
  seat : SeatNo
  handle : Handle
  kind : EntryKind
  point : Option (Point × Nat)
  box : Option Box
  deriving DecidableEq, Repr

/-- A watch entry (R167). The kind mask has a bit each for OPENED, EXTENDED, CLOSED, ERASED; the
enables are those of the region, seat and kind conditions. -/
structure Watch where
  state : WatchState := .disarmed
  page : PageNo := 0
  rect : Box := ⟨0, 0, 0, 0⟩
  layers : BitVec 4 := 0
  seats : BitVec 40 := 0
  kinds : BitVec 4 := 0
  onRegion : Bool := false
  onSeat : Bool := false
  onKind : Bool := false
  combine : Combine := .all
  capture : Option Capture := none
  deriving DecidableEq, Repr

/-- The fault kinds (R172). -/
inductive FaultKind where
  | badFrame | unknownKind | badSeat | notAdmitted | denied | tableFull | poolEmpty | intakeOverflow
  deriving DecidableEq, Repr

/-- The first-fault record (R173). -/
structure FaultRecord where
  kind : FaultKind
  link : Link
  seat : Option SeatNo
  frame : Option Byte
  rev : Rev
  time : Time
  deriving DecidableEq, Repr

/-- Fault Capture: the first-fault record and the fault count (R173). -/
structure FaultCapture where
  record : Option FaultRecord := none
  count : Nat := 0
  deriving DecidableEq, Repr

/-- A number for each link. -/
structure PerLink where
  board : Nat := 0
  tablet : Nat := 0
  console : Nat := 0
  display : Nat := 0
  deriving DecidableEq, Repr

/-- The class counters and link counters (R176). -/
structure Counters where
  glitch : Nat := 0
  eraseSkip : Nat := 0
  badFrames : PerLink := {}
  linkResets : PerLink := {}
  boardDiscards : Nat := 0
  tabletDiscards : Nat := 0
  consoleDiscards : Nat := 0
  displaced : Nat := 0
  heldAnswers : Nat := 0
  busyAnswers : Nat := 0
  droppedRequests : Nat := 0
  deriving DecidableEq, Repr

/-- The attention sources, in attention order (R178). -/
inductive Source where
  | fault | poolLow | tableFull | watch0 | watch1 | watch2 | watch3
  | hand | quota | snapshotDone | classReady
  deriving DecidableEq, Repr

/-- The Attention Controller (R178): bit n of `pending` and `enabled` and place n of `levels` belong
to the n-th source in attention order. -/
structure Attention where
  pending : BitVec 11 := 0
  enabled : BitVec 11 := 0x7FF#11
  levels : Vector (Fin 4) 11 := ⟨#[3, 3, 3, 2, 2, 2, 2, 1, 1, 1, 0], rfl⟩
  deriving DecidableEq, Repr

/-! ### Links (Chapter 10) -/

/-- A contact sample in the Board Intake queue with its arrival stamp (R190). -/
structure Sample where
  frame : ContactFrame
  stamp : Time
  deriving DecidableEq, Repr

/-- One item of a NOTICE_LIST (R48). -/
structure NoticeItem where
  slot : Nat
  notices : BitVec 11
  state : SeatState
  page : PageNo
  deriving DecidableEq, Repr

/-- What the last grant decision found of the notices, as a NOTICE_READ that arrives while its transaction
runs is served against it (R48): the Notice Queue, with the item each seat's place in a list would carry,
and the notices the transaction has added since, in order. The model's own, since a transaction is one step
(log entry 6). -/
structure NoticeBasis where
  queue : List (SeatNo × NoticeItem)
  added : List (SeatNo × Notice) := []
  deriving DecidableEq, Repr

/-- A frame of the tablet answer buffer, with the tag of the frame it answers (R188). -/
inductive Answer where
  | taken (tag : Byte) (free : Nat)
  | held (tag : Byte)
  | noticeList (tag : Byte) (items : List NoticeItem)
  deriving DecidableEq, Repr

/-- The result codes of a REPLY (R193). -/
inductive Result where
  | ok | accepted | busy | unknown | range | state | denied | nothing | full | gone
  deriving DecidableEq, Repr

/-- A REPLY (R193), its result data coded as R198 gives. -/
structure Reply where
  tag : Byte
  code : Byte
  result : Result
  data : Bytes
  deriving DecidableEq, Repr

/-- A frame of the Console Link outbound buffer (R164): a reply, or a record of the snapshot
context. -/
inductive ConsoleFrame where
  | reply (r : Reply)
  | scan (r : TaggedRecord)
  deriving DecidableEq, Repr

/-- An entry of the console queue (R192): a COMMAND as it arrived, or the power-on clearance (R56), which
has started from its first grant on (R119, R196). -/
inductive QueuedCommand where
  | clearance (started : Bool)
  | cmd (tag code : Byte) (params : Bytes)
  deriving DecidableEq, Repr

/-- The console command whose grant was the last of all grants, as a frame that arrived while its transaction
ran meets it (R122, R192): it has left the queue with its transaction, it was answered under this grant, and
a Console LINK_RESET has emptied the buffer since. The model's own, since a transaction is one step (log
entry 6). -/
structure CommandGrant where
  left : Bool
  replied : Bool
  emptied : Bool := false
  deriving DecidableEq, Repr

/-- The state of the SC-24. The outbound buffers are in the order placed, front first; `shifted` counts,
link by link, the bytes of the front frame that have been shifted out, since a transfer may end inside a
frame (R183, R188). `commandGrant`, `noticeBasis`, `burstGrant` and `pending` are the model's own: what a
frame that arrived during the last transaction meets (log entry 6) (the last of them, that it was a burst of
the display context), and the queue of the commands that wait outside the part, first in, first out (log
entry 2). -/
structure State where
  store : Store := {}
  seats : Vector Seat 40
  cls : ClassCtl := {}
  hands : List SeatNo := []
  noticeQueue : List SeatNo := []
  eraseQueue : List EraseGroup := []
  maint : Maintenance := {}
  arbiter : Arbiter := {}
  timebase : Time := 0
  journal : Journal := {}
  display : ScanCtx := {}
  displayPending : Option (Byte × DisplayRequest) := none
  snapshot : ScanCtx := {}
  watches : Vector Watch 4
  faults : FaultCapture := {}
  counters : Counters := {}
  attention : Attention := {}
  boardQueue : List Sample := []
  tabletQueue : List TabletFrame := []
  consoleQueue : List QueuedCommand := []
  answers : List Answer := []
  shifted : PerLink := {}
  consoleOut : List ConsoleFrame := []
  displayOut : List TaggedRecord := []
  commandGrant : Option CommandGrant := none
  noticeBasis : Option NoticeBasis := none
  burstGrant : Bool := false
  pending : List Instr := []
  deriving DecidableEq, Repr

/-- Why the machine could stop with a fault. The type is EMPTY: no rule of the manual lets an event
stop the part (an input it cannot take is discarded, refused by an answer or captured in Fault
Capture, which is state), so no meaning ends in a fault. -/
inductive Fault where
  deriving DecidableEq, Repr

/-- Why a command can have no meaning. -/
inductive Refusal where
  /-- Raised by an arm of `exec` for a row that has no meaning yet, and by no meaning; safe, since the
  machine then stops. No row is in that case. -/
  | notModelled (mnemonic : String)
  deriving DecidableEq, Repr

/-! ### Power-on values -/

/-- The power-on seat record of a seat number (R56). -/
def Seat.powerOn (n : Nat) : Seat :=
  if n < 4 then
    { state := .admitted, rights := { layers := 0b0110#4, scope := .any }, quota := 8192 }
  else if n < 36 then
    { state := .vacant, rights := { layers := 0b0100#4, scope := .own }, quota := 256 }
  else
    { state := .admitted, rights := { layers := 0b1111#4, scope := .any }, quota := 8192 }

/-- The part right after power-on reset (R29, R56, R124, R137, R167, R173, R176, R178, R197), with the
power-on clearance at the head of the console queue (R56, R192), not started yet. The class is RESETTING
from the end of the reset on, with prior state OPEN (R29, R56, R197, log entry 1). -/
def State.reset : State :=
  { seats := Vector.ofFn fun i => Seat.powerOn i.val
    cls := { state := .resetting, prior := .opened }
    watches := Vector.replicate 4 {}
    consoleQueue := [.clearance false] }

end Sys2Proof.Machine
end

