-- ==== Sys2Proof/Machine/Ops.lean ====
section
/-! DEFINITION. The operations every family of commands shares: sparse tables, revision and time
arithmetic, saturating counters, seat access, notices, attention latches, Fault Capture, free lists,
outbound buffers and the views the manual names of stored state. -/

namespace Sys2Proof.Machine

/-! ### Sparse tables -/

/-- What place `i` of a table holds; `d` is the default. -/
def lookupAt {n : Nat} {α : Type} (d : α) : Table n α → Fin n → α
  | [], _ => d
  | (j, v) :: t, i => if j = i then v else lookupAt d t i

/-- Insert a pair before the first pair of a higher place. -/
def insertAt {n : Nat} {α : Type} (i : Fin n) (v : α) : Table n α → Table n α
  | [] => [(i, v)]
  | (j, w) :: t => if i < j then (i, v) :: (j, w) :: t else (j, w) :: insertAt i v t

/-- Write place `i`, keeping the canonical form: writing the default unlists the place. -/
def assignAt {n : Nat} {α : Type} [DecidableEq α] (d : α) (t : Table n α) (i : Fin n) (v : α) :
    Table n α :=
  let rest := t.filter fun p => decide (p.1 ≠ i)
  if v = d then rest else insertAt i v rest

/-- A table is in canonical form: places strictly rising, no default listed. -/
def tableWf {n : Nat} {α : Type} [DecidableEq α] (d : α) (t : Table n α) : Bool :=
  decide (t.Pairwise fun p q => p.1 < q.1) && t.all fun p => decide (p.2 ≠ d)

/-- The record at an index (R9); an unlisted record is FREE with generation 0. -/
def Store.stroke (st : Store) (i : RecIdx) : Stroke := lookupAt {} st.strokes i

/-- Write one record. -/
def Store.setStroke (st : Store) (i : RecIdx) (r : Stroke) : Store :=
  { st with strokes := assignAt {} st.strokes i r }

/-- The entries a block holds (R22, R23). -/
def Store.block (st : Store) (b : BlockNo) : List Entry := lookupAt [] st.pool b

/-- Write one block. -/
def Store.setBlock (st : Store) (b : BlockNo) (es : List Entry) : Store :=
  { st with pool := assignAt [] st.pool b es }

/-- The place of a page-layer pair among the 64 Z lists. -/
def zPlace (page : PageNo) (layer : LayerNo) : Fin 64 :=
  ⟨4 * page.val + layer.val, by omega⟩

/-- The Z list of a page and layer, back first (R27). -/
def Store.zlist (st : Store) (page : PageNo) (layer : LayerNo) : List Handle :=
  lookupAt [] st.z (zPlace page layer)

/-- Write one Z list. -/
def Store.setZ (st : Store) (page : PageNo) (layer : LayerNo) (hs : List Handle) : Store :=
  { st with z := assignAt [] st.z (zPlace page layer) hs }

/-- Change one place of a vector. -/
def updAt {α : Type} {n : Nat} (v : Vector α n) (i : Fin n) (f : α → α) : Vector α n :=
  v.set i.val (f v[i.val]) i.isLt

/-! ### Free collections (R12, R26) -/

/-- The free-record count (R12). -/
def FreeList.size (f : FreeList) : Nat := (Config.records - f.fresh) + f.freed.length

/-- Take the record at the head of the free list (R12, R14). -/
def FreeList.take (f : FreeList) : Option (RecIdx × FreeList) :=
  if h : f.fresh < 4096 then some (⟨f.fresh, h⟩, { f with fresh := f.fresh + 1 })
  else match f.freed with
    | [] => none
    | i :: r => some (i, { f with freed := r })

/-- Append a freed record at the tail (R12, R19). -/
def FreeList.give (f : FreeList) (i : RecIdx) : FreeList := { f with freed := f.freed ++ [i] }

/-- The free list as the manual states it, head first. -/
def FreeList.toList (f : FreeList) : List RecIdx :=
  (List.finRange 4096).filter (fun i => decide (f.fresh ≤ i.val)) ++ f.freed

/-- The free count (R22). -/
def FreeStack.size (f : FreeStack) : Nat := f.released.length + (Config.blocks - f.fresh)

/-- Pop the block on top (R26). -/
def FreeStack.pop (f : FreeStack) : Option (BlockNo × FreeStack) :=
  match f.released with
  | b :: r => some (b, { f with released := r })
  | [] => if h : f.fresh < 8192 then some (⟨f.fresh, h⟩, { f with fresh := f.fresh + 1 }) else none

/-- Push the blocks of a chain, oldest first, so that the newest ends on top (R19, R26). -/
def FreeStack.push (f : FreeStack) (chain : List BlockNo) : FreeStack :=
  { f with released := chain.reverse ++ f.released }

/-- The free stack as the manual states it, top first. -/
def FreeStack.toList (f : FreeStack) : List BlockNo :=
  f.released ++ (List.finRange 8192).filter (fun b => decide (f.fresh ≤ b.val))

/-! ### Revisions (R5) -/

/-- The highest revision, 2^48 − 1. -/
def maxRev : Rev := 0xFFFFFFFFFFFF#48

/-- The revision after a revision: plus 1, and 1 after 2^48 − 1 (R5). -/
def nextRev (r : Rev) : Rev := if r = maxRev then 1 else r + 1

/-- The revision issued before a revision, for R153's "the cursor minus 1" (log entry 11). -/
def prevRev (r : Rev) : Rev := if r = 1 then maxRev else r - 1

/-- R5's test: `a` is above `b` in order of issue. Revision 0 is below every other. -/
def revAbove (a b : Rev) : Bool :=
  if a = 0 then false
  else if b = 0 then true
  else
    let d := (a.toNat + (2 ^ 48 - 1) - b.toNat) % (2 ^ 48 - 1)
    decide (1 ≤ d ∧ d ≤ 2 ^ 47 - 1)

/-! ### Time (R128, R130) -/

/-- `a` is later than `b` (R130). -/
def later (a b : Time) : Bool :=
  let d := (a - b).toNat
  decide (1 ≤ d ∧ d ≤ 2 ^ 47 - 1)

/-- The Timebase value `now` reaches the deadline `d`: it equals it or is later (R130). -/
def reached (now d : Time) : Bool := decide (now = d) || later now d

/-- A setting in milliseconds as microseconds. -/
def ms (t : Nat) : Time := BitVec.ofNat 48 (t * 1000)

/-! ### Saturating counters (R175, R176) -/

/-- Grow a 0..65535 counter by `k`; it stays at 65535. -/
def satAdd (n k : Nat) : Nat := min (n + k) Config.counterMax

/-- Read one link's number. -/
def PerLink.get (p : PerLink) : Link → Nat
  | .board => p.board
  | .tablet => p.tablet
  | .console => p.console
  | .display => p.display

/-- Write one link's number. -/
def PerLink.set (p : PerLink) (l : Link) (n : Nat) : PerLink :=
  match l with
  | .board => { p with board := n }
  | .tablet => { p with tablet := n }
  | .console => { p with console := n }
  | .display => { p with display := n }

/-- Grow one link's counter by 1. -/
def PerLink.bump (p : PerLink) : Link → PerLink
  | .board => { p with board := satAdd p.board 1 }
  | .tablet => { p with tablet := satAdd p.tablet 1 }
  | .console => { p with console := satAdd p.console 1 }
  | .display => { p with display := satAdd p.display 1 }

/-! ### Seats (R31) -/

/-- The port a seat number fixes (R31). -/
def portOf (n : SeatNo) : Port :=
  if n.val < 4 then .board else if n.val < 36 then .tablet else .console

/-- All seats in ascending number. -/
def allSeats : List SeatNo := List.finRange 40

/-- The seats of the Board port, 0..3. -/
def boardSeats : List SeatNo := allSeats.filter fun n => portOf n = .board

/-- The seats of the Tablet port, 4..35. -/
def tabletSeats : List SeatNo := allSeats.filter fun n => portOf n = .tablet

/-- The record of a seat. -/
def State.seat (s : State) (n : SeatNo) : Seat := s.seats[n.val]

/-- Change the record of one seat. -/
def State.modSeat (s : State) (n : SeatNo) (f : Seat → Seat) : State :=
  { s with seats := updAt s.seats n f }

/-- The seat a one-byte number names; none above 39. -/
def seatOfByte (b : Byte) : Option SeatNo :=
  if h : b.toNat < 40 then some ⟨b.toNat, h⟩ else none

/-- The board seat of a contact number; none above 3 (R31, R73). -/
def seatOfContact (b : Byte) : Option SeatNo :=
  if h : b.toNat < 4 then some ⟨b.toNat, by omega⟩ else none

/-- The seat of a tablet slot: slot n is seat n + 4; none above 31 (R31, R73). -/
def seatOfSlot (b : Byte) : Option SeatNo :=
  if h : b.toNat < 32 then some ⟨b.toNat + 4, by omega⟩ else none

/-- The console seat a number names; none outside 36..39 (R73, R87). -/
def seatOfConsole (b : Byte) : Option SeatNo :=
  if h : 36 ≤ b.toNat ∧ b.toNat < 40 then some ⟨b.toNat, by omega⟩ else none

/-- The layer a byte names; none above 3. -/
def layerOfByte (b : Byte) : Option LayerNo :=
  if h : b.toNat < 4 then some ⟨b.toNat, h⟩ else none

/-- The page a byte names; none above 15. -/
def pageOfByte (b : Byte) : Option PageNo :=
  if h : b.toNat < 16 then some ⟨b.toNat, h⟩ else none

/-- A layer lies in a layer mask. -/
def inMask (m : BitVec 4) (l : LayerNo) : Bool := m.getLsbD l.val

/-- The lowest layer of a mask (R86). -/
def lowestLayer (m : BitVec 4) : Option LayerNo :=
  ([0, 1, 2, 3] : List LayerNo).find? fun l => inMask m l

/-- The idle time of a seat's port in milliseconds (R75). -/
def idleOf (s : State) (n : SeatNo) : Nat :=
  match portOf n with
  | .board => s.cls.options.boardIdle
  | .tablet => s.cls.options.tabletIdle
  | .console => s.cls.options.consoleIdle

/-- The page a seat's new stroke or eraser context takes (R40). -/
def targetPage (s : State) (n : SeatNo) : PageNo :=
  match (s.seat n).target with
  | .follow => s.cls.shown
  | .fixed p => p

/-- A seat is at quota (R41). -/
def atQuota (s : State) (n : SeatNo) : Bool := decide ((s.seat n).quota ≤ (s.seat n).blocksHeld)

/-- "Discarded and counted" (R32, R73): the seat's discarded-frames counter grows by 1. -/
def countDiscard (s : State) (n : SeatNo) : State :=
  s.modSeat n fun t => { t with discarded := satAdd t.discarded 1 }

/-- Push an undo entry: a stack of 8 first drops its bottom entry (R43). -/
def pushUndo (s : State) (n : SeatNo) (e : UndoEntry) : State :=
  s.modSeat n fun t => { t with undo := (e :: t.undo).take Config.undoDepth }

/-! ### Notices (R47) -/

/-- The bit number of a notice (R198). -/
def Notice.ix : Notice → Nat
  | .admitted => 0
  | .vacated => 1
  | .muted => 2
  | .unmuted => 3
  | .barred => 4
  | .quotaReached => 5
  | .quotaCleared => 6
  | .undoDone => 7
  | .undoEmpty => 8
  | .pageShown => 9
  | .classReset => 10

/-- The kinds of a notice's group (R47). -/
def Notice.groupMask : Notice → BitVec 11
  | .admitted | .vacated | .muted | .unmuted | .barred => 0b00000011111#11
  | .quotaReached | .quotaCleared => 0b00001100000#11
  | .undoDone | .undoEmpty => 0b00110000000#11
  | .pageShown => 0b01000000000#11
  | .classReset => 0b10000000000#11

/-- A pending-notice set after a notice is added: the other kinds of its group leave (R47). -/
def noticeSet (set : BitVec 11) (k : Notice) : BitVec 11 :=
  (set &&& ~~~k.groupMask) ||| BitVec.twoPow 11 k.ix

/-- The item of one listed seat (R48). -/
def noticeItem (s : State) (n : SeatNo) : NoticeItem :=
  ⟨n.val - 4, (s.seat n).notices, (s.seat n).state, s.cls.shown⟩

/-- Add a notice to a tablet seat's set; a seat whose set was empty joins the tail of the Notice Queue.
Board and console seats are given no notice (R47). The notice is one of the transaction under way (R48, log
entry 6). -/
def addNotice (s : State) (n : SeatNo) (k : Notice) : State :=
  if portOf n = .tablet then
    let q := if (s.seat n).notices = 0 then s.noticeQueue ++ [n] else s.noticeQueue
    { s.modSeat n fun t => { t with notices := noticeSet t.notices k } with
      noticeQueue := q
      noticeBasis := s.noticeBasis.map fun b => { b with added := b.added ++ [(n, k)] } }
  else s

/-- Lower a seat's hand and take the seat off the Hand Queue (R34, R36, R44). -/
def lowerHand (s : State) (n : SeatNo) : State :=
  { s.modSeat n fun t => { t with handUp := false } with
      hands := s.hands.filter fun m => decide (m ≠ n) }

/-! ### Attention (R178, R179) -/

/-- The place of a source in attention order (R178). -/
def Source.ix : Source → Fin 11
  | .fault => 0
  | .poolLow => 1
  | .tableFull => 2
  | .watch0 => 3
  | .watch1 => 4
  | .watch2 => 5
  | .watch3 => 6
  | .hand => 7
  | .quota => 8
  | .snapshotDone => 9
  | .classReady => 10

/-- The bit of a source in a source mask. -/
def Source.bit (x : Source) : BitVec 11 := BitVec.twoPow 11 x.ix.val

/-- The source of a watch number (R171). -/
def watchSource : Fin 4 → Source
  | 0 => .watch0
  | 1 => .watch1
  | 2 => .watch2
  | 3 => .watch3

/-- Latch a source: it becomes pending, enabled or not (R178). -/
def latch (s : State) (x : Source) : State :=
  { s with attention := { s.attention with pending := s.attention.pending ||| x.bit } }

/-- The Console Link ATTN line (R179). -/
def consoleAttn (s : State) : Bool := decide (s.attention.pending &&& s.attention.enabled ≠ 0)

/-- The Tablet Link ATTN line (R48, R187). -/
def tabletAttn (s : State) : Bool := !s.noticeQueue.isEmpty

/-- The Display Link ATTN line (R158, R187). -/
def displayAttn (s : State) : Bool := !s.displayOut.isEmpty

/-! ### Fault Capture (R173) -/

/-- Capture a fault: count it, fill the record if it is absent, latch FAULT. The revision is the store
revision as it stands, the time the Timebase count (R129, R173). -/
def captureFault (s : State) (k : FaultKind) (link : Link) (seat : Option SeatNo)
    (frame : Option Byte) : State :=
  let r : FaultRecord := ⟨k, link, seat, frame, s.store.rev, s.timebase⟩
  latch { s with faults :=
    { record := some (s.faults.record.getD r), count := satAdd s.faults.count 1 } } .fault

/-! ### Outbound buffers (R158, R164, R187) -/

/-- A console frame is a reply. -/
def ConsoleFrame.isReply : ConsoleFrame → Bool
  | .reply _ => true
  | .scan _ => false

/-- A record is a WALK_DONE, which stands in the completion queue beside the record slots (R138). -/
def ScanRecord.isDone : ScanRecord → Bool
  | .done _ => true
  | _ => false

/-- A console frame is a WALK_DONE of the snapshot context. -/
def ConsoleFrame.isDone : ConsoleFrame → Bool
  | .reply _ => false
  | .scan r => r.body.isDone

/-- Reply slots that hold a reply (R164). -/
def replySlotsUsed (s : State) : Nat := s.consoleOut.countP (·.isReply)

/-- Free reply slots (R164). Between two steps no slot is reserved: a reservation lasts from a grant
decision to the end of that grant's transaction (R192), which is one step; `reservedSlots` in
Machine/Arrivals.lean gives what is left of it for a frame that arrived during that transaction. -/
def replySlotsFree (s : State) : Nat := Config.replySlots - replySlotsUsed s

/-- Slots of the snapshot share that hold a record (R164). -/
def shareUsed (s : State) : Nat := s.consoleOut.countP fun f => !f.isReply && !f.isDone

/-- Free slots of the snapshot share. -/
def shareFree (s : State) : Nat := Config.shareSlots - shareUsed s

/-- The length of the snapshot context's completion queue (R138). -/
def snapshotDones (s : State) : Nat := s.consoleOut.countP (·.isDone)

/-- Record slots of the Display Link that hold a record (R158). -/
def displayUsed (s : State) : Nat := s.displayOut.countP fun r => !r.body.isDone

/-- Free record slots of the Display Link. -/
def displayFree (s : State) : Nat := Config.displaySlots - displayUsed s

/-- The length of the display context's completion queue (R138). -/
def displayDones (s : State) : Nat := s.displayOut.countP fun r => r.body.isDone

/-! ### Handles and points -/

/-- A handle is live: its generation is the record's and the record is not FREE (R7). -/
def Store.live (st : Store) (h : Handle) : Bool :=
  decide ((st.stroke h.idx).gen = h.gen ∧ (st.stroke h.idx).state ≠ .free)

/-- The handle a wire handle names; none for an index above 4095. -/
def handleOf (w : WireHandle) : Option Handle :=
  if h : w.index.toNat < 4096 then some ⟨⟨w.index.toNat, h⟩, w.gen⟩ else none

/-- Decode one entry against the point before it in its block (R24, R25). -/
def decodeEntry (prev : Point) : Entry → Point
  | .abs x y w l => ⟨x, y, w, l⟩
  | .delta dx dy dw =>
    ⟨((prev.x : Int) + dx).toNat, ((prev.y : Int) + dy).toNat, ((prev.w : Int) + dw).toNat, false⟩

/-- Decode the entries of a block, first to last (R25). -/
def decodeFrom (prev : Point) : List Entry → List Point
  | [] => []
  | e :: es => decodeEntry prev e :: decodeFrom (decodeEntry prev e) es

/-- The points of a block. Its first entry is ABSOLUTE, so the point it is decoded against does not
matter (R23). -/
def decodeBlock (es : List Entry) : List Point := decodeFrom ⟨0, 0, 0, false⟩ es

/-- The points of a record in point-index order (R23). -/
def Store.points (st : Store) (i : RecIdx) : List Point :=
  (st.stroke i).chain.flatMap fun b => decodeBlock (st.block b)

/-- The entries of the last block of a record's chain. -/
def Store.lastBlock (st : Store) (i : RecIdx) : List Entry :=
  match (st.stroke i).chain.getLast? with
  | some b => st.block b
  | none => []

/-- The last stored entry of a record, decoded. -/
def Store.lastPoint (st : Store) (i : RecIdx) : Option Point :=
  (decodeBlock (st.lastBlock i)).getLast?

/-- The half-width ceil(w/2) (R70, R71). -/
def half (w : Nat) : Nat := (w + 1) / 2

/-- The square of a point, clamped to the canvas (R70). -/
def squareOf (x y w : Nat) : Box :=
  ⟨x - half w, min (x + half w) Config.maxX, y - half w, min (y + half w) Config.maxY⟩

/-- The smallest box that holds two boxes (R70, R136). -/
def Box.union (a b : Box) : Box :=
  ⟨min a.x0 b.x0, max a.x1 b.x1, min a.y0 b.y0, max a.y1 b.y1⟩

/-- Two boxes intersect, a shared edge counting (R170). -/
def Box.meets (a b : Box) : Bool :=
  decide (a.x0 ≤ b.x1 ∧ b.x0 ≤ a.x1 ∧ a.y0 ≤ b.y1 ∧ b.y0 ≤ a.y1)

/-- A point lies in a rectangle, bounds included (R170). -/
def Box.holds (b : Box) (p : Point) : Bool :=
  decide (b.x0 ≤ p.x ∧ p.x ≤ b.x1 ∧ b.y0 ≤ p.y ∧ p.y ≤ b.y1)

/-- The next member of a record's group in erase order: the record's group link (R9, R10). -/
def nextMember (h : Handle) : List Handle → Option Handle
  | [] => none
  | m :: ms => if m = h then ms.head? else nextMember h ms

/-- The group link of a stroke (R9): read from the member list of the queued group, or of the group
under reclaim, that holds it. -/
def groupLink (s : State) (h : Handle) : Option Handle :=
  (s.eraseQueue ++ s.maint.underReclaim.toList).findSome? fun g => nextMember h g.members

end Sys2Proof.Machine
end

