-- ==== Sys2Proof/Machine/Flags.lean ====
section
/-! DEFINITION. The flags of a stroke (R11) and how each is set, and the flag byte of R198. -/

namespace Sys2Proof.Machine

/-- The flags after a close: the flag of the cause joins them (R11, R16). -/
def StrokeFlags.closedBy (f : StrokeFlags) : CloseCause → StrokeFlags
  | .plain => f
  | .expired => { f with expired := true }
  | .cut => { f with cut := true }
  | .superseded => { f with superseded := true }
  | .split => { f with split := true }

/-- The flags after a point is stored: CLIPPED for a clamped point (R62), BROKEN for a point stored
after dropped points of a stroke that had entries (R63). -/
def StrokeFlags.stored (f : StrokeFlags) (clamped broken : Bool) : StrokeFlags :=
  { f with clipped := f.clipped || clamped, broken := f.broken || broken }

/-- The flag byte: bit 0 CLIPPED, 1 BROKEN, 2 TRUNCATED, 3 EXPIRED, 4 CUT, 5 SUPERSEDED, 6 ORPHAN,
7 SPLIT (R198). -/
def StrokeFlags.toByte (f : StrokeFlags) : Byte :=
  BitVec.ofNat 8
    (f.clipped.toNat + 2 * f.broken.toNat + 4 * f.truncated.toNat + 8 * f.expired.toNat
      + 16 * f.cut.toNat + 32 * f.superseded.toNat + 64 * f.orphan.toNat + 128 * f.split.toNat)

end Sys2Proof.Machine
end

