-- ==== Sys2Proof/Machine/Coding.lean ====
section
/-! DEFINITION. How values are coded in frames (R198): numbers most significant byte first, the coding
kinds of command parameters and result data, and the readers of command parameters. -/

namespace Sys2Proof.Machine

/-! ### Writing -/

/-- A number in 0..255. -/
def w8 (n : Nat) : Bytes := [BitVec.ofNat 8 n]

/-- A number in 0..65535. -/
def w16 (n : Nat) : Bytes := [BitVec.ofNat 8 (n / 256), BitVec.ofNat 8 n]

/-- A number in three bytes: a scale. -/
def w24 (n : Nat) : Bytes := BitVec.ofNat 8 (n / 65536) :: w16 n

/-- A number in four bytes: a limit. -/
def w32 (n : Nat) : Bytes := w16 (n / 65536) ++ w16 n

/-- A revision, group id or time: six bytes. -/
def w48 (r : BitVec 48) : Bytes := w16 (r.toNat / 4294967296) ++ w32 r.toNat

/-- A signed number in two bytes, two's complement: an offset. -/
def wi16 (i : Int) : Bytes := w16 (BitVec.ofInt 16 i).toNat

/-- A signed number in one byte, two's complement. -/
def wi8 (i : Int) : Bytes := [BitVec.ofInt 8 i]

/-- A handle: the record index in two bytes, then the generation. -/
def wHandle (h : Handle) : Bytes := w16 h.idx.val ++ [h.gen]

/-- A two-valued setting the manual lists as "true or false", "on or off", "up or down" or "set or
clear": its values numbered from 0 in that order (log entry 20). -/
def wFirst (isFirst : Bool) : Bytes := w8 (if isFirst then 0 else 1)

/-- A presence byte, 1 present or 0 absent; also a datum the manual words as "whether …" (log entry
20). -/
def wPresent (b : Bool) : Bytes := w8 b.toNat

/-- An optional value: a presence byte, then the value, sent as `size` zeros when absent. -/
def wOpt {α : Type} (size : Nat) (f : α → Bytes) : Option α → Bytes
  | none => w8 0 ++ List.replicate size 0
  | some a => w8 1 ++ f a

/-- A field sent as zeros when it is absent and whose presence a marks byte gives. -/
def wZero {α : Type} (size : Nat) (f : α → Bytes) : Option α → Bytes
  | none => List.replicate size 0
  | some a => f a

/-- A list: the item count in two bytes, then the items. -/
def wList {α : Type} (f : α → Bytes) (l : List α) : Bytes := w16 l.length ++ l.flatMap f

/-- A box: x0, x1, y0, y1, two bytes each. -/
def wBox (b : Box) : Bytes := w16 b.x0 ++ w16 b.x1 ++ w16 b.y0 ++ w16 b.y1

/-- A seat mask: bit n mod 8 of byte n div 8 for seat n. -/
def wSeatMask (m : BitVec 40) : Bytes :=
  ([0, 8, 16, 24, 32] : List Nat).map fun k => (m >>> k).setWidth 8

/-- The codes of the enumerations, each numbered from 0 in the order its rule lists its values. -/
def StrokeState.code : StrokeState → Nat
  | .free => 0
  | .opened => 1
  | .closed => 2
  | .erased => 3

/-- R198, STROKE_HEADER: 0 INK, 1 HIGHLIGHT. -/
def InkTool.code : InkTool → Nat
  | .ink => 0
  | .highlight => 1

/-- R198, NOTICE_LIST: 0 VACANT, 1 ADMITTED, 2 MUTED, 3 BARRED. -/
def SeatState.code : SeatState → Nat
  | .vacant => 0
  | .admitted => 1
  | .muted => 2
  | .barred => 3

/-- R31: board, tablet, console. -/
def Port.code : Port → Nat
  | .board => 0
  | .tablet => 1
  | .console => 2

/-- R31: CLAMP, DROP. -/
def Policy.code : Policy → Nat
  | .clamp => 0
  | .drop => 1

/-- R31: OWN, ANY. -/
def Scope.code : Scope → Nat
  | .own => 0
  | .any => 1

/-- R49: OPEN, FROZEN, RESETTING. -/
def ClassState.code : ClassState → Nat
  | .opened => 0
  | .frozen => 1
  | .resetting => 2

/-- R137: IDLE, WALKING, WAITING, DONE. -/
def WalkState.code : WalkState → Nat
  | .idle => 0
  | .walking => 1
  | .waiting => 2
  | .done => 3

/-- R198, WALK_DONE. -/
def WalkMode.code : WalkMode → Nat
  | .sweepLayer => 0
  | .sweepPage => 1
  | .sweepAll => 2
  | .follow => 3
  | .fetch => 4
  | .resume => 5

/-- R198, WALK_DONE: 1 END to 9 REFUSED. -/
def EndStatus.code : EndStatus → Nat
  | .finished => 1
  | .limit => 2
  | .timeout => 3
  | .overrun => 4
  | .stopped => 5
  | .superseded => 6
  | .reset => 7
  | .gone => 8
  | .refused => 9

/-- R198, WALK_DONE. -/
def Reason.code : Reason → Nat
  | .none => 0
  | .range => 1
  | .state => 2
  | .resetting => 3

/-- R198, JOURNAL_ENTRY: 1 OPENED to 8 CLASS_RESET. -/
def EntryKind.code : EntryKind → Nat
  | .opened => 1
  | .extended => 2
  | .closed => 3
  | .erased => 4
  | .restored => 5
  | .layerRefresh => 6
  | .pageShown => 7
  | .classReset => 8

/-- R198, REPLY. -/
def Result.code : Result → Nat
  | .ok => 0
  | .accepted => 1
  | .busy => 2
  | .unknown => 3
  | .range => 4
  | .state => 5
  | .denied => 6
  | .nothing => 7
  | .full => 8
  | .gone => 9

/-- R167: DISARMED, ARMED, FIRED. -/
def WatchState.code : WatchState → Nat
  | .disarmed => 0
  | .armed => 1
  | .fired => 2

/-- R167: ALL, ANY. -/
def Combine.code : Combine → Nat
  | .all => 0
  | .any => 1

/-- R172, in the order of its table. -/
def FaultKind.code : FaultKind → Nat
  | .badFrame => 0
  | .unknownKind => 1
  | .badSeat => 2
  | .notAdmitted => 3
  | .denied => 4
  | .tableFull => 5
  | .poolEmpty => 6
  | .intakeOverflow => 7

/-- The number of a link, in a READ FAULT record and by place in the per-link counters: Board, Tablet,
Console, Display, as Chapter 10 lists them; R198 numbers by the rule's own list, and neither R172 nor R173
lists the links (DEDUCED, log entry 22). -/
def linkCode : Link → Nat
  | .board => 0
  | .tablet => 1
  | .console => 2
  | .display => 3

/-! ### Reading command parameters -/

/-- A reader of parameters: the value and the bytes after it, or none where the bytes do not fit. -/
abbrev Reader (α : Type) := Bytes → Option (α × Bytes)

/-- One byte. -/
def r8 : Reader Byte
  | b :: r => some (b, r)
  | [] => none

/-- A number in two bytes. -/
def r16 : Reader Nat
  | a :: b :: r => some (a.toNat * 256 + b.toNat, r)
  | _ => none

/-- A number in three bytes. -/
def r24 : Reader Nat
  | a :: b :: c :: r => some (a.toNat * 65536 + b.toNat * 256 + c.toNat, r)
  | _ => none

/-- A number in four bytes. -/
def r32 : Reader Nat := fun bs => do
  let (a, r) ← r16 bs
  let (b, r) ← r16 r
  some (a * 65536 + b, r)

/-- A 48-bit number. -/
def r48 : Reader (BitVec 48) := fun bs => do
  let (a, r) ← r16 bs
  let (b, r) ← r32 r
  some (BitVec.ofNat 48 (a * 4294967296 + b), r)

/-- A signed number in two bytes. -/
def ri16 : Reader Int := fun bs => do
  let (a, r) ← r16 bs
  some ((BitVec.ofNat 16 a).toInt, r)

/-- A handle as sent. -/
def rHandle : Reader WireHandle := fun bs => do
  let (a, r) ← r16 bs
  let (g, r) ← r8 r
  some (⟨BitVec.ofNat 16 a, g⟩, r)

/-- A raw point. -/
def rPoint : Reader RawPoint := fun bs => do
  let (x, r) ← r16 bs
  let (y, r) ← r16 r
  let (p, r) ← r16 r
  some (⟨BitVec.ofNat 16 x, BitVec.ofNat 16 y, BitVec.ofNat 16 p⟩, r)

/-- `n` raw points. -/
def rPoints : Nat → Reader (List RawPoint)
  | 0, bs => some ([], bs)
  | n + 1, bs => do
    let (p, r) ← rPoint bs
    let (ps, r) ← rPoints n r
    some (p :: ps, r)

/-- An enumerated value of `k` codes; a code outside them does not fit (R198). -/
def rEnum (k : Nat) : Reader Nat := fun bs => do
  let (b, r) ← r8 bs
  if b.toNat < k then some (b.toNat, r) else none

/-- A two-valued setting, the first of its listed values being code 0. -/
def rFirst : Reader Bool := fun bs => do
  let (c, r) ← rEnum 2 bs
  some (decide (c = 0), r)

/-- A set of `w` members in one byte; a bit beyond them does not fit (log entry 21). -/
def rSet8 (w : Nat) : Reader (BitVec w) := fun bs => do
  let (b, r) ← r8 bs
  if b.toNat < 2 ^ w then some (BitVec.ofNat w b.toNat, r) else none

/-- A set of `w` members in two bytes. -/
def rSet16 (w : Nat) : Reader (BitVec w) := fun bs => do
  let (n, r) ← r16 bs
  if n < 2 ^ w then some (BitVec.ofNat w n, r) else none

/-- A seat mask. -/
def rSeatMask : Reader (BitVec 40)
  | a :: b :: c :: d :: e :: r =>
    some (BitVec.ofNat 40 (a.toNat + 256 * (b.toNat + 256 * (c.toNat + 256 * (d.toNat + 256 * e.toNat)))), r)
  | _ => none

/-- An optional value of `size` bytes: its presence byte, 1 or 0 and nothing else, then the value;
the bytes of an absent value are not read (log entry 21). -/
def rOpt {α : Type} (size : Nat) (f : Reader α) : Reader (Option α) := fun bs => do
  let (p, r) ← r8 bs
  if p = 1 then
    let (a, r) ← f r
    some (some a, r)
  else if p = 0 ∧ size ≤ r.length then some (none, r.drop size)
  else none

/-- A sweep form: LAYER (page, layer), PAGE (page, layer mask) or ALL (start page, layer mask). -/
def rForm : Reader SweepForm := fun bs => do
  let (k, r) ← rEnum 3 bs
  let (p, r) ← r8 r
  if k = 0 then
    let (l, r) ← r8 r
    some (.layer p l, r)
  else
    let (m, r) ← rSet8 4 r
    some (if k = 1 then .page p m else .all p m, r)

/-- A reader that must use up its bytes: a payload length other than its kind's does not fit (R192,
R198). -/
def readAll {α : Type} (f : Reader α) (bs : Bytes) : Option α :=
  match f bs with
  | some (a, []) => some a
  | _ => none

end Sys2Proof.Machine
end

