-- ==== Sys2Proof/Machine/Arbiter.lean ====
section
/-! DEFINITION. The Store Access Arbiter (Chapter 6): who requests, who wins a grant decision, and what
a decision does to the arbiter's own state. Also the reclaimer's stall conditions (R115), which
decide whether the Maintenance Unit requests. -/

namespace Sys2Proof.Machine

/-- The pin: the bound of a WALKING snapshot (R163). -/
def pin (s : State) : Option Rev :=
  match s.snapshot.state with
  | .walking => s.snapshot.bound
  | _ => none

/-- The reclaim demand is active (R114). -/
def demandActive (s : State) : Bool :=
  s.maint.poolDemand || s.maint.tableDemand || s.maint.tableFull

/-- A group is held back by the pin: its last erase revision is above it (R115). -/
def heldByPin (s : State) (g : EraseGroup) : Bool :=
  match pin s with
  | some p => revAbove g.lastRev p
  | none => false

/-- The head group of the Erase Queue, if it can be taken (R115). -/
def takeableHead (s : State) : Option EraseGroup :=
  match s.eraseQueue with
  | [] => none
  | g :: _ =>
    if g.isOpen || heldByPin s g || decide (s.cls.state = .resetting) then none else some g

/-- The Maintenance Unit has reclaim work (R115). -/
def reclaimWork (s : State) : Bool :=
  s.maint.underReclaim.isSome || (demandActive s && (takeableHead s).isSome)

/-- A seat has cut-due true (R97). -/
def anyCutDue (s : State) : Bool := allSeats.any fun n => (s.seat n).cutDue

/-- The place of a requester in the fixed order, from 0 (R118). -/
def Requester.ix : Requester → Nat
  | .console => 0
  | .board => 1
  | .display => 2
  | .tablet => 3
  | .snapshot => 4
  | .maintenance => 5

/-- The flag bit of a requester. -/
def Requester.bit (r : Requester) : BitVec 6 := BitVec.twoPow 6 r.ix

/-- The power-on clearance stands at the head of the console queue and has had no grant (R56, R119). -/
def unstarted (s : State) : Bool :=
  match s.consoleQueue with
  | .clearance false :: _ => true
  | _ => false

/-- A clearance is past its first grant: the class is RESETTING for it (R53, R119). -/
def clearanceRuns (s : State) : Bool := decide (s.cls.state = .resetting) && !unstarted s

/-- The Console Command Unit requests: during a clearance without a reply slot, for the power-on
clearance without one, else with a free reply slot (R118, R119). -/
def consoleRequests (s : State) : Bool :=
  match s.consoleQueue with
  | [] => false
  | .clearance _ :: _ => true
  | .cmd _ _ _ :: _ => decide (s.cls.state = .resetting) || decide (0 < replySlotsFree s)

/-- A requester's request stands (R118, R119). -/
def requests (s : State) : Requester → Bool
  | .console => consoleRequests s
  | .board => !s.boardQueue.isEmpty
  | .display => decide (s.display.state = .walking) && decide (Config.burst ≤ displayFree s)
  | .tablet => !s.tabletQueue.isEmpty
  | .snapshot => decide (s.snapshot.state = .walking) && decide (Config.burst ≤ shareFree s)
  | .maintenance =>
    decide (s.cls.state ≠ .resetting) && (anyCutDue s || decide (s.maint.due ≠ 0) || reclaimWork s)

/-- The order decisions are made in: the console's place is 1, and 7 for the later grants of a
clearance (R118, R119). -/
def requestOrder (s : State) : List Requester :=
  if clearanceRuns s then [.board, .display, .tablet, .snapshot, .maintenance, .console]
  else [.console, .board, .display, .tablet, .snapshot, .maintenance]

/-- A requester is elevated (R124). -/
def isElevated (s : State) (r : Requester) : Bool := decide (s.arbiter.elevated &&& r.bit ≠ 0)

/-- The winner of a grant decision at this state: the first elevated requester, else the first
requester (R120, R126). -/
def winner (s : State) : Option Requester :=
  match (requestOrder s).find? fun r => requests s r && isElevated s r with
  | some r => some r
  | none => (requestOrder s).find? fun r => requests s r

/-- The requesters whose request stands, as a flag set. -/
def requestSet (s : State) : BitVec 6 :=
  (requestOrder s).foldl (fun m r => if requests s r then m ||| r.bit else m) 0

/-- What a grant decision does to the arbiter (R125): the winner's flags are cleared, the grant is counted
while protection is enabled, and a sample is taken when the counter reaches SP. No frame arrives any longer
in the transaction before it; what one meets that arrives in this grant's is what stands now (R48, R159, log
entry 6). -/
def decideGrant (s : State) (r : Requester) : State :=
  let w := s.arbiter.waiting &&& ~~~r.bit
  let e := s.arbiter.elevated &&& ~~~r.bit
  let s := { s with
    commandGrant := none
    noticeBasis := some { queue := s.noticeQueue.map fun n => (n, noticeItem s n) }
    burstGrant := decide (r = Requester.display) }
  if s.arbiter.enabled then
    if s.arbiter.period ≤ s.arbiter.counter + 1 then
      let q := requestSet s &&& ~~~r.bit
      { s with arbiter := { s.arbiter with counter := 0, elevated := e ||| (q &&& w), waiting := q } }
    else
      { s with arbiter := { s.arbiter with counter := s.arbiter.counter + 1, elevated := e, waiting := w } }
  else { s with arbiter := { s.arbiter with elevated := e, waiting := w } }

/-- Withdrawals: a requester whose request does not stand loses both flags (R126). -/
def settle (s : State) : State :=
  { s with arbiter := { s.arbiter with
      waiting := s.arbiter.waiting &&& requestSet s
      elevated := s.arbiter.elevated &&& requestSet s } }

/-- A requester withdraws in an event after which its request may stand anew (R126, R141). -/
def withdraw (s : State) (r : Requester) : State :=
  { s with arbiter := { s.arbiter with
      waiting := s.arbiter.waiting &&& ~~~r.bit
      elevated := s.arbiter.elevated &&& ~~~r.bit } }

end Sys2Proof.Machine
end

