-- ==== Sys2Proof/Machine/Contexts.lean ====
section
/-! DEFINITION. How a walk of a scan context ends, wakes or is lapped (R140, R141, R151 to R153). Every
unit can cause one of these, so they stand below the transaction. -/

namespace Sys2Proof.Machine

/-- The three sweep forms (R137). -/
def WalkMode.isSweep : WalkMode → Bool
  | .sweepLayer | .sweepPage | .sweepAll => true
  | _ => false

/-- The resume revision of a follow (R153). A follow that ended STOPPED or SUPERSEDED between two bursts,
with chunks of its last entry still owed, has that entry's revision as its cursor (R150), so that a FOLLOW
from the resume revision does not send those chunks again, although R160 speaks of no gap (DEDUCED, log
entry 45). -/
def resumeRev (c : ScanCtx) : Rev :=
  match c.cursor with
  | none => c.start
  | some k => if k.complete then k.rev else prevRev k.rev

/-- The WALK_DONE of a walk that ends (R139, R160). -/
def doneRecord (c : ScanCtx) (st : EndStatus) (why : Reason) : DoneRecord :=
  { status := st
    reason := why
    mode := c.mode
    bound := if c.mode.isSweep then c.bound else none
    resume := if c.mode = .follow then some (resumeRev c) else none
    remaining := c.limit.getD 0 }

/-- The context after its walk has ended: DONE, the item in transit and the deadline dropped
(R141). -/
def endCtx (c : ScanCtx) (st : EndStatus) (why : Reason) : ScanCtx :=
  { c with state := .done, endStatus := some (st, why), transit := none, deadline := none }

/-- A walk is running: WALKING or WAITING (R140). -/
def ScanCtx.running (c : ScanCtx) : Bool := decide (c.state = .walking ∨ c.state = .waiting)

/-- The display walk ends with a WALK_DONE (R141). -/
def endDisplay (s : State) (st : EndStatus) (why : Reason) : State :=
  withdraw
    { s with
      display := endCtx s.display st why
      displayOut := s.displayOut ++ [⟨s.display.tag, .done (doneRecord s.display st why)⟩] }
    .display

/-- The snapshot walk ends with a WALK_DONE and latches SNAPSHOT_DONE; its pin is released with it
(R141, R165). -/
def endSnapshot (s : State) (st : EndStatus) : State :=
  latch
    (withdraw
      { s with
        snapshot := endCtx s.snapshot st .none
        consoleOut :=
          s.consoleOut ++ [.scan ⟨s.snapshot.tag, .done (doneRecord s.snapshot st .none)⟩] }
      .snapshot)
    .snapshotDone

/-- A committed entry above the cursor returns a WAITING follow to WALKING and drops its deadline
(R151). -/
def wakeFollow (s : State) (written : List ChangeEntry) : State :=
  match s.display.state, s.display.cursor with
  | .waiting, some k =>
    if written.any fun e => revAbove e.rev k.rev then
      { s with display := { s.display with state := .walking, deadline := none } }
    else s
  | _, _ => s

/-- A follower with this cursor is lapped: L is above the cursor, or equals it with the revision not
completely sent (R152). -/
def lappedAt (lost : Rev) (k : Cursor) : Bool :=
  revAbove lost k.rev || (decide (lost = k.rev) && !k.complete)

/-- The follower of the display context is lapped (R152). -/
def lapped (s : State) : Bool := s.display.cursor.any (lappedAt s.journal.lost)

/-- A running follow that is lapped ends with OVERRUN (R152). -/
def lapFollow (s : State) : State :=
  if s.display.running && decide (s.display.mode = .follow) && lapped s then
    endDisplay s .overrun .none
  else s

end Sys2Proof.Machine
end

