-- ==== Sys2Proof/Machine/Journal.lean ====
section
/-! DEFINITION. The Change Journal (section 7.1), the 8-entry rule (R104, R135), the merge rule (R136)
and the Region Watch unit (Chapter 9), which is handed a transaction's entries at its commit. -/

namespace Sys2Proof.Machine

/-! ### The 8-entry rule -/

/-- ERASED and RESTORED entries, which refresh entries may replace (R104). -/
def EntryKind.isErase : EntryKind → Bool
  | .erased | .restored => true
  | _ => false

/-- The page-layers of a list of entries, each once, in ascending page and then layer (R104). -/
def pageLayers (es : List ChangeEntry) : List (PageNo × LayerNo) :=
  (List.finRange 16).flatMap fun p =>
    ((List.finRange 4).filter fun l =>
      es.any fun e => decide (e.page = some p ∧ e.layer = some l)).map fun l => (p, l)

/-- The pages of a list of entries, each once, ascending. -/
def pagesOf (es : List ChangeEntry) : List PageNo :=
  (List.finRange 16).filter fun p => es.any fun e => decide (e.page = some p)

/-- A LAYER_REFRESH entry: it carries revision and time, and no handle, seat, group or box (R104). -/
def refreshEntry (rev : Rev) (time : Time) (page : Option PageNo) (layer : Option LayerNo) :
    ChangeEntry :=
  { kind := .layerRefresh, rev := rev, time := time, page := page, layer := layer }

/-- The refresh entries of a list, one per page-layer. -/
def refreshLayers (rev : Rev) (time : Time) (es : List ChangeEntry) : List ChangeEntry :=
  (pageLayers es).map fun pl => refreshEntry rev time (some pl.1) (some pl.2)

/-- The refresh entries of a list, one per page, the layer absent. -/
def refreshPages (rev : Rev) (time : Time) (es : List ChangeEntry) : List ChangeEntry :=
  (pagesOf es).map fun p => refreshEntry rev time (some p) none

/-- The one refresh entry that means every page; none for an empty list. -/
def refreshAll (rev : Rev) (time : Time) (es : List ChangeEntry) : List ChangeEntry :=
  if es.isEmpty then [] else [refreshEntry rev time none none]

/-- The refresh entries at one width, with the drawing entries before them where both fit within 8,
else alone and covering the drawing entries too (R104); none where even those do not fit. -/
def refreshAt (wide : List ChangeEntry → List ChangeEntry) (es : List ChangeEntry) :
    Option (List ChangeEntry) :=
  let drawn := es.filter fun e => !e.kind.isErase
  let beside := drawn ++ wide (es.filter fun e => e.kind.isErase)
  if beside.length ≤ Config.maxEntries then some beside
  else if (wide es).length ≤ Config.maxEntries then some (wide es)
  else none

/-- The entries a transaction writes for the entries its operations call for (R104, R135): at most 8,
else refresh entries by layer, by page, or one for the store. -/
def eightEntryRule (rev : Rev) (time : Time) (es : List ChangeEntry) : List ChangeEntry :=
  if es.length ≤ Config.maxEntries then es
  else
    match refreshAt (refreshLayers rev time) es with
    | some r => r
    | none =>
      match refreshAt (refreshPages rev time) es with
      | some r => r
      | none => (refreshAt (refreshAll rev time) es).getD []

/-! ### Writing and merging -/

/-- Append one entry. A journal of 512 entries first loses its oldest entry with every other entry of
that revision, and L becomes that revision (R134). -/
def Journal.append (j : Journal) (e : ChangeEntry) : Journal :=
  if j.entries.length < Config.journalSize then { j with entries := j.entries ++ [e] }
  else
    match j.entries with
    | [] => { j with entries := [e] }
    | old :: _ =>
      { entries := j.entries.dropWhile (fun x => decide (x.rev = old.rev)) ++ [e], lost := old.rev }

/-- The newest entry of the journal, when it is an EXTENDED entry of the handle and the only entry of
its revision (R136). -/
def mergeTarget (j : Journal) (h : Option Handle) : Option ChangeEntry :=
  match j.entries.getLast? with
  | some e =>
    if e.kind = .extended ∧ e.handle = h ∧ (j.entries.countP fun x => decide (x.rev = e.rev)) = 1 then
      some e
    else none
  | none => none

/-- The union of two optional change boxes. -/
def unionBox : Option Box → Option Box → Option Box
  | some a, some b => some (a.union b)
  | some a, none => some a
  | none, b => b

/-- The newest entry with a new EXTENDED entry folded in (R136). -/
def mergeEntry (old new : ChangeEntry) : ChangeEntry :=
  { old with
    count := some (old.count.getD 0 + new.count.getD 0)
    box := unionBox old.box new.box
    flags := new.flags
    rev := new.rev
    time := new.time }

/-- Write a transaction's list: merged when it is one EXTENDED entry that fits the merge rule, else
appended entry by entry (R134, R136). -/
def Journal.write (j : Journal) (es : List ChangeEntry) : Journal :=
  match es with
  | [e] =>
    match (if e.kind = .extended then mergeTarget j e.handle else none) with
    | some old => { j with entries := j.entries.dropLast ++ [mergeEntry old e] }
    | none => j.append e
  | _ => es.foldl Journal.append j

/-! ### Region Watch (section 9.2) -/

/-- The bit of an entry kind in a kind mask; RESTORED, LAYER_REFRESH, PAGE_SHOWN and CLASS_RESET have
none and are never tested (R169). -/
def EntryKind.watchBit : EntryKind → Option Nat
  | .opened => some 0
  | .extended => some 1
  | .closed => some 2
  | .erased => some 3
  | _ => none

/-- The points of an entry the region condition judges: index 0 for OPENED, the transaction's new
points for EXTENDED, with their point indices (R170). -/
def judgedPoints (st : Store) (e : ChangeEntry) : List (Point × Nat) :=
  match e.handle with
  | none => []
  | some h =>
    let all := (st.points h.idx).zipIdx
    match e.kind with
    | .opened => all.take 1
    | .extended => (all.drop (e.first.getD 0)).take (e.count.getD 0)
    | _ => []

/-- The first judged point in the rectangle, in point-index order (R170, R171). -/
def regionPoint (st : Store) (w : Watch) (e : ChangeEntry) : Option (Point × Nat) :=
  (judgedPoints st e).find? fun p => w.rect.holds p.1

/-- The region condition (R170). -/
def regionHolds (st : Store) (w : Watch) (e : ChangeEntry) : Bool :=
  match e.kind with
  | .opened | .extended => (regionPoint st w e).isSome
  | _ =>
    match e.box with
    | some b => b.meets w.rect
    | none => false

/-- The seat condition (R170). -/
def seatHolds (w : Watch) (e : ChangeEntry) : Bool :=
  match e.seat with
  | some n => w.seats.getLsbD n.val
  | none => false

/-- The entry is tested at all: its kind, page and layer (R169). -/
def isTested (w : Watch) (e : ChangeEntry) : Bool :=
  e.kind.watchBit.isSome && decide (e.page = some w.page) &&
    match e.layer with
    | some l => inMask w.layers l
    | none => false

/-- The kind condition (R170). -/
def kindHolds (w : Watch) (e : ChangeEntry) : Bool :=
  match e.kind.watchBit with
  | some b => w.kinds.getLsbD b
  | none => false

/-- The entry matches the watch: its enabled conditions, combined; with none enabled, nothing matches
(R171). -/
def watchMatches (st : Store) (w : Watch) (e : ChangeEntry) : Bool :=
  isTested w e &&
    match w.combine with
    | .all =>
      (w.onRegion || w.onSeat || w.onKind) && (!w.onRegion || regionHolds st w e)
        && (!w.onSeat || seatHolds w e) && (!w.onKind || kindHolds w e)
    | .any =>
      (w.onRegion && regionHolds st w e) || (w.onSeat && seatHolds w e) || (w.onKind && kindHolds w e)

/-- The capture of a match (R171). -/
def captureOf (st : Store) (w : Watch) (e : ChangeEntry) : Option Capture :=
  match e.seat, e.handle with
  | some n, some h =>
    let p := if w.onRegion then regionPoint st w e else none
    some
      { rev := e.rev, time := e.time, seat := n, handle := h, kind := e.kind, point := p
        box := if p.isSome then none else e.box }
  | _, _ => none

/-- One watch is handed a transaction's entries: an ARMED watch fires at the first match (R171). -/
def fireWatch (es : List ChangeEntry) (s : State) (n : Fin 4) : State :=
  let w := s.watches[n.val]
  if w.state = .armed then
    match es.find? (watchMatches s.store w) with
    | some e =>
      let fired := updAt s.watches n fun w =>
        { w with state := .fired, capture := captureOf s.store w e }
      latch { s with watches := fired } (watchSource n)
    | none => s
  else s

/-- All four watches are handed a transaction's entries (R169). -/
def fireWatches (es : List ChangeEntry) (s : State) : State :=
  (List.finRange 4).foldl (fireWatch es) s

end Sys2Proof.Machine
end

