-- ==== Sys2Proof/Machine/Transaction.lean ====
section
/-! DEFINITION. A store transaction (R4 to R6): the state it has reached, the change entries its
operations have called for, and its commit. -/

namespace Sys2Proof.Machine

/-- A change entry a store operation calls for (R103, R133). What an entry reports "at commit" is read
from the store there. -/
inductive Call where
  | opened (h : Handle) (count : Nat)
  | extended (h : Handle) (first count : Nat) (box : Box)
  | closed (h : Handle)
  | erased (h : Handle) (g : Rev)
  | restored (h : Handle) (g : Rev)
  | pageShown (p : PageNo)
  | classReset
  deriving DecidableEq, Repr

/-- A transaction under way. `base` is the state its grant decision left, `calls` the entries called
for, newest first. `stored`, `lost`, `noRecord` and `closed` are what ADD POINTS and END STROKE
report (R87): the points stored, the points lost to refusals, whether a record was refused, and the
stroke closed last. -/
structure Tx where
  base : State
  st : State
  calls : List Call := []
  stored : Nat := 0
  lost : Nat := 0
  noRecord : Bool := false
  closed : Option Handle := none
  deriving DecidableEq, Repr

/-- The start of a transaction. -/
def Tx.start (s : State) : Tx := { base := s, st := s }

/-- Apply an operation of the state. -/
def Tx.on (t : Tx) (f : State → State) : Tx := { t with st := f t.st }

/-- Call for a change entry. -/
def Tx.call (t : Tx) (c : Call) : Tx := { t with calls := c :: t.calls }

/-- The revision value of the transaction (R5, R6). -/
def Tx.rev (t : Tx) : Rev := nextRev t.base.store.rev

/-- The time value of the transaction: the Timebase count at its decision (R6, R129). -/
def Tx.time (t : Tx) : Time := t.base.timebase

/-- The revision taken, or 0 when the transaction calls for no entry (R5). -/
def Tx.revTaken (t : Tx) : Rev := if t.calls.isEmpty then 0 else t.rev

/-- The change entry of a drawing, erase or restore operation on a stroke, as the store stands
(R133). -/
def strokeEntry (st : Store) (rev : Rev) (time : Time) (k : EntryKind) (h : Handle) : ChangeEntry :=
  let r := st.stroke h.idx
  { kind := k, rev := rev, time := time, page := some r.page, layer := some r.layer
    handle := some h, seat := some r.owner, box := some r.box }

/-- The change entry a call becomes at commit (R103, R133). -/
def Call.entry (st : Store) (rev : Rev) (time : Time) : Call → ChangeEntry
  | .opened h n =>
    let r := st.stroke h.idx
    { strokeEntry st rev time .opened h with
      tool := some r.tool, colour := some r.colour, pred := r.pred
      first := some 0, count := some n, flags := some r.flags }
  | .extended h f n b =>
    { strokeEntry st rev time .extended h with
      first := some f, count := some n, flags := some (st.stroke h.idx).flags, box := some b }
  | .closed h => { strokeEntry st rev time .closed h with flags := some (st.stroke h.idx).flags }
  | .erased h g => { strokeEntry st rev time .erased h with group := some g }
  | .restored h g => { strokeEntry st rev time .restored h with group := some g }
  | .pageShown p => { kind := .pageShown, rev := rev, time := time, page := some p }
  | .classReset => { kind := .classReset, rev := rev, time := time }

/-- The entries a transaction's operations call for, in order (R89, R103). -/
def Tx.entries (t : Tx) : List ChangeEntry :=
  t.calls.reverse.map (Call.entry t.st.store t.rev t.time)

/-- The pool and table demands tested against their limits; between the limits a demand keeps its
value (R114). -/
def testDemands (s : State) : State :=
  let free := s.store.freeBlocks.size
  let recs := s.store.freeRecs.size
  let r := s.cls.options.reserve
  let pool :=
    if free ≤ r then true else if r + Config.poolRelief ≤ free then false else s.maint.poolDemand
  let table :=
    if recs ≤ Config.tableLow then true
    else if Config.tableHigh ≤ recs then false
    else s.maint.tableDemand
  { s with maint := { s.maint with poolDemand := pool, tableDemand := table } }

/-- The demands are tested at the end of a transaction that changes the free count, the free-record
count or R (R114). -/
def demandsAfter (base s : State) : State :=
  if base.store.freeBlocks.size = s.store.freeBlocks.size
      ∧ base.store.freeRecs.size = s.store.freeRecs.size
      ∧ base.cls.options.reserve = s.cls.options.reserve then s
  else testDemands s

/-- The entries written and the revision taken (R5, R134 to R136), with the follow woken or lapped
(R151, R152). -/
def publish (rev : Rev) (written : List ChangeEntry) (s : State) : State :=
  let j := s.journal.write written
  let s' := wakeFollow { s with journal := j, store := { s.store with rev := rev } } written
  if j.lost = s.journal.lost then s' else lapFollow s'

/-- Commit: the watches are handed the entries called for, the journal is written under the 8-entry
and merge rules, and the reclaim demands are tested (R5, R114, R135, R136, R169). -/
def Tx.commit (t : Tx) : State :=
  let s :=
    if t.calls.isEmpty then t.st
    else publish t.rev (eightEntryRule t.rev t.time t.entries) (fireWatches t.entries t.st)
  demandsAfter t.base s

end Sys2Proof.Machine
end

