-- ==== Sys2Proof/Machine/Console.lean ====
section
/-! DEFINITION. The grant of the Console Command Unit (R118, R122, R192, R193): when the head command is
served, how its parameters are read, and where its reply goes. -/

namespace Sys2Proof.Machine

/-- The tag and parameters of the head command, when a console grant for the command of this code is
the arbiter's decision now (R118, R120). While the class is RESETTING the head is a clearance under
way (R53). -/
def consoleGrant (s : State) (code : Byte) : Option (Byte × Bytes) :=
  if winner s = some .console ∧ s.cls.state ≠ .resetting then
    match s.consoleQueue with
    | .cmd tag c params :: _ => if c = code then some (tag, params) else none
    | _ => none
  else none

/-- Place a reply in its reply slot (R192, R193). -/
def placeReply (s : State) (r : Reply) : State := { s with consoleOut := s.consoleOut ++ [.reply r] }

/-- A single-grant command leaves the queue when its transaction ends and its reply is placed
(R122). -/
def finishCommand (s : State) (r : Reply) : State :=
  settle (placeReply
    { s with consoleQueue := s.consoleQueue.tail, commandGrant := some { left := true, replied := true } } r)

/-- What a command does under its grant: its transaction, its result and its result data. -/
abbrev Served := Tx × Result × Bytes

/-- One grant of the command of this code (R122, R192): parameters that do not fit its format are
answered RANGE without data or other effect; else `body` is its transaction. Where no such grant is
the arbiter's decision, nothing happens. -/
def serveCommand {α : Type} (code : Byte) (format : Reader α) (body : α → Tx → Served) (s : State) :
    State :=
  match consoleGrant s code with
  | none => s
  | some (tag, params) =>
    let d := decideGrant s .console
    match readAll format params with
    | none => finishCommand d ⟨tag, code, .range, []⟩
    | some a =>
      match body a (Tx.start d) with
      | (t, result, data) => finishCommand t.commit ⟨tag, code, result, data⟩

/-- No parameters. -/
def rNone : Reader Unit := fun bs => some ((), bs)

/-- A reply that changes nothing (RANGE, STATE, NOTHING and the like). -/
def Tx.answer (t : Tx) (r : Result) (data : Bytes := []) : Served := (t, r, data)

end Sys2Proof.Machine
end

