-- ==== Sys2Proof/WellFormed.lean ====
section
/-! DEFINITION. Which command terms are frames that can ARRIVE (R185): the types of the operands rule
out every other misfit, so two checks remain, the point count of a POINTS frame and the payload
length of a COMMAND frame. A term that fails one is a frame that fails the format or the length
check: the machine gives it the effect of BAD_FRAME. UNKNOWN_KIND has a check of its own: the kind
must be one its link does not accept (R186). -/

namespace Sys2Proof

/-- The kinds a link accepts, by code (R186, R198). -/
def acceptedKinds : Link → List Byte
  | .board => [0x10#8, 0x7F#8]
  | .tablet => [0x20#8, 0x21#8, 0x22#8, 0x23#8, 0x24#8, 0x25#8, 0x7F#8]
  | .console => [0x30#8, 0x7F#8]
  | .display => [0x40#8, 0x41#8, 0x42#8, 0x43#8, 0x44#8, 0x7F#8]

/-- A POINTS frame carries 1 to 24 points; the other tablet frames fit by their types (R198). -/
def TabletFrame.wellFormed : TabletFrame → Bool
  | .points _ _ pts => decide (1 ≤ pts.length ∧ pts.length ≤ 24)
  | _ => true

/-- The commands a link or the part itself can present (R185, R186, R198). -/
def Instr.wellFormed : Instr → Bool
  | .tabletFrameArrival _ f _ => f.wellFormed
  | .command _ _ params => decide (params.length + 1 ≤ Config.maxPayload)
  | .unknownKind l k _ => !(acceptedKinds l).contains k
  | _ => true

end Sys2Proof
end

