-- ==== Sys2Proof/Machine/Frames.lean ====
section
/-! DEFINITION. The Link Interface at the level of bytes (sections 10.1, 10.2 and 10.8): the CRC, the
frame, the payloads of the outbound frames, the format check of the inbound ones, and how the inbound
stream of one transfer spells the commands that arrive. -/

namespace Sys2Proof.Machine

/-! ### CRC and frame (R184) -/

/-- One shift of the CRC register: generator x^16 + x^12 + x^5 + 1. -/
def crcShift (c : BitVec 16) : BitVec 16 :=
  if c.msb then (c <<< 1) ^^^ 0x1021#16 else c <<< 1

/-- The CRC register after one more byte, most significant bit first. -/
def crcByte (c : BitVec 16) (b : Byte) : BitVec 16 :=
  let c := c ^^^ (b.setWidth 16 <<< 8)
  crcShift (crcShift (crcShift (crcShift (crcShift (crcShift (crcShift (crcShift c)))))))

/-- The CRC of a run of bytes: register preset to FFFFh, no inversion of the result. -/
def crc16 (bs : Bytes) : BitVec 16 := bs.foldl crcByte 0xFFFF#16

/-- A frame: sync, kind, tag, payload length, payload, CRC high byte first (R184). -/
def frameBytes (kind tag : Byte) (payload : Bytes) : Bytes :=
  let body := kind :: tag :: w16 payload.length ++ payload
  Config.sync :: body ++ w16 (crc16 body).toNat

/-! ### Outbound payloads (R198) -/

/-- A point entry in five bytes. -/
def wEntry : Entry → Bytes
  | .abs x y w l => w8 ((if l then 64 else 0) + x / 256) ++ w8 x ++ w8 (y / 256) ++ w8 y ++ w8 w
  | .delta dx dy dw => w8 0x80 ++ wi8 dx ++ wi8 dy ++ wi8 dw ++ w8 0

/-- The payload of a STROKE_HEADER. -/
def wHeader (r : HeaderRecord) : Bytes :=
  wHandle r.handle ++ w8 r.owner.val ++ w8 r.page.val ++ w8 r.layer.val ++ w8 r.tool.code
    ++ w8 r.colour.val ++ w8 (r.state.code - 1) ++ [r.flags.toByte] ++ w16 r.count ++ wBox r.box
    ++ w48 r.openRev ++ w48 r.lastRev
    ++ w8 (r.pred.isSome.toNat + 2 * r.erase.isSome.toNat + 4 * r.afterBound.toNat)
    ++ wZero 3 wHandle r.pred ++ wZero 6 (fun e => w48 e.1) r.erase ++ wZero 6 (fun e => w48 e.2) r.erase

/-- The payload of a JOURNAL_ENTRY. -/
def wJournal (e : ChangeEntry) (gone : Bool) : Bytes :=
  w48 e.rev ++ w48 e.time ++ w8 e.kind.code
    ++ w8 (e.page.isSome.toNat + 2 * e.layer.isSome.toNat + 4 * e.handle.isSome.toNat
        + 8 * e.pred.isSome.toNat + 16 * e.box.isSome.toNat + 32 * gone.toNat)
    ++ wZero 1 (fun p : PageNo => w8 p.val) e.page ++ wZero 1 (fun l : LayerNo => w8 l.val) e.layer
    ++ wZero 3 wHandle e.handle ++ wZero 1 (fun n : SeatNo => w8 n.val) e.seat
    ++ wZero 1 (fun t : InkTool => w8 t.code) e.tool ++ wZero 1 (fun c : Fin 64 => w8 c.val) e.colour
    ++ wZero 3 wHandle e.pred ++ wZero 2 w16 e.first ++ wZero 2 w16 e.count
    ++ wZero 1 (fun f : StrokeFlags => [f.toByte]) e.flags ++ wZero 6 w48 e.group ++ wZero 8 wBox e.box

/-- The payload of a WALK_DONE. -/
def wDone (r : DoneRecord) : Bytes :=
  w8 r.status.code ++ w8 r.reason.code ++ w8 r.mode.code ++ wZero 6 w48 r.bound
    ++ wZero 6 w48 r.resume ++ w16 r.remaining

/-- A record of a walk as a frame: STROKE_HEADER C0h, POINT_CHUNK C1h, JOURNAL_ENTRY C2h, WALK_DONE
C3h. -/
def TaggedRecord.bytes (r : TaggedRecord) : Bytes :=
  match r.body with
  | .header x => frameBytes 0xC0#8 r.tag (wHeader x)
  | .chunk h first gone es =>
    frameBytes 0xC1#8 r.tag
      (wHandle h ++ w16 first ++ w8 gone.toNat ++ w8 es.length ++ es.flatMap wEntry)
  | .journal e gone => frameBytes 0xC2#8 r.tag (wJournal e gone)
  | .done x => frameBytes 0xC3#8 r.tag (wDone x)

/-- An item of a NOTICE_LIST in five bytes. -/
def wNoticeItem (i : NoticeItem) : Bytes :=
  w8 i.slot ++ w16 i.notices.toNat ++ w8 i.state.code ++ w8 i.page.val

/-- An answer of the Tablet Link as a frame: TAKEN A0h, HELD A1h, NOTICE_LIST A2h. -/
def Answer.bytes : Answer → Bytes
  | .taken tag free => frameBytes 0xA0#8 tag (w8 free)
  | .held tag => frameBytes 0xA1#8 tag (w8 0)
  | .noticeList tag items => frameBytes 0xA2#8 tag (w8 items.length ++ items.flatMap wNoticeItem)

/-- A REPLY as a frame: kind B0h, command code, result, data. -/
def Reply.bytes (r : Reply) : Bytes := frameBytes 0xB0#8 r.tag (r.code :: w8 r.result.code ++ r.data)

/-- A frame of the Console Link outbound buffer. -/
def ConsoleFrame.bytes : ConsoleFrame → Bytes
  | .reply r => r.bytes
  | .scan r => r.bytes

/-! ### The outbound stream (R183, R187) -/

/-- The frames that wait in a link's outbound buffer, as bytes, in the order they leave (R187). The Board
Link has none (R183). -/
def outboundFrames (s : State) : Link → List Bytes
  | .board => []
  | .tablet => s.answers.map Answer.bytes
  | .console => s.consoleOut.map ConsoleFrame.bytes
  | .display => s.displayOut.map TaggedRecord.bytes

/-- What is left of the frame at the front: the bytes a transfer before has not shifted out (R183). -/
def frontRest (s : State) (l : Link) : Bytes :=
  ((outboundFrames s l).head?.getD []).drop (s.shifted.get l)

/-- The outbound stream of a link as it stands: the rest of the front frame, then the frames behind it
(R183). -/
def outboundStream (s : State) (l : Link) : Bytes :=
  frontRest s l ++ (outboundFrames s l).tail.flatten

/-- The next `n` bytes the part shifts out on a link, in this transfer or the next, while no frame is
placed meanwhile: the outbound stream, and 00h where none waits (R183). -/
def dataOut (s : State) (l : Link) (n : Nat) : Bytes :=
  (outboundStream s l ++ List.replicate n 0).take n

/-! ### The format check of inbound frames (check 5 of R185) -/

/-- CONTACT: 10 bytes; a phase above 2 fails, a tool above 2 is taken as PEN. -/
def parseContact : Bytes → Option Instr
  | [c, ph, tl, a, b, d, e, f, g, hint] =>
    let phase : Option Phase :=
      if ph = 0 then some .down else if ph = 1 then some .move else if ph = 2 then some .up else none
    let tool : ContactTool := if tl = 1 then .eraser else if tl = 2 then .finger else .pen
    phase.map fun p => .contact ⟨c, p, tool, ⟨a ++ b, d ++ e, f ++ g⟩, hint⟩
  | _ => none

/-- POINTS: slot, tag, a count of 1 to 24, six bytes a point. -/
def parsePoints : Bytes → Option TabletFrame
  | slot :: tag :: k :: r =>
    if 1 ≤ k.toNat ∧ k.toNat ≤ 24 then (readAll (rPoints k.toNat) r).map (.points slot tag) else none
  | _ => none

/-- The tablet frames that wait in Tablet Intake. -/
def parseTablet (kind : Byte) (p : Bytes) : Option TabletFrame :=
  if kind = 0x20#8 then
    match p with
    | [slot, tag, tool, layer, colour] => some (.begin slot tag tool layer colour)
    | _ => none
  else if kind = 0x21#8 then parsePoints p
  else if kind = 0x22#8 then
    match p with
    | [slot, tag] => some (.finish slot tag)
    | _ => none
  else if kind = 0x23#8 then
    match p with
    | [slot] => some (.undo slot)
    | _ => none
  else
    match p with
    | [slot, u] => if u = 1 then some (.hand slot true) else if u = 0 then some (.hand slot false) else none
    | _ => none

/-- SWEEP: form, page, layer or layer mask, limit. -/
def parseSweep (tag : Byte) (p : Bytes) : Option Instr :=
  (readAll (fun bs => do
    let (f, r) ← rForm bs
    let (l, r) ← r32 r
    some ((f, l), r)) p).map fun x => .sweep tag x.1 (BitVec.ofNat 32 x.2)

/-- FOLLOW: revision, timeout, limit. -/
def parseFollow (tag : Byte) (p : Bytes) : Option Instr :=
  (readAll (fun bs => do
    let (v, r) ← r48 bs
    let (t, r) ← r16 r
    let (l, r) ← r32 r
    some ((v, t, l), r)) p).map fun x =>
      .follow tag x.1 (BitVec.ofNat 16 x.2.1) (BitVec.ofNat 32 x.2.2)

/-- The command an inbound frame of an accepted kind stands for; none where its format fails. `running`
says whether it arrives while a transaction runs (log entry 6); what the transfer shifts out
meanwhile is spelled by reads of its own (log entry 8). -/
def parsePayload (link : Link) (running : Bool) (kind tag : Byte) (p : Bytes) : Option Instr :=
  if kind = 0x7F#8 then (if p.isEmpty then some (.linkReset link ⟨tag, running⟩) else none)
  else
    match link with
    | .board => parseContact p
    | .tablet =>
      if kind = 0x25#8 then (if p.isEmpty then some (.noticeRead ⟨tag, running⟩ 0) else none)
      else (parseTablet kind p).map fun f => .tabletFrameArrival tag f 0
    | .console =>
      match p with
      | code :: params => some (.command ⟨tag, running⟩ code params)
      | [] => none
    | .display =>
      if kind = 0x40#8 then parseSweep tag p
      else if kind = 0x41#8 then (readAll r32 p).map fun l => .continueWalk tag (BitVec.ofNat 32 l)
      else if kind = 0x42#8 then parseFollow tag p
      else if kind = 0x43#8 then (readAll rHandle p).map (.fetch tag)
      else if p.isEmpty then some (.stop tag) else none

/-! ### The inbound stream (R183, R185, R186) -/

/-- What the checks make of the bytes after a sync byte: the frame fails the length or CRC check and
hunting resumes after the sync byte; select rose inside it; or it stands for a command and hunting
resumes after its `size` bytes. -/
inductive FrameCheck where
  | bad
  | cut
  | whole (size : Nat) (i : Instr)
  deriving DecidableEq, Repr

/-- The checks of R185, in their order, on the bytes of a transfer after a sync byte. -/
def checkFrame (link : Link) (running : Bool) : Bytes → FrameCheck
  | kind :: tag :: hi :: lo :: r =>
    let n := hi.toNat * 256 + lo.toNat
    if Config.maxPayload < n then .bad
    else if r.length < n + 2 then .cut
    else
      let payload := r.take n
      if w16 (crc16 (kind :: tag :: hi :: lo :: payload)).toNat ≠ (r.drop n).take 2 then .bad
      else if !(acceptedKinds link).contains kind then .whole (n + 6) (.unknownKind link kind ⟨tag, running⟩)
      else .whole (n + 6) ((parsePayload link running kind tag payload).getD (.badFrame link))
  | _ => .cut

/-- The commands that the inbound bytes of one transfer spell, in order (R183, R185, R186). `skip`
counts bytes of a frame already taken. Bytes outside a frame are skipped. -/
def receiveFrom (link : Link) (running : Bool) : Nat → Bytes → List Instr
  | _, [] => []
  | k + 1, _ :: r => receiveFrom link running k r
  | 0, b :: r =>
    if b = Config.sync then
      match checkFrame link running r with
      | .bad => .badFrame link :: receiveFrom link running 0 r
      | .cut => [.badFrame link]
      | .whole n i => i :: receiveFrom link running n r
    else receiveFrom link running 0 r

/-- The commands of one transfer, from the hunting state its first byte finds (R183, R185); `running` as
for `parsePayload`. -/
def receive (link : Link) (running : Bool) (bs : Bytes) : List Instr := receiveFrom link running 0 bs

/-- The bytes a master sends for an arrival row, with the link it sends them on: the inverse of the
format check (R198). The other rows, and a POINTS of more than 255 points, have no frame of their
own. -/
def sentFrame : Instr → Option (Link × Bytes)
  | .contact f =>
    let ph : Nat := match f.phase with
      | .down => 0
      | .move => 1
      | .up => 2
    let tl : Nat := match f.tool with
      | .pen => 0
      | .eraser => 1
      | .finger => 2
    some (.board, frameBytes 0x10#8 0 (f.contact :: w8 ph ++ w8 tl ++ w16 f.point.ux.toNat
      ++ w16 f.point.uy.toNat ++ w16 f.point.pressure.toNat ++ [f.hint]))
  | .tabletFrameArrival tag f _ =>
    match f with
    | .begin slot t tool layer colour => some (.tablet, frameBytes 0x20#8 tag [slot, t, tool, layer, colour])
    | .points slot t pts =>
      some (.tablet, frameBytes 0x21#8 tag (slot :: t :: w8 pts.length ++
        pts.flatMap fun p => w16 p.ux.toNat ++ w16 p.uy.toNat ++ w16 p.pressure.toNat))
    | .finish slot t => some (.tablet, frameBytes 0x22#8 tag [slot, t])
    | .undo slot => some (.tablet, frameBytes 0x23#8 tag [slot])
    | .hand slot up => some (.tablet, frameBytes 0x24#8 tag (slot :: w8 up.toNat))
  | .noticeRead tag _ => some (.tablet, frameBytes 0x25#8 tag.tag [])
  | .command tag code params => some (.console, frameBytes 0x30#8 tag.tag (code :: params))
  | .sweep tag form limit =>
    let body : Bytes := match form with
      | .layer p l => w8 0 ++ [p, l]
      | .page p m => w8 1 ++ [p] ++ w8 m.toNat
      | .all p m => w8 2 ++ [p] ++ w8 m.toNat
    some (.display, frameBytes 0x40#8 tag (body ++ w32 limit.toNat))
  | .continueWalk tag limit => some (.display, frameBytes 0x41#8 tag (w32 limit.toNat))
  | .follow tag start timeout limit =>
    some (.display, frameBytes 0x42#8 tag (w48 start ++ w16 timeout.toNat ++ w32 limit.toNat))
  | .fetch tag h => some (.display, frameBytes 0x43#8 tag (w16 h.index.toNat ++ [h.gen]))
  | .stop tag => some (.display, frameBytes 0x44#8 tag [])
  | .linkReset link tag => some (link, frameBytes 0x7F#8 tag.tag [])
  | _ => none

end Sys2Proof.Machine
end

