-- ==== Sys2Proof/Machine/Scan.lean ====
section
/-! DEFINITION. The Scan Engine (sections 7.2 to 7.4) and the display requests (section 8.1): how a
request starts a walk, and what one burst places. -/

namespace Sys2Proof.Machine

/-! ### Requests -/

/-- A limit as taken (R146): `none` is unlimited. -/
def limitOf (n : Nat) : Option Nat :=
  if n = 0 then none else if n ≤ 64 then some 65 else some (min n 65535)

/-- The mode of a sweep form (R142). -/
def formMode : SweepForm → WalkMode
  | .layer _ _ => .sweepLayer
  | .page _ _ => .sweepPage
  | .all _ _ => .sweepAll

/-- The layer mask and first position of a sweep form; none where a page is above 15 or a layer above
3 (R142). -/
def formStart : SweepForm → Option (BitVec 4 × Position)
  | .layer p l =>
    match pageOfByte p, layerOfByte l with
    | some p, some l => some (0, ⟨p, l, 0⟩)
    | _, _ => none
  | .page p m | .all p m => (pageOfByte p).map fun p => (m, ⟨p, (lowestLayer m).getD 0, 0⟩)

/-- A context with the fields of a new walk set and those of the old one cleared (R140). -/
def newWalk (c : ScanCtx) (mode : WalkMode) (tag : Byte) (limit : Option Nat) : ScanCtx :=
  { state := .walking, mode := mode, tag := tag, limit := limit, endStatus := c.endStatus }

/-- The context of an accepted sweep (R142). -/
def sweepCtx (c : ScanCtx) (tag : Byte) (form : SweepForm) (m : BitVec 4) (p : Position)
    (limit : Nat) : ScanCtx :=
  { newWalk c (formMode form) tag (limitOf limit) with mask := m, pos := p }

/-- The timeout of a FOLLOW: FFFFh stands for absent, 200 ms; else clamped to 2550 ms (R149, R198). -/
def followTimeout (t : BitVec 16) : Nat := if t = 0xFFFF#16 then 200 else min t.toNat 2550

/-- The context a CONTINUE can resume: DONE with end status LIMIT (R147). -/
def resumable (c : ScanCtx) : Bool :=
  decide (c.state = .done) &&
    match c.endStatus with
    | some (.limit, _) => true
    | _ => false

/-- The check of a taken request (R155): the context of the walk it starts, or the reason it is
refused. -/
def checkRequest (s : State) (tag : Byte) (r : DisplayRequest) : Except Reason ScanCtx :=
  if s.cls.state = .resetting then .error .resetting
  else
    match r with
    | .sweep form limit =>
      match formStart form with
      | some (m, p) => .ok (sweepCtx s.display tag form m p limit.toNat)
      | none => .error .range
    | .resume limit =>
      if resumable s.display then
        .ok { s.display with state := .walking, tag := tag, limit := limitOf limit.toNat }
      else .error .state
    | .follow start timeout limit =>
      .ok { newWalk s.display .follow tag (limitOf limit.toNat) with
        start := start, timeout := followTimeout timeout }
    | .fetch w =>
      match handleOf w with
      | some h => .ok { newWalk s.display .fetch tag none with fetch := some h }
      | none => .error .range

/-- The mode a refused request's WALK_DONE reports (R155). -/
def requestMode : DisplayRequest → WalkMode
  | .sweep form _ => formMode form
  | .resume _ => .resume
  | .follow _ _ _ => .follow
  | .fetch _ => .fetch

/-- The resume revision a refused request's WALK_DONE carries: r for a FOLLOW (R153, R160). -/
def refusedResume : DisplayRequest → Option Rev
  | .follow start _ _ => some start
  | _ => none

/-- A refused request: one WALK_DONE with REFUSED, the reason, its mode and its tag, and for a FOLLOW its
resume revision; the context stays as it stands (R153, R155, R160; its other fields: log entry 15). -/
def refuseRequest (s : State) (tag : Byte) (r : DisplayRequest) (why : Reason) : State :=
  { s with displayOut := s.displayOut ++
      [⟨tag, .done ⟨.refused, why, requestMode r, none, refusedResume r, 0⟩⟩] }

/-- An accepted request: a running walk ends with SUPERSEDED, and the context goes WALKING for the new
one (R156). -/
def acceptRequest (s : State) (c : ScanCtx) : State :=
  if s.display.running then
    let s := endDisplay s .superseded .none
    { s with display := { c with endStatus := s.display.endStatus } }
  else { s with display := c }

/-- A request taken by the display context (R154 to R156). -/
def takeRequest (s : State) (tag : Byte) (r : DisplayRequest) : State :=
  match checkRequest s tag r with
  | .ok c => acceptRequest s c
  | .error why => refuseRequest s tag r why

/-- A display request at its arrival: taken while the completion queue is empty, else held in the
pending slot, replacing and counting a request held there (R154, R176). -/
def requestArrives (s : State) (tag : Byte) (r : DisplayRequest) : State :=
  if displayDones s = 0 then takeRequest s tag r
  else
    let k := s.counters.droppedRequests
    { s with
      displayPending := some (tag, r)
      counters := { s.counters with
        droppedRequests := if s.displayPending.isSome then satAdd k 1 else k } }

/-! ### What a burst places -/

/-- A walk within one burst: its context, the records placed so far, and how it ended, if it did. -/
structure Walk where
  ctx : ScanCtx
  out : List ScanRecord := []
  ended : Option (EndStatus × Reason) := none
  deriving DecidableEq, Repr

/-- Records the burst may still place (R138). -/
def Walk.room (w : Walk) : Nat := Config.burst - w.out.length

/-- The number of blocks of `n` entries (R139). -/
def blocksOf (n : Nat) : Nat := (n + 23) / 24

/-- The STROKE_HEADER of a stroke as it stands (R139). -/
def headerOf (st : Store) (h : Handle) (afterBound : Bool) : ScanRecord :=
  let r := st.stroke h.idx
  .header
    { handle := h, owner := r.owner, page := r.page, layer := r.layer, tool := r.tool
      colour := r.colour, state := r.state, flags := r.flags, count := r.count, box := r.box
      openRev := r.openRev, lastRev := r.lastRev, pred := r.pred
      erase :=
        match r.state, r.group, r.eraseRev with
        | .erased, some g, some e => some (g, e)
        | _, _, _ => none
      afterBound := afterBound }

/-- The POINT_CHUNK of one chain position of an item in transit: its block's entries, up to the
header's entry count for a stroke, or GONE when the handle is no longer live (R144, R150). -/
def chunkOf (st : Store) (tr : Transit) (k : Nat) : ScanRecord :=
  if st.live tr.handle then
    let es :=
      match (st.stroke tr.handle.idx).chain[k]? with
      | some b => st.block b
      | none => []
    .chunk tr.handle (24 * k) false
      (match tr.cap with
        | some n => es.take (n - 24 * k)
        | none => es)
  else .chunk tr.handle (24 * k) true []

/-- Place the chunks still owed for the item in transit, as far as the burst has room (R144). -/
def Walk.sendChunks (st : Store) (w : Walk) : Walk :=
  match w.ctx.transit with
  | none => w
  | some tr =>
    let n := min w.room (tr.stop - tr.next)
    let left : Option Transit :=
      if tr.next + n < tr.stop then some { tr with next := tr.next + n } else none
    { w with
      out := w.out ++ (List.range' tr.next n).map (chunkOf st tr)
      ctx := { w.ctx with transit := left } }

/-- Charge a record count to the remaining limit; `none` where it does not fit (R146). -/
def Walk.charge (w : Walk) (cost : Nat) : Option Walk :=
  match w.ctx.limit with
  | none => some w
  | some l => if l < cost then none else some { w with ctx := { w.ctx with limit := some (l - cost) } }

/-- Place a record and then the chunks of its item as far as there is room (R139, R144, R150). -/
def Walk.place (st : Store) (w : Walk) (r : ScanRecord) (tr : Option Transit) : Walk :=
  Walk.sendChunks st { w with out := w.out ++ [r], ctx := { w.ctx with transit := tr } }

/-- Place a stroke: its header and its chunks, contents fixed at the header (R144). -/
def Walk.sendStroke (st : Store) (w : Walk) (h : Handle) (afterBound : Bool) : Walk :=
  let n := (st.stroke h.idx).count
  w.place st (headerOf st h afterBound) (some ⟨h, 0, blocksOf n, some n⟩)

/-- What a sweep does with a stroke it meets: skips it (`none`) or sends it, with the
erased-after-bound mark where the Bool is true (R143). -/
def sweepChoice (r : Stroke) (bound : Rev) (snapshot : Bool) : Option Bool :=
  if revAbove r.openRev bound then none
  else
    match r.state with
    | .opened | .closed => some false
    | .erased =>
      if snapshot && revAbove (r.eraseRev.getD 0) bound then some true else none
    | .free => none

/-- Walk the rest of one Z list. The Bool says that the list is finished (R143, R146). -/
def Walk.overList (st : Store) (snapshot : Bool) : List Handle → Walk → Walk × Bool
  | [], w => (w, decide (0 < w.room))
  | h :: hs, w =>
    if w.room = 0 then (w, false)
    else
      let r := st.stroke h.idx
      let past := { w.ctx.pos with z := w.ctx.pos.z + 1 }
      match sweepChoice r (w.ctx.bound.getD 0) snapshot with
      | none => Walk.overList st snapshot hs { w with ctx := { w.ctx with pos := past } }
      | some mark =>
        match w.charge (1 + blocksOf r.count) with
        | none => ({ w with ended := some (.limit, .none) }, false)
        | some w =>
          let w := Walk.sendStroke st { w with ctx := { w.ctx with pos := past } } h mark
          if w.ctx.transit.isSome then (w, false) else Walk.overList st snapshot hs w

/-- Walk the lists of a sweep from its position; after the last one the sweep ends with END (R143). -/
def Walk.overLists (st : Store) (snapshot : Bool) : List (PageNo × LayerNo) → Walk → Walk
  | [], w => { w with ended := some (.finished, .none) }
  | (p, l) :: rest, w =>
    let z := if w.ctx.pos.page = p ∧ w.ctx.pos.layer = l then w.ctx.pos.z else 0
    let w := { w with ctx := { w.ctx with pos := ⟨p, l, z⟩ } }
    match Walk.overList st snapshot ((st.zlist p l).drop z) w with
    | (w, true) => Walk.overLists st snapshot rest w
    | (w, false) => w

/-- The lists a sweep has still to walk, from its position on (R142). -/
def listsFrom (c : ScanCtx) : List (PageNo × LayerNo) :=
  let layers (from_ : Nat) : List LayerNo :=
    (List.finRange 4).filter fun l => decide (from_ ≤ l.val) && inMask c.mask l
  let here := (layers c.pos.layer.val).map fun l => (c.pos.page, l)
  match c.mode with
  | .sweepLayer => [(c.pos.page, c.pos.layer)]
  | .sweepPage => here
  | .sweepAll =>
    here ++ ((List.finRange 16).filter fun p => decide (c.pos.page < p)).flatMap fun p =>
      (layers 0).map fun l => (p, l)
  | _ => []

/-- One burst of a sweep (R143 to R146): the bound is taken at the first, the stroke in transit comes
first, then the strokes from the position. -/
def sweepBurstOf (st : Store) (snapshot : Bool) (c : ScanCtx) : Walk :=
  let c := { c with bound := some (c.bound.getD st.rev) }
  let w := Walk.sendChunks st { ctx := c }
  if w.room = 0 ∨ w.ctx.transit.isSome then w else Walk.overLists st snapshot (listsFrom w.ctx) w

/-- One burst of a FETCH (R148): the handle is tested at the first, and the walk ends with END after
the stroke's last chunk, or with GONE. -/
def fetchBurstOf (st : Store) (c : ScanCtx) : Walk :=
  let w : Walk :=
    match c.transit, c.fetch with
    | some _, _ => Walk.sendChunks st { ctx := c }
    | none, some h =>
      if st.live h then Walk.sendStroke st { ctx := c } h false
      else { ctx := c, ended := some (.gone, .none) }
    | none, none => { ctx := c, ended := some (.gone, .none) }
  if w.ended.isNone ∧ w.ctx.transit.isNone then { w with ended := some (.finished, .none) } else w

/-- The entries a follow has still to send, oldest first (R150); a follow whose next entries have left the
journal is lapped, which `followBurstOf` tests before (log entry 43). -/
def entriesAfter (j : Journal) (k : Cursor) : List ChangeEntry :=
  let above := j.entries.filter fun e => revAbove e.rev k.rev
  if k.complete then above
  else ((j.entries.filter fun e => decide (e.rev = k.rev)).drop k.sent) ++ above

/-- The cursor after a JOURNAL_ENTRY is placed (R150). -/
def cursorAfter (j : Journal) (k : Cursor) (e : ChangeEntry) : Cursor :=
  let sent := if e.rev = k.rev then k.sent + 1 else 1
  ⟨e.rev, decide ((j.entries.countP fun x => decide (x.rev = e.rev)) ≤ sent), sent⟩

/-- The item an entry's chunks make: the blocks that hold the point indices of a live OPENED or
EXTENDED entry; no chunks for any other (R150). -/
def entryTransit (st : Store) (e : ChangeEntry) : Option Transit :=
  match e.kind, e.handle with
  | .opened, some h | .extended, some h =>
    let first := e.first.getD 0
    if st.live h then some ⟨h, first / 24, (first + e.count.getD 0 - 1) / 24 + 1, none⟩ else none
  | _, _ => none

/-- The GONE mark of a JOURNAL_ENTRY (R139). -/
def entryGone (st : Store) (e : ChangeEntry) : Bool :=
  match e.handle with
  | some h => !st.live h
  | none => false

/-- The records of an entry: one, and its chunks (R150). -/
def entryCost (st : Store) (e : ChangeEntry) : Nat :=
  match entryTransit st e with
  | some tr => 1 + (tr.stop - tr.next)
  | none => 1

/-- Place the entries a follow has to send. The Bool says that it caught up (R150, R151). -/
def Walk.overEntries (st : Store) (j : Journal) : List ChangeEntry → Walk → Walk × Bool
  | [], w => (w, decide (0 < w.room))
  | e :: es, w =>
    if w.room = 0 then (w, false)
    else
      match w.charge (entryCost st e) with
      | none => ({ w with ended := some (.limit, .none) }, false)
      | some w =>
        let k := w.ctx.cursor.map fun k => cursorAfter j k e
        let w := Walk.place st { w with ctx := { w.ctx with cursor := k } }
          (.journal e (entryGone st e)) (entryTransit st e)
        if w.ctx.transit.isSome then (w, false) else Walk.overEntries st j es w

/-- A follow that has caught up ends with TIMEOUT when its timeout is 0, else waits with a deadline
(R151). -/
def Walk.catchUp (w : Walk) (now : Time) : Walk :=
  if w.ctx.timeout = 0 then { w with ended := some (.timeout, .none) }
  else { w with ctx := { w.ctx with state := .waiting, deadline := some (now + ms w.ctx.timeout) } }

/-- A follow's burst once its cursor is set: the item in transit, then the entries (R150, R151). -/
def followOn (st : Store) (j : Journal) (now : Time) (c : ScanCtx) (k : Cursor) : Walk :=
  let w := Walk.sendChunks st { ctx := { c with cursor := some k } }
  if w.room = 0 ∨ w.ctx.transit.isSome then w
  else
    match Walk.overEntries st j (entriesAfter j k) w with
    | (w, true) => w.catchUp now
    | (w, false) => w

/-- One burst of a follow (R149 to R151): the first tests the revision against the store revision and
L. A later one that finds the follow lapped ends it with OVERRUN, which can only be the first burst after
a CONTINUE: R152 tests a WALKING or WAITING follow, and its entries can leave the journal while it is DONE
with LIMIT (R160, DESIGN CHOICE, log entry 43). -/
def followBurstOf (st : Store) (j : Journal) (now : Time) (c : ScanCtx) : Walk :=
  match c.cursor with
  | some k =>
    if lappedAt j.lost k then { ctx := c, ended := some (.overrun, .none) } else followOn st j now c k
  | none =>
    if revAbove c.start st.rev then { ctx := c, ended := some (.refused, .range) }
    else if revAbove j.lost c.start then { ctx := c, ended := some (.overrun, .none) }
    else followOn st j now c ⟨c.start, true, 0⟩

/-- The state after a display burst: its records in the outbound buffer with the walk's tag, and its
end, if it ended (R138, R141). -/
def afterDisplay (s : State) (w : Walk) : State :=
  let s := { s with
    display := w.ctx
    displayOut := s.displayOut ++ w.out.map fun r => ⟨w.ctx.tag, r⟩ }
  match w.ended with
  | some (e, why) => endDisplay s e why
  | none => s

/-- The state after a snapshot burst (R138, R141, R164, R165). -/
def afterSnapshot (s : State) (w : Walk) : State :=
  let s := { s with
    snapshot := w.ctx
    consoleOut := s.consoleOut ++ w.out.map fun r => .scan ⟨w.ctx.tag, r⟩ }
  match w.ended with
  | some (e, _) => endSnapshot s e
  | none => s

/-- End the walks of both contexts with RESET, at the first grant of a clearance (R53). -/
def resetWalks (s : State) : State :=
  let s := if s.display.running then endDisplay s .reset .none else s
  if s.snapshot.running then endSnapshot s .reset else s

end Sys2Proof.Machine
end

