-- ==== Sys2Proof/Machine/Arrivals.lean ====
section
/-! DEFINITION. What a frame does at its arrival, and what reading an outbound frame does (Chapter 10):
the intake queues, the answers of the Tablet Link, the console queue and LINK_RESET. -/

namespace Sys2Proof.Machine

/-! ### Frames that fail a check (R185, R186) -/

/-- A frame that fails the length, completion, CRC or format check: counted on its link and captured
as BAD_FRAME with no seat and no frame kind (R172, R185). -/
def badFrameEffect (s : State) (link : Link) : State :=
  let s := { s with counters := { s.counters with badFrames := s.counters.badFrames.bump link } }
  captureFault s .badFrame link none none

/-- The console command in whose transaction a frame arrived: that of the last grant, where the frame's row
says that it came while that transaction ran (R121, R192, log entry 6). -/
def commandUnderWay (s : State) (running : Bool) : Option CommandGrant :=
  if running then s.commandGrant else none

/-- The queued commands that a frame met at its arrival, the command under way included (R122, R192): one
that left the queue with the transaction the frame arrived in stood in it then. -/
def queuedAtArrival (s : State) (running : Bool) : Nat :=
  s.consoleQueue.length +
    match commandUnderWay s running with
    | some c => c.left.toNat
    | none => 0

/-- The reply slots reserved beside those in use when a frame arrived (R192): the reply of the command under
way stands in its slot now, unless a Console LINK_RESET in between has emptied it, for which the slot stayed
reserved (R196). -/
def reservedSlots (s : State) (running : Bool) : Nat :=
  match commandUnderWay s running with
  | some c => (c.replied && c.emptied).toNat
  | none => 0

/-- The console busy-answers counter grows by 1 (R192). -/
def countBusy (s : State) : State :=
  { s with counters := { s.counters with busyAnswers := satAdd s.counters.busyAnswers 1 } }

/-- A reply slot is free and not reserved (R192). -/
def slotForAnswer (s : State) (running : Bool) : Bool :=
  decide (reservedSlots s running < replySlotsFree s)

/-- An immediate answer: placed in a reply slot that is free and not reserved, or discarded and counted
(R192). -/
def immediateAnswer (s : State) (running : Bool) (r : Reply) : State :=
  if slotForAnswer s running then placeReply s r else countBusy s

/-- BAD_FRAME (R185). -/
def execBadFrame (link : Link) (s : State) : Host.Outcome State Fault Refusal :=
  .next (settle (badFrameEffect s link))

/-- UNKNOWN_KIND (R186): captured with the kind received; on the Console Link answered UNKNOWN with
command code 00h. A kind the link accepts is no such frame. -/
def execUnknownKind (link : Link) (kind : Byte) (tag : AnswerTag) (s : State) :
    Host.Outcome State Fault Refusal :=
  .next <|
    if (acceptedKinds link).contains kind then s
    else
      let s := captureFault s .unknownKind link none (some kind)
      settle <|
        match link with
        | .console => immediateAnswer s tag.running ⟨tag.tag, 0, .unknown, []⟩
        | _ => s

/-! ### Board Intake (R190, R191) -/

/-- Remove the first sample that fits, keeping the order of the others. -/
def removeFirst {α : Type} (p : α → Bool) : List α → List α
  | [] => []
  | a :: as => if p a then as else a :: removeFirst p as

/-- Replace the last sample that fits. -/
def replaceLast {α : Type} (p : α → Bool) (b : α) (l : List α) : List α :=
  let rec go : List α → List α
    | [] => []
    | a :: as => if p a then b :: as else a :: go as
  (go l.reverse).reverse

/-- A queued MOVE. -/
def Sample.isMove (x : Sample) : Bool := decide (x.frame.phase = .move)

/-- The newest queued sample of a contact is a MOVE (R191). -/
def newestIsMove (q : List Sample) (c : Byte) : Bool :=
  match q.reverse.find? fun x => decide (x.frame.contact = c) with
  | some x => x.isMove
  | none => false

/-- The Board Intake queue after a sample is placed at a full queue, when it holds a MOVE (R191). -/
def displace (q : List Sample) (x : Sample) : List Sample :=
  if x.isMove && newestIsMove q x.frame.contact then
    replaceLast (fun y => decide (y.frame.contact = x.frame.contact)) x q
  else removeFirst Sample.isMove q ++ [x]

/-- CONTACT: queued at the tail with its arrival stamp (R190), or placed at a full queue as R191
gives. -/
def execContact (frame : ContactFrame) (s : State) : Host.Outcome State Fault Refusal :=
  .next <| settle <|
    let x : Sample := ⟨frame, s.timebase⟩
    if s.boardQueue.length < Config.boardQueue then { s with boardQueue := s.boardQueue ++ [x] }
    else if s.boardQueue.any Sample.isMove then
      { s with
        boardQueue := displace s.boardQueue x
        counters := { s.counters with displaced := satAdd s.counters.displaced 1 } }
    else captureFault s .intakeOverflow .board (seatOfContact frame.contact) (some 0x10#8)

/-! ### Reading outbound frames (R183, R187) -/

/-- The record at the front of the Display Link has been read; when the last WALK_DONE leaves the
completion queue, the held request is taken (R154, R158). -/
def readDisplay (s : State) : State :=
  match s.displayOut with
  | [] => s
  | r :: rest =>
    let s := { s with displayOut := rest }
    if r.body.isDone && decide (displayDones s = 0) then
      match s.displayPending with
      | some (tag, q) => takeRequest { s with displayPending := none } tag q
      | none => s
    else s

/-- The last byte of a link's front frame has been shifted out: the frame leaves its slot (R183, R187). -/
def readFront (link : Link) (s : State) : State :=
  let s := { s with shifted := s.shifted.set link 0 }
  match link with
  | .board => s
  | .tablet => { s with answers := s.answers.tail }
  | .console => { s with consoleOut := s.consoleOut.tail }
  | .display => readDisplay s

/-- `bytes` further bytes of a link's front frame are shifted out, those that `dataOut` names (R183, R187).
With its last byte the frame leaves its slot, and no byte behind it is shifted out; a transfer that ends
before leaves the rest to the next one. Where no frame waits, 00h is shifted out and nothing changes; the
Board Link never has one. -/
def shiftOut (link : Link) (bytes : Nat) (s : State) : State :=
  if (outboundFrames s link).isEmpty then s
  else if bytes < (frontRest s link).length then
    { s with shifted := s.shifted.set link (s.shifted.get link + bytes) }
  else readFront link s

/-- OUTBOUND_FRAME_READ (R183, R187). -/
def execOutboundFrameRead (clocking : Clocking) (s : State) : Host.Outcome State Fault Refusal :=
  .next (settle (shiftOut clocking.link clocking.bytes s))

/-! ### The Tablet Link (R48, R188, R189) -/

/-- A TAKEN or HELD answer. -/
def Answer.isPlain : Answer → Bool
  | .taken _ _ => true
  | .held _ => true
  | .noticeList _ _ => false

/-- A NOTICE_LIST of 0 items. -/
def Answer.isEmptyList : Answer → Bool
  | .noticeList _ [] => true
  | _ => false

/-- A NOTICE_LIST. -/
def Answer.isList : Answer → Bool
  | .noticeList _ _ => true
  | _ => false

/-- Make room for an answer at 64 unread ones: the oldest TAKEN or HELD that has not begun leaves, else
the oldest empty NOTICE_LIST that has not begun (R188). -/
def makeRoom (begun : Bool) (answers : List Answer) : List Answer :=
  if answers.length < Config.answerSlots then answers
  else
    let started := if begun then answers.take 1 else []
    let waiting := if begun then answers.drop 1 else answers
    if waiting.any Answer.isPlain then started ++ removeFirst Answer.isPlain waiting
    else started ++ removeFirst Answer.isEmptyList waiting

/-- Place an answer of the Tablet Link (R188): the front answer has begun when a byte of it has been
shifted out (R183). -/
def placeAnswer (s : State) (a : Answer) : State :=
  { s with answers := makeRoom (decide (s.shifted.tablet ≠ 0)) s.answers ++ [a] }

/-- A tablet frame at its arrival: queued and TAKEN, or HELD (R188, R189). -/
def takeTablet (s : State) (tag : Byte) (frame : TabletFrame) : State :=
  if s.tabletQueue.length < Config.tabletQueue then
    let s := { s with tabletQueue := s.tabletQueue ++ [frame] }
    placeAnswer s (.taken tag (Config.tabletQueue - s.tabletQueue.length))
  else
    placeAnswer
      { s with counters := { s.counters with heldAnswers := satAdd s.counters.heldAnswers 1 } }
      (.held tag)

/-- TABLET_FRAME_ARRIVAL (R188, R189). A POINTS of no point or of more than 24 fails the format check
(R185, R198). -/
def execTabletFrameArrival (tag : Byte) (frame : TabletFrame) (clocked : Nat) (s : State) :
    Host.Outcome State Fault Refusal :=
  .next <| settle <|
    let s := shiftOut .tablet clocked s
    if frame.wellFormed then takeTablet s tag frame else badFrameEffect s .tablet

/-- The listed seats leave the Notice Queue and their sets are emptied (R48). The transaction before this
read is over (log entry 6). -/
def takeNotices (s : State) : State :=
  let listed := s.noticeQueue.take Config.noticeItems
  let s := { s with noticeQueue := s.noticeQueue.drop Config.noticeItems, noticeBasis := none }
  listed.foldl (fun s n => s.modSeat n fun u => { u with notices := 0 }) s

/-- The pending-notice set of a seat among items that wait; empty for a seat with no item. -/
def waitingSet (items : List (SeatNo × NoticeItem)) (n : SeatNo) : BitVec 11 :=
  ((items.lookup n).map NoticeItem.notices).getD 0

/-- The read of a NOTICE_READ that arrived while the last transaction ran (R48): the listed seats leave the
Notice Queue as it stood before that transaction, and the notices that transaction added come after the
read, so that a listed seat among them rejoins at the tail with the new kind alone. -/
def takeNoticesBefore (b : NoticeBasis) (s : State) : State :=
  let left := b.queue.drop Config.noticeItems
  let before := { s with
    noticeQueue := left.map Prod.fst
    noticeBasis := none
    seats := Vector.ofFn fun n : SeatNo => { s.seats[n.val] with notices := waitingSet left n } }
  { b.added.foldl (fun s p => addNotice s p.1 p.2) before with noticeBasis := some { b with queue := left } }

/-- The items a NOTICE_READ lists and what it leaves (R48): served against what stood before the transaction
it arrived in, where `running` says that it arrived in one (log entry 6). -/
def serveNotices (s : State) (running : Bool) : List NoticeItem × State :=
  match if running then s.noticeBasis else none with
  | some b => ((b.queue.take Config.noticeItems).map Prod.snd, takeNoticesBefore b s)
  | none => ((s.noticeQueue.take Config.noticeItems).map (noticeItem s), takeNotices s)

/-- NOTICE_READ (R48, R188): up to 8 items from the head of the Notice Queue, or none while an earlier
NOTICE_LIST stands unread. -/
def execNoticeRead (tag : AnswerTag) (clocked : Nat) (s : State) : Host.Outcome State Fault Refusal :=
  .next <| settle <|
    let s := shiftOut .tablet clocked s
    if s.answers.any Answer.isList then placeAnswer s (.noticeList tag.tag [])
    else
      let (items, s) := serveNotices s tag.running
      placeAnswer s (.noticeList tag.tag items)

/-! ### The console queue (R192) -/

/-- A code that names a command: 01h to 27h (R193). -/
def isCommandCode (code : Byte) : Bool := decide (1 ≤ code.toNat ∧ code.toNat ≤ 0x27)

/-- COMMAND (R192): UNKNOWN or BUSY at once, else queued. A payload above 500 bytes fails the length
check (R185). -/
def execCommand (tag : AnswerTag) (code : Byte) (params : Bytes) (s : State) :
    Host.Outcome State Fault Refusal :=
  .next <| settle <|
    if Config.maxPayload < params.length + 1 then badFrameEffect s .console
    else if !isCommandCode code then immediateAnswer s tag.running ⟨tag.tag, code, .unknown, []⟩
    else if Config.consoleQueue ≤ queuedAtArrival s tag.running then
      if slotForAnswer s tag.running then placeReply (countBusy s) ⟨tag.tag, code, .busy, []⟩
      else countBusy s
    else { s with consoleQueue := s.consoleQueue ++ [.cmd tag.tag code params] }

/-! ### LINK_RESET (R194 to R196, R159, R166) -/

/-- Cut-due on every seat of a port (R195). -/
def setCutDue (s : State) (p : Port) : State :=
  { s with seats := Vector.ofFn fun n : SeatNo =>
      let u := s.seats[n.val]
      if portOf n = p then { u with cutDue := true } else u }

/-- The Board Link's own effects (R195). -/
def resetBoard (s : State) : State :=
  setCutDue
    { s with
      boardQueue := []
      counters := { s.counters with
        boardDiscards := satAdd s.counters.boardDiscards s.boardQueue.length } }
    .board

/-- The Tablet Link's own effects: the queue emptied, the answers emptied, then TAKEN with 48 free
slots (R188, R195). -/
def resetTablet (s : State) (tag : Byte) : State :=
  placeAnswer
    (setCutDue
      { s with
        tabletQueue := []
        answers := []
        counters := { s.counters with
          tabletDiscards := satAdd s.counters.tabletDiscards s.tabletQueue.length } }
      .tablet)
    (.taken tag Config.tabletQueue)

/-- A queue entry that has started or is no command: the head of a clearance past its first grant, and
the power-on clearance (R196, log entry 7). -/
def keptHead (s : State) : List QueuedCommand :=
  match s.consoleQueue with
  | .clearance b :: _ => [.clearance b]
  | c :: _ => if s.cls.state = .resetting then [c] else []
  | [] => []

/-- The Console Link's own effects (R166, R196). The slot reserved for the reply of a transaction that ran at
the reset stays reserved until that transaction's end (R196): `reservedSlots`. -/
def resetConsole (s : State) : State :=
  { s with
    consoleQueue := keptHead s
    consoleOut := []
    commandGrant := s.commandGrant.map fun c => { c with emptied := true }
    counters := { s.counters with
      consoleDiscards :=
        satAdd s.counters.consoleDiscards (s.consoleQueue.length - (keptHead s).length) } }

/-- The Display Link's own effects (R159): a running walk ends with STOPPED and no WALK_DONE. A walk whose
burst is under way at the reset, told by `running`, has already ended so, whatever end that burst finds: its
records are not placed, its own end is none, and a CONTINUE is refused. R194 and R121 put the emptying
behind the burst's transaction; R159 is followed for the end of the walk (DEDUCED, log entry 46; `running`
and `burstGrant`: log entry 6). -/
def resetDisplay (s : State) (running : Bool) : State :=
  let s := { s with displayOut := [], displayPending := none }
  if s.display.running || (running && s.burstGrant) then
    withdraw { s with display := endCtx s.display .stopped .none } .display
  else s

/-- LINK_RESET (R194): a frame partly shifted out is not finished. -/
def execLinkReset (link : Link) (tag : AnswerTag) (s : State) : Host.Outcome State Fault Refusal :=
  .next <| settle <|
    let s := { s with
      counters := { s.counters with linkResets := s.counters.linkResets.bump link }
      shifted := s.shifted.set link 0 }
    match link with
    | .board => resetBoard s
    | .tablet => resetTablet s tag.tag
    | .console => resetConsole s
    | .display => resetDisplay s tag.running

end Sys2Proof.Machine
end

