-- ==== Sys2Proof/Machine/Operands.lean ====
section
/-! DEFINITION. The Coordinate Mapper (Chapter 3): how a raw point becomes a canvas point and a width,
when it merges, how it is coded, and the eraser's hit test. -/

namespace Sys2Proof.Machine

/-- The tools of the width step (R65). -/
inductive PenTool where
  | ink | highlight | eraser
  deriving DecidableEq, Repr

/-- The outcome of the lift, map, window and width steps (R57). `dropped` and a clamped `point` lay
outside the window. -/
inductive MapOut where
  | lifted
  | dropped
  | point (x y w : Nat) (clamped : Bool)
  deriving DecidableEq, Repr

/-- The tool of an ink stroke as a tool of the width step. -/
def InkTool.pen : InkTool → PenTool
  | .ink => .ink
  | .highlight => .highlight

/-- The pressure of a point, clamped to 0..1023 (R59). -/
def pressureOf (r : RawPoint) : Nat := min r.pressure.toNat 1023

/-- One axis of the map step (R61). -/
def mapAxis (u scale : Nat) (offset : Int) : Int :=
  (((u * scale + 32768) / 65536 : Nat) : Int) + offset

/-- A canvas position lies outside a window (R62). -/
def outsideWindow (w : Window) (cx cy : Int) : Bool :=
  decide (cx < w.wx0 ∨ (w.wx1 : Int) < cx ∨ cy < w.wy0 ∨ (w.wy1 : Int) < cy)

/-- The window bound nearest to a coordinate, or the coordinate itself (R62). -/
def clampAxis (lo hi : Nat) (c : Int) : Nat :=
  if c < lo then lo else if (hi : Int) < c then hi else c.toNat

/-- The width step (R65). -/
def widthOf (pen : Pen) (tool : PenTool) (p : Nat) : Nat :=
  match tool with
  | .ink => pen.wmin + (p * (pen.wmax - pen.wmin) + 511) / 1023
  | .highlight => pen.wmax
  | .eraser => pen.ew

/-- Steps 1 to 4 of R57 for one point of a seat. -/
def mapPoint (t : Seat) (tool : PenTool) (r : RawPoint) : MapOut :=
  let p := pressureOf r
  if p = 0 then .lifted
  else
    let cx := mapAxis r.ux.toNat t.mapping.sx t.mapping.ox
    let cy := mapAxis r.uy.toNat t.mapping.sy t.mapping.oy
    let w := widthOf t.pen tool p
    if outsideWindow t.window cx cy then
      match t.window.policy with
      | .clamp =>
        .point (clampAxis t.window.wx0 t.window.wx1 cx) (clampAxis t.window.wy0 t.window.wy1 cy) w true
      | .drop => .dropped
    else .point cx.toNat cy.toNat w false

/-- The point lay outside the window, so that the clipped-points counter grows (R62, R63). -/
def MapOut.wasOutside : MapOut → Bool
  | .lifted => false
  | .dropped => true
  | .point _ _ _ clamped => clamped

/-- A point equal to the previous one, with no break marker set, ends MERGED (R66). -/
def merges (prev : Point) (broke : Bool) (x y w : Nat) : Bool :=
  decide (prev.x = x ∧ prev.y = y ∧ prev.w = w) && !broke

/-- A difference fits a range. -/
def fitsIn (lo hi d : Int) : Bool := decide (lo ≤ d ∧ d ≤ hi)

/-- The code step (R67) for a point that is not the first of its stroke. `prev` is the last stored
entry decoded, `full` says that the last block holds 24 entries, `broke` that a break marker is
set. -/
def codeEntry (prev : Point) (full broke : Bool) (x y w : Nat) : Entry :=
  let dx := (x : Int) - prev.x
  let dy := (y : Int) - prev.y
  let dw := (w : Int) - prev.w
  if full || broke || !fitsIn (-128) 127 dx || !fitsIn (-128) 127 dy || !fitsIn (-8) 7 dw then
    .abs x y w broke
  else .delta dx dy dw

/-- The distance of two coordinates. -/
def axisDist (a b : Nat) : Nat := (a - b) + (b - a)

/-- One entry is within the eraser's limit (R71). -/
def hitsPoint (ex ey ew : Nat) (p : Point) : Bool :=
  decide (max (axisDist ex p.x) (axisDist ey p.y) ≤ half ew + half p.w)

/-- The eraser point lies in the candidate's box expanded by ceil(ew/2), without clamping (R71). -/
def inExpanded (b : Box) (ex ey ew : Nat) : Bool :=
  decide (b.x0 ≤ ex + half ew ∧ ex ≤ b.x1 + half ew ∧ b.y0 ≤ ey + half ew ∧ ey ≤ b.y1 + half ew)

/-- The hit test of an eraser point against a stroke (R71). -/
def hitTest (st : Store) (i : RecIdx) (ex ey ew : Nat) : Bool :=
  inExpanded (st.stroke i).box ex ey ew && (st.points i).any (hitsPoint ex ey ew)

/-- The tool a START names: code 0, 1 or 2, any other taken as the seat's default tool (R76). -/
def startTool (t : Seat) (b : Byte) : PenTool :=
  if b = 0 then .ink else if b = 1 then .highlight else if b = 2 then .eraser else t.pen.tool.pen

/-- A colour, or the seat's default colour when it is above 63 (R76). -/
def colourOr (t : Seat) (b : Byte) : Fin 64 :=
  if h : b.toNat < 64 then ⟨b.toNat, h⟩ else t.pen.colour

/-- The tool of a contact sample resolved at its grant: `none` for a FINGER sample discarded while
finger ink is off (R77). -/
def contactTool (s : State) (t : Seat) : ContactTool → Option PenTool
  | .pen => some t.pen.tool.pen
  | .eraser => some .eraser
  | .finger => if s.cls.options.fingerInk then some .ink else none

end Sys2Proof.Machine
end

