-- ==== Sys2Proof/Machine/Strokes.lean ====
section
/-! DEFINITION. The store operations open, extend and close (R14 to R16), the allocation checks at the
limits (section 4.6) and the split (R93). -/

namespace Sys2Proof.Machine

/-- Where a drawing input came from, for Fault Capture (R172): its link, and its frame kind, absent
for a Maintenance grant. -/
structure Origins where
  link : Link
  frame : Option Byte
  deriving DecidableEq, Repr

/-- What an open fixes (R14, R76). -/
structure OpenSpec where
  page : PageNo
  layer : LayerNo
  tool : InkTool
  colour : Fin 64
  tag : Byte
  orphan : Bool
  pred : Option Handle
  deriving DecidableEq, Repr

/-- Why a record or a block is refused (R90, R91). -/
inductive Shortage where
  | table | quota | reserve | pool
  deriving DecidableEq, Repr

/-- Change a seat's open item, if it has one. -/
def modItem (s : State) (n : SeatNo) (f : OpenItem → OpenItem) : State :=
  s.modSeat n fun t => { t with item := t.item.map f }

/-- Set or clear a seat's open item. -/
def setItem (s : State) (n : SeatNo) (i : Option OpenItem) : State :=
  s.modSeat n fun t => { t with item := i }

/-- Change one record of the Stroke Table. -/
def modStroke (s : State) (i : RecIdx) (f : Stroke → Stroke) : State :=
  { s with store := s.store.setStroke i (f (s.store.stroke i)) }

/-- Checks 2 to 4 of R91, in order: what refuses a seat a block, if anything. -/
def blockRefusal (s : State) (n : SeatNo) : Option Shortage :=
  let free := s.store.freeBlocks.size
  if atQuota s n then some .quota
  else if portOf n = .tablet ∧ free ≤ s.cls.options.reserve then some .reserve
  else if free = 0 then some .pool
  else none

/-- What refuses a seat an open: first the record, then the block (R14, R90, R93). -/
def openRefusal (s : State) (n : SeatNo) : Option Shortage :=
  if s.store.freeRecs.take.isNone then some .table else blockRefusal s n

/-- A block refused for quota: the flag is set, QUOTA latched and the notice given, once per crossing
(R41). -/
def quotaRefused (s : State) (n : SeatNo) : State :=
  if (s.seat n).quotaReached then s
  else addNotice (latch (s.modSeat n fun t => { t with quotaReached := true }) .quota) n .quotaReached

/-- A block refused at a free count of 0: POOL_EMPTY is captured once per item (R75, R91). Without an
open item there is no marker, and each refusal is captured (log entry 12). -/
def poolRefused (s : State) (o : Origins) (n : SeatNo) : State :=
  match (s.seat n).item with
  | some i =>
    if i.poolReported then s
    else modItem (captureFault s .poolEmpty o.link (some n) o.frame) n fun i => { i with poolReported := true }
  | none => captureFault s .poolEmpty o.link (some n) o.frame

/-- A record refused: TABLE_FULL is captured and latched, and the table-full refusal marked pending
(R90). -/
def tableRefused (s : State) (o : Origins) (n : SeatNo) : State :=
  let s := latch (captureFault s .tableFull o.link (some n) o.frame) .tableFull
  { s with maint := { s.maint with tableFull := true } }

/-- The effects of a refusal (R90, R91). -/
def Tx.refuse (t : Tx) (o : Origins) (n : SeatNo) : Shortage → Tx
  | .table => { t.on (tableRefused · o n) with noRecord := true }
  | .quota => t.on (quotaRefused · n)
  | .reserve => t
  | .pool => t.on (poolRefused · o n)

/-- `k` points are lost to a refusal: the seat's dropped-points counter grows (R90, R91). -/
def Tx.lose (t : Tx) (n : SeatNo) (k : Nat) : Tx :=
  { t.on (fun s => s.modSeat n fun u => { u with dropped := satAdd u.dropped k }) with lost := t.lost + k }

/-- A block is popped for a seat's stroke: blocks held grows by 1, and POOL_LOW is latched when the
free count comes to R from R + 1 (R26, R41, R91). -/
def takeBlock (s : State) (n : SeatNo) : Option (BlockNo × State) :=
  match s.store.freeBlocks.pop with
  | none => none
  | some (b, f) =>
    let s := { s with store := { s.store with freeBlocks := f } }
    let s := s.modSeat n fun t => { t with blocksHeld := t.blocksHeld + 1 }
    some (b, if f.size = s.cls.options.reserve then latch s .poolLow else s)

/-- The entry a stored point adds to or grows: the newest call when it is the OPENED or EXTENDED of
the same stroke, else a new EXTENDED (R85, R88). -/
def noteStored (h : Handle) (ix : Nat) (b : Box) : List Call → List Call
  | .opened g n :: cs => if g = h then .opened g (n + 1) :: cs else .extended h ix 1 b :: .opened g n :: cs
  | .extended g f n c :: cs =>
    if g = h then .extended g f (n + 1) (c.union b) :: cs else .extended h ix 1 b :: .extended g f n c :: cs
  | cs => .extended h ix 1 b :: cs

/-- The record of a newly opened stroke (R14). -/
def openedRecord (t : Tx) (n : SeatNo) (sp : OpenSpec) (gen : Byte) (b : BlockNo)
    (x y w : Nat) (clamped : Bool) : Stroke :=
  { state := .opened, gen := gen, owner := n, page := sp.page, layer := sp.layer, tool := sp.tool
    colour := sp.colour, tag := sp.tag, openTime := t.time, closeTime := none, openRev := t.rev
    lastRev := t.rev, count := 1, chain := [b], box := squareOf x y w
    flags := { orphan := sp.orphan, clipped := clamped }, pred := sp.pred }

/-- Open (R14): a record from the free list's head, its generation up by 1, a block holding entry 0,
the handle at the tail of its Z list, and the OPENED entry called for. The result names the new
stroke; `none` where a record or a block is missing, which `openRefusal` has ruled out before. -/
def Tx.openStroke (t : Tx) (n : SeatNo) (sp : OpenSpec) (x y w : Nat) (clamped : Bool) :
    Option (Handle × Tx) :=
  match t.st.store.freeRecs.take with
  | none => none
  | some (i, recs) =>
    match takeBlock { t.st with store := { t.st.store with freeRecs := recs } } n with
    | none => none
    | some (b, s) =>
      let h : Handle := ⟨i, (s.store.stroke i).gen + 1⟩
      let st := s.store.setStroke i (openedRecord t n sp h.gen b x y w clamped)
      let st := st.setBlock b [.abs x y w false]
      let st := st.setZ sp.page sp.layer (st.zlist sp.page sp.layer ++ [h])
      some (h, { ({ t with st := { s with store := st } }).call (.opened h 1) with stored := t.stored + 1 })

/-- Close an ink stroke of a seat (R16, R89): state, close time, cause flag and last-change revision;
the last-closed pair; the undo entry unless the cause is SPLIT; the CLOSED entry. A stroke that is
not a live OPEN one is left as it is (R13). -/
def Tx.closeInk (t : Tx) (n : SeatNo) (h : Handle) (tag : Byte) (cause : CloseCause) : Tx :=
  if t.st.store.live h ∧ (t.st.store.stroke h.idx).state = .opened then
    let t := t.on (modStroke · h.idx fun r =>
      { r with state := .closed, closeTime := some t.time, flags := r.flags.closedBy cause, lastRev := t.rev })
    let t := t.on (·.modSeat n fun u => { u with lastClosed := some (tag, h) })
    let t := if cause = .split then t else t.on (pushUndo · n (.ink h))
    { t.call (.closed h) with closed := some h }
  else t

/-- The seat's open item becomes an open ink stroke with a new stroke, its pool-empty marker cleared
(R75, R85); the caller says which break markers stand. -/
def Tx.toInk (t : Tx) (n : SeatNo) (h : Handle) (tag : Byte) (lift drop : Bool) : Tx :=
  let d := match (t.st.seat n).item with
    | some i => i.deadline
    | none => 0
  t.on (setItem · n (some
    { kind := .ink h tag, lift := lift, drop := drop, poolReported := false, deadline := d }))

/-- Write a coded entry of an OPEN stroke (R15, R68, R70): the entry in its block, count, box, flags
and last-change revision; a stored break clears the markers of the item (R58). -/
def Tx.putEntry (t : Tx) (n : SeatNo) (h : Handle) (b : BlockNo) (es : List Entry) (fresh : Bool)
    (x y w : Nat) (clamped broken : Bool) : Tx :=
  let ix := (t.st.store.stroke h.idx).count
  let sq := squareOf x y w
  let t := t.on fun s => { s with store := s.store.setBlock b es }
  let t := t.on (modStroke · h.idx fun r =>
    { r with
      count := r.count + 1
      chain := if fresh then r.chain ++ [b] else r.chain
      box := r.box.union sq
      flags := r.flags.stored clamped broken
      lastRev := t.rev })
  let t := t.on (modItem · n fun i => { i with lift := false, drop := false })
  { t with calls := noteStored h ix sq t.calls, stored := t.stored + 1 }

/-- The stroke gains TRUNCATED, without a stamp of its own (R6, R91). -/
def Tx.truncate (t : Tx) (h : Handle) : Tx :=
  t.on (modStroke · h.idx fun r => { r with flags := { r.flags with truncated := true } })

/-- A point that needs a 65th block (R93): with a record and a block at hand the stroke is closed with
SPLIT and its successor opened with the point; else the point is refused and the stroke stays OPEN
and gains TRUNCATED. The Bool says whether the point was stored. -/
def Tx.splitStroke (t : Tx) (o : Origins) (n : SeatNo) (h : Handle) (tag : Byte)
    (x y w : Nat) (clamped : Bool) : Tx × Bool :=
  match openRefusal t.st n with
  | some why => ((t.truncate h).refuse o n why, false)
  | none =>
    let r := t.st.store.stroke h.idx
    let sp : OpenSpec := ⟨r.page, r.layer, r.tool, r.colour, r.tag, r.flags.orphan, some h⟩
    match (t.closeInk n h tag .split).openStroke n sp x y w clamped with
    | none => (t, false)
    | some (g, t) => (t.toInk n g tag false false, true)

/-- Store one coded point in the seat's open ink stroke (R67, R88, R91). The Bool is false when a
refusal loses the point; a refused point leaves the markers as they were. An extend of a stroke that
is not a live OPEN one has no effect (R13, R15). -/
def Tx.storePoint (t : Tx) (o : Origins) (n : SeatNo) (h : Handle) (tag : Byte) (lift drop : Bool)
    (x y w : Nat) (clamped : Bool) : Tx × Bool :=
  let st := t.st.store
  let r := st.stroke h.idx
  let last := st.lastBlock h.idx
  let full := decide (Config.blockEntries ≤ last.length)
  let prev := (st.lastPoint h.idx).getD ⟨0, 0, 0, false⟩
  let e := codeEntry prev full (lift || drop) x y w
  match r.chain.getLast? with
  | none => (t, true)
  | some b =>
    if !st.live h || decide (r.state ≠ .opened) then (t, true)
    else if !full then (t.putEntry n h b (last ++ [e]) false x y w clamped drop, true)
    else if Config.maxChain ≤ r.chain.length then t.splitStroke o n h tag x y w clamped
    else
      match blockRefusal t.st n with
      | some why => ((t.truncate h).refuse o n why, false)
      | none =>
        match takeBlock t.st n with
        | none => (t, false)
        | some (c, s) => (({ t with st := s }).putEntry n h c [e] true x y w clamped drop, true)

/-- Map one point for a seat and grow its clipped-points counter when the point lay outside the window
(R57, R62, R63). -/
def Tx.mapped (t : Tx) (n : SeatNo) (tool : PenTool) (r : RawPoint) : MapOut × Tx :=
  let out := mapPoint (t.st.seat n) tool r
  (out, if out.wasOutside then
      t.on (·.modSeat n fun u => { u with clipped := satAdd u.clipped 1 })
    else t)

/-- One point for the seat's open ink stroke (R60, R63, R66, R88). The Bool is false when the point
was refused, so that the rest of the input is lost. -/
def Tx.inkPoint (t : Tx) (o : Origins) (n : SeatNo) (r : RawPoint) : Tx × Bool :=
  match (t.st.seat n).item with
  | some ⟨.ink h tag, lift, drop, _, _⟩ =>
    match t.mapped n (t.st.store.stroke h.idx).tool.pen r with
    | (.lifted, t) => (t.on (modItem · n fun i => { i with lift := true }), true)
    | (.dropped, t) => (t.on (modItem · n fun i => { i with drop := true }), true)
    | (.point x y w clamped, t) =>
      let prev := (t.st.store.lastPoint h.idx).getD ⟨0, 0, 0, false⟩
      if merges prev (lift || drop) x y w then (t, true)
      else t.storePoint o n h tag lift drop x y w clamped
  | _ => (t, true)

/-- The points of one input for the seat's open ink stroke, in order; a refused point and every later
one are lost and counted (R88, R91). -/
def Tx.inkPoints (o : Origins) (n : SeatNo) : List RawPoint → Tx → Tx
  | [], t => t
  | r :: rs, t =>
    match t.inkPoint o n r with
    | (t, true) => Tx.inkPoints o n rs t
    | (t, false) => t.lose n (1 + rs.length)

/-- The points of one input that opens a stroke, for an armed START or an ORPHAN (R83, R85, R90): the
first CODED point opens it, the later ones extend it; points before it store nothing. A refused open
loses that point and every later one. -/
def Tx.openPoints (o : Origins) (n : SeatNo) (sp : OpenSpec) : List RawPoint → Tx → Tx
  | [], t => t
  | r :: rs, t =>
    match t.mapped n sp.tool.pen r with
    | (.point x y w clamped, t) =>
      match openRefusal t.st n with
      | some why => (t.refuse o n why).lose n (1 + rs.length)
      | none =>
        match t.openStroke n sp x y w clamped with
        | none => t
        | some (h, t) => Tx.inkPoints o n rs (t.toInk n h sp.tag false false)
    | (_, t) => Tx.openPoints o n sp rs t

end Sys2Proof.Machine
end

