-- ==== Sys2Proof/Machine/Erasing.lean ====
section
/-! DEFINITION. Erase groups, the eraser, retraction and restore (Chapter 5), and the store operations
erase and restore (R17, R18). -/

namespace Sys2Proof.Machine

/-- Change the queued group of an id. -/
def modGroup (s : State) (g : Rev) (f : EraseGroup → EraseGroup) : State :=
  { s with eraseQueue := s.eraseQueue.map fun x => if x.id = g then f x else x }

/-- The queued group of an id (R106, R110). -/
def queuedGroup (s : State) (g : Rev) : Option EraseGroup :=
  s.eraseQueue.find? fun x => decide (x.id = g)

/-- A fall of blocks held below the quota while quota-reached is true clears the flag and gives
QUOTA_CLEARED (R41, R101). -/
def quotaFell (s : State) (n : SeatNo) : State :=
  if (s.seat n).quotaReached && decide ((s.seat n).blocksHeld < (s.seat n).quota) then
    addNotice (s.modSeat n fun t => { t with quotaReached := false }) n .quotaCleared
  else s

/-- Put a stroke at the tail of a group's member list, creating the group at the tail of the Erase
Queue when no queued group has the id (R99, R101). -/
def joinGroup (s : State) (g : Rev) (h : Handle) (rev : Rev) (origin : Origin) (isOpen : Bool) : State :=
  if (queuedGroup s g).isSome then
    modGroup s g fun x => { x with members := x.members ++ [h], lastRev := rev }
  else { s with eraseQueue := s.eraseQueue ++ [⟨g, origin, rev, [h], isOpen⟩] }

/-- Erase (R17): a live CLOSED stroke becomes ERASED in the group; the owner's blocks held fall by the
chain length; the ERASED entry is called for. Any other stroke is left (R13). -/
def Tx.erase (t : Tx) (h : Handle) (g : Rev) (origin : Origin) (isOpen : Bool) : Tx :=
  let r := t.st.store.stroke h.idx
  if t.st.store.live h ∧ r.state = .closed then
    let t := t.on (joinGroup · g h t.rev origin isOpen)
    let t := t.on (modStroke · h.idx fun r =>
      { r with state := .erased, group := some g, eraseRev := some t.rev, lastRev := t.rev })
    let t := t.on (·.modSeat r.owner fun u => { u with blocksHeld := u.blocksHeld - r.chain.length })
    (t.on (quotaFell · r.owner)).call (.erased h g)
  else t

/-- The erase-skip counter grows by 1 (R100). -/
def Tx.skip (t : Tx) : Tx :=
  t.on fun s => { s with counters := { s.counters with eraseSkip := satAdd s.counters.eraseSkip 1 } }

/-! ### The eraser (section 5.2) -/

/-- The group an eraser point's hits join: the context's, or the one the transaction creates (R101). -/
def Tx.contextGroup (t : Tx) (group : Option Rev) : Rev := group.getD t.rev

/-- An eraser context records the id of the group it feeds (R101). -/
def setContextGroup (s : State) (n : SeatNo) (g : Option Rev) : State :=
  modItem s n fun i =>
    match i.kind with
    | .eraser tag layer page _ => { i with kind := .eraser tag layer page g }
    | _ => i

/-- The strokes of a Z list under one eraser point, back to front (R101): a CLOSED stroke in scope that
is hit is erased into the context's group; an OPEN one in scope that is hit is counted and left. -/
def Tx.hitStrokes (n : SeatNo) (scope : Scope) (ex ey ew : Nat) : List Handle → Tx → Tx
  | [], t => t
  | h :: hs, t =>
    let r := t.st.store.stroke h.idx
    let inScope := decide (scope = .any ∨ r.owner = n)
    let hit := inScope && hitTest t.st.store h.idx ex ey ew
    match (t.st.seat n).item with
    | some ⟨.eraser _ _ _ group, _, _, _, _⟩ =>
      if r.state = .closed && hit then
        let g := t.contextGroup group
        Tx.hitStrokes n scope ex ey ew hs
          ((t.erase h g (.seat n) true).on (setContextGroup · n (some g)))
      else if r.state = .opened && hit then Tx.hitStrokes n scope ex ey ew hs t.skip
      else Tx.hitStrokes n scope ex ey ew hs t
    | _ => t

/-- One point for the seat's eraser context (R60, R63, R72): a lift or a window drop runs no test. -/
def Tx.eraserPoint (t : Tx) (n : SeatNo) (r : RawPoint) : Tx :=
  match (t.st.seat n).item with
  | some ⟨.eraser _ layer page _, _, _, _, _⟩ =>
    match t.mapped n .eraser r with
    | (.point x y w _, t) =>
      Tx.hitStrokes n (t.st.seat n).rights.scope x y w (t.st.store.zlist page layer) t
    | (_, t) => t
  | _ => t

/-- The points of one input for the seat's eraser context, in order (R72). -/
def Tx.eraserPoints (n : SeatNo) (rs : List RawPoint) (t : Tx) : Tx :=
  rs.foldl (fun t r => t.eraserPoint n r) t

/-- Closing an eraser context (R89, R102): the group it holds takes no further member, and an ERASE
entry for it is pushed. The caller clears or replaces the open item. -/
def Tx.closeEraser (t : Tx) (n : SeatNo) (group : Option Rev) : Tx :=
  match group with
  | none => t
  | some g =>
    (t.on (modGroup · g fun x => { x with isOpen := false })).on (pushUndo · n (.erase g))

/-! ### Console erasure (section 5.6) -/

/-- Erase every CLOSED stroke of a list that matches, in order, into the transaction's console group;
each matching OPEN stroke is counted and left (R100, R111 to R113). The numbers are the strokes erased
and skipped so far. -/
def Tx.eraseAll (keep : Stroke → Bool) : List Handle → Tx × Nat × Nat → Tx × Nat × Nat
  | [], r => r
  | h :: hs, (t, erased, skipped) =>
    let r := t.st.store.stroke h.idx
    if keep r && decide (r.state = .closed) then
      Tx.eraseAll keep hs (t.erase h t.rev .console false, erased + 1, skipped)
    else if keep r && decide (r.state = .opened) then Tx.eraseAll keep hs (t.skip, erased, skipped + 1)
    else Tx.eraseAll keep hs (t, erased, skipped)

/-- The strokes of the given pages in ascending page, then layer, then Z index (R112, R113). -/
def strokesOf (st : Store) (pages : List PageNo) : List Handle :=
  pages.flatMap fun p => (List.finRange 4).flatMap fun l => st.zlist p l

/-- Erase the CLOSED strokes a seat owns on the given pages (R112, R113). -/
def Tx.eraseSeat (t : Tx) (n : SeatNo) (pages : List PageNo) : Tx × Nat × Nat :=
  Tx.eraseAll (fun r => decide (r.owner = n)) (strokesOf t.st.store pages) (t, 0, 0)

/-! ### Restore (section 5.5) -/

/-- Restore (R18): a live ERASED stroke becomes CLOSED again, out of its group; the owner's blocks held
grow by the chain length; the RESTORED entry is called for. -/
def Tx.restoreStroke (g : Rev) (t : Tx) (h : Handle) : Tx :=
  let r := t.st.store.stroke h.idx
  if t.st.store.live h ∧ r.state = .erased then
    let t := t.on (modStroke · h.idx fun r =>
      { r with state := .closed, group := none, eraseRev := none, lastRev := t.rev })
    let t := t.on (·.modSeat r.owner fun u => { u with blocksHeld := u.blocksHeld + r.chain.length })
    t.call (.restored h g)
  else t

/-- Any eraser context holding a group drops the group's id (R102). -/
def dropContexts (s : State) (g : Rev) : State :=
  { s with seats := s.seats.map fun t =>
      match t.item with
      | some i =>
        match i.kind with
        | .eraser tag layer page (some x) =>
          if x = g then { t with item := some { i with kind := .eraser tag layer page none } } else t
        | _ => t
      | none => t }

/-- Restoring a queued group (R109): every member in member-list order; the group leaves the Erase
Queue and ends. -/
def Tx.restoreGroup (t : Tx) (g : EraseGroup) : Tx :=
  let t := g.members.foldl (Tx.restoreStroke g.id) t
  t.on fun s =>
    dropContexts { s with eraseQueue := s.eraseQueue.filter fun x => decide (x.id ≠ g.id) } g.id

/-! ### Retraction (section 5.4) -/

/-- What a retraction did (R108). -/
inductive Retracted where
  | nothing
  | ink (h : Handle) (g : Rev) (count : Nat)
  | restored (g : Rev) (count : Nat)
  deriving DecidableEq, Repr

/-- Erase a stroke and, walking back, each predecessor that is live, CLOSED and of the same owner
(R107). The fuel bounds the walk by the number of records: each step erases one. -/
def Tx.eraseChain (origin : Origin) (owner : SeatNo) : Nat → Option Handle → Tx × Nat → Tx × Nat
  | 0, _, r => r
  | _, none, r => r
  | k + 1, some h, (t, c) =>
    let r := t.st.store.stroke h.idx
    if t.st.store.live h ∧ r.state = .closed ∧ r.owner = owner then
      Tx.eraseChain origin owner k r.pred (t.erase h t.rev origin false, c + 1)
    else (t, c)

/-- The retraction of a seat (R106): entries are popped from the top until one succeeds. -/
def Tx.retract (n : SeatNo) (origin : Origin) : List UndoEntry → Tx → Tx × Retracted
  | [], t => (t.on (·.modSeat n fun u => { u with undo := [] }), .nothing)
  | e :: rest, t =>
    let t := t.on (·.modSeat n fun u => { u with undo := rest })
    match e with
    | .ink h =>
      let r := t.st.store.stroke h.idx
      if t.st.store.live h ∧ r.state = .closed then
        match Tx.eraseChain origin r.owner Config.records (some h) (t, 0) with
        | (t, c) => (t, .ink h t.rev c)
      else Tx.retract n origin rest t
    | .erase g =>
      match queuedGroup t.st g with
      | some x => (t.restoreGroup x, .restored g x.members.length)
      | none => Tx.retract n origin rest t

/-- The retraction of a seat against its own stack, with its notice (R105, R108). -/
def Tx.runRetract (t : Tx) (n : SeatNo) (origin : Origin) : Tx × Retracted :=
  match Tx.retract n origin (t.st.seat n).undo t with
  | (t, r) =>
    (t.on (addNotice · n (if r = .nothing then .undoEmpty else .undoDone)), r)

end Sys2Proof.Machine
end

