-- ==== Sys2Proof/Machine/Drawing.lean ====
section
/-! DEFINITION. The life of a seat's open item (Chapter 4): deadlines, the end of an item by cut,
supersede or expiry, the three tablet and console drawing inputs, and the held point of a board
contact. -/

namespace Sys2Proof.Machine

/-! ### Deadlines (R75, R94) -/

/-- A seat joins the due-expiry set; none joins while the class is RESETTING (R94). -/
def joinDue (s : State) (n : SeatNo) : State :=
  if s.cls.state = .resetting then s
  else { s with maint := { s.maint with due := s.maint.due ||| BitVec.twoPow 40 n.val } }

/-- A seat's open item has a deadline the Timebase has reached (R94, R130). -/
def itemDue (s : State) (n : SeatNo) : Bool :=
  match (s.seat n).item with
  | some i => reached s.timebase i.deadline
  | none => false

/-- An input of this sample time was handled for the seat's open item: the deadline becomes the sample
time plus the idle time of the port, and a deadline already reached makes the seat join the
due-expiry set at once (R75, R94). -/
def setDeadline (s : State) (n : SeatNo) (sample : Time) : State :=
  let s := modItem s n fun i => { i with deadline := sample + ms (idleOf s n) }
  if itemDue s n then joinDue s n else s

/-! ### The end of an open item (section 4.5, R96) -/

/-- End a seat's open item (R89, R96): an open ink stroke is closed with the cause, an eraser context
as at END; an armed START and a held point are cleared. -/
def Tx.endItem (t : Tx) (n : SeatNo) (cause : CloseCause) : Tx :=
  match (t.st.seat n).item with
  | none => t
  | some i =>
    let t :=
      match i.kind with
      | .ink h tag => t.closeInk n h tag cause
      | .eraser _ _ _ g => t.closeEraser n g
      | .armed _ _ _ _ => t
      | .held _ => t
    t.on (setItem · n none)

/-- The cut of a seat (R96). -/
def Tx.cutSeat (t : Tx) (n : SeatNo) : Tx := t.endItem n .cut

/-- Serve a seat's cut-due, if it is true: the cut, and the flag cleared (R73 step 5, R97). -/
def Tx.serveCut (t : Tx) (n : SeatNo) : Tx :=
  if (t.st.seat n).cutDue then
    (t.cutSeat n).on (·.modSeat n fun u => { u with cutDue := false })
  else t

/-- Serve the cut-due of a list of seats, in order (R94, R97). -/
def Tx.serveCuts (ns : List SeatNo) (t : Tx) : Tx := ns.foldl Tx.serveCut t

/-- A held point becomes a one-point dot stroke, opened and closed in this transaction (R81, R85); a
refused open loses the point (R90). The contact is left with no open item. -/
def Tx.makeDot (t : Tx) (o : Origins) (n : SeatNo) (p : HeldPoint) (cause : CloseCause) : Tx :=
  let tag : Byte := BitVec.ofNat 8 n.val
  match openRefusal t.st n with
  | some why => ((t.refuse o n why).lose n 1).on (setItem · n none)
  | none =>
    let sp : OpenSpec := ⟨targetPage t.st n, p.layer, p.tool, p.colour, tag, false, none⟩
    match t.openStroke n sp p.x p.y p.w p.clamped with
    | none => t
    | some (h, t) => (t.closeInk n h tag cause).on (setItem · n none)

/-- A held point at an UP of this sample time: a dot, or a discard by the glitch filter with the board
glitch counter grown (R81). -/
def Tx.releaseHeld (t : Tx) (o : Origins) (n : SeatNo) (p : HeldPoint) (sample : Time)
    (cause : CloseCause) : Tx :=
  if t.st.cls.options.glitch * 1000 ≤ (sample - p.holdTime).toNat then t.makeDot o n p cause
  else
    (t.on fun s => { s with counters := { s.counters with glitch := satAdd s.counters.glitch 1 } }).on
      (setItem · n none)

/-- A seat in the due-expiry set is served (R94): an open item whose deadline is not later than the
transaction's time expires. -/
def Tx.expireSeat (t : Tx) (n : SeatNo) : Tx :=
  match (t.st.seat n).item with
  | none => t
  | some i =>
    if later i.deadline t.time then t
    else
      match i.kind with
      | .held p => t.releaseHeld ⟨.console, none⟩ n p t.time .expired
      | _ => t.endItem n .expired

/-! ### Before an input is handled (R32, R73) -/

/-- Steps 1 to 4 of R73 for a board or tablet drawing input: `seat` is the seat its contact or slot
names, `frozen` says whether a FROZEN class discards this kind (R49). `none` lets the input go on;
otherwise the state the disposal leaves. -/
def dispose (s : State) (o : Origins) (seat : Option SeatNo) (frozen : Bool) : Option State :=
  match seat with
  | none =>
    if s.cls.state = .resetting then some s
    else some (captureFault s .badSeat o.link none o.frame)
  | some n =>
    if s.cls.state = .resetting then some (countDiscard s n)
    else if frozen && decide (s.cls.state = .frozen) then some (countDiscard s n)
    else
      match (s.seat n).state with
      | .admitted => none
      | .vacant => some (captureFault s .notAdmitted o.link (some n) o.frame)
      | .muted | .barred => some (countDiscard s n)

/-! ### START (R82) -/

/-- How a START ended: it acted, it was refused for its layer, or refused at quota. -/
inductive StartOut where
  | acted | denied | atQuota
  deriving DecidableEq, Repr

/-- START for a seat (R82), tablet or console. -/
def Tx.beginInput (t : Tx) (o : Origins) (n : SeatNo) (tag tool layer colour : Byte) (sample : Time) :
    Tx × StartOut :=
  let u := t.st.seat n
  let denied := (t.on (captureFault · .denied o.link (some n) o.frame), StartOut.denied)
  match layerOfByte layer with
  | none => denied
  | some l =>
    if !inMask u.rights.layers l then denied
    else
      let tl := startTool u tool
      if tl ≠ .eraser ∧ atQuota t.st n then (t.on (countDiscard · n), .atQuota)
      else
        let kind : ItemKind :=
          match tl with
          | .eraser => .eraser tag l (targetPage t.st n) none
          | .highlight => .armed tag .highlight l (colourOr u colour)
          | .ink => .armed tag .ink l (colourOr u colour)
        let t := (t.endItem n .superseded).on (setItem · n (some { kind := kind }))
        (t.on (setDeadline · n sample), .acted)

/-! ### POINTS (R83, R86) -/

/-- The layer of the stroke the last-closed pair names, if its handle is live (R86). -/
def lastClosedLayer (s : State) (n : SeatNo) : Option LayerNo :=
  match (s.seat n).lastClosed with
  | some (_, h) => if s.store.live h then some (s.store.stroke h.idx).layer else none
  | none => none

/-- The handle a continuation continues: the last-closed pair has the frame's tag, its handle is live,
the record CLOSED and EXPIRED (R86). -/
def continues (s : State) (n : SeatNo) (tag : Byte) : Option Handle :=
  match (s.seat n).lastClosed with
  | some (g, h) =>
    let r := s.store.stroke h.idx
    if g = tag ∧ s.store.live h ∧ r.state = .closed ∧ r.flags.expired then some h else none
  | none => none

/-- The layer of the open item a frame supersedes (R86). -/
def itemLayer (s : State) (i : OpenItem) : LayerNo :=
  match i.kind with
  | .ink h _ => (s.store.stroke h.idx).layer
  | .armed _ _ l _ => l
  | .held p => p.layer
  | .eraser _ l _ _ => l

/-- The fixed fields of an ORPHAN stroke (R86); none where its layer is not in the seat's mask. -/
def orphanSpec (s : State) (n : SeatNo) (tag : Byte) : Option OpenSpec :=
  let u := s.seat n
  let plain (l : LayerNo) : OpenSpec :=
    ⟨targetPage s n, l, u.pen.tool, u.pen.colour, tag, true, none⟩
  let chosen : Option OpenSpec :=
    match u.item with
    | some i => some (plain (itemLayer s i))
    | none =>
      match continues s n tag with
      | some h =>
        let r := s.store.stroke h.idx
        some ⟨r.page, r.layer, r.tool, r.colour, tag, true, some h⟩
      | none =>
        match lastClosedLayer s n with
        | some l => some (plain l)
        | none => (lowestLayer u.rights.layers).map plain
  chosen.filter fun sp => inMask u.rights.layers sp.layer

/-- The tag of an open item: a held point's is its contact number (R42, R76). -/
def itemTag (n : SeatNo) (i : OpenItem) : Byte :=
  match i.kind with
  | .ink _ tag => tag
  | .armed tag _ _ _ => tag
  | .held _ => BitVec.ofNat 8 n.val
  | .eraser tag _ _ _ => tag

/-- POINTS that open an ORPHAN stroke (R83, R86): a layer outside the mask refuses the whole frame
before anything is closed; else the old item is ended and the first CODED point opens the stroke. The
Bool says that the frame was not refused. -/
def Tx.orphanPoints (t : Tx) (o : Origins) (n : SeatNo) (tag : Byte) (pts : List RawPoint)
    (sample : Time) : Tx × Bool :=
  match orphanSpec t.st n tag with
  | none => (t.on (captureFault · .denied o.link (some n) o.frame), false)
  | some sp =>
    let t := Tx.openPoints o n sp pts (t.endItem n .superseded)
    (t.on (setDeadline · n sample), true)

/-- POINTS for a seat (R83), tablet or console. The Bool says that the frame was not refused with
DENIED. -/
def Tx.pointsInput (t : Tx) (o : Origins) (n : SeatNo) (tag : Byte) (pts : List RawPoint)
    (sample : Time) : Tx × Bool :=
  match (t.st.seat n).item with
  | none => t.orphanPoints o n tag pts sample
  | some i =>
    if itemTag n i ≠ tag then t.orphanPoints o n tag pts sample
    else
      match i.kind with
      | .ink _ _ => ((Tx.inkPoints o n pts t).on (setDeadline · n sample), true)
      | .armed _ tool layer colour =>
        let sp : OpenSpec := ⟨targetPage t.st n, layer, tool, colour, tag, false, none⟩
        ((Tx.openPoints o n sp pts t).on (setDeadline · n sample), true)
      | .eraser _ _ _ _ => ((Tx.eraserPoints n pts t).on (setDeadline · n sample), true)
      | .held _ => t.orphanPoints o n tag pts sample

/-! ### END (R84) -/

/-- END for a seat (R84), tablet or console: the item the tag names is finished; a stale END is counted
in the discarded-frames counter. The Bool says that the END was not stale. -/
def Tx.finishInput (t : Tx) (n : SeatNo) (tag : Byte) : Tx × Bool :=
  match (t.st.seat n).item with
  | some i =>
    if itemTag n i = tag then (t.endItem n .plain, true) else (t.on (countDiscard · n), false)
  | none => (t.on (countDiscard · n), false)

/-! ### Board contacts (section 4.2) -/

/-- The origin of a board sample's faults. -/
def boardOrigin : Origins := ⟨.board, some 0x10#8⟩

/-- The default layer of a board seat (R40, R50). -/
def defaultLayer (s : State) (n : SeatNo) : LayerNo :=
  s.cls.options.layers[n.val % 4]

/-- Step 3 of R78: the contact's open item is ended; a held point is taken as at an UP of this
sample time. -/
def Tx.endContact (t : Tx) (n : SeatNo) (sample : Time) : Tx :=
  match (t.st.seat n).item with
  | some ⟨.held p, _, _, _, _⟩ => t.releaseHeld boardOrigin n p sample .superseded
  | _ => t.endItem n .superseded

/-- Steps 4 and 5 of R78: the new item of a DOWN. -/
def Tx.newContact (t : Tx) (n : SeatNo) (tool : PenTool) (x : Sample) : Tx :=
  let layer := defaultLayer t.st n
  let tag : Byte := BitVec.ofNat 8 n.val
  let hold (it : InkTool) (t : Tx) : Tx :=
    let colour := colourOr (t.st.seat n) x.frame.hint
    match t.mapped n it.pen x.frame.point with
    | (.point px py w clamped, t) =>
      t.on (setItem · n (some
        { kind := .held ⟨px, py, w, clamped, x.stamp, it, colour, layer⟩ }))
    | (_, t) => t
  let t :=
    match tool with
    | .eraser =>
      let t := t.on (setItem · n (some { kind := .eraser tag layer (targetPage t.st n) none }))
      t.eraserPoint n x.frame.point
    | .ink => hold .ink t
    | .highlight => hold .highlight t
  t.on (setDeadline · n x.stamp)

/-- DOWN for a seat (R78), also for a MOVE handled as a DOWN. -/
def Tx.downInput (t : Tx) (n : SeatNo) (tool : PenTool) (x : Sample) : Tx :=
  if !inMask (t.st.seat n).rights.layers (defaultLayer t.st n) then
    t.on (captureFault · .denied .board (some n) (some 0x10#8))
  else if tool ≠ .eraser ∧ atQuota t.st n then t.on (countDiscard · n)
  else (t.endContact n x.stamp).newContact n tool x

/-- The stroke of a held point opens at a CODED MOVE (R79, R80, R85, R90): the held point is entry 0,
the MOVE's point entry 1, with the break markers of the held item. A refused open loses the MOVE's
point and leaves the point held. -/
def Tx.openHeld (t : Tx) (n : SeatNo) (p : HeldPoint) (lift drop : Bool) (x y w : Nat)
    (clamped : Bool) : Tx :=
  let tag : Byte := BitVec.ofNat 8 n.val
  match openRefusal t.st n with
  | some why => (t.refuse boardOrigin n why).lose n 1
  | none =>
    let sp : OpenSpec := ⟨targetPage t.st n, p.layer, p.tool, p.colour, tag, false, none⟩
    match t.openStroke n sp p.x p.y p.w p.clamped with
    | none => t
    | some (h, t) =>
      match (t.toInk n h tag lift drop).storePoint boardOrigin n h tag lift drop x y w clamped with
      | (t, true) => t
      | (t, false) => t.lose n 1

/-- A MOVE that reaches a held point of its kind (R79). -/
def Tx.moveHeld (t : Tx) (n : SeatNo) (p : HeldPoint) (lift drop : Bool) (r : RawPoint) : Tx :=
  match t.mapped n p.tool.pen r with
  | (.lifted, t) => t.on (modItem · n fun i => { i with lift := true })
  | (.dropped, t) => t.on (modItem · n fun i => { i with drop := true })
  | (.point x y w clamped, t) =>
    if merges ⟨p.x, p.y, p.w, false⟩ (lift || drop) x y w then t
    else t.openHeld n p lift drop x y w clamped

/-- MOVE for a seat (R79). -/
def Tx.moveInput (t : Tx) (n : SeatNo) (tool : PenTool) (x : Sample) : Tx :=
  match (t.st.seat n).item with
  | some ⟨.held p, lift, drop, _, _⟩ =>
    if tool = .eraser then t.downInput n tool x
    else (t.moveHeld n p lift drop x.frame.point).on (setDeadline · n x.stamp)
  | some ⟨.ink _ _, _, _, _, _⟩ =>
    if tool = .eraser then t.downInput n tool x
    else (Tx.inkPoints boardOrigin n [x.frame.point] t).on (setDeadline · n x.stamp)
  | some ⟨.eraser _ _ _ _, _, _, _, _⟩ =>
    if tool = .eraser then (t.eraserPoint n x.frame.point).on (setDeadline · n x.stamp)
    else t.downInput n tool x
  | _ => t.downInput n tool x

/-- UP for a seat (R81). -/
def Tx.upInput (t : Tx) (n : SeatNo) (x : Sample) : Tx :=
  match (t.st.seat n).item with
  | some ⟨.held p, _, _, _, _⟩ => t.releaseHeld boardOrigin n p x.stamp .plain
  | _ => t.endItem n .plain

end Sys2Proof.Machine
end

