-- ==== Sys2Proof/Machine/Board.lean ====
section
/-! DEFINITION. The grants of Board Intake (section 4.2): DOWN, MOVE and UP samples. -/

namespace Sys2Proof.Machine

/-- A Board Intake grant that presents a sample of this phase: the oldest queued sample leaves the
queue at the decision (R118, R122). Where no such grant is the arbiter's decision, nothing happens. -/
def boardGrant (phase : Phase) (body : Sample → State → State) (s : State) : State :=
  match s.boardQueue with
  | [] => s
  | x :: rest =>
    if x.frame.phase = phase ∧ winner s = some .board then
      settle (body x { decideGrant s .board with boardQueue := rest })
    else s

/-- The steps of R73 for a contact sample: disposal, the seat's cut-due, the tool (R77), and then the
handling of its phase. -/
def contactInput (handle : SeatNo → PenTool → Sample → Tx → Tx) (x : Sample) (s : State) : State :=
  match dispose s boardOrigin (seatOfContact x.frame.contact) false with
  | some s => s
  | none =>
    match seatOfContact x.frame.contact with
    | none => s
    | some n =>
      let t := (Tx.start s).serveCut n
      match contactTool t.st (t.st.seat n) x.frame.tool with
      | none => t.commit
      | some tool => (handle n tool x t).commit

/-- DOWN (R78). -/
def execDown (s : State) : Host.Outcome State Fault Refusal :=
  .next (boardGrant .down (contactInput fun n tool x t => t.downInput n tool x) s)

/-- MOVE (R79). -/
def execMove (s : State) : Host.Outcome State Fault Refusal :=
  .next (boardGrant .move (contactInput fun n tool x t => t.moveInput n tool x) s)

/-- UP (R81). -/
def execUp (s : State) : Host.Outcome State Fault Refusal :=
  .next (boardGrant .up (contactInput fun n _ x t => t.upInput n x) s)

end Sys2Proof.Machine
end

