-- ==== Sys2Proof/Machine/Bursts.lean ====
section
/-! DEFINITION. The grants of the two scan contexts: one burst each (R118, R138). -/

namespace Sys2Proof.Machine

/-- A display grant whose walk has a mode `mine` accepts, when it is the arbiter's decision now. -/
def displayGrant (mine : WalkMode → Bool) (burst : State → Walk) (s : State) : State :=
  if mine s.display.mode ∧ winner s = some .display then
    let s := decideGrant s .display
    settle (afterDisplay s (burst s))
  else s

/-- SWEEP_BURST (R143 to R146). -/
def execSweepBurst (s : State) : Host.Outcome State Fault Refusal :=
  .next (displayGrant (·.isSweep) (fun s => sweepBurstOf s.store false s.display) s)

/-- FOLLOW_BURST (R149 to R151). -/
def execFollowBurst (s : State) : Host.Outcome State Fault Refusal :=
  .next (displayGrant (fun m => decide (m = .follow))
    (fun s => followBurstOf s.store s.journal s.timebase s.display) s)

/-- FETCH_BURST (R148). -/
def execFetchBurst (s : State) : Host.Outcome State Fault Refusal :=
  .next (displayGrant (fun m => decide (m = .fetch)) (fun s => fetchBurstOf s.store s.display) s)

/-- SNAPSHOT_BURST (R162 to R165). -/
def execSnapshotBurst (s : State) : Host.Outcome State Fault Refusal :=
  .next <|
    if winner s = some .snapshot then
      let s := decideGrant s .snapshot
      settle (afterSnapshot s (sweepBurstOf s.store true s.snapshot))
    else s

end Sys2Proof.Machine
end

