-- ==== Sys2Proof/Machine/Reclaim.lean ====
section
/-! DEFINITION. The store operation free (R19) with what follows it in the scan contexts (R145), and
the reclaimer (section 5.7). -/

namespace Sys2Proof.Machine

/-- The position of a sweep after a stroke at a Z index left a list: it falls by 1 when the stroke
stood below it in its own list (R145). -/
def shiftPosition (page : PageNo) (layer : LayerNo) (zi : Nat) (c : ScanCtx) : ScanCtx :=
  if c.mode.isSweep ∧ c.pos.page = page ∧ c.pos.layer = layer ∧ zi < c.pos.z then
    { c with pos := { c.pos with z := c.pos.z - 1 } }
  else c

/-- Free (R19): the blocks of the chain go onto the free stack, oldest first; the handle leaves its Z
list; every field but the generation is cleared; the record joins the tail of the free list. A FREE
record is left as it is (R13). -/
def freeRecord (s : State) (i : RecIdx) : State :=
  let r := s.store.stroke i
  if r.state = .free then s
  else
    let zl := s.store.zlist r.page r.layer
    let zi := zl.findIdx fun h => decide (h.idx = i)
    let st := { s.store with
      freeBlocks := s.store.freeBlocks.push r.chain
      freeRecs := s.store.freeRecs.give i }
    let st := st.setZ r.page r.layer (zl.filter fun h => decide (h.idx ≠ i))
    let st := st.setStroke i { gen := r.gen }
    { s with
      store := st
      display := shiftPosition r.page r.layer zi s.display
      snapshot := shiftPosition r.page r.layer zi s.snapshot }

/-- Detach the head group if none is under reclaim and the head can be taken while the demand is
active (R115, R116). -/
def detachHead (s : State) : State :=
  if s.maint.underReclaim.isSome then s
  else if demandActive s then
    match takeableHead s with
    | none => s
    | some g =>
      { s with eraseQueue := s.eraseQueue.tail, maint := { s.maint with underReclaim := some g } }
  else s

/-- Free up to 16 members of the group under reclaim, oldest erased first; a freed record clears
table-full pending; the group ends with its last member (R114, R116). -/
def freeMembers (s : State) : State :=
  match s.maint.underReclaim with
  | none => s
  | some g =>
    let now := g.members.take Config.reclaimPerGrant
    let left := g.members.drop Config.reclaimPerGrant
    let s' := now.foldl (fun s h => freeRecord s h.idx) s
    { s' with maint := { s'.maint with
        underReclaim := if left.isEmpty then none else some { g with members := left }
        tableFull := if now.isEmpty then s'.maint.tableFull else false } }

/-- One reclaim grant (R116). -/
def reclaimGrant (s : State) : State := freeMembers (detachHead s)

/-- Take a record the class clearance freed out of its erase group; a group left with no member leaves
the Erase Queue, or ceases to be held under reclaim (R54). -/
def unlinkMember (s : State) (i : RecIdx) : State :=
  let drop (g : EraseGroup) : EraseGroup :=
    { g with members := g.members.filter fun h => decide (h.idx ≠ i) }
  { s with
    eraseQueue := (s.eraseQueue.map drop).filter fun g => !g.members.isEmpty
    maint := { s.maint with
      underReclaim := (s.maint.underReclaim.map drop).filter fun g => !g.members.isEmpty } }

/-- One record freed by the class clearance: an ERASED one also leaves its group (R30, R54). -/
def clearRecord (s : State) (i : RecIdx) : State :=
  let s' := freeRecord s i
  if (s.store.stroke i).state = .erased then unlinkMember s' i else s'

/-- The non-FREE records, lowest index first: the Stroke Table lists its records in that order. -/
def nonFree (st : Store) : List RecIdx :=
  (st.strokes.filter fun p => decide (p.2.state ≠ .free)).map fun p => p.1

end Sys2Proof.Machine
end

