-- ==== Sys2Proof/Machine/Power.lean ====
section
/-! DEFINITION. Power-on reset and the class clearance (R29, R53 to R56, R197). -/

namespace Sys2Proof.Machine

/-- Step 3 of R53 for one seat. -/
def Seat.cleared (u : Seat) : Seat :=
  { u with item := none, undo := [], lastClosed := none, cutDue := false, handUp := false }

/-- The first grant of a clearance with this prior state (R53): no change entry, no revision. Step 5's hand
flags are lowered with step 3's fields. Step 6 gives CLASS_RESET in ascending seat number: R56 has the seats
join the Notice Queue so at power-on; in a RESET CLASS, where R53 and R47 give no order to the seats whose
sets were empty, it is the model's choice (DESIGN CHOICE, log entry 42). -/
def firstClearance (prior : ClassState) (s : State) : State :=
  let s := { s with cls := { s.cls with state := .resetting, prior := prior } }
  let s := resetWalks s
  let s := { s with
    seats := s.seats.map Seat.cleared
    eraseQueue := s.eraseQueue.map fun g => { g with isOpen := false }
    hands := [] }
  let s := tabletSeats.foldl (fun s n => addNotice s n .classReset) s
  { s with maint := { s.maint with due := 0 } }

/-- A seat's quota-reached flag at the end of the clearance: cleared, with QUOTA_CLEARED where the flag
was true and the quota is above 0 (R41, R55). -/
def endQuota (s : State) (n : SeatNo) : State :=
  if (s.seat n).quotaReached then
    let s := s.modSeat n fun u => { u with quotaReached := false }
    if 0 < (s.seat n).quota then addNotice s n .quotaCleared else s
  else s

/-- Steps 2 to 4 of R55 up to the CLASS_RESET entry, and the end of table-full pending (R114). The order
in which QUOTA_CLEARED is given is the model's choice: ascending seat number (DESIGN CHOICE, log entry
42). -/
def clearanceEnd (s : State) : State :=
  let s := { s with
    eraseQueue := []
    maint := { s.maint with underReclaim := none, tableFull := false }
    seats := s.seats.map fun u => { u with blocksHeld := 0 } }
  let s := allSeats.foldl endQuota s
  { s with journal := { entries := [], lost := s.store.rev } }

/-- Up to 64 non-FREE records are freed, lowest index first (R30, R54). -/
def freeSome (s : State) : State :=
  ((nonFree s.store).take Config.clearancePerGrant).foldl clearRecord s

/-- A later grant of a clearance (R54), with its end where no non-FREE record remains (R55). -/
def laterClearance (s : State) : State :=
  let t := (Tx.start s).on freeSome
  if (nonFree t.st.store).isEmpty then
    let s := ((t.on clearanceEnd).call .classReset).commit
    let s := { s with
      cls := { s.cls with state := s.cls.prior }
      consoleQueue := s.consoleQueue.tail
      commandGrant := some { left := true, replied := false } }
    testDemands (latch s .classReady)
  else t.commit

/-- POWER_ON_RESET: every block takes its power-on value, and the power-on clearance stands at the head
of the console queue (R29, R56, R197). The commands that wait outside the part go on waiting. -/
def execPowerOnReset (s : State) : Host.Outcome State Fault Refusal :=
  .next { State.reset with pending := s.pending }

/-- POWER_ON_CLEARANCE: the first grant of the power-on clearance, with prior state OPEN and without a
reply (R53, R56, R119). -/
def execPowerOnClearance (s : State) : Host.Outcome State Fault Refusal :=
  .next <|
    match s.consoleQueue with
    | .clearance false :: rest =>
      if winner s = some .console then
        settle (firstClearance .opened
          { decideGrant s .console with consoleQueue := .clearance true :: rest })
      else s
    | _ => s

/-- CLASS_CLEARANCE_GRANT: a later grant of RESET CLASS or of the power-on clearance (R54, R55). -/
def execClassClearanceGrant (s : State) : Host.Outcome State Fault Refusal :=
  .next <|
    if winner s = some .console ∧ clearanceRuns s then
      settle (laterClearance (decideGrant s .console))
    else s

end Sys2Proof.Machine
end

