-- ==== Sys2Proof/Machine/ClassCommands.lean ====
section
/-! DEFINITION. The console commands that act on the class (sections 2.8 and 2.9). -/

namespace Sys2Proof.Machine

/-- Cut every tablet seat; a seat without an open item is left (R49, R96). The order of the cuts, and so
of their CLOSED entries, is the model's choice: ascending seat number (DESIGN CHOICE, log entry 42). -/
def Tx.cutTablets (t : Tx) : Tx := tabletSeats.foldl Tx.cutSeat t

/-- Set the class state. -/
def setClassState (s : State) (c : ClassState) : State := { s with cls := { s.cls with state := c } }

/-- FREEZE (R49). -/
def execFreeze (s : State) : Host.Outcome State Fault Refusal :=
  .next (serveCommand 0x09#8 rNone (fun _ t =>
    if t.st.cls.state = .opened then
      let t := t.cutTablets.on (setClassState · .frozen)
      t.answer .ok (w48 t.revTaken)
    else t.answer .state) s)

/-- THAW (R49). -/
def execThaw (s : State) : Host.Outcome State Fault Refusal :=
  .next (serveCommand 0x0A#8 rNone (fun _ t =>
    if t.st.cls.state = .frozen then (t.on (setClassState · .opened)).answer .ok
    else t.answer .state) s)

/-- PAGE_SHOWN for one tablet seat: given to an ADMITTED or MUTED one (R51). -/
def noticePage (s : State) (n : SeatNo) : State :=
  match (s.seat n).state with
  | .admitted | .muted => addNotice s n .pageShown
  | .vacant | .barred => s

/-- SHOW PAGE of a page (R51). The order in which seats whose sets were empty join the Notice Queue is the
model's choice: ascending seat number (DESIGN CHOICE, log entry 42). -/
def showPageBody (p : PageNo) (t : Tx) : Served :=
  let t := t.on fun s => { s with cls := { s.cls with shown := p } }
  let t := t.call (.pageShown p)
  let t := t.on fun s => tabletSeats.foldl noticePage s
  t.answer .ok (w48 t.revTaken)

/-- SHOW PAGE (R51). -/
def execShowPage (s : State) : Host.Outcome State Fault Refusal :=
  .next (serveCommand 0x0B#8 r8 (fun b t =>
    match pageOfByte b with
    | none => t.answer .range
    | some p => showPageBody p t) s)

/-- RESET CLASS, its first grant (R53): answered ACCEPTED at once; the command stays at the head. It
takes no parameter; one that carries any is answered RANGE. -/
def execResetClass (s : State) : Host.Outcome State Fault Refusal :=
  .next <|
    match consoleGrant s 0x0C#8 with
    | none => s
    | some (tag, params) =>
      let d := decideGrant s .console
      if params.isEmpty then
        settle (placeReply
          { firstClearance d.cls.state d with commandGrant := some { left := false, replied := true } }
          ⟨tag, 0x0C#8, .accepted, []⟩)
      else finishCommand d ⟨tag, 0x0C#8, .range, []⟩

/-! ### SET CLASS OPTIONS (R50) -/

/-- The items of a SET CLASS OPTIONS as sent. -/
structure OptionItems where
  fingerInk : Option Bool
  glitch : Option Nat
  boardIdle : Option Nat
  tabletIdle : Option Nat
  consoleIdle : Option Nat
  reserve : Option Nat
  layers : Vector (Option Byte) 4
  deriving DecidableEq, Repr

/-- The parameters of SET CLASS OPTIONS: finger ink is listed "off, on", so 0 is off (R50, R198). -/
def rOptionItems : Reader OptionItems := fun bs => do
  let (fing, r) ← rOpt 1 (rEnum 2) bs
  let (glitch, r) ← rOpt 2 r16 r
  let (board, r) ← rOpt 2 r16 r
  let (tablet, r) ← rOpt 2 r16 r
  let (console, r) ← rOpt 2 r16 r
  let (reserve, r) ← rOpt 2 r16 r
  let (a, r) ← rOpt 1 r8 r
  let (b, r) ← rOpt 1 r8 r
  let (c, r) ← rOpt 1 r8 r
  let (d, r) ← rOpt 1 r8 r
  some (⟨fing.map fun k => decide (k = 1), glitch, board, tablet, console, reserve, #v[a, b, c, d]⟩, r)

/-- A value clamped to a range. -/
def clampTo (lo hi n : Nat) : Nat := max lo (min hi n)

/-- A default layer item: above 3 fails, absent keeps (R50). -/
def layerItem (old : LayerNo) : Option Byte → Option LayerNo
  | none => some old
  | some b => layerOfByte b

/-- The class options after a SET CLASS OPTIONS, each present item clamped; none where a default layer
lies above 3 (R50). -/
def applyOptions (o : ClassOptions) (i : OptionItems) : Option ClassOptions := do
  let a ← layerItem o.layers[0] i.layers[0]
  let b ← layerItem o.layers[1] i.layers[1]
  let c ← layerItem o.layers[2] i.layers[2]
  let d ← layerItem o.layers[3] i.layers[3]
  some
    { fingerInk := i.fingerInk.getD o.fingerInk
      glitch := (i.glitch.map (clampTo 0 255)).getD o.glitch
      boardIdle := (i.boardIdle.map (clampTo 50 5000)).getD o.boardIdle
      tabletIdle := (i.tabletIdle.map (clampTo 100 10000)).getD o.tabletIdle
      consoleIdle := (i.consoleIdle.map (clampTo 100 10000)).getD o.consoleIdle
      reserve := (i.reserve.map (clampTo 0 2048)).getD o.reserve
      layers := #v[a, b, c, d] }

/-- Every class option as data (R50). -/
def wOptions (o : ClassOptions) : Bytes :=
  w8 o.fingerInk.toNat ++ w16 o.glitch ++ w16 o.boardIdle ++ w16 o.tabletIdle ++ w16 o.consoleIdle
    ++ w16 o.reserve ++ o.layers.toList.flatMap fun l => w8 l.val

/-- SET CLASS OPTIONS (R50). -/
def execSetClassOptions (s : State) : Host.Outcome State Fault Refusal :=
  .next (serveCommand 0x0D#8 rOptionItems (fun items t =>
    match applyOptions t.st.cls.options items with
    | none => t.answer .range
    | some o =>
      (t.on fun s => { s with cls := { s.cls with options := o } }).answer .ok (wOptions o)) s)

/-! ### READ STATUS (R52) -/

/-- The class-wide state as READ STATUS gives it (R52). -/
def wStatus (s : State) : Bytes :=
  w8 s.cls.state.code ++ w8 s.cls.shown.val ++ wOptions s.cls.options
    ++ w48 s.store.rev ++ w48 s.journal.lost
    ++ w16 s.store.freeRecs.size ++ w16 s.store.freeBlocks.size
    ++ w16 s.eraseQueue.length ++ wPresent s.maint.underReclaim.isSome
    ++ w8 s.hands.length ++ w8 s.noticeQueue.length
    ++ w8 s.display.state.code ++ w8 s.snapshot.state.code
    ++ w8 s.consoleQueue.length

/-- READ STATUS (R52). -/
def execReadStatus (s : State) : Host.Outcome State Fault Refusal :=
  .next (serveCommand 0x0E#8 rNone (fun _ t => t.answer .ok (wStatus t.st)) s)

end Sys2Proof.Machine
end

