-- ==== Sys2Proof/Machine/SeatCommands.lean ====
section
/-! DEFINITION. The console commands that act on seats (sections 2.2 to 2.4). -/

namespace Sys2Proof.Machine

/-- A seat parameter. -/
def rSeat : Reader Byte := r8

/-- A command that names a seat: a seat above 39 is answered RANGE. -/
def onSeat (b : Byte) (body : SeatNo → Tx → Served) (t : Tx) : Served :=
  match seatOfByte b with
  | none => t.answer .range
  | some n => body n t

/-- Set a seat's state. -/
def setSeatState (s : State) (n : SeatNo) (st : SeatState) : State :=
  s.modSeat n fun u => { u with state := st }

/-- ADMIT SEAT for one seat (R33). -/
def admitBody (n : SeatNo) (t : Tx) : Served :=
  match (t.st.seat n).state with
  | .vacant => (t.on fun s => addNotice (setSeatState s n .admitted) n .admitted).answer .ok
  | .admitted => t.answer .ok
  | .muted | .barred => t.answer .state

/-- ADMIT SEAT (R33). -/
def execAdmitSeat (s : State) : Host.Outcome State Fault Refusal :=
  .next (serveCommand 0x01#8 rSeat (fun b => onSeat b admitBody) s)

/-- VACATE SEAT for one seat (R34). -/
def vacateBody (n : SeatNo) (t : Tx) : Served :=
  if (t.st.seat n).state = .vacant then t.answer .ok (w48 0)
  else
    let t := t.cutSeat n
    let t := t.on (·.modSeat n fun u => { u with undo := [], lastClosed := none, cutDue := false })
    let t := t.on (lowerHand · n)
    let t := t.on (setSeatState · n .vacant)
    let t := t.on (addNotice · n .vacated)
    t.answer .ok (w48 t.revTaken)

/-- VACATE SEAT (R34). -/
def execVacateSeat (s : State) : Host.Outcome State Fault Refusal :=
  .next (serveCommand 0x02#8 rSeat (fun b => onSeat b vacateBody) s)

/-! ### CONFIGURE SEAT (R38) -/

/-- The groups of a CONFIGURE SEAT as sent. -/
structure SeatItems where
  mapping : Option (Nat × Nat × Int × Int)
  window : Option (Nat × Nat × Nat × Nat × Policy)
  pen : Option (Byte × InkTool × Byte × Byte × Byte)
  rights : Option Rights
  target : Option Byte
  quota : Option Nat
  deriving DecidableEq, Repr

/-- MAPPING: sx, sy, ox, oy. -/
def rMapping : Reader (Nat × Nat × Int × Int) := fun bs => do
  let (sx, r) ← r24 bs
  let (sy, r) ← r24 r
  let (ox, r) ← ri16 r
  let (oy, r) ← ri16 r
  some ((sx, sy, ox, oy), r)

/-- WINDOW: wx0, wx1, wy0, wy1, policy. -/
def rWindow : Reader (Nat × Nat × Nat × Nat × Policy) := fun bs => do
  let (a, r) ← r16 bs
  let (b, r) ← r16 r
  let (c, r) ← r16 r
  let (d, r) ← r16 r
  let (p, r) ← rEnum 2 r
  some ((a, b, c, d, if p = 0 then .clamp else .drop), r)

/-- PEN: colour, tool, wmin, wmax, ew. -/
def rPen : Reader (Byte × InkTool × Byte × Byte × Byte) := fun bs => do
  let (c, r) ← r8 bs
  let (t, r) ← rEnum 2 r
  let (lo, r) ← r8 r
  let (hi, r) ← r8 r
  let (ew, r) ← r8 r
  some ((c, if t = 0 then .ink else .highlight, lo, hi, ew), r)

/-- RIGHTS: layer mask, erase scope. -/
def rRights : Reader Rights := fun bs => do
  let (m, r) ← rSet8 4 bs
  let (k, r) ← rEnum 2 r
  some (⟨m, if k = 0 then .own else .any⟩, r)

/-- The parameters of CONFIGURE SEAT: the seat, then the six groups. -/
def rSeatItems : Reader (Byte × SeatItems) := fun bs => do
  let (n, r) ← r8 bs
  let (mapping, r) ← rOpt 10 rMapping r
  let (window, r) ← rOpt 9 rWindow r
  let (pen, r) ← rOpt 5 rPen r
  let (rights, r) ← rOpt 2 rRights r
  let (target, r) ← rOpt 1 r8 r
  let (quota, r) ← rOpt 2 r16 r
  some ((n, ⟨mapping, window, pen, rights, target, quota⟩), r)

/-- The MAPPING check (R38). -/
def checkMapping : Nat × Nat × Int × Int → Option Mapping
  | (sx, sy, ox, oy) =>
    if sx ≤ 131071 ∧ sy ≤ 131071 ∧ (-16384) ≤ ox ∧ ox ≤ 16383 ∧ (-16384) ≤ oy ∧ oy ≤ 16383 then
      some ⟨sx, sy, ox, oy⟩
    else none

/-- The WINDOW check (R38). -/
def checkWindow : Nat × Nat × Nat × Nat × Policy → Option Window
  | (a, b, c, d, p) =>
    if a ≤ b ∧ c ≤ d ∧ b ≤ Config.maxX ∧ d ≤ Config.maxY then some ⟨a, b, c, d, p⟩ else none

/-- The PEN check, and ew clamped to 8..255 (R38). -/
def checkPen : Byte × InkTool × Byte × Byte × Byte → Option Pen
  | (c, t, lo, hi, ew) =>
    if h : c.toNat < 64 then
      if 1 ≤ lo.toNat ∧ lo.toNat ≤ hi.toNat then
        some ⟨⟨c.toNat, h⟩, t, lo.toNat, hi.toNat, max 8 ew.toNat⟩
      else none
    else none

/-- The TARGET check: FFh is FOLLOW, else a page (R38). -/
def checkTarget (b : Byte) : Option Target :=
  if b = 0xFF#8 then some .follow else (pageOfByte b).map Target.fixed

/-- The code of a target page. -/
def wTarget : Target → Bytes
  | .follow => [0xFF#8]
  | .fixed p => w8 p.val

/-- A mapping as data. -/
def wMapping (m : Mapping) : Bytes := w24 m.sx ++ w24 m.sy ++ wi16 m.ox ++ wi16 m.oy

/-- A window with its policy as data. -/
def wWindow (w : Window) : Bytes :=
  w16 w.wx0 ++ w16 w.wx1 ++ w16 w.wy0 ++ w16 w.wy1 ++ w8 w.policy.code

/-- A pen context as data. -/
def wPen (p : Pen) : Bytes := w8 p.colour.val ++ w8 p.tool.code ++ w8 p.wmin ++ w8 p.wmax ++ w8 p.ew

/-- Rights as data. -/
def wRights (r : Rights) : Bytes := w8 r.layers.toNat ++ w8 r.scope.code

/-- A present group checked: `some none` for an absent group, `none` for a failed check. -/
def checkGroup {α β : Type} (f : α → Option β) : Option α → Option (Option β)
  | none => some none
  | some a => (f a).map some

/-- The groups of a CONFIGURE SEAT once every present one has passed its check. -/
structure SeatSettings where
  mapping : Option Mapping
  window : Option Window
  pen : Option Pen
  rights : Option Rights
  target : Option Target
  quota : Option Nat
  deriving DecidableEq, Repr

/-- Every present group checked before any is written; the quota clamped to 8192 (R38). -/
def checkItems (i : SeatItems) : Option SeatSettings := do
  let mapping ← checkGroup checkMapping i.mapping
  let window ← checkGroup checkWindow i.window
  let pen ← checkGroup checkPen i.pen
  let target ← checkGroup checkTarget i.target
  some ⟨mapping, window, pen, i.rights, target, i.quota.map (min · 8192)⟩

/-- Write the present groups (R38). -/
def Seat.configured (u : Seat) (c : SeatSettings) : Seat :=
  { u with
    mapping := c.mapping.getD u.mapping
    window := c.window.getD u.window
    pen := c.pen.getD u.pen
    rights := c.rights.getD u.rights
    target := c.target.getD u.target
    quota := c.quota.getD u.quota }

/-- The stored values of the groups written, in the command's form (R38). -/
def wSettings (c : SeatSettings) : Bytes :=
  wOpt 10 wMapping c.mapping ++ wOpt 9 wWindow c.window ++ wOpt 5 wPen c.pen
    ++ wOpt 2 wRights c.rights ++ wOpt 1 wTarget c.target ++ wOpt 2 w16 c.quota

/-- CONFIGURE SEAT for one seat (R38); a QUOTA group may clear quota-reached (R41). -/
def configureBody (items : SeatItems) (n : SeatNo) (t : Tx) : Served :=
  match checkItems items with
  | none => t.answer .range
  | some c =>
    let t := t.on (·.modSeat n (·.configured c))
    let t := if c.quota.isSome then t.on (quotaFell · n) else t
    t.answer .ok (wSettings c)

/-- CONFIGURE SEAT (R38). -/
def execConfigureSeat (s : State) : Host.Outcome State Fault Refusal :=
  .next (serveCommand 0x03#8 rSeatItems (fun (b, items) => onSeat b (configureBody items)) s)

/-! ### MUTE, UNMUTE, BAR, UNBAR -/

/-- MUTE for one seat (R35). -/
def muteBody (n : SeatNo) (t : Tx) : Served :=
  if (t.st.seat n).state = .admitted then
    let t := t.cutSeat n
    let t := t.on fun s => addNotice (setSeatState s n .muted) n .muted
    t.answer .ok (w48 t.revTaken)
  else t.answer .state

/-- MUTE (R35). -/
def execMute (s : State) : Host.Outcome State Fault Refusal :=
  .next (serveCommand 0x04#8 rSeat (fun b => onSeat b muteBody) s)

/-- UNMUTE for one seat (R35). -/
def unmuteBody (n : SeatNo) (t : Tx) : Served :=
  if (t.st.seat n).state = .muted then
    (t.on fun s => addNotice (setSeatState s n .admitted) n .unmuted).answer .ok
  else t.answer .state

/-- UNMUTE (R35). -/
def execUnmute (s : State) : Host.Outcome State Fault Refusal :=
  .next (serveCommand 0x05#8 rSeat (fun b => onSeat b unmuteBody) s)

/-- BAR for one seat (R36, R100, R113): the erase step, the cut, the hand, the notice. The reply carries
the skip count of the erase step (R100) behind the data of R36 (log entry 34). -/
def barBody (n : SeatNo) (t : Tx) : Served :=
  match (t.st.seat n).state with
  | .admitted | .muted =>
    match t.eraseSeat n (List.finRange 16) with
    | (t, erased, skipped) =>
      let t := t.cutSeat n
      let t := t.on (lowerHand · n)
      let t := t.on fun s => addNotice (setSeatState s n .barred) n .barred
      t.answer .ok
        (w48 t.revTaken ++ wOpt 6 w48 (if 0 < erased then some t.rev else none) ++ w16 skipped)
  | .vacant | .barred => t.answer .state

/-- BAR (R36). -/
def execBar (s : State) : Host.Outcome State Fault Refusal :=
  .next (serveCommand 0x06#8 rSeat (fun b => onSeat b barBody) s)

/-- UNBAR for one seat (R37). -/
def unbarBody (n : SeatNo) (t : Tx) : Served :=
  if (t.st.seat n).state = .barred then
    (t.on fun s => addNotice (setSeatState s n .admitted) n .admitted).answer .ok
  else t.answer .state

/-- UNBAR (R37). -/
def execUnbar (s : State) : Host.Outcome State Fault Refusal :=
  .next (serveCommand 0x07#8 rSeat (fun b => onSeat b unbarBody) s)

/-! ### READ SEAT (R39) -/

/-- The kind of an open item: none, ink stroke, armed START, held point, eraser context (R39). -/
def itemCode : Option OpenItem → Nat
  | none => 0
  | some i =>
    match i.kind with
    | .ink _ _ => 1
    | .armed _ _ _ _ => 2
    | .held _ => 3
    | .eraser _ _ _ _ => 4

/-- The handle of an open ink stroke. -/
def itemHandle (i : Option OpenItem) : Option Handle :=
  match i with
  | some ⟨.ink h _, _, _, _, _⟩ => some h
  | _ => none

/-- An undo entry as data: 0 INK and its handle, or 1 ERASE and its group id (R43). -/
def wUndo : UndoEntry → Bytes
  | .ink h => w8 0 ++ wHandle h
  | .erase g => w8 1 ++ w48 g

/-- The seat record as READ SEAT gives it (R39). -/
def wSeat (n : SeatNo) (u : Seat) : Bytes :=
  w8 u.state.code ++ w8 (portOf n).code ++ wMapping u.mapping ++ wWindow u.window ++ wPen u.pen
    ++ wRights u.rights ++ wTarget u.target
    ++ w16 u.quota ++ w16 u.blocksHeld ++ wFirst u.quotaReached
    ++ w8 (itemCode u.item) ++ wOpt 1 (fun t : Byte => [t]) (u.item.map (itemTag n))
    ++ wOpt 3 wHandle (itemHandle u.item)
    ++ wFirst u.cutDue
    ++ w8 u.undo.length ++ wList wUndo u.undo
    ++ wFirst u.handUp ++ w16 u.notices.toNat
    ++ w16 u.clipped ++ w16 u.dropped ++ w16 u.discarded

/-- READ SEAT (R39). -/
def execReadSeat (s : State) : Host.Outcome State Fault Refusal :=
  .next (serveCommand 0x08#8 rSeat (fun b => onSeat b fun n t => t.answer .ok (wSeat n (t.st.seat n))) s)

end Sys2Proof.Machine
end

