-- ==== Sys2Proof/Machine/DrawingCommands.lean ====
section
/-! DEFINITION. The console drawing commands (section 4.4). -/

namespace Sys2Proof.Machine

/-- The origin of a console drawing command's faults: the frame kind COMMAND (R172). -/
def commandOrigin : Origins := ⟨.console, some 0x30#8⟩

/-- The steps of R73 for a console drawing command: a seat outside 36..39 is answered RANGE, a seat not
ADMITTED STATE (R32, R87); then the seat's cut-due and the handling of its kind. -/
def consoleInput (b : Byte) (handle : SeatNo → Tx → Served) (t : Tx) : Served :=
  match seatOfConsole b with
  | none => t.answer .range
  | some n =>
    if (t.st.seat n).state = .admitted then handle n (t.serveCut n) else t.answer .state

/-- The parameters of START STROKE: seat, tag, tool, layer, colour. -/
def rStartStroke : Reader (Byte × Byte × Byte × Byte × Byte) := fun bs => do
  let (n, r) ← r8 bs
  let (tag, r) ← r8 r
  let (tool, r) ← r8 r
  let (layer, r) ← r8 r
  let (colour, r) ← r8 r
  some ((n, tag, tool, layer, colour), r)

/-- The result of a START STROKE (R87). -/
def StartOut.result : StartOut → Result
  | .acted => .ok
  | .denied => .denied
  | .atQuota => .full

/-- START STROKE for one seat (R82, R87): a layer above 3 is answered RANGE and captures no fault. R82 gives
a START with such a layer fault DENIED, R87 gives that fault to a denied START STROKE and this one the
result RANGE: that RANGE is no denial is the model's reading (DEDUCED, log entry 44). -/
def startStrokeBody (tag tool layer colour : Byte) (n : SeatNo) (t : Tx) : Served :=
  if layer.toNat < 4 then
    match t.beginInput commandOrigin n tag tool layer colour t.time with
    | (t, out) => t.answer out.result (w48 t.revTaken)
  else t.answer .range

/-- START STROKE (R87). -/
def execStartStroke (s : State) : Host.Outcome State Fault Refusal :=
  .next (serveCommand 0x0F#8 rStartStroke (fun (b, tag, tool, layer, colour) =>
    consoleInput b (startStrokeBody tag tool layer colour)) s)

/-- The parameters of ADD POINTS: seat, tag, and a list of points. -/
def rAddPoints : Reader (Byte × Byte × List RawPoint) := fun bs => do
  let (n, r) ← r8 bs
  let (tag, r) ← r8 r
  let (k, r) ← r16 r
  let (pts, r) ← rPoints k r
  some ((n, tag, pts), r)

/-- The data of ADD POINTS: the handle of the seat's open ink stroke after the command, the revision,
the number stored and the number lost (R87). -/
def addPointsData (t : Tx) (n : SeatNo) : Bytes :=
  wOpt 3 wHandle (itemHandle (t.st.seat n).item) ++ w48 t.revTaken ++ w8 t.stored ++ w8 t.lost

/-- ADD POINTS for one seat (R83, R87): FULL where a record was needed and none was free. -/
def addPointsBody (tag : Byte) (pts : List RawPoint) (n : SeatNo) (t : Tx) : Served :=
  match t.pointsInput commandOrigin n tag pts t.time with
  | (t, taken) =>
    let result : Result := if !taken then .denied else if t.noRecord then .full else .ok
    t.answer result (addPointsData t n)

/-- ADD POINTS (R87): a count other than 1..24 is answered RANGE. -/
def execAddPoints (s : State) : Host.Outcome State Fault Refusal :=
  .next (serveCommand 0x10#8 rAddPoints (fun (b, tag, pts) t =>
    if 1 ≤ pts.length ∧ pts.length ≤ 24 then consoleInput b (addPointsBody tag pts) t
    else t.answer .range) s)

/-- The parameters of END STROKE: seat, tag. -/
def rEndStroke : Reader (Byte × Byte) := fun bs => do
  let (n, r) ← r8 bs
  let (tag, r) ← r8 r
  some ((n, tag), r)

/-- END STROKE for one seat (R84, R87): a stale one is counted and answered NOTHING. -/
def endStrokeBody (tag : Byte) (n : SeatNo) (t : Tx) : Served :=
  match ({ t with closed := none }).finishInput n tag with
  | (t, true) => t.answer .ok (w48 t.revTaken ++ wOpt 3 wHandle t.closed)
  | (t, false) => t.answer .nothing

/-- END STROKE (R87). -/
def execEndStroke (s : State) : Host.Outcome State Fault Refusal :=
  .next (serveCommand 0x11#8 rEndStroke (fun (b, tag) => consoleInput b (endStrokeBody tag)) s)

end Sys2Proof.Machine
end

