-- ==== Sys2Proof/Machine/HandCommands.lean ====
section
/-! DEFINITION. The console commands that act on the Hand Queue (R46). -/

namespace Sys2Proof.Machine

/-- The hand map: a flag for each seat, down for board and console seats (R46). -/
def handMap (s : State) : BitVec 40 :=
  tabletSeats.foldl (fun m n => if (s.seat n).handUp then m ||| BitVec.twoPow 40 n.val else m) 0

/-- HAND POLL (R46). -/
def execHandPoll (s : State) : Host.Outcome State Fault Refusal :=
  .next (serveCommand 0x17#8 rNone (fun _ t =>
    t.answer .ok (wSeatMask (handMap t.st) ++ wList (fun n : SeatNo => w8 n.val) t.st.hands)) s)

/-- CALL NEXT (R46). -/
def execCallNext (s : State) : Host.Outcome State Fault Refusal :=
  .next (serveCommand 0x18#8 rNone (fun _ t =>
    match t.st.hands with
    | [] => t.answer .nothing
    | n :: _ => (t.on (lowerHand · n)).answer .ok (w8 n.val)) s)

/-- Every hand lowered and the queue emptied (R46). -/
def clearHands (s : State) : State :=
  { s with seats := s.seats.map fun u => { u with handUp := false }, hands := [] }

/-- CLEAR HANDS (R46). -/
def execClearHands (s : State) : Host.Outcome State Fault Refusal :=
  .next (serveCommand 0x19#8 rNone (fun _ t => (t.on clearHands).answer .ok) s)

end Sys2Proof.Machine
end

