-- ==== Sys2Proof/Machine/InkCommands.lean ====
section
/-! DEFINITION. The console commands that act on ink (sections 1.3, 5.4 to 5.6). -/

namespace Sys2Proof.Machine

/-- The reply of a console erasure (R111): OK with the group id, the numbers erased and skipped and the
revision, or NOTHING with the number skipped. -/
def erasureReply (r : Tx × Nat × Nat) : Served :=
  match r with
  | (t, erased, skipped) =>
    if erased = 0 then t.answer .nothing (w16 skipped)
    else t.answer .ok (w48 t.rev ++ w16 erased ++ w16 skipped ++ w48 t.revTaken)

/-- Two bytes. -/
def rPair : Reader (Byte × Byte) := fun bs => do
  let (a, r) ← r8 bs
  let (b, r) ← r8 r
  some ((a, b), r)

/-- CLEAR LAYER of a page-layer (R111). -/
def clearLayerBody (p : PageNo) (l : LayerNo) (t : Tx) : Served :=
  erasureReply (Tx.eraseAll (fun _ => true) (t.st.store.zlist p l) (t, 0, 0))

/-- CLEAR LAYER (R111). -/
def execClearLayer (s : State) : Host.Outcome State Fault Refusal :=
  .next (serveCommand 0x12#8 rPair (fun (p, l) t =>
    match pageOfByte p, layerOfByte l with
    | some p, some l => clearLayerBody p l t
    | _, _ => t.answer .range) s)

/-- The pages a "page or ALL" parameter names; none above 15 (R112, R198). -/
def pagesNamed (b : Byte) : Option (List PageNo) :=
  if b = 0xFF#8 then some (List.finRange 16) else (pageOfByte b).map fun p => [p]

/-- ERASE SEAT INK (R112). -/
def execEraseSeatInk (s : State) : Host.Outcome State Fault Refusal :=
  .next (serveCommand 0x13#8 rPair (fun (n, p) t =>
    match seatOfByte n, pagesNamed p with
    | some n, some ps => erasureReply (t.eraseSeat n ps)
    | _, _ => t.answer .range) s)

/-- The reply of RETRACT (R108): kind, handle or group id, group created, count, revision. -/
def retractReply (r : Tx × Retracted) : Served :=
  match r with
  | (t, .nothing) => t.answer .nothing
  | (t, .ink h g k) =>
    t.answer .ok (w8 0 ++ wHandle h ++ wOpt 6 w48 (some g) ++ w16 k ++ w48 t.revTaken)
  | (t, .restored g k) =>
    t.answer .ok (w8 1 ++ w48 g ++ wOpt 6 w48 none ++ w16 k ++ w48 t.revTaken)

/-- RETRACT (R105 to R108): for any seat, in any seat state. -/
def execRetract (s : State) : Host.Outcome State Fault Refusal :=
  .next (serveCommand 0x14#8 r8 (fun b t =>
    match seatOfByte b with
    | none => t.answer .range
    | some n => retractReply (t.runRetract n .console)) s)

/-- A group's origin as data: the seat where it is one, absent for console. -/
def wOrigin : Origin → Bytes
  | .seat n => wOpt 1 (fun n : SeatNo => w8 n.val) (some n)
  | .console => wOpt 1 (fun n : SeatNo => w8 n.val) none

/-- RESTORE GROUP (R110). -/
def execRestoreGroup (s : State) : Host.Outcome State Fault Refusal :=
  .next (serveCommand 0x15#8 r48 (fun g t =>
    match queuedGroup t.st g with
    | none => t.answer .nothing
    | some x =>
      let t := t.restoreGroup x
      t.answer .ok (w48 t.revTaken ++ w16 x.members.length ++ wOrigin x.origin)) s)

/-- A stroke record as READ STROKE gives it (R21). -/
def wStroke (h : Handle) (r : Stroke) : Bytes :=
  wHandle h ++ w8 r.state.code ++ w8 r.owner.val ++ w8 r.page.val ++ w8 r.layer.val
    ++ w8 r.tool.code ++ w8 r.colour.val ++ [r.tag]
    ++ w48 r.openTime ++ wOpt 6 w48 r.closeTime ++ w48 r.openRev ++ w48 r.lastRev
    ++ w16 r.count ++ w8 r.chain.length ++ wBox r.box ++ [r.flags.toByte]
    ++ wOpt 3 wHandle r.pred ++ wOpt 6 w48 r.group ++ wOpt 6 w48 r.eraseRev

/-- READ STROKE (R21): RANGE for an index above 4095, GONE for a handle that is not live. -/
def execReadStroke (s : State) : Host.Outcome State Fault Refusal :=
  .next (serveCommand 0x16#8 rHandle (fun w t =>
    match handleOf w with
    | none => t.answer .range
    | some h =>
      if t.st.store.live h then t.answer .ok (wStroke h (t.st.store.stroke h.idx))
      else t.answer .gone) s)

end Sys2Proof.Machine
end

