-- ==== Sys2Proof/Machine/ReportCommands.lean ====
section
/-! DEFINITION. The reporting commands (Chapter 9, R131) and SET ARBITER (R127). -/

namespace Sys2Proof.Machine

/-! ### Attention (R180 to R182) -/

/-- All sources in attention order (R178). -/
def allSources : List (Fin 11) := List.finRange 11

/-- A source is pending and enabled (R179). -/
def isRaised (a : Attention) (x : Fin 11) : Bool := a.pending.getLsbD x.val && a.enabled.getLsbD x.val

/-- The highest source with its level: of the pending enabled ones the one of highest level, the first
in attention order among equals (R180). -/
def highestSource (a : Attention) : Option (Fin 11 × Fin 4) :=
  (allSources.filter (isRaised a)).foldl
    (fun best x =>
      match best with
      | some (y, l) => if l < a.levels[x.val] then some (x, a.levels[x.val]) else some (y, l)
      | none => some (x, a.levels[x.val]))
    none

/-- READ ATTENTION (R180). -/
def execReadAttention (s : State) : Host.Outcome State Fault Refusal :=
  .next (serveCommand 0x1F#8 rNone (fun _ t =>
    t.answer .ok
      (wOpt 2 (fun p : Fin 11 × Fin 4 => w8 p.1.val ++ w8 p.2.val) (highestSource t.st.attention)
        ++ w16 t.st.attention.pending.toNat)) s)

/-- Write the pending set, and answer with it (R181). -/
def answerPending (pending : BitVec 11) (t : Tx) : Served :=
  (t.on fun s => { s with attention := { s.attention with pending := pending } }).answer .ok
    (w16 pending.toNat)

/-- ACK ATTENTION (R181). -/
def execAckAttention (s : State) : Host.Outcome State Fault Refusal :=
  .next (serveCommand 0x20#8 (rSet16 11) (fun mask t =>
    answerPending (t.st.attention.pending &&& ~~~mask) t) s)

/-- Two source masks. -/
def rTwoMasks : Reader (BitVec 11 × BitVec 11) := fun bs => do
  let (a, r) ← rSet16 11 bs
  let (b, r) ← rSet16 11 r
  some ((a, b), r)

/-- SET ATTENTION (R181): a source named in both masks is left as it was. -/
def execSetAttention (s : State) : Host.Outcome State Fault Refusal :=
  .next (serveCommand 0x21#8 rTwoMasks (fun (set, clear) t =>
    answerPending ((t.st.attention.pending ||| (set &&& ~~~clear)) &&& ~~~(clear &&& ~~~set)) t) s)

/-- An item of CONFIGURE ATTENTION: an optional enable and an optional level. -/
def rSourceItem : Reader (Option Bool × Option Byte) := fun bs => do
  let (e, r) ← rOpt 1 rFirst bs
  let (l, r) ← rOpt 1 r8 r
  some ((e, l), r)

/-- `n` items, in attention order. -/
def rSourceItems : Nat → Reader (List (Option Bool × Option Byte))
  | 0, bs => some ([], bs)
  | n + 1, bs => do
    let (i, r) ← rSourceItem bs
    let (is, r) ← rSourceItems n r
    some (i :: is, r)

/-- A level as taken: above 3 is 3 (R182). -/
def levelOf (b : Byte) : Fin 4 := ⟨min b.toNat 3, by omega⟩

/-- Write the item of one source (R182). -/
def Attention.configured (a : Attention) (x : Fin 11) (i : Option Bool × Option Byte) : Attention :=
  let bit := BitVec.twoPow 11 x.val
  { a with
    enabled :=
      match i.1 with
      | none => a.enabled
      | some true => a.enabled ||| bit
      | some false => a.enabled &&& ~~~bit
    levels :=
      match i.2 with
      | none => a.levels
      | some b => updAt a.levels x fun _ => levelOf b }

/-- Write the items of all sources (R182). -/
def Attention.configureAll (a : Attention) (is : List (Option Bool × Option Byte)) : Attention :=
  (allSources.zip is).foldl (fun a p => a.configured p.1 p.2) a

/-- Every source's enable and level as data (R182); an enable is "on or off". -/
def wSources (a : Attention) : Bytes :=
  allSources.flatMap fun x => wFirst (a.enabled.getLsbD x.val) ++ w8 a.levels[x.val].val

/-- CONFIGURE ATTENTION (R182). -/
def execConfigureAttention (s : State) : Host.Outcome State Fault Refusal :=
  .next (serveCommand 0x22#8 (rSourceItems 11) (fun is t =>
    let t := t.on fun s => { s with attention := s.attention.configureAll is }
    t.answer .ok (wSources t.st.attention)) s)

/-! ### Fault Capture (R174) -/

/-- A first-fault record as data (R173). -/
def wFault (r : FaultRecord) : Bytes :=
  w8 r.kind.code ++ w8 (linkCode r.link) ++ wOpt 1 (fun n : SeatNo => w8 n.val) r.seat
    ++ wOpt 1 (fun b : Byte => [b]) r.frame ++ w48 r.rev ++ w48 r.time

/-- READ FAULT (R174): the record and the count, both then cleared. -/
def execReadFault (s : State) : Host.Outcome State Fault Refusal :=
  .next (serveCommand 0x23#8 rNone (fun _ t =>
    let data := wOpt 18 wFault t.st.faults.record ++ w16 t.st.faults.count
    (t.on fun s => { s with faults := {} }).answer .ok data) s)

/-! ### Counters (R177) -/

/-- The three counters of each seat, in seat order (R175). -/
def wSeatCounters (s : State) : Bytes :=
  allSeats.flatMap fun n =>
    w16 (s.seat n).clipped ++ w16 (s.seat n).dropped ++ w16 (s.seat n).discarded

/-- The two class counters (R176). -/
def wClassCounters (c : Counters) : Bytes := w16 c.glitch ++ w16 c.eraseSkip

/-- A counter of each link: R176 and R177 do not list the links; the order Board, Tablet, Console, Display, in
which Chapter 10 gives them, is the model's choice (DEDUCED, log entry 22). -/
def wPerLink (p : PerLink) : Bytes := w16 p.board ++ w16 p.tablet ++ w16 p.console ++ w16 p.display

/-- The link counters, in the order of R176. -/
def wLinkCounters (c : Counters) : Bytes :=
  wPerLink c.badFrames ++ wPerLink c.linkResets
    ++ w16 c.boardDiscards ++ w16 c.tabletDiscards ++ w16 c.consoleDiscards
    ++ w16 c.displaced ++ w16 c.heldAnswers ++ w16 c.busyAnswers ++ w16 c.droppedRequests

/-- READ COUNTERS (R177). -/
def execReadCounters (s : State) : Host.Outcome State Fault Refusal :=
  .next (serveCommand 0x24#8 rNone (fun _ t =>
    t.answer .ok
      (wSeatCounters t.st ++ wClassCounters t.st.counters ++ wLinkCounters t.st.counters)) s)

/-- The counters of the named groups, bit 0 SEATS, 1 CLASS, 2 LINKS, set to 0 (R177). -/
def clearGroups (g : BitVec 3) (s : State) : State :=
  let s := if g.getLsbD 0 then
      { s with seats := s.seats.map fun u => { u with clipped := 0, dropped := 0, discarded := 0 } }
    else s
  let s := if g.getLsbD 1 then
      { s with counters := { s.counters with glitch := 0, eraseSkip := 0 } }
    else s
  if g.getLsbD 2 then
    { s with counters := { glitch := s.counters.glitch, eraseSkip := s.counters.eraseSkip } }
  else s

/-- The counters of the named groups as data (R177). -/
def wGroups (g : BitVec 3) (s : State) : Bytes :=
  (if g.getLsbD 0 then wSeatCounters s else [])
    ++ (if g.getLsbD 1 then wClassCounters s.counters else [])
    ++ (if g.getLsbD 2 then wLinkCounters s.counters else [])

/-- CLEAR COUNTERS (R177). -/
def execClearCounters (s : State) : Host.Outcome State Fault Refusal :=
  .next (serveCommand 0x25#8 (rSet8 3) (fun g t =>
    (t.on (clearGroups g)).answer .ok (wGroups g t.st)) s)

/-! ### READ TIME (R131) -/

/-- READ TIME (R131). -/
def execReadTime (s : State) : Host.Outcome State Fault Refusal :=
  .next (serveCommand 0x26#8 rNone (fun _ t => t.answer .ok (w48 t.time ++ w48 t.st.store.rev)) s)

/-! ### SET ARBITER (R127) -/

/-- The parameters of SET ARBITER: an optional enable, "on or off", and an optional period. -/
def rArbiterItems : Reader (Option Bool × Option Nat) := fun bs => do
  let (e, r) ← rOpt 1 rFirst bs
  let (p, r) ← rOpt 2 r16 r
  some ((e, p), r)

/-- The period as taken: 8..255 (R127). -/
def periodOf (p : Nat) : Nat := max 8 (min p 255)

/-- The arbiter after the present items are written (R127). -/
def Arbiter.configured (a : Arbiter) (i : Option Bool × Option Nat) : Arbiter :=
  let off := i.1 = some false
  { enabled := i.1.getD a.enabled
    period := (i.2.map periodOf).getD a.period
    counter := if i.1.isSome ∨ i.2.isSome then 0 else a.counter
    waiting := if off then 0 else a.waiting
    elevated := if off then 0 else a.elevated }

/-- All requesters in the fixed order (R118). -/
def allRequesters : List Requester := [.console, .board, .display, .tablet, .snapshot, .maintenance]

/-- The arbiter's state as SET ARBITER gives it (R127). `after` is the state at the end of the
transaction, with the command gone and its reply placed. -/
def wArbiter (after : State) : Bytes :=
  wFirst after.arbiter.enabled ++ w16 after.arbiter.period ++ w16 after.arbiter.counter
    ++ allRequesters.flatMap fun r =>
      wPresent (requests after r) ++ wFirst (decide (after.arbiter.waiting &&& r.bit ≠ 0))
        ++ wFirst (decide (after.arbiter.elevated &&& r.bit ≠ 0))

/-- SET ARBITER (R127). -/
def execSetArbiter (s : State) : Host.Outcome State Fault Refusal :=
  .next (serveCommand 0x27#8 rArbiterItems (fun i t =>
    let t := t.on fun s => { s with arbiter := s.arbiter.configured i }
    t.answer .ok (wArbiter (finishCommand t.commit ⟨0, 0x27#8, .ok, []⟩))) s)

end Sys2Proof.Machine
end

