-- ==== Sys2Proof/Machine/Requests.lean ====
section
/-! DEFINITION. The five display requests at their arrival (section 8.1). -/

namespace Sys2Proof.Machine

/-- SWEEP (R142, R154 to R156). -/
def execSweep (tag : Byte) (form : SweepForm) (limit : BitVec 32) (s : State) :
    Host.Outcome State Fault Refusal :=
  .next (settle (requestArrives s tag (.sweep form limit)))

/-- CONTINUE (R147, R154 to R156). -/
def execContinueWalk (tag : Byte) (limit : BitVec 32) (s : State) :
    Host.Outcome State Fault Refusal :=
  .next (settle (requestArrives s tag (.resume limit)))

/-- FOLLOW (R149, R154 to R156). -/
def execFollow (tag : Byte) (start : Rev) (timeout : BitVec 16) (limit : BitVec 32) (s : State) :
    Host.Outcome State Fault Refusal :=
  .next (settle (requestArrives s tag (.follow start timeout limit)))

/-- FETCH (R148, R154 to R156). -/
def execFetch (tag : Byte) (handle : WireHandle) (s : State) : Host.Outcome State Fault Refusal :=
  .next (settle (requestArrives s tag (.fetch handle)))

/-- STOP (R157): the held request is dropped and a running walk ends with STOPPED, under its own tag;
STOP's tag is echoed in nothing. -/
def execStop (_tag : Byte) (s : State) : Host.Outcome State Fault Refusal :=
  .next <| settle <|
    let s := { s with displayPending := none }
    if s.display.running then endDisplay s .stopped .none else s

end Sys2Proof.Machine
end

