-- ==== Sys2Proof/Machine/SnapshotCommands.lean ====
section
/-! DEFINITION. The console commands of the snapshot context (R161, R165). -/

namespace Sys2Proof.Machine

/-- The parameters of START SNAPSHOT: sweep form, limit. -/
def rSnapshot : Reader (SweepForm × Nat) := fun bs => do
  let (f, r) ← rForm bs
  let (l, r) ← r32 r
  some ((f, l), r)

/-- START SNAPSHOT: RANGE, BUSY or ACCEPTED (R161). `tag` is the command's tag, which the walk's
records carry (R164). -/
def startSnapshotBody (tag : Byte) (form : SweepForm) (limit : Nat) (t : Tx) : Served :=
  match formStart form with
  | none => t.answer .range
  | some (m, p) =>
    if t.st.snapshot.state = .walking ∨ snapshotDones t.st ≠ 0 then t.answer .busy
    else
      (t.on fun s => { s with snapshot := sweepCtx s.snapshot tag form m p limit }).answer .accepted

/-- The tag of the head command. -/
def headTag (s : State) : Byte :=
  match s.consoleQueue with
  | .cmd tag _ _ :: _ => tag
  | _ => 0

/-- START SNAPSHOT (R161). -/
def execStartSnapshot (s : State) : Host.Outcome State Fault Refusal :=
  .next (serveCommand 0x1A#8 rSnapshot (fun (f, l) => startSnapshotBody (headTag s) f l) s)

/-- STOP SNAPSHOT (R165): the WALK_DONE is placed before the reply. -/
def execStopSnapshot (s : State) : Host.Outcome State Fault Refusal :=
  .next (serveCommand 0x1B#8 rNone (fun _ t =>
    if t.st.snapshot.state = .walking then (t.on (endSnapshot · .stopped)).answer .ok
    else t.answer .nothing) s)

end Sys2Proof.Machine
end

