-- ==== Sys2Proof/Machine/Tablet.lean ====
section
/-! DEFINITION. The grants of Tablet Intake: START, POINTS, END (section 4.3), UNDO (section 5.4) and
HAND (section 2.6). -/

namespace Sys2Proof.Machine

/-- A Tablet Intake grant that presents a frame `pick` accepts: the oldest queued frame leaves the
queue at the decision (R118, R122). Where no such grant is the arbiter's decision, nothing happens. -/
def tabletGrant {α : Type} (pick : TabletFrame → Option α) (body : α → State → State) (s : State) :
    State :=
  match s.tabletQueue with
  | [] => s
  | f :: rest =>
    match pick f with
    | none => s
    | some a =>
      if winner s = some .tablet then
        settle (body a { decideGrant s .tablet with tabletQueue := rest })
      else s

/-- The origin of a tablet frame's faults, by its kind (R172). -/
def tabletOrigin (kind : Byte) : Origins := ⟨.tablet, some kind⟩

/-- The steps of R73 for a tablet drawing frame: disposal, the seat's cut-due, the handling of its
kind. -/
def slotInput (kind slot : Byte) (handle : Origins → SeatNo → Tx → Tx) (s : State) : State :=
  let o := tabletOrigin kind
  match dispose s o (seatOfSlot slot) true with
  | some s => s
  | none =>
    match seatOfSlot slot with
    | none => s
    | some n => (handle o n ((Tx.start s).serveCut n)).commit

/-- The fields of a START. -/
def TabletFrame.asStart : TabletFrame → Option (Byte × Byte × Byte × Byte × Byte)
  | .begin slot tag tool layer colour => some (slot, tag, tool, layer, colour)
  | _ => none

/-- The fields of a POINTS. -/
def TabletFrame.asPoints : TabletFrame → Option (Byte × Byte × List RawPoint)
  | .points slot tag pts => some (slot, tag, pts)
  | _ => none

/-- The fields of an END. -/
def TabletFrame.asEnd : TabletFrame → Option (Byte × Byte)
  | .finish slot tag => some (slot, tag)
  | _ => none

/-- The slot of an UNDO. -/
def TabletFrame.asUndo : TabletFrame → Option Byte
  | .undo slot => some slot
  | _ => none

/-- The fields of a HAND. -/
def TabletFrame.asHand : TabletFrame → Option (Byte × Bool)
  | .hand slot up => some (slot, up)
  | _ => none

/-- START (R82). -/
def execStart (s : State) : Host.Outcome State Fault Refusal :=
  .next <| tabletGrant TabletFrame.asStart (fun (slot, tag, tool, layer, colour) =>
    slotInput 0x20#8 slot fun o n t => (t.beginInput o n tag tool layer colour t.time).1) s

/-- POINTS (R83). -/
def execPoints (s : State) : Host.Outcome State Fault Refusal :=
  .next <| tabletGrant TabletFrame.asPoints (fun (slot, tag, pts) =>
    slotInput 0x21#8 slot fun o n t => (t.pointsInput o n tag pts t.time).1) s

/-- END (R84). -/
def execEndFrame (s : State) : Host.Outcome State Fault Refusal :=
  .next <| tabletGrant TabletFrame.asEnd (fun (slot, tag) =>
    slotInput 0x22#8 slot fun _ n t => (t.finishInput n tag).1) s

/-- The handling of an UNDO: steps 1 to 4 of R73, then the retraction. The cut-due is not served and
the open item stays (R105). -/
def undoInput (slot : Byte) (s : State) : State :=
  match dispose s (tabletOrigin 0x23#8) (seatOfSlot slot) true with
  | some s => s
  | none =>
    match seatOfSlot slot with
    | none => s
    | some n => ((Tx.start s).runRetract n (.seat n)).1.commit

/-- UNDO (R105). -/
def execUndo (s : State) : Host.Outcome State Fault Refusal :=
  .next (tabletGrant TabletFrame.asUndo undoInput s)

/-- A taken HAND (R45). -/
def raiseHand (s : State) (n : SeatNo) (up : Bool) : State :=
  if up then
    if (s.seat n).handUp then s
    else
      latch { s.modSeat n fun u => { u with handUp := true } with hands := s.hands ++ [n] } .hand
  else if (s.seat n).handUp then lowerHand s n
  else s

/-- The handling of a HAND (R32, R45, R54): taken while FROZEN, and for a MUTED seat. -/
def handInput (slot : Byte) (up : Bool) (s : State) : State :=
  let o := tabletOrigin 0x24#8
  match seatOfSlot slot with
  | none => if s.cls.state = .resetting then s else captureFault s .badSeat o.link none o.frame
  | some n =>
    if s.cls.state = .resetting then countDiscard s n
    else
      match (s.seat n).state with
      | .admitted | .muted => raiseHand s n up
      | .barred => countDiscard s n
      | .vacant => captureFault s .notAdmitted o.link (some n) o.frame

/-- HAND (R45). -/
def execHand (s : State) : Host.Outcome State Fault Refusal :=
  .next (tabletGrant TabletFrame.asHand (fun (slot, up) => handInput slot up) s)

end Sys2Proof.Machine
end

