-- ==== Sys2Proof/Machine/Timers.lean ====
section
/-! DEFINITION. What the passing of time does (R94, R128 to R130, R151) and the grants of the
Maintenance Unit (R94, R97, R116). -/

namespace Sys2Proof.Machine

/-- The seats whose open item's deadline the Timebase has reached, as a seat set (R94). -/
def reachedSeats (s : State) : BitVec 40 :=
  allSeats.foldl (fun m n => if itemDue s n then m ||| BitVec.twoPow 40 n.val else m) 0

/-- Every seat whose deadline has been reached joins the due-expiry set; none while RESETTING (R94). -/
def joinReached (s : State) : State :=
  if s.cls.state = .resetting then s
  else { s with maint := { s.maint with due := s.maint.due ||| reachedSeats s } }

/-- A WAITING follow whose deadline has been reached ends with TIMEOUT (R151). -/
def followTimer (s : State) : State :=
  match s.display.state, s.display.deadline with
  | .waiting, some d => if reached s.timebase d then endDisplay s .timeout .none else s
  | _, _ => s

/-- `n` microseconds pass: the Timebase counts on, and what its deadlines call for happens (R128,
R130). -/
def elapse (n : Nat) (s : State) : State :=
  settle (followTimer (joinReached { s with timebase := s.timebase + BitVec.ofNat 48 n }))

/-- One microsecond passes with no command waiting: what `step` does on an empty queue (log entry 3). -/
def tick (s : State) : State := elapse 1 s

/-- The microseconds until a deadline; 0 where it has been reached (R130). -/
def untilTime (now d : Time) : Nat := if reached now d then 0 else (d - now).toNat

/-- FOLLOW_DEADLINE_REACHED (R151): time passes until a WAITING follow's deadline. -/
def execFollowDeadlineReached (s : State) : Host.Outcome State Fault Refusal :=
  .next <|
    match s.display.state, s.display.deadline with
    | .waiting, some d => elapse (untilTime s.timebase d) s
    | _, _ => s

/-- DEADLINE_REACHED (R94): time passes until the deadline of a seat's open item. -/
def execDeadlineReached (seat : SeatNo) (s : State) : Host.Outcome State Fault Refusal :=
  .next <|
    match (s.seat seat).item with
    | some i => elapse (untilTime s.timebase i.deadline) s
    | none => s

/-- The seats with cut-due (R94, R97). The order of their cuts, and so of their CLOSED entries, is the model's
choice: ascending seat number (DESIGN CHOICE, log entry 42). -/
def cutDueSeats (s : State) : List SeatNo := allSeats.filter fun n => (s.seat n).cutDue

/-- The seats of the due-expiry set, ascending (R94). -/
def dueSeats (s : State) : List SeatNo := allSeats.filter fun n => s.maint.due.getLsbD n.val

/-- A Maintenance grant that does not go to reclaim: the cuts, then the expiries (R94). -/
def serveDue (s : State) : State :=
  let t := Tx.serveCuts (cutDueSeats s) (Tx.start s)
  let t := (dueSeats s).foldl Tx.expireSeat t
  (t.on fun s => { s with maint := { s.maint with due := 0 } }).commit

/-- One Maintenance grant's work (R94): decided by the cut-due flags and the due-expiry set. -/
def maintain (s : State) : State :=
  if anyCutDue s || decide (s.maint.due ≠ 0) then serveDue s
  else ((Tx.start s).on reclaimGrant).commit

/-- MAINTENANCE_GRANT (R94, R97, R116). -/
def execMaintenanceGrant (s : State) : Host.Outcome State Fault Refusal :=
  .next <|
    if winner s = some .maintenance then settle (maintain (decideGrant s .maintenance)) else s

end Sys2Proof.Machine
end

