-- ==== Sys2Proof/Machine/WatchCommands.lean ====
section
/-! DEFINITION. The console commands of the Region Watch unit (R168). -/

namespace Sys2Proof.Machine

/-- The watch a byte names; none above 3 (R168). -/
def watchOfByte (b : Byte) : Option (Fin 4) := if h : b.toNat < 4 then some ⟨b.toNat, h⟩ else none

/-- Change one watch entry. -/
def modWatch (s : State) (n : Fin 4) (f : Watch → Watch) : State :=
  { s with watches := updAt s.watches n f }

/-- A command that names a watch: a number above 3 is answered RANGE. -/
def onWatch (b : Byte) (body : Fin 4 → Tx → Served) (t : Tx) : Served :=
  match watchOfByte b with
  | none => t.answer .range
  | some n => body n t

/-- The parameters of an ARM WATCH as sent. -/
structure WatchItems where
  page : Byte
  rect : Box
  layers : BitVec 4
  seats : BitVec 40
  kinds : BitVec 4
  enables : BitVec 3
  combine : Combine
  deriving DecidableEq, Repr

/-- The parameters of ARM WATCH: watch, page, rectangle, layer mask, seat mask, kind mask, enables,
combine. -/
def rWatchItems : Reader (Byte × WatchItems) := fun bs => do
  let (n, r) ← r8 bs
  let (page, r) ← r8 r
  let (x0, r) ← r16 r
  let (x1, r) ← r16 r
  let (y0, r) ← r16 r
  let (y1, r) ← r16 r
  let (layers, r) ← rSet8 4 r
  let (seats, r) ← rSeatMask r
  let (kinds, r) ← rSet8 4 r
  let (enables, r) ← rSet8 3 r
  let (c, r) ← rEnum 2 r
  some ((n, ⟨page, ⟨x0, x1, y0, y1⟩, layers, seats, kinds, enables, if c = 0 then .all else .any⟩), r)

/-- The watch entry of checked parameters: ARMED, the capture removed; none where a check fails
(R168). -/
def armed (i : WatchItems) : Option Watch :=
  match pageOfByte i.page with
  | none => none
  | some p =>
    if i.rect.x1 ≤ Config.maxX ∧ i.rect.y1 ≤ Config.maxY ∧ i.rect.x0 ≤ i.rect.x1
        ∧ i.rect.y0 ≤ i.rect.y1 then
      some
        { state := .armed, page := p, rect := i.rect, layers := i.layers, seats := i.seats
          kinds := i.kinds, onRegion := i.enables.getLsbD 0, onSeat := i.enables.getLsbD 1
          onKind := i.enables.getLsbD 2, combine := i.combine, capture := none }
    else none

/-- ARM WATCH for one entry (R168). -/
def armBody (i : WatchItems) (n : Fin 4) (t : Tx) : Served :=
  match armed i with
  | none => t.answer .range
  | some w => (t.on (modWatch · n fun _ => w)).answer .ok

/-- ARM WATCH (R168). -/
def execArmWatch (s : State) : Host.Outcome State Fault Refusal :=
  .next (serveCommand 0x1C#8 rWatchItems (fun (b, i) => onWatch b (armBody i)) s)

/-- DISARM WATCH (R168): parameters and capture are kept. -/
def execDisarmWatch (s : State) : Host.Outcome State Fault Refusal :=
  .next (serveCommand 0x1D#8 r8 (fun b => onWatch b fun n t =>
    (t.on (modWatch · n fun w => { w with state := .disarmed })).answer .ok) s)

/-- A capture as data (R171). -/
def wCapture (c : Capture) : Bytes :=
  w48 c.rev ++ w48 c.time ++ w8 c.seat.val ++ wHandle c.handle ++ w8 (c.kind.watchBit.getD 0)
    ++ wOpt 7 (fun p : Point × Nat => w16 p.1.x ++ w16 p.1.y ++ w8 p.1.w ++ w16 p.2) c.point
    ++ wOpt 8 wBox c.box

/-- A watch entry as READ WATCH gives it (R168). -/
def wWatch (w : Watch) : Bytes :=
  w8 w.state.code ++ w8 w.page.val ++ wBox w.rect ++ w8 w.layers.toNat ++ wSeatMask w.seats
    ++ w8 w.kinds.toNat ++ w8 (w.onRegion.toNat + 2 * w.onSeat.toNat + 4 * w.onKind.toNat)
    ++ w8 w.combine.code ++ wOpt 34 wCapture w.capture

/-- READ WATCH (R168). -/
def execReadWatch (s : State) : Host.Outcome State Fault Refusal :=
  .next (serveCommand 0x1E#8 r8 (fun b => onWatch b fun n t =>
    t.answer .ok (wWatch t.st.watches[n.val])) s)

end Sys2Proof.Machine
end

