-- ==== Sys2Proof/Machine/Dispatch.lean ====
section
/-! DEFINITION. The effect of a command: one arm per row of the opcode table, each one direct call of that
row's meaning. -/

namespace Sys2Proof.Machine

/-- The effect of a command on everything but the queue of waiting commands. -/
def exec (i : Instr) (s : State) : Host.Outcome State Fault Refusal :=
  match i with
  | .powerOnReset => Sys2Proof.Machine.execPowerOnReset s
  | .powerOnClearance => Sys2Proof.Machine.execPowerOnClearance s
  | .classClearanceGrant => Sys2Proof.Machine.execClassClearanceGrant s
  | .badFrame link => Sys2Proof.Machine.execBadFrame link s
  | .unknownKind link kind tag => Sys2Proof.Machine.execUnknownKind link kind tag s
  | .contact frame => Sys2Proof.Machine.execContact frame s
  | .down => Sys2Proof.Machine.execDown s
  | .move => Sys2Proof.Machine.execMove s
  | .up => Sys2Proof.Machine.execUp s
  | .tabletFrameArrival tag frame clocked => Sys2Proof.Machine.execTabletFrameArrival tag frame clocked s
  | .start => Sys2Proof.Machine.execStart s
  | .points => Sys2Proof.Machine.execPoints s
  | .endFrame => Sys2Proof.Machine.execEndFrame s
  | .undo => Sys2Proof.Machine.execUndo s
  | .hand => Sys2Proof.Machine.execHand s
  | .noticeRead tag clocked => Sys2Proof.Machine.execNoticeRead tag clocked s
  | .command tag code params => Sys2Proof.Machine.execCommand tag code params s
  | .admitSeat => Sys2Proof.Machine.execAdmitSeat s
  | .vacateSeat => Sys2Proof.Machine.execVacateSeat s
  | .configureSeat => Sys2Proof.Machine.execConfigureSeat s
  | .mute => Sys2Proof.Machine.execMute s
  | .unmute => Sys2Proof.Machine.execUnmute s
  | .bar => Sys2Proof.Machine.execBar s
  | .unbar => Sys2Proof.Machine.execUnbar s
  | .readSeat => Sys2Proof.Machine.execReadSeat s
  | .freeze => Sys2Proof.Machine.execFreeze s
  | .thaw => Sys2Proof.Machine.execThaw s
  | .showPage => Sys2Proof.Machine.execShowPage s
  | .resetClass => Sys2Proof.Machine.execResetClass s
  | .setClassOptions => Sys2Proof.Machine.execSetClassOptions s
  | .readStatus => Sys2Proof.Machine.execReadStatus s
  | .startStroke => Sys2Proof.Machine.execStartStroke s
  | .addPoints => Sys2Proof.Machine.execAddPoints s
  | .endStroke => Sys2Proof.Machine.execEndStroke s
  | .clearLayer => Sys2Proof.Machine.execClearLayer s
  | .eraseSeatInk => Sys2Proof.Machine.execEraseSeatInk s
  | .retract => Sys2Proof.Machine.execRetract s
  | .restoreGroup => Sys2Proof.Machine.execRestoreGroup s
  | .readStroke => Sys2Proof.Machine.execReadStroke s
  | .handPoll => Sys2Proof.Machine.execHandPoll s
  | .callNext => Sys2Proof.Machine.execCallNext s
  | .clearHands => Sys2Proof.Machine.execClearHands s
  | .startSnapshot => Sys2Proof.Machine.execStartSnapshot s
  | .stopSnapshot => Sys2Proof.Machine.execStopSnapshot s
  | .armWatch => Sys2Proof.Machine.execArmWatch s
  | .disarmWatch => Sys2Proof.Machine.execDisarmWatch s
  | .readWatch => Sys2Proof.Machine.execReadWatch s
  | .readAttention => Sys2Proof.Machine.execReadAttention s
  | .ackAttention => Sys2Proof.Machine.execAckAttention s
  | .setAttention => Sys2Proof.Machine.execSetAttention s
  | .configureAttention => Sys2Proof.Machine.execConfigureAttention s
  | .readFault => Sys2Proof.Machine.execReadFault s
  | .readCounters => Sys2Proof.Machine.execReadCounters s
  | .clearCounters => Sys2Proof.Machine.execClearCounters s
  | .readTime => Sys2Proof.Machine.execReadTime s
  | .setArbiter => Sys2Proof.Machine.execSetArbiter s
  | .sweep tag form limit => Sys2Proof.Machine.execSweep tag form limit s
  | .continueWalk tag limit => Sys2Proof.Machine.execContinueWalk tag limit s
  | .follow tag start timeout limit => Sys2Proof.Machine.execFollow tag start timeout limit s
  | .fetch tag handle => Sys2Proof.Machine.execFetch tag handle s
  | .stop tag => Sys2Proof.Machine.execStop tag s
  | .outboundFrameRead clocking => Sys2Proof.Machine.execOutboundFrameRead clocking s
  | .linkReset link tag => Sys2Proof.Machine.execLinkReset link tag s
  | .sweepBurst => Sys2Proof.Machine.execSweepBurst s
  | .followBurst => Sys2Proof.Machine.execFollowBurst s
  | .fetchBurst => Sys2Proof.Machine.execFetchBurst s
  | .snapshotBurst => Sys2Proof.Machine.execSnapshotBurst s
  | .followDeadlineReached => Sys2Proof.Machine.execFollowDeadlineReached s
  | .deadlineReached seat => Sys2Proof.Machine.execDeadlineReached seat s
  | .maintenanceGrant => Sys2Proof.Machine.execMaintenanceGrant s

end Sys2Proof.Machine
end

