-- ==== Sys2Proof/Safety.lean ====
section
/-! DEFINITION. The terms in which claims about the machine are made: the standing properties of a
state, and what a reply, a queue head or a frame says of two states. -/

namespace Sys2Proof.Machine

/-! ### Standing properties -/

/-- The tables of the store are in their canonical form: places strictly rising, no default listed. -/
def StoreCanonical (s : State) : Prop :=
  tableWf ({} : Stroke) s.store.strokes = true ∧ tableWf ([] : List Entry) s.store.pool = true ∧
    tableWf ([] : List Handle) s.store.z = true

/-- The Hand Queue holds each seat whose hand is up once, and no other seat; only tablet seats raise a
hand (R44). -/
def HandsAgree (s : State) : Prop :=
  s.hands.Nodup ∧ (∀ n, n ∈ s.hands ↔ (s.seat n).handUp = true) ∧
    ∀ n, (s.seat n).handUp = true → portOf n = .tablet

/-- A pending-notice set holds at most one kind of each group (R47). -/
def OneEach (set : BitVec 11) : Prop :=
  ∀ j k : Notice, j.groupMask = k.groupMask → set.getLsbD j.ix = true → set.getLsbD k.ix = true → j = k

/-- The Notice Queue holds each seat with a pending notice once, and no other seat; only tablet seats have
notices, and a set holds at most one kind of each group (R47). What the last grant decision found of them,
which `noticeBasis` keeps, was so too (R48, log entry 6). -/
def NoticesAgree (s : State) : Prop :=
  s.noticeQueue.Nodup ∧ (∀ n, n ∈ s.noticeQueue ↔ (s.seat n).notices ≠ 0) ∧
    (∀ n, (s.seat n).notices ≠ 0 → portOf n = .tablet) ∧ (∀ n, OneEach (s.seat n).notices) ∧
    ∀ b, s.noticeBasis = some b → (b.queue.map Prod.fst).Nodup ∧
      ∀ p ∈ b.queue, portOf p.1 = .tablet ∧ p.2.notices ≠ 0 ∧ OneEach p.2.notices

/-- The waiting and elevated flags stand only where a request stands (R126). -/
def FlagsStand (s : State) : Prop :=
  s.arbiter.waiting &&& ~~~requestSet s = 0 ∧ s.arbiter.elevated &&& ~~~requestSet s = 0

/-- A seat that is VACANT or BARRED has no open item (R42). -/
def AbsentSeatsIdle (s : State) : Prop :=
  ∀ n, ((s.seat n).state = .vacant ∨ (s.seat n).state = .barred) → (s.seat n).item = none

/-- Undo stacks hold at most 8 entries (R43). -/
def UndoBounded (s : State) : Prop := ∀ n, (s.seat n).undo.length ≤ Config.undoDepth

/-- The journal holds at most 512 entries (R132). -/
def JournalBounded (s : State) : Prop := s.journal.entries.length ≤ Config.journalSize

/-- The intake queues hold what they can hold, the tablet answers fit their 64 slots, and at most one
NOTICE_LIST with notices waits (R188 to R190, R192). -/
def QueuesBounded (s : State) : Prop :=
  s.boardQueue.length ≤ Config.boardQueue ∧ s.tabletQueue.length ≤ Config.tabletQueue ∧
    s.consoleQueue.length ≤ Config.consoleQueue ∧ s.answers.length ≤ Config.answerSlots ∧
    (s.answers.countP fun a => a.isList && !a.isEmptyList) ≤ 1

/-- Every Z list holds each of its records once, under a live handle and with that list's page and
layer; every record that is not FREE stands in the list of its page and layer; and the free list holds
FREE records only, none twice (R12, R27). -/
def ZListsAgree (s : State) : Prop :=
  (∀ p l, ((s.store.zlist p l).map Handle.idx).Nodup ∧
      ∀ h ∈ s.store.zlist p l, s.store.live h = true ∧
        (s.store.stroke h.idx).page = p ∧ (s.store.stroke h.idx).layer = l) ∧
    (∀ i, (s.store.stroke i).state ≠ .free →
      (⟨i, (s.store.stroke i).gen⟩ : Handle) ∈
        s.store.zlist (s.store.stroke i).page (s.store.stroke i).layer) ∧
    s.store.freeRecs.freed.Nodup ∧
    (∀ i ∈ s.store.freeRecs.freed, i.val < s.store.freeRecs.fresh) ∧
    ∀ i, i ∈ s.store.freeRecs.freed ∨ s.store.freeRecs.fresh ≤ i.val →
      (s.store.stroke i).state = .free

/-- The optional fields of a record are present by its state, and a FREE one is cleared but for its generation
(R9, R10, R19; the cleared values of the other fields: log entry 38). -/
def FieldsByState (s : State) : Prop :=
  ∀ i,
    let r := s.store.stroke i
    match r.state with
    | .free => r = { gen := r.gen }
    | .opened => r.closeTime = none ∧ r.group = none ∧ r.eraseRev = none
    | .closed => r.closeTime.isSome = true ∧ r.group = none ∧ r.eraseRev = none
    | .erased => r.closeTime.isSome = true ∧ r.group.isSome = true ∧ r.eraseRev.isSome = true

/-- The blocks in the chains of all records. -/
def chainBlocks (st : Store) : List BlockNo := st.strokes.flatMap fun p => p.2.chain

/-- Each block stands once, on the free stack or in one chain; every block of a chain but its last holds 24
entries, the last the rest of the entry count, which lies in 1..1536; the first entry of a block is ABSOLUTE,
that of a stroke without lift-before (R22 to R24). -/
def PoolAgrees (s : State) : Prop :=
  let used := chainBlocks s.store
  let free := s.store.freeBlocks
  (used ++ free.released).Nodup ∧ (∀ b ∈ used ++ free.released, b.val < free.fresh) ∧
    free.size + used.length = 8192 ∧
    ∀ i,
      let r := s.store.stroke i
      (r.state = .free → r.chain = []) ∧
      (r.state ≠ .free → 1 ≤ r.count ∧ r.count ≤ 1536 ∧ r.chain.length = (r.count + 23) / 24 ∧
        ∀ (k : Nat) (b : BlockNo), r.chain[k]? = some b →
          (s.store.block b).length = min 24 (r.count - 24 * k) ∧
          ∃ x y w l, (s.store.block b).head? = some (.abs x y w l) ∧ (k = 0 → l = false))

/-- Blocks held is the number of blocks in the chains of a seat's OPEN and CLOSED strokes, but for a clearance
under way, whose end sets it to 0; quota-reached stands only at quota (R41). -/
def HeldAgrees (s : State) : Prop :=
  (s.cls.state ≠ .resetting → ∀ n, (s.seat n).blocksHeld =
    ((s.store.strokes.filter fun p => decide (p.2.owner = n ∧
      (p.2.state = .opened ∨ p.2.state = .closed))).map fun p => p.2.chain.length).sum) ∧
  ∀ n, (s.seat n).quotaReached = true → (s.seat n).quota ≤ (s.seat n).blocksHeld

/-- The open ink strokes and the OPEN records are the same, seat by seat, but for a clearance under way, which
has ended every open item (R13, R42, R53). -/
def OpenItemsAgree (s : State) : Prop :=
  (∀ n h tag, (s.seat n).item.map OpenItem.kind = some (.ink h tag) → s.store.live h = true ∧
    (s.store.stroke h.idx).state = .opened ∧ (s.store.stroke h.idx).owner = n) ∧
  (s.cls.state = .resetting → ∀ n, (s.seat n).item = none) ∧
  (s.cls.state ≠ .resetting → ∀ i, (s.store.stroke i).state = .opened → ∃ tag,
    (s.seat (s.store.stroke i).owner).item.map OpenItem.kind =
      some (.ink ⟨i, (s.store.stroke i).gen⟩ tag))

/-- Every ERASED stroke belongs to exactly one group, queued or under reclaim, whose id it carries; no group
holds a stroke in any other state or none at all; and the queue holds each id once (R98, R99). -/
def GroupsAgree (s : State) : Prop :=
  let groups := s.eraseQueue ++ s.maint.underReclaim.toList
  ((groups.flatMap EraseGroup.members).map Handle.idx).Nodup ∧
    (∀ g ∈ groups, g.members ≠ [] ∧ ∀ h ∈ g.members, s.store.live h = true ∧
      (s.store.stroke h.idx).state = .erased ∧ (s.store.stroke h.idx).group = some g.id) ∧
    (∀ i, (s.store.stroke i).state = .erased →
      (⟨i, (s.store.stroke i).gen⟩ : Handle) ∈ groups.flatMap EraseGroup.members) ∧
    (s.eraseQueue.map EraseGroup.id).Nodup

/-- The records, the Point Pool, the open items and the erase groups agree (R10, R22, R23, R41, R98, R99). -/
def InkAgrees (s : State) : Prop :=
  FieldsByState s ∧ PoolAgrees s ∧ HeldAgrees s ∧ OpenItemsAgree s ∧ GroupsAgree s

/-- The outbound buffers hold what they can hold: the reply slots, the snapshot share and the display
slots are not exceeded, and each completion queue has room for the WALK_DONE of its running walk
(R138, R158, R164). -/
def OutboundBounded (s : State) : Prop :=
  replySlotsUsed s ≤ Config.replySlots ∧ shareUsed s ≤ Config.shareSlots ∧
    displayUsed s ≤ Config.displaySlots ∧ displayDones s + s.display.running.toNat ≤ 2 ∧
    snapshotDones s + s.snapshot.running.toNat ≤ 1

/-- The settings of every seat, of the class and of the arbiter lie in the ranges the commands
keep them in (R31, R38, R50, R124). -/
def SettingsInRange (s : State) : Prop :=
  (∀ n,
    let u := s.seat n
    u.mapping.sx ≤ 131071 ∧ u.mapping.sy ≤ 131071 ∧
      (-16384) ≤ u.mapping.ox ∧ u.mapping.ox ≤ 16383 ∧
      (-16384) ≤ u.mapping.oy ∧ u.mapping.oy ≤ 16383 ∧
      u.window.wx0 ≤ u.window.wx1 ∧ u.window.wx1 ≤ 16383 ∧
      u.window.wy0 ≤ u.window.wy1 ∧ u.window.wy1 ≤ 9215 ∧
      1 ≤ u.pen.wmin ∧ u.pen.wmin ≤ u.pen.wmax ∧ u.pen.wmax ≤ 255 ∧
      8 ≤ u.pen.ew ∧ u.pen.ew ≤ 255 ∧ u.quota ≤ 8192) ∧
    s.cls.options.glitch ≤ 255 ∧
    50 ≤ s.cls.options.boardIdle ∧ s.cls.options.boardIdle ≤ 5000 ∧
    100 ≤ s.cls.options.tabletIdle ∧ s.cls.options.tabletIdle ≤ 10000 ∧
    100 ≤ s.cls.options.consoleIdle ∧ s.cls.options.consoleIdle ≤ 10000 ∧
    s.cls.options.reserve ≤ 2048 ∧ 8 ≤ s.arbiter.period ∧ s.arbiter.period ≤ 255

/-! ### Grants and replies -/

/-- The Console Command Unit is the arbiter's choice and its head command is this one (R118, R192). -/
def ConsoleTurn (s : State) (code tag : Byte) (params : Bytes) : Prop :=
  winner s = some .console ∧ s.cls.state ≠ .resetting ∧
    s.consoleQueue.head? = some (.cmd tag code params)

/-- Board Intake is the arbiter's choice and its oldest sample is this one (R118, R122). -/
def BoardTurn (s : State) (x : Sample) : Prop :=
  winner s = some .board ∧ s.boardQueue.head? = some x

/-- Tablet Intake is the arbiter's choice and its oldest frame is this one (R118, R122). -/
def TabletTurn (s : State) (f : TabletFrame) : Prop :=
  winner s = some .tablet ∧ s.tabletQueue.head? = some f

/-- A single-grant command has left the head of its queue and its reply stands behind what the Console Link
buffer held (R122, R192); `commandGrant` tells so to a frame that arrived meanwhile (log entry 6). -/
def answered (r : Reply) (u : State) : State :=
  { u with
    consoleQueue := u.consoleQueue.tail, consoleOut := u.consoleOut ++ [.reply r]
    commandGrant := some { left := true, replied := true } }

/-- The console grant is decided and the head command answered, with no other effect (R122, R125). What the
decision does to the arbiter, and what `settle` does after it, the statement about grant decisions says. -/
def replied (s : State) (r : Reply) : State := answered r (decideGrant s .console)

/-- What a NOTICE_READ that arrives in the transaction after this decision is served against: the Notice
Queue with the items of its seats as they stand, and the notices added since (R48, log entry 6). -/
def noticesKept (s : State) (added : List (SeatNo × Notice)) : Option NoticeBasis :=
  some { queue := s.noticeQueue.map fun n =>
           (n, ⟨n.val - 4, (s.seat n).notices, (s.seat n).state, s.cls.shown⟩)
         added := added }

/-- The commands queued when a frame arrived, the command under way included: one that left the queue at the
end of the transaction the frame arrived in stood there then (R122, R192). -/
def metQueued (s : State) (running : Bool) : Nat :=
  s.consoleQueue.length +
    if running = true ∧ ∃ c, s.commandGrant = some c ∧ c.left = true then 1 else 0

/-- The reply slots in use or reserved when a frame arrived: those in use now, among them that of the reply of
the transaction it arrived in; where a Console LINK_RESET has emptied that reply, its slot beside them, which
stayed reserved (R192, R196). -/
def metSlots (s : State) (running : Bool) : Nat :=
  replySlotsUsed s +
    if running = true ∧ ∃ c, s.commandGrant = some c ∧ c.replied = true ∧ c.emptied = true then 1 else 0

/-- A reply slot is free and not reserved (R192). -/
def SlotFree (s : State) (running : Bool) : Prop := metSlots s running < 16

/-- The unread answers that stay when one more is placed on the Tablet Link (R188): all of them where fewer
than 64 wait; else the oldest TAKEN or HELD that has not begun leaves, or, where there is none, the oldest
NOTICE_LIST of no item that has not begun. -/
def MakesRoom (s : State) (kept : List Answer) : Prop :=
  let plain (a : Answer) : Prop := (∃ g k, a = .taken g k) ∨ ∃ g, a = .held g
  (s.answers.length < 64 ∧ kept = s.answers) ∨
    ∃ begun pre a post, 64 ≤ s.answers.length ∧ s.answers = begun ++ pre ++ a :: post ∧
      kept = begun ++ pre ++ post ∧ begun.length = (if s.shifted.tablet = 0 then 0 else 1) ∧
      ((plain a ∧ ∀ x ∈ pre, ¬plain x) ∨
        ((∃ g, a = .noticeList g []) ∧ (∀ x ∈ pre, ∀ g, x ≠ .noticeList g []) ∧
          ∀ x ∈ pre ++ post, ¬plain x))

/-- `k` bytes of the front answer have been shifted out; with its last byte it has been read (R183, R187). -/
def answersClocked (s : State) (k : Nat) : State :=
  if s.answers = [] then s
  else if k < (frontRest s .tablet).length then
    { s with shifted := { s.shifted with tablet := s.shifted.tablet + k } }
  else { s with answers := s.answers.tail, shifted := { s.shifted with tablet := 0 } }

/-- The arrival as the bytes of its frame spell it: the operands that are no part of the frame are those
`receive` gives (log entries 6 and 8). -/
def asReceived (running : Bool) : Instr → Instr
  | .command t code params => .command ⟨t.tag, running⟩ code params
  | .tabletFrameArrival tag f _ => .tabletFrameArrival tag f 0
  | .noticeRead t _ => .noticeRead ⟨t.tag, running⟩ 0
  | .linkReset link t => .linkReset link ⟨t.tag, running⟩
  | i => i

/-- The board grant is decided and the oldest sample has left Board Intake (R122, R125). -/
def boardTaken (s : State) : State :=
  { decideGrant s .board with boardQueue := s.boardQueue.tail }

/-- The tablet grant is decided and the oldest frame has left Tablet Intake (R122, R125). -/
def tabletTaken (s : State) : State :=
  { decideGrant s .tablet with tabletQueue := s.tabletQueue.tail }

/-- The arbiter of `t` is the one the grant decision for `r` at `s` gives, less the flags of the requesters
whose request does not stand at `t` (R125, R126). -/
def ArbiterAfter (s : State) (r : Requester) (t : State) : Prop :=
  t.arbiter = (settle { t with arbiter := (decideGrant s r).arbiter }).arbiter

/-- A fault is captured: counted, recorded where it is the first, and FAULT latched (R173, R178). -/
def caught (u : State) (k : FaultKind) (l : Link) (n : Option SeatNo) (f : Option Byte) : State :=
  { u with
    faults := ⟨some (u.faults.record.getD ⟨k, l, n, f, u.store.rev, u.timebase⟩),
      min (u.faults.count + 1) 65535⟩
    attention := { u.attention with pending := u.attention.pending ||| 1#11 } }

/-- An input is discarded and counted against its seat (R32, R175). -/
def discarded (u : State) (n : SeatNo) : State :=
  u.modSeat n fun v => { v with discarded := min (v.discarded + 1) 65535 }

/-- A counter of 0..65535 grown by `k` (R175, R176). -/
def grown (n k : Nat) : Nat := if k = 0 then n else min (n + k) 65535

/-! ### What a commit leaves -/

/-- The revision a transaction takes at this state, if it takes one (R5). -/
def upcoming (s : State) : Rev := nextRev s.store.rev

/-- A transaction under way: the state its operations have reached, and the change entries they call for,
in order. -/
structure Work where
  st : State
  entries : List ChangeEntry
  deriving DecidableEq, Repr

/-- The revision the transaction takes, or 0 where it calls for no entry (R5). -/
def Work.rev (w : Work) : Rev := if w.entries = [] then 0 else upcoming w.st

/-- A watch after it has been handed a transaction's entries: an ARMED one fires at the first that matches
(R169, R171). -/
def watchAfter (st : Store) (es : List ChangeEntry) (w : Watch) : Watch :=
  if w.state = .armed then
    match es.find? (watchMatches st w) with
    | some e => { w with state := .fired, capture := captureOf st w e }
    | none => w
  else w

/-- The pending set with the WATCHn source of each watch that fires (R171, R178). -/
def watchesLatched (u : State) (es : List ChangeEntry) : BitVec 11 :=
  (List.finRange 4).foldl
    (fun m n =>
      if u.watches[n.val].state = .armed ∧ ∃ e ∈ es, watchMatches u.store u.watches[n.val] e = true then
        m ||| BitVec.twoPow 11 (3 + n.val)
      else m)
    u.attention.pending

/-- A WAITING follow is WALKING again, its deadline dropped, when an entry above its cursor is written
(R151). -/
def followWoken (c : ScanCtx) (written : List ChangeEntry) : ScanCtx :=
  match c.cursor with
  | some k =>
    if c.state = .waiting ∧ ∃ e ∈ written, revAbove e.rev k.rev = true then
      { c with state := .walking, deadline := none }
    else c
  | none => c

/-- A cursor is lapped by a journal whose lost-up-to revision is this: L is above it, or equals it with the
revision not completely sent (R152). -/
def lappedBy (lost : Rev) (k : Cursor) : Bool :=
  revAbove lost k.rev || (decide (lost = k.rev) && !k.complete)

/-- A WALKING or WAITING follow is lapped (R152). -/
def isLapped (c : ScanCtx) (lost : Rev) : Bool :=
  decide (c.state = .walking ∨ c.state = .waiting) && decide (c.mode = .follow) &&
    c.cursor.any (lappedBy lost)

/-- The resume revision of a follow: r until its cursor is set, then the cursor where its revision is
completely sent, else the revision before it (R153; before revision 1 it is 2^48 − 1, log entry 11; chunks
still owed for the cursor's entry do not lower it, log entry 45). -/
def resumeOf (c : ScanCtx) : Rev :=
  match c.cursor with
  | none => c.start
  | some k => if k.complete then k.rev else if k.rev = 1 then 0xFFFFFFFFFFFF#48 else k.rev - 1

/-- The WALK_DONE of a walk that ends (R139, R153, R160). -/
def walkDone (c : ScanCtx) (status : EndStatus) (why : Reason) : DoneRecord :=
  { status := status, reason := why, mode := c.mode
    bound := if c.mode = .sweepLayer ∨ c.mode = .sweepPage ∨ c.mode = .sweepAll then c.bound else none
    resume := if c.mode = .follow then some (resumeOf c) else none
    remaining := c.limit.getD 0 }

/-- The context of a walk that has ended: DONE, with no item in transit and no deadline (R141). -/
def doneCtx (c : ScanCtx) (status : EndStatus) (why : Reason) : ScanCtx :=
  { c with state := .done, endStatus := some (status, why), transit := none, deadline := none }

/-- The reclaim demands at the end of a transaction that began at `b`: tested where it changed the free
count, the free-record count or R; between the limits a demand keeps its value (R114). -/
def demanded (b u : State) : Maintenance :=
  let free := u.store.freeBlocks.size
  let recs := u.store.freeRecs.size
  let r := u.cls.options.reserve
  if b.store.freeBlocks.size = free ∧ b.store.freeRecs.size = recs ∧ b.cls.options.reserve = r then
    u.maint
  else
    { u.maint with
      poolDemand := if free ≤ r then true else if r + 256 ≤ free then false else u.maint.poolDemand
      tableDemand := if recs ≤ 64 then true else if 128 ≤ recs then false else u.maint.tableDemand }

/-- The transaction's entries are written and its revision taken: the watches fire, the journal is written
under the 8-entry and merge rules, a WAITING follow wakes, and a follow lapped by entries that leave the
journal ends with OVERRUN (R5, R104, R135, R136, R151, R152, R169 to R171). -/
def published (w : Work) : State :=
  let u := w.st
  let written := eightEntryRule (upcoming u) u.timebase w.entries
  let j := u.journal.write written
  let c := followWoken u.display written
  let lap := decide (j.lost ≠ u.journal.lost) && isLapped c j.lost
  { u with
    store := { u.store with rev := upcoming u }
    journal := j
    watches := Vector.ofFn fun n : Fin 4 => watchAfter u.store w.entries u.watches[n.val]
    attention := { u.attention with pending := watchesLatched u w.entries }
    display := if lap then doneCtx c .overrun .none else c
    displayOut := if lap then
      u.displayOut ++ [⟨c.tag, .done (walkDone c .overrun .none)⟩] else u.displayOut }

/-- What a transaction that began at `b` leaves at its commit (R4, R5, R114). Its arbiter is that of the
state reached: `settle` is applied after it. -/
def committed (b : State) (w : Work) : State :=
  let u := if w.entries = [] then w.st else published w
  { u with maint := demanded b u }

/-! ### Open items and strokes -/

/-- A handle in three bytes: the record index, then the generation. -/
def handleData (h : Handle) : Bytes := w16 h.idx.val ++ [h.gen]

/-- A record closed at this state with a cause (R16). -/
def closedStroke (s : State) (r : Stroke) (cause : CloseCause) : Stroke :=
  { r with
    state := .closed
    closeTime := some s.timebase
    flags := r.flags.closedBy cause
    lastRev := upcoming s }

/-- The CLOSED entry of a record (R133). -/
def closedEntry (s : State) (h : Handle) (r : Stroke) : ChangeEntry :=
  { kind := .closed, rev := upcoming s, time := s.timebase, page := some r.page
    layer := some r.layer, handle := some h, seat := some r.owner, flags := some r.flags
    box := some r.box }

/-- A seat after its open ink stroke has closed for a cause other than SPLIT (R42, R43, R89). -/
def closedSeat (u : Seat) (h : Handle) (tag : Byte) : Seat :=
  { u with
    item := none
    lastClosed := some (tag, h)
    undo := (UndoEntry.ink h :: u.undo).take Config.undoDepth }

/-- The seat's open item is gone. -/
def itemGone (u : State) (n : SeatNo) : State := u.modSeat n fun v => { v with item := none }

/-- A seat's open item is ended for a cause other than SPLIT (R82, R84, R89, R96): an open ink stroke is
closed with the cause and its CLOSED entry called for; the group an eraser context holds takes no further
member, and an ERASE entry is pushed for it; an armed START and a held point are cleared. -/
def ended (n : SeatNo) (cause : CloseCause) (w : Work) : Work :=
  let s := w.st
  match (s.seat n).item.map OpenItem.kind with
  | some (.ink h tag) =>
    if s.store.live h = true ∧ (s.store.stroke h.idx).state = .opened then
      let r := closedStroke s (s.store.stroke h.idx) cause
      ⟨{ s.modSeat n (closedSeat · h tag) with store := s.store.setStroke h.idx r },
        w.entries ++ [closedEntry s h r]⟩
    else ⟨itemGone s n, w.entries⟩
  | some (.eraser _ _ _ (some g)) =>
    ⟨{ s.modSeat n (fun v =>
          { v with item := none, undo := (UndoEntry.erase g :: v.undo).take Config.undoDepth }) with
        eraseQueue := s.eraseQueue.map fun x => if x.id = g then { x with isOpen := false } else x },
      w.entries⟩
  | some _ => ⟨itemGone s n, w.entries⟩
  | none => w

/-- A due cut of the seat is served, before its input is handled or by a Maintenance grant (R73, R94,
R97). -/
def cutServed (n : SeatNo) (w : Work) : Work :=
  if (w.st.seat n).cutDue = true then
    let w' := ended n .cut w
    ⟨w'.st.modSeat n fun v => { v with cutDue := false }, w'.entries⟩
  else w

/-- The seat's open item is the ink stroke of this handle and tag, live and OPEN. -/
def InkOpen (s : State) (n : SeatNo) (h : Handle) (tag : Byte) : Prop :=
  (s.seat n).item.map OpenItem.kind = some (.ink h tag) ∧ s.store.live h = true ∧
    (s.store.stroke h.idx).state = .opened

/-- The deadline an input of this sample time sets (R75). -/
def deadlineOf (s : State) (n : SeatNo) (sample : Time) : Time :=
  sample + BitVec.ofNat 48 (idleOf s n * 1000)

/-- The deadline of the seat's open item moves to that of this sample time; a seat whose deadline the
Timebase has reached already joins the due-expiry set, unless the class is RESETTING (R75, R94). -/
def timed (u : State) (n : SeatNo) (sample : Time) : State :=
  let d := deadlineOf u n sample
  { u.modSeat n (fun v => { v with item := v.item.map fun i => { i with deadline := d } }) with
    maint := if (u.seat n).item.isSome = true ∧ u.cls.state ≠ .resetting ∧ reached u.timebase d = true
      then { u.maint with due := u.maint.due ||| BitVec.twoPow 40 n.val } else u.maint }

/-- A point outside the window has grown the seat's clipped-points counter where `out` says so (R62,
R63). -/
def clippedBy (u : State) (n : SeatNo) (out : Bool) : State :=
  u.modSeat n fun v => { v with clipped := if out then min (v.clipped + 1) 65535 else v.clipped }

/-- The seat's open item is this, and a point outside the window has grown its clipped-points counter where
`out` says so (R62, R63). -/
def itemNow (u : State) (n : SeatNo) (item : Option OpenItem) (out : Bool) : State :=
  u.modSeat n fun v =>
    { v with item := item, clipped := if out then min (v.clipped + 1) 65535 else v.clipped }

/-! ### Allocation -/

/-- What refuses a seat a block, if anything does, and before it, where `record` says that an open needs one,
the record: the checks of R90 and R91 in their order. -/
def shortage (s : State) (n : SeatNo) (record : Bool) : Option Shortage :=
  let free := s.store.freeBlocks.size
  if record = true ∧ s.store.freeRecs.size = 0 then some .table
  else if (s.seat n).quota ≤ (s.seat n).blocksHeld then some .quota
  else if portOf n = .tablet ∧ free ≤ s.cls.options.reserve then some .reserve
  else if free = 0 then some .pool
  else none

/-- A refusal and its `k` lost points (R41, R90, R91): TABLE_FULL is captured and latched, and the refusal
marked pending; quota-reached is set once per crossing, with QUOTA latched and QUOTA_REACHED given; the
reserve leaves no trace; POOL_EMPTY is captured once per open item. -/
def refusedFor (u : State) (o : Origins) (n : SeatNo) (why : Shortage) (k : Nat) : State :=
  let v : State :=
    match why with
    | .table =>
      let c := caught u .tableFull o.link (some n) o.frame
      { c with
        attention := { c.attention with pending := c.attention.pending ||| 4#11 }
        maint := { u.maint with tableFull := true } }
    | .quota =>
      if (u.seat n).quotaReached then u
      else
        addNotice { u.modSeat n (fun x => { x with quotaReached := true }) with
          attention := { u.attention with pending := u.attention.pending ||| BitVec.twoPow 11 8 } } n
          .quotaReached
    | .reserve => u
    | .pool =>
      if (u.seat n).item.any (·.poolReported) then u
      else (caught u .poolEmpty o.link (some n) o.frame).modSeat n fun x =>
        { x with item := x.item.map fun i => { i with poolReported := true } }
  v.modSeat n fun x => { x with dropped := min (x.dropped + k) 65535 }

/-- The stroke gains TRUNCATED (R91). -/
def truncated (u : State) (i : RecIdx) : State :=
  let r := u.store.stroke i
  { u with store := u.store.setStroke i { r with flags := { r.flags with truncated := true } } }

/-- The record an open takes, the head of the free list, and the list without it (R12, R14). -/
def headRecord (s : State) : RecIdx × FreeList := s.store.freeRecs.take.getD (0, s.store.freeRecs)

/-- The block an open or extend takes, the top of the free stack, and the stack without it (R15, R26). -/
def topBlock (s : State) : BlockNo × FreeStack := s.store.freeBlocks.pop.getD (0, s.store.freeBlocks)

/-- The handle of the stroke an open makes: its record's generation grows by 1 (R14). -/
def nextHandle (s : State) : Handle :=
  ⟨(headRecord s).1, (s.store.stroke (headRecord s).1).gen + 1⟩

/-- The top block has left the free stack for a stroke of the seat: blocks held grows, and POOL_LOW is latched
where the free count comes to R (R26, R41, R91). -/
def blockTaken (u : State) (n : SeatNo) : State :=
  let blocks := (topBlock u).2
  { u.modSeat n (fun v => { v with blocksHeld := v.blocksHeld + 1 }) with
    store := { u.store with freeBlocks := blocks }
    attention := if blocks.size = u.cls.options.reserve then
      { u.attention with pending := u.attention.pending ||| 2#11 } else u.attention }

/-- A stroke of this record joins the store with this first entry: its record and its block leave their free
collections, and its handle stands at the tail of its Z list (R14, R27). -/
def strokeAdded (u : State) (n : SeatNo) (r : Stroke) (e : Entry) : State :=
  let h := nextHandle u
  let v := blockTaken u n
  let st := (v.store.setStroke h.idx r).setBlock (topBlock u).1 [e]
  { v with store :=
      { st.setZ r.page r.layer (u.store.zlist r.page r.layer ++ [h]) with
        freeRecs := (headRecord u).2 } }

/-- The record of a stroke opened now with one point (R14, R85). -/
def newRecord (s : State) (n : SeatNo) (sp : OpenSpec) (x y w : Nat) (clamped : Bool) : Stroke :=
  { state := .opened, gen := (nextHandle s).gen, owner := n, page := sp.page, layer := sp.layer
    tool := sp.tool, colour := sp.colour, tag := sp.tag, openTime := s.timebase, openRev := upcoming s
    lastRev := upcoming s, count := 1, chain := [(topBlock s).1], box := squareOf x y w
    flags := { clipped := clamped, orphan := sp.orphan }, pred := sp.pred }

/-- The OPENED entry of a record whose opening transaction stored one point (R85, R133). -/
def openedEntry (s : State) (h : Handle) (r : Stroke) : ChangeEntry :=
  { kind := .opened, rev := upcoming s, time := s.timebase, page := some r.page
    layer := some r.layer, handle := some h, seat := some r.owner, tool := some r.tool
    colour := some r.colour, pred := r.pred, first := some 0, count := some 1
    flags := some r.flags, box := some r.box }

/-- The stroke of a spec is opened with one point and becomes the seat's open item, with this deadline as
yet (R14, R75, R85). -/
def strokeOpened (w : Work) (n : SeatNo) (sp : OpenSpec) (x y wd : Nat) (clamped : Bool) : Work :=
  let r := newRecord w.st n sp x y wd clamped
  ⟨(strokeAdded w.st n r (.abs x y wd false)).modSeat n fun v =>
      { v with item := some { kind := .ink (nextHandle w.st) sp.tag } },
    w.entries ++ [openedEntry w.st (nextHandle w.st) r]⟩

/-- A record with one more stored point (R15, R62, R63, R68, R70). -/
def grownStroke (s : State) (r : Stroke) (x y wd : Nat) (clamped broken : Bool) : Stroke :=
  { r with
    count := r.count + 1, box := r.box.union (squareOf x y wd), lastRev := upcoming s
    flags := { r.flags with
      clipped := r.flags.clipped || clamped, broken := r.flags.broken || broken } }

/-- The transaction's entries of a stroke report its record as it stands at commit: the flags, and but for an
EXTENDED entry, whose box is that of its own points, the bounding box (R133). -/
def restated (h : Handle) (r : Stroke) (es : List ChangeEntry) : List ChangeEntry :=
  es.map fun e =>
    if e.handle = some h then
      { e with
        flags := e.flags.map fun _ => r.flags
        box := if e.kind = .extended then e.box else some r.box }
    else e

/-- A stored point is noted: in the OPENED or EXTENDED entry of its stroke that stands last, or in a new
EXTENDED entry (R85, R88, R133). -/
def noted (e : ChangeEntry) (sq : Box) (es : List ChangeEntry) : List ChangeEntry :=
  match es.getLast? with
  | some x =>
    if x.handle = e.handle ∧ (x.kind = .opened ∨ x.kind = .extended) then
      es.dropLast ++ [{ x with count := x.count.map (· + 1), box := x.box.map (·.union sq) }]
    else es ++ [e]
  | none => [e]

/-- A point has joined block `b` of a stroke: the block holds these entries, the record is `r`, and the point
is noted (R15, R88, R133). -/
def pointJoined (w : Work) (h : Handle) (b : BlockNo) (es : List Entry) (r : Stroke) (x y wd : Nat) :
    Work :=
  let s := w.st
  let e : ChangeEntry :=
    { kind := .extended, rev := upcoming s, time := s.timebase, page := some r.page
      layer := some r.layer, handle := some h, seat := some r.owner, first := some (r.count - 1)
      count := some 1, flags := some r.flags, box := some (squareOf x y wd) }
  ⟨{ s with store := (s.store.setBlock b es).setStroke h.idx r },
    restated h r (noted e (squareOf x y wd) w.entries)⟩

/-- How one point for an open ink stroke ended. -/
inductive PointEnd where
  | unstored | stored | refused (why : Shortage)
  deriving DecidableEq, Repr

/-- One point for the open ink stroke of a seat, with `more` points behind it in its frame. A lift and a drop
set their break marker; a point equal to the last one without a break ends MERGED; a coded one joins the last
block, or a new one where that is full, or after 64 full blocks a successor, the stroke closed with SPLIT; a
refused block or record loses the point and those behind it, and the stroke gains TRUNCATED (R60, R63, R66,
R67, R88, R90, R91, R93). -/
def pointDrawn (o : Origins) (n : SeatNo) (p : RawPoint) (more : Nat) (w : Work) : Work × PointEnd :=
  let s := w.st
  match (s.seat n).item with
  | some ⟨.ink h tag, lift, drop, pr, dl⟩ =>
    let old := s.store.stroke h.idx
    let last := s.store.lastBlock h.idx
    let prev := (s.store.lastPoint h.idx).getD ⟨0, 0, 0, false⟩
    let unstored (lift drop out : Bool) : Work × PointEnd :=
      (⟨itemNow s n (some ⟨.ink h tag, lift, drop, pr, dl⟩) out, w.entries⟩, .unstored)
    match mapPoint (s.seat n) old.tool.pen p with
    | .lifted => unstored true drop false
    | .dropped => unstored lift true true
    | .point x y wd clamped =>
      let grown := grownStroke s old x y wd clamped drop
      let stored (w' : Work) (g : Handle) (mark : Bool) : Work × PointEnd :=
        (⟨itemNow w'.st n (some { kind := .ink g tag, poolReported := mark, deadline := dl }) clamped,
          w'.entries⟩, .stored)
      let refusal (why : Shortage) : Work × PointEnd :=
        (⟨refusedFor (truncated (clippedBy s n clamped) h.idx) o n why (1 + more),
          restated h { old with flags := { old.flags with truncated := true } } w.entries⟩, .refused why)
      if (prev.x, prev.y, prev.w) = (x, y, wd) ∧ lift = false ∧ drop = false then
        unstored false false clamped
      else if last.length < 24 then
        stored (pointJoined w h (old.chain.getLast?.getD 0)
          (last ++ [codeEntry prev false (lift || drop) x y wd]) grown x y wd) h pr
      else if old.chain.length < 64 then
        match shortage s n false with
        | some why => refusal why
        | none =>
          let c := (topBlock s).1
          stored (pointJoined ⟨blockTaken s n, w.entries⟩ h c [.abs x y wd (lift || drop)]
            { grown with chain := old.chain ++ [c] } x y wd) h pr
      else
        match shortage s n true with
        | some why => refusal why
        | none =>
          let shut := closedStroke s old .split
          let sp : OpenSpec :=
            ⟨old.page, old.layer, old.tool, old.colour, old.tag, old.flags.orphan, some h⟩
          stored (strokeOpened
            ⟨{ s.modSeat n (fun v => { v with lastClosed := some (tag, h) }) with
                store := s.store.setStroke h.idx shut },
              restated h shut w.entries ++ [closedEntry s h shut]⟩
            n sp x y wd clamped) (nextHandle s) false
  | _ => (w, .unstored)

/-- What the points of one frame came to: the transaction, the points stored, the points lost to a refusal,
and what refused them. -/
structure Drawn where
  work : Work
  stored : Nat
  lost : Nat
  refused : Option Shortage
  deriving DecidableEq, Repr

/-- The points of one frame reach the seat's open ink stroke in order, `k` of the frame stored before them;
the first refused one ends the frame (R57, R88, R91). -/
def pointsDrawn (o : Origins) (n : SeatNo) : List RawPoint → Work → Nat → Drawn
  | [], w, k => ⟨w, k, 0, none⟩
  | p :: ps, w, k =>
    match pointDrawn o n p ps.length w with
    | (w', .unstored) => pointsDrawn o n ps w' k
    | (w', .stored) => pointsDrawn o n ps w' (k + 1)
    | (w', .refused why) => ⟨w', k, 1 + ps.length, some why⟩

/-- The points of one frame that opens the stroke of a spec: those before the first coded one store nothing,
the first coded one opens it, those behind reach it; a refused open loses its point and those behind it
(R83, R85, R86, R90, R91). -/
def pointsOpening (o : Origins) (n : SeatNo) (sp : OpenSpec) : List RawPoint → Work → Drawn
  | [], w => ⟨w, 0, 0, none⟩
  | p :: ps, w =>
    let s := w.st
    match mapPoint (s.seat n) sp.tool.pen p with
    | .lifted => pointsOpening o n sp ps w
    | .dropped => pointsOpening o n sp ps ⟨clippedBy s n true, w.entries⟩
    | .point x y wd clamped =>
      match shortage s n true with
      | some why =>
        ⟨⟨refusedFor (clippedBy s n clamped) o n why (1 + ps.length), w.entries⟩, 0, 1 + ps.length,
          some why⟩
      | none =>
        let w' := strokeOpened w n sp x y wd clamped
        pointsDrawn o n ps ⟨clippedBy w'.st n clamped, w'.entries⟩ 1

/-- Where a drawing input's faults come from: the link of its row and its frame kind (R172). -/
def originOf : Instr → Origins
  | .start => ⟨.tablet, some 0x20#8⟩
  | .points => ⟨.tablet, some 0x21#8⟩
  | .endFrame => ⟨.tablet, some 0x22#8⟩
  | .startStroke | .addPoints | .endStroke => ⟨.console, some 0x30#8⟩
  | _ => ⟨.board, some 0x10#8⟩

/-- The handle of a seat's open ink stroke, if it has one (R87). -/
def inkHandle (u : Seat) : Option Handle :=
  match u.item.map OpenItem.kind with
  | some (.ink h _) => some h
  | _ => none

/-- The tag of an open item: a held point's is its contact number (R42, R76). -/
def tagOf (n : SeatNo) : ItemKind → Byte
  | .ink _ tag => tag
  | .armed tag _ _ _ => tag
  | .held _ => BitVec.ofNat 8 n.val
  | .eraser tag _ _ _ => tag

/-- The layer of an open item (R86). -/
def layerOf (s : State) : ItemKind → LayerNo
  | .ink h _ => (s.store.stroke h.idx).layer
  | .armed _ _ l _ => l
  | .held p => p.layer
  | .eraser _ l _ _ => l

/-- The fixed fields of the ORPHAN stroke that a POINTS of this tag would open (R86): on the layer of the
item it supersedes; else continuing the expired stroke the last-closed pair names; else on the layer of the
last-closed stroke; else on the lowest layer of the mask. None where no such layer is in the seat's mask,
so that the frame is refused. -/
def orphanOf (s : State) (n : SeatNo) (tag : Byte) : Option OpenSpec :=
  let u := s.seat n
  let plain (l : LayerNo) : OpenSpec :=
    ⟨targetPage s n, l, u.pen.tool, u.pen.colour, tag, true, none⟩
  let lowest := ((List.finRange 4).find? fun l => u.rights.layers.getLsbD l.val).map plain
  let fields : Option OpenSpec :=
    match u.item.map OpenItem.kind, u.lastClosed with
    | some k, _ => some (plain (layerOf s k))
    | none, some (g, h) =>
      let r := s.store.stroke h.idx
      if s.store.live h = false then lowest
      else if g = tag ∧ r.state = .closed ∧ r.flags.expired = true then
        some ⟨r.page, r.layer, r.tool, r.colour, tag, true, some h⟩
      else some (plain r.layer)
    | none, none => lowest
  fields.filter fun sp => u.rights.layers.getLsbD sp.layer.val

/-- What ADD POINTS reports of its frame: the handle of the seat's open ink stroke or none, the revision or 0,
and the numbers of points stored and lost (R87). -/
def drawnData (n : SeatNo) (d : Drawn) : Bytes :=
  (match inkHandle (d.work.st.seat n) with
    | some h => [1#8] ++ handleData h
    | none => [0#8, 0#8, 0#8, 0#8])
    ++ w48 d.work.rev ++ [BitVec.ofNat 8 d.stored, BitVec.ofNat 8 d.lost]

/-- The stroke of a held point: on the target page, with the fields the DOWN fixed (R76, R85). -/
def heldSpec (s : State) (n : SeatNo) (p : HeldPoint) : OpenSpec :=
  ⟨targetPage s n, p.layer, p.tool, p.colour, BitVec.ofNat 8 n.val, false, none⟩

/-- A held point is taken as at an UP of this sample time, with this close cause (R81, R85, R90): under the
glitch time it is discarded and counted; else it becomes a closed dot stroke, unless a refused open loses
it. The contact is left without an open item. -/
def heldReleased (o : Origins) (n : SeatNo) (p : HeldPoint) (sample : Time) (cause : CloseCause)
    (w : Work) : Work :=
  let s := w.st
  if (sample - p.holdTime).toNat < s.cls.options.glitch * 1000 then
    ⟨{ itemGone s n with
        counters := { s.counters with glitch := min (s.counters.glitch + 1) 65535 } }, w.entries⟩
  else
    match shortage s n true with
    | some why => ⟨itemGone (refusedFor s o n why 1) n, w.entries⟩
    | none =>
      let h := nextHandle s
      let dot := closedStroke s (newRecord s n (heldSpec s n p) p.x p.y p.w p.clamped) cause
      ⟨(strokeAdded s n dot (.abs p.x p.y p.w false)).modSeat n (closedSeat · h (BitVec.ofNat 8 n.val)),
        w.entries ++ [openedEntry s h dot, closedEntry s h dot]⟩

/-- A board contact's open item is ended by a DOWN of this sample time (step 3 of R78). -/
def contactEnded (n : SeatNo) (sample : Time) (w : Work) : Work :=
  match (w.st.seat n).item.map OpenItem.kind with
  | some (.held p) => heldReleased ⟨.board, some 0x10#8⟩ n p sample .superseded w
  | _ => ended n .superseded w

/-- A seat of the due-expiry set is served (R94): an open item whose deadline is not above the transaction's
time value expires, a held point as at an UP of that moment. -/
def dueServed (n : SeatNo) (w : Work) : Work :=
  match (w.st.seat n).item with
  | none => w
  | some i =>
    if later i.deadline w.st.timebase = true then w
    else
      match i.kind with
      | .held p => heldReleased ⟨.console, none⟩ n p w.st.timebase .expired w
      | _ => ended n .expired w

/-! ### Erasing and restoring -/

/-- The blocks a seat holds fall by `k`; where that brings it below its quota with quota-reached true, the
flag is cleared and QUOTA_CLEARED given (R41, R101). -/
def blocksFall (u : State) (n : SeatNo) (k : Nat) : State :=
  let left := (u.seat n).blocksHeld - k
  if (u.seat n).quotaReached = true ∧ left < (u.seat n).quota then
    addNotice (u.modSeat n fun v => { v with blocksHeld := left, quotaReached := false }) n
      .quotaCleared
  else u.modSeat n fun v => { v with blocksHeld := left }

/-- The ERASED or RESTORED entry of a stroke (R103). -/
def eraseEntry (s : State) (k : EntryKind) (g : Rev) (h : Handle) : ChangeEntry :=
  let r := s.store.stroke h.idx
  { kind := k, rev := upcoming s, time := s.timebase, page := some r.page, layer := some r.layer
    handle := some h, seat := some r.owner, group := some g, box := some r.box }

/-- The strokes of a list are live, in one state, and distinct records. -/
def AllIn (s : State) (st : StrokeState) (hs : List Handle) : Prop :=
  (hs.map Handle.idx).Nodup ∧
    ∀ h ∈ hs, s.store.live h = true ∧ (s.store.stroke h.idx).state = st

/-- The strokes of `hs` are erased, in that order, into the group of id `g`: the queued one, or a new one
of this origin and open flag at the tail of the Erase Queue; each with its ERASED entry (R17, R98, R99,
R103). -/
def erasedInto (g : Rev) (origin : Origin) (isOpen : Bool) (hs : List Handle) (w : Work) : Work :=
  let s := w.st
  let u := hs.foldl
    (fun u h => blocksFall u (s.store.stroke h.idx).owner (s.store.stroke h.idx).chain.length) s
  if hs = [] then w
  else
    ⟨{ u with
        store := hs.foldl
          (fun st h => st.setStroke h.idx { st.stroke h.idx with
            state := .erased, group := some g, eraseRev := some (upcoming s), lastRev := upcoming s })
          s.store
        eraseQueue := if ∃ x ∈ s.eraseQueue, x.id = g then
            s.eraseQueue.map fun x =>
              if x.id = g then { x with members := x.members ++ hs, lastRev := upcoming s } else x
          else s.eraseQueue ++ [⟨g, origin, upcoming s, hs, isOpen⟩] },
      w.entries ++ hs.map (eraseEntry s .erased g)⟩

/-- An eraser point at this place hits a stroke that stands in this state and lies in the seat's erase
scope (R71, R101). -/
def eraserHits (s : State) (n : SeatNo) (x y w : Nat) (st : StrokeState) (h : Handle) : Bool :=
  decide ((s.store.stroke h.idx).state = st ∧
    ((s.seat n).rights.scope = .any ∨ (s.store.stroke h.idx).owner = n)) &&
    hitTest s.store h.idx x y w

/-- One eraser point of a seat whose eraser context has this tag, layer, page and group (R71, R72, R99 to
R101): the CLOSED strokes of the page-layer that it hits are erased, back to front, into the context's
group, or into a new open one of the seat; the OPEN ones it hits are counted. -/
def eraserPassed (n : SeatNo) (tag : Byte) (l : LayerNo) (page : PageNo) (group : Option Rev)
    (x y wd : Nat) (w : Work) : Work :=
  let s := w.st
  let hs := (s.store.zlist page l).filter (eraserHits s n x y wd .closed)
  let g := group.getD (upcoming s)
  let skipped := (s.store.zlist page l).countP (eraserHits s n x y wd .opened)
  let w' := erasedInto g (.seat n) true hs w
  let u := w'.st.modSeat n fun v => { v with item := v.item.map fun i =>
    { i with kind := .eraser tag l page (if hs = [] then group else some g) } }
  ⟨{ u with counters := { s.counters with eraseSkip := grown s.counters.eraseSkip skipped } },
    w'.entries⟩

/-- The points of one frame on the seat's eraser context, in order: a lift or a drop tests nothing (R60, R63,
R72). -/
def pointsErasing (n : SeatNo) : List RawPoint → Work → Work
  | [], w => w
  | p :: ps, w =>
    match (w.st.seat n).item.map OpenItem.kind with
    | some (.eraser tag l page group) =>
      pointsErasing n ps <|
        match mapPoint (w.st.seat n) .eraser p with
        | .lifted => w
        | .dropped => ⟨clippedBy w.st n true, w.entries⟩
        | .point x y wd clamped =>
          eraserPassed n tag l page group x y wd ⟨clippedBy w.st n clamped, w.entries⟩
    | _ => w

/-- A queued group is restored: each member CLOSED again and counted to its owner's blocks held, with its
RESTORED entry; the group leaves the Erase Queue and any eraser context that held it (R18, R102, R103,
R109). -/
def restored (g : EraseGroup) (w : Work) : Work :=
  let s := w.st
  let u := g.members.foldl
    (fun u h => u.modSeat (s.store.stroke h.idx).owner fun v =>
      { v with blocksHeld := v.blocksHeld + (s.store.stroke h.idx).chain.length }) s
  ⟨{ u with
      store := g.members.foldl
        (fun st h => st.setStroke h.idx { st.stroke h.idx with
          state := .closed, group := none, eraseRev := none, lastRev := upcoming s }) s.store
      seats := u.seats.map fun v => { v with item := v.item.map fun i =>
        match i.kind with
        | .eraser tag l p (some x) =>
          if x = g.id then { i with kind := .eraser tag l p none } else i
        | _ => i }
      eraseQueue := s.eraseQueue.filter fun x => decide (x.id ≠ g.id) },
    w.entries ++ g.members.map (eraseEntry s .restored g.id)⟩

/-- The strokes a retraction of an INK entry takes: the entry's stroke, then back along the predecessor
fields, each live, CLOSED and of the same owner, up to the first that is not (R107). -/
def PredChain (s : State) (owner : SeatNo) : Option Handle → List Handle → Prop
  | o, [] => ∀ h, o = some h →
      ¬(s.store.live h = true ∧ (s.store.stroke h.idx).state = .closed ∧
        (s.store.stroke h.idx).owner = owner)
  | o, h :: hs =>
    o = some h ∧ s.store.live h = true ∧ (s.store.stroke h.idx).state = .closed ∧
      (s.store.stroke h.idx).owner = owner ∧ h.idx ∉ hs.map Handle.idx ∧
      PredChain s owner (s.store.stroke h.idx).pred hs

/-! ### Drawing inputs -/

/-- A tablet or console drawing input (R82 to R84, R87). -/
inductive DrawInput where
  | begin (tag tool layer colour : Byte)
  | points (tag : Byte) (pts : List RawPoint)
  | finish (tag : Byte)
  deriving DecidableEq, Repr

/-- The tablet frame of a drawing input. -/
def DrawInput.frame (slot : Byte) : DrawInput → TabletFrame
  | .begin tag tool layer colour => .begin slot tag tool layer colour
  | .points tag pts => .points slot tag pts
  | .finish tag => .finish slot tag

/-- The tablet grant of a drawing input. -/
def DrawInput.tabletRow : DrawInput → Instr
  | .begin _ _ _ _ => .start
  | .points _ _ => .points
  | .finish _ => .endFrame

/-- The console grant of a drawing input. -/
def DrawInput.consoleRow : DrawInput → Instr
  | .begin _ _ _ _ => .startStroke
  | .points _ _ => .addPoints
  | .finish _ => .endStroke

/-- The code of the console command of a drawing input (R198). -/
def DrawInput.code : DrawInput → Byte
  | .begin _ _ _ _ => 0x0F#8
  | .points _ _ => 0x10#8
  | .finish _ => 0x11#8

/-- The parameters of the console command of a drawing input (R198). -/
def DrawInput.params (n : SeatNo) : DrawInput → Bytes
  | .begin tag tool layer colour => w8 n.val ++ [tag, tool, layer, colour]
  | .points tag pts =>
    w8 n.val ++ [tag] ++ w16 pts.length ++
      pts.flatMap fun p => w16 p.ux.toNat ++ w16 p.uy.toNat ++ w16 p.pressure.toNat
  | .finish tag => w8 n.val ++ [tag]

/-- A grant of this row presents a drawing input for the seat now: a tablet frame while the class is
OPEN, or a console command of a console seat. `u` is the state its transaction begins at, and `fin` what
the grant does when the transaction has ended: nothing more for a frame, and for a command its departure
with its reply of this result and data. -/
def Delivered (s : State) (n : SeatNo) (i : DrawInput) (row : Instr) (r : Result) (data : Bytes)
    (u : State) (fin : State → State) : Prop :=
  (row = i.tabletRow ∧ s.cls.state = .opened ∧ u = tabletTaken s ∧ fin = id ∧
      ∃ slot, seatOfSlot slot = some n ∧ TabletTurn s (i.frame slot)) ∨
    (row = i.consoleRow ∧ 36 ≤ n.val ∧ u = decideGrant s .console ∧
      ∃ tag, fin = answered ⟨tag, i.code, r, data⟩ ∧ ConsoleTurn s i.code tag (i.params n))

/-- A Board Intake grant of this row presents this sample of the seat now, which nothing disposes of;
`eraser` says that its tool is ERASER (R77). -/
def BoardInput (s : State) (n : SeatNo) (row : Instr) (x : Sample) (eraser : Bool) : Prop :=
  BoardTurn s x ∧ s.cls.state ≠ .resetting ∧ seatOfContact x.frame.contact = some n ∧
    (row, x.frame.phase) ∈ [(Instr.down, Phase.down), (.move, .move), (.up, .up)] ∧
    (if eraser then x.frame.tool = .eraser
      else x.frame.tool = .pen ∨ (x.frame.tool = .finger ∧ s.cls.options.fingerInk = true))

/-- These points reach the seat: a POINTS or ADD POINTS of 1 to 24 points, or one MOVE sample, of the
eraser or not. `sample` is the input's sample time (R74). -/
def PointsDelivered (s : State) (n : SeatNo) (tag : Byte) (pts : List RawPoint) (eraser : Bool)
    (row : Instr) (r : Result) (data : Bytes) (u : State) (fin : State → State) (sample : Time) : Prop :=
  (Delivered s n (.points tag pts) row r data u fin ∧ 1 ≤ pts.length ∧ pts.length ≤ 24 ∧
      sample = s.timebase) ∨
    (row = .move ∧ u = boardTaken s ∧ fin = id ∧
      ∃ x, BoardInput s n row x eraser ∧ pts = [x.frame.point] ∧ sample = x.stamp)

/-- A DOWN sample, or a MOVE that is handled as one: the seat has no open item, or one of the other kind
(R78, R79). -/
def ActsAsDown (u : Seat) (row : Instr) (eraser : Bool) : Prop :=
  row = .down ∨ (row = .move ∧
    match u.item.map OpenItem.kind with
    | none | some (.armed _ _ _ _) => True
    | some (.held _) | some (.ink _ _) => eraser = true
    | some (.eraser _ _ _ _) => eraser = false)

/-- A retraction of the seat is granted now: its UNDO while the class is OPEN and the seat ADMITTED, or
a RETRACT (R105). -/
def RetractDelivered (s : State) (n : SeatNo) (row : Instr) (r : Result) (data : Bytes) (u : State)
    (fin : State → State) (origin : Origin) : Prop :=
  (row = .undo ∧ s.cls.state = .opened ∧ (s.seat n).state = .admitted ∧ u = tabletTaken s ∧ fin = id ∧
      origin = .seat n ∧ ∃ slot, seatOfSlot slot = some n ∧ TabletTurn s (.undo slot)) ∨
    (row = .retract ∧ origin = .console ∧ u = decideGrant s .console ∧
      ∃ tag, fin = answered ⟨tag, 0x14#8, r, data⟩ ∧ ConsoleTurn s 0x14#8 tag (w8 n.val))

/-- A retraction pops this entry without success (R106). -/
def DeadEntry (s : State) : UndoEntry → Prop
  | .ink h => ¬(s.store.live h = true ∧ (s.store.stroke h.idx).state = .closed)
  | .erase g => queuedGroup s g = none

/-! ### Walks -/

/-- The STROKE_HEADER of a stroke as it stands (R139). -/
def sentHeader (st : Store) (h : Handle) (mark : Bool) : ScanRecord :=
  let r := st.stroke h.idx
  .header
    { handle := h, owner := r.owner, page := r.page, layer := r.layer, tool := r.tool
      colour := r.colour, state := r.state, flags := r.flags, count := r.count, box := r.box
      openRev := r.openRev, lastRev := r.lastRev, pred := r.pred
      erase := if r.state = .erased then
        r.group.bind fun g => r.eraseRev.map fun e => (g, e) else none
      afterBound := mark }

/-- The POINT_CHUNK of chain position `k`: its block's entries, for a stroke only those below the entry
count `cap` of its header, or GONE when the handle is no longer live (R144, R150). -/
def sentChunk (st : Store) (h : Handle) (cap : Option Nat) (k : Nat) : ScanRecord :=
  let es := ((st.stroke h.idx).chain[k]?.map fun b => st.block b).getD []
  if st.live h = true then
    .chunk h (24 * k) false
      (match cap with
        | some n => es.take (n - 24 * k)
        | none => es)
  else .chunk h (24 * k) true []

/-- The records a stroke is sent as: its header and a chunk for each block (R139, R144). -/
def strokeRecords (st : Store) (h : Handle) (mark : Bool) : List ScanRecord :=
  let n := (st.stroke h.idx).count
  sentHeader st h mark :: (List.range ((n + 23) / 24)).map (sentChunk st h (some n))

/-- The chunks still owed for the item in transit (R144). -/
def owedChunks (st : Store) : Option Transit → List ScanRecord
  | none => []
  | some tr => (List.range' tr.next (tr.stop - tr.next)).map (sentChunk st tr.handle tr.cap)

/-- The item in transit once `k` of its owed chunks have been sent (R144). -/
def transitAfter (k : Nat) : Option Transit → Option Transit
  | none => none
  | some tr => if k < tr.stop - tr.next then some { tr with next := tr.next + k } else none

/-- The records a sweep of this bound sends for a stroke it meets (R143). -/
def sweepRecords (st : Store) (bound : Rev) (snapshot : Bool) (h : Handle) : List ScanRecord :=
  let r := st.stroke h.idx
  if revAbove r.openRev bound then []
  else
    match r.state with
    | .opened | .closed => strokeRecords st h false
    | .erased =>
      if snapshot && revAbove (r.eraseRev.getD 0) bound then strokeRecords st h true else []
    | .free => []

/-- The page-layers a sweep has still to walk, in ascending page and layer (R142): that of its position; for
PAGE those of its mask from there on in the page; for ALL also those of the later pages. -/
def listsLeft (c : ScanCtx) : List (PageNo × LayerNo) :=
  ((List.finRange 16).flatMap fun p => (List.finRange 4).map fun l => (p, l)).filter fun pl =>
    match c.mode with
    | .sweepLayer => decide (pl.1 = c.pos.page ∧ pl.2 = c.pos.layer)
    | .sweepPage => decide (pl.1 = c.pos.page ∧ c.pos.layer ≤ pl.2) && c.mask.getLsbD pl.2.val
    | .sweepAll => decide (pl.1 = c.pos.page ∧ c.pos.layer ≤ pl.2 ∨ c.pos.page < pl.1) &&
        c.mask.getLsbD pl.2.val
    | _ => false

/-- The Z index a sweep enters a list at: its position's in its own list, 0 in a later one. -/
def entersAt (c : ScanCtx) (pl : PageNo × LayerNo) : Nat :=
  if pl.1 = c.pos.page ∧ pl.2 = c.pos.layer then c.pos.z else 0

/-- The strokes a sweep has still to meet, each with its position (R143). -/
def strokesLeft (st : Store) (c : ScanCtx) : List (Position × Handle) :=
  (listsLeft c).flatMap fun pl =>
    (((st.zlist pl.1 pl.2).drop (entersAt c pl)).zipIdx (entersAt c pl)).map fun x =>
      (⟨pl.1, pl.2, x.2⟩, x.1)

/-- The position of a sweep that has walked every list. -/
def sweepEnd (st : Store) (c : ScanCtx) : Position :=
  match (listsLeft c).getLast? with
  | none => c.pos
  | some pl => ⟨pl.1, pl.2, max (entersAt c pl) (st.zlist pl.1 pl.2).length⟩

/-- The records a follow sends for a change entry: one, and for a live OPENED or EXTENDED stroke the chunks
of the blocks that hold its point indices (R150). -/
def entryRecords (st : Store) (e : ChangeEntry) : List ScanRecord :=
  .journal e (e.handle.any fun h => !st.live h) ::
    match e.handle with
    | none => []
    | some h =>
      if st.live h = true ∧ (e.kind = .opened ∨ e.kind = .extended) then
        let a := e.first.getD 0
        let z := (a + e.count.getD 0 - 1) / 24
        (List.range' (a / 24) (z + 1 - a / 24)).map (sentChunk st h none)
      else []

/-- The entries a follow with this cursor has still to send, oldest first: those of its revision not sent
yet, then those above it (R150). -/
def entriesOwed (j : Journal) (k : Cursor) : List ChangeEntry :=
  (if k.complete then [] else (j.entries.filter fun e => decide (e.rev = k.rev)).drop k.sent) ++
    j.entries.filter fun e => revAbove e.rev k.rev

/-- The cursor after an entry has been sent: its revision, how many of that revision's entries have been
sent, and whether that is all of them (R150). -/
def cursorPast (j : Journal) (k : Cursor) (e : ChangeEntry) : Cursor :=
  let sent := if e.rev = k.rev then k.sent + 1 else 1
  ⟨e.rev, decide ((j.entries.countP fun x => decide (x.rev = e.rev)) ≤ sent), sent⟩

/-- The chunks an entry makes, as an item in transit of which `sent` have gone (R144, R150). -/
def entryLeft (e : ChangeEntry) (h : Handle) (sent : Nat) : Option Transit :=
  let first := e.first.getD 0 / 24
  let stop := (e.first.getD 0 + e.count.getD 0 - 1) / 24 + 1
  if first + sent < stop then some ⟨h, first + sent, stop, none⟩ else none

/-- A stroke as an item in transit of which `sent` chunks have gone (R144). -/
def strokeLeft (st : Store) (h : Handle) (sent : Nat) : Option Transit :=
  let n := (st.stroke h.idx).count
  if sent < (n + 23) / 24 then some ⟨h, sent, (n + 23) / 24, some n⟩ else none

/-- What a burst of the display context (false) or the snapshot context (true) leaves: its records in the
outbound buffer under the walk's tag, the context, and where the walk ended its WALK_DONE behind them; the
end of a snapshot latches SNAPSHOT_DONE (R138, R141, R164, R165). -/
def burstLeft (snapshot : Bool) (s : State) (c : ScanCtx) (out : List ScanRecord)
    (e : Option (EndStatus × Reason)) : State :=
  let c' := match e with
    | some (st, why) => doneCtx c st why
    | none => c
  let last := match e with
    | some (st, why) => [ScanRecord.done (walkDone c st why)]
    | none => []
  let sent := (out ++ last).map fun r => (⟨c.tag, r⟩ : TaggedRecord)
  if snapshot then
    { decideGrant s .snapshot with
      snapshot := c', consoleOut := s.consoleOut ++ sent.map .scan
      attention := if e.isSome then
        { s.attention with pending := s.attention.pending ||| BitVec.twoPow 11 9 } else s.attention }
  else
    { decideGrant s .display with display := c', displayOut := s.displayOut ++ sent }

/-! ### Display requests -/

/-- The display request row of a request with its tag (R154). -/
def requestRow (tag : Byte) : DisplayRequest → Instr
  | .sweep form limit => .sweep tag form limit
  | .resume limit => .continueWalk tag limit
  | .follow start timeout limit => .follow tag start timeout limit
  | .fetch h => .fetch tag h

/-- The walk an accepted request starts has these fields, every other one cleared (R140, R142, R147 to
R149); a CONTINUE keeps those of the walk that ended with LIMIT. -/
def walkOf (s : State) (tag : Byte) : DisplayRequest → ScanCtx → Prop
  | .sweep form limit, c =>
    ∃ m p, formStart form = some (m, p) ∧ c =
      { state := .walking, mode := formMode form, tag := tag, mask := m, pos := p
        limit := limitOf limit.toNat }
  | .resume limit, c =>
    s.display.state = .done ∧ (∃ why, s.display.endStatus = some (.limit, why)) ∧ c =
      { s.display with state := .walking, tag := tag, limit := limitOf limit.toNat, endStatus := none }
  | .follow start timeout limit, c =>
    c = { state := .walking, mode := .follow, tag := tag, limit := limitOf limit.toNat, start := start
          timeout := if timeout = 0xFFFF#16 then 200 else min timeout.toNat 2550 }
  | .fetch w, c =>
    ∃ h : w.index.toNat < 4096, c =
      { state := .walking, mode := .fetch, tag := tag, fetch := some ⟨⟨w.index.toNat, h⟩, w.gen⟩ }

/-- The WALK_DONE of a refused request: REFUSED, the reason, the mode of the request and, for a FOLLOW, r as
its resume revision (R153, R155, R160). -/
def refusedRecord (q : DisplayRequest) (why : Reason) : DoneRecord :=
  { status := .refused, reason := why
    mode := match q with
      | .sweep (.layer _ _) _ => .sweepLayer
      | .sweep (.page _ _) _ => .sweepPage
      | .sweep (.all _ _) _ => .sweepAll
      | .resume _ => .resume
      | .follow _ _ _ => .follow
      | .fetch _ => .fetch
    bound := none
    resume := match q with
      | .follow start _ _ => some start
      | _ => none
    remaining := 0 }

/-- Why a taken request is refused (R155). -/
def refusalOf (s : State) : DisplayRequest → Reason → Prop
  | q, why =>
    (s.cls.state = .resetting ∧ why = .resetting) ∨
      (s.cls.state ≠ .resetting ∧
        match q with
        | .sweep form _ => formStart form = none ∧ why = .range
        | .resume _ =>
          ¬(s.display.state = .done ∧ ∃ r, s.display.endStatus = some (.limit, r)) ∧ why = .state
        | .follow _ _ _ => False
        | .fetch w => 4096 ≤ w.index.toNat ∧ why = .range)

/-! ### Command formats and reply data (R198) -/

/-- One part of a command's parameters: `size` bytes that pass a check, or an optional value of that size
behind its presence byte. -/
inductive Part where
  | plain (size : Nat) (ok : Bytes → Bool)
  | optional (size : Nat) (ok : Bytes → Bool)

/-- The parameters have these parts and nothing behind them. The bytes of an absent value are not looked
at (log entry 21). -/
def fits : List Part → Bytes → Bool
  | [], bs => bs.isEmpty
  | .plain k ok :: ps, bs => decide (k ≤ bs.length) && ok (bs.take k) && fits ps (bs.drop k)
  | .optional k ok :: ps, bs =>
    match bs with
    | p :: r =>
      decide (k ≤ r.length) && (decide (p = 0) || (decide (p = 1) && ok (r.take k))) &&
        fits ps (r.drop k)
    | [] => false

/-- `k` bytes of any value. -/
def anyBytes (k : Nat) : Part := .plain k fun _ => true

/-- An optional value of `k` bytes of any value. -/
def anyOptional (k : Nat) : Part := .optional k fun _ => true

/-- Byte `i` of a value is below `n`: an enumerated value or a set in one byte. -/
def byteBelow (i n : Nat) (bs : Bytes) : Bool := decide ((bs.getD i 0).toNat < n)

/-- A sweep form: its code, a page, and a layer, or for PAGE and ALL a layer mask. -/
def sweepFormFits (bs : Bytes) : Bool :=
  byteBelow 0 3 bs && (byteBelow 0 1 bs || byteBelow 2 16 bs)

/-- ADD POINTS: seat, tag, a point count in two bytes and six bytes a point. -/
def addPointsFits : Bytes → Bool
  | _ :: _ :: a :: b :: r => decide (r.length = 6 * (a.toNat * 256 + b.toNat))
  | _ => false

/-- The console commands: code, grant row and parameter format (R193, R198). -/
def commandFormats : List (Byte × Instr × (Bytes → Bool)) :=
  [(0x01#8, .admitSeat, fits [anyBytes 1]), (0x02#8, .vacateSeat, fits [anyBytes 1]),
    (0x03#8, .configureSeat, fits [anyBytes 1, anyOptional 10, .optional 9 (byteBelow 8 2),
      .optional 5 (byteBelow 1 2), .optional 2 (fun b => byteBelow 0 16 b && byteBelow 1 2 b),
      anyOptional 1, anyOptional 2]),
    (0x04#8, .mute, fits [anyBytes 1]), (0x05#8, .unmute, fits [anyBytes 1]),
    (0x06#8, .bar, fits [anyBytes 1]), (0x07#8, .unbar, fits [anyBytes 1]),
    (0x08#8, .readSeat, fits [anyBytes 1]), (0x09#8, .freeze, fits []), (0x0A#8, .thaw, fits []),
    (0x0B#8, .showPage, fits [anyBytes 1]), (0x0C#8, .resetClass, fits []),
    (0x0D#8, .setClassOptions, fits ([.optional 1 (byteBelow 0 2)] ++ List.replicate 5 (anyOptional 2)
      ++ List.replicate 4 (anyOptional 1))),
    (0x0E#8, .readStatus, fits []), (0x0F#8, .startStroke, fits [anyBytes 5])] ++
  [(0x10#8, .addPoints, addPointsFits), (0x11#8, .endStroke, fits [anyBytes 2]),
    (0x12#8, .clearLayer, fits [anyBytes 2]), (0x13#8, .eraseSeatInk, fits [anyBytes 2]),
    (0x14#8, .retract, fits [anyBytes 1]), (0x15#8, .restoreGroup, fits [anyBytes 6]),
    (0x16#8, .readStroke, fits [anyBytes 3]), (0x17#8, .handPoll, fits []),
    (0x18#8, .callNext, fits []), (0x19#8, .clearHands, fits []),
    (0x1A#8, .startSnapshot, fits [.plain 3 sweepFormFits, anyBytes 4]),
    (0x1B#8, .stopSnapshot, fits []),
    (0x1C#8, .armWatch, fits [anyBytes 10, .plain 1 (byteBelow 0 16), anyBytes 5,
      .plain 1 (byteBelow 0 16), .plain 1 (byteBelow 0 8), .plain 1 (byteBelow 0 2)]),
    (0x1D#8, .disarmWatch, fits [anyBytes 1]), (0x1E#8, .readWatch, fits [anyBytes 1])] ++
  [(0x1F#8, .readAttention, fits []), (0x20#8, .ackAttention, fits [.plain 2 (byteBelow 0 8)]),
    (0x21#8, .setAttention, fits [.plain 2 (byteBelow 0 8), .plain 2 (byteBelow 0 8)]),
    (0x22#8, .configureAttention, fits ((List.replicate 11
      [Part.optional 1 (byteBelow 0 2), anyOptional 1]).flatten)),
    (0x23#8, .readFault, fits []), (0x24#8, .readCounters, fits []),
    (0x25#8, .clearCounters, fits [.plain 1 (byteBelow 0 8)]), (0x26#8, .readTime, fits []),
    (0x27#8, .setArbiter, fits [.optional 1 (byteBelow 0 2), anyOptional 2])]

/-- A box in eight bytes: x0, x1, y0, y1. -/
def boxData (b : Box) : Bytes := w16 b.x0 ++ w16 b.x1 ++ w16 b.y0 ++ w16 b.y1

/-- A flag whose true value its rule lists first. -/
def trueFirst (b : Bool) : Bytes := [if b then 0#8 else 1#8]

/-- A seat set in five bytes: bit n mod 8 of byte n div 8 for seat n. -/
def seatSetData (m : BitVec 40) : Bytes :=
  [m.extractLsb' 0 8, m.extractLsb' 8 8, m.extractLsb' 16 8, m.extractLsb' 24 8, m.extractLsb' 32 8]

/-- A mapping: sx, sy, ox, oy. -/
def mappingData (m : Mapping) : Bytes := w24 m.sx ++ w24 m.sy ++ wi16 m.ox ++ wi16 m.oy

/-- A window: wx0, wx1, wy0, wy1, policy. -/
def windowData (w : Window) : Bytes :=
  w16 w.wx0 ++ w16 w.wx1 ++ w16 w.wy0 ++ w16 w.wy1 ++ [if w.policy = .clamp then 0#8 else 1#8]

/-- A pen context: colour, tool, wmin, wmax, ew. -/
def penData (p : Pen) : Bytes :=
  w8 p.colour.val ++ [if p.tool = .ink then 0#8 else 1#8] ++ w8 p.wmin ++ w8 p.wmax ++ w8 p.ew

/-- Rights: layer mask, erase scope. -/
def rightsData (r : Rights) : Bytes := w8 r.layers.toNat ++ [if r.scope = .own then 0#8 else 1#8]

/-- A target page, FFh for FOLLOW. -/
def targetData : Target → Bytes
  | .follow => [0xFF#8]
  | .fixed p => w8 p.val

/-- The kind of an open item with its tag and, for an ink stroke, its handle (R39, log entry 28). -/
def itemData (n : SeatNo) (item : Option OpenItem) : Bytes :=
  match item.map OpenItem.kind with
  | none => [0#8] ++ [0#8, 0#8] ++ [0#8, 0#8, 0#8, 0#8]
  | some (.ink h tag) => [1#8] ++ [1#8, tag] ++ ([1#8] ++ handleData h)
  | some (.armed tag _ _ _) => [2#8] ++ [1#8, tag] ++ [0#8, 0#8, 0#8, 0#8]
  | some (.held _) => [3#8] ++ [1#8, BitVec.ofNat 8 n.val] ++ [0#8, 0#8, 0#8, 0#8]
  | some (.eraser tag _ _ _) => [4#8] ++ [1#8, tag] ++ [0#8, 0#8, 0#8, 0#8]

/-- An undo entry: 0 INK with its handle, 1 ERASE with its group id (R43). -/
def undoData : UndoEntry → Bytes
  | .ink h => [0#8] ++ handleData h
  | .erase g => [1#8] ++ w48 g

/-- The three counters of a seat (R175). -/
def seatCounterData (u : Seat) : Bytes := w16 u.clipped ++ w16 u.dropped ++ w16 u.discarded

/-- The data of READ SEAT, field by field in the order of R39. -/
def seatData (n : SeatNo) (u : Seat) : Bytes :=
  [match u.state with
      | .vacant => 0#8
      | .admitted => 1#8
      | .muted => 2#8
      | .barred => 3#8,
    if n.val < 4 then 0#8 else if n.val < 36 then 1#8 else 2#8]
    ++ mappingData u.mapping ++ windowData u.window ++ penData u.pen ++ rightsData u.rights
    ++ targetData u.target
    ++ w16 u.quota ++ w16 u.blocksHeld ++ trueFirst u.quotaReached
    ++ itemData n u.item ++ trueFirst u.cutDue
    ++ w8 u.undo.length ++ (w16 u.undo.length ++ u.undo.flatMap undoData)
    ++ trueFirst u.handUp ++ w16 u.notices.toNat ++ seatCounterData u

/-- The class options, in the order of R50; finger ink is listed "off, on". -/
def optionData (o : ClassOptions) : Bytes :=
  [if o.fingerInk then 1#8 else 0#8] ++ w16 o.glitch ++ w16 o.boardIdle ++ w16 o.tabletIdle
    ++ w16 o.consoleIdle ++ w16 o.reserve
    ++ w8 o.layers[0].val ++ w8 o.layers[1].val ++ w8 o.layers[2].val ++ w8 o.layers[3].val

/-- The state of a scan context: IDLE, WALKING, WAITING, DONE (R137). -/
def contextData (c : ScanCtx) : Bytes :=
  [match c.state with
    | .idle => 0#8
    | .walking => 1#8
    | .waiting => 2#8
    | .done => 3#8]

/-- The data of READ STATUS, in the order of R52. -/
def statusData (s : State) : Bytes :=
  [match s.cls.state with
      | .opened => 0#8
      | .frozen => 1#8
      | .resetting => 2#8]
    ++ w8 s.cls.shown.val ++ optionData s.cls.options ++ w48 s.store.rev ++ w48 s.journal.lost
    ++ w16 s.store.freeRecs.size ++ w16 s.store.freeBlocks.size ++ w16 s.eraseQueue.length
    ++ [if s.maint.underReclaim.isSome then 1#8 else 0#8]
    ++ w8 s.hands.length ++ w8 s.noticeQueue.length
    ++ contextData s.display ++ contextData s.snapshot ++ w8 s.consoleQueue.length

/-- The flags of a stroke: bit 0 CLIPPED, 1 BROKEN, 2 TRUNCATED, 3 EXPIRED, 4 CUT, 5 SUPERSEDED, 6 ORPHAN,
7 SPLIT. -/
def flagData (f : StrokeFlags) : Bytes :=
  [BitVec.ofBoolListLE [f.clipped, f.broken, f.truncated, f.expired, f.cut, f.superseded, f.orphan,
    f.split]]

/-- The data of READ STROKE, in the order of R21. -/
def strokeData (h : Handle) (r : Stroke) : Bytes :=
  handleData h
    ++ [match r.state with
      | .free => 0#8
      | .opened => 1#8
      | .closed => 2#8
      | .erased => 3#8]
    ++ w8 r.owner.val ++ w8 r.page.val ++ w8 r.layer.val ++ [if r.tool = .ink then 0#8 else 1#8]
    ++ w8 r.colour.val ++ [r.tag] ++ w48 r.openTime ++ wOpt 6 w48 r.closeTime ++ w48 r.openRev
    ++ w48 r.lastRev ++ w16 r.count ++ w8 r.chain.length ++ boxData r.box ++ flagData r.flags
    ++ wOpt 3 handleData r.pred ++ wOpt 6 w48 r.group ++ wOpt 6 w48 r.eraseRev

/-- A watch capture, in the order of R171: its kind numbered OPENED, EXTENDED, CLOSED, ERASED; the point
with x, y, width and point index. -/
def captureData (c : Capture) : Bytes :=
  w48 c.rev ++ w48 c.time ++ w8 c.seat.val ++ handleData c.handle
    ++ [match c.kind with
      | .extended => 1#8
      | .closed => 2#8
      | .erased => 3#8
      | _ => 0#8]
    ++ wOpt 7 (fun p : Point × Nat => w16 p.1.x ++ w16 p.1.y ++ w8 p.1.w ++ w16 p.2) c.point
    ++ wOpt 8 boxData c.box

/-- The data of READ WATCH: the state, the parameters in the order of ARM WATCH, the capture (R168). -/
def watchData (w : Watch) : Bytes :=
  [match w.state with
      | .disarmed => 0#8
      | .armed => 1#8
      | .fired => 2#8]
    ++ w8 w.page.val ++ boxData w.rect ++ w8 w.layers.toNat ++ seatSetData w.seats
    ++ w8 w.kinds.toNat ++ [BitVec.ofBoolListLE
      [w.onRegion, w.onSeat, w.onKind, false, false, false, false, false]]
    ++ [if w.combine = .all then 0#8 else 1#8] ++ wOpt 34 captureData w.capture

/-- The two class counters (R176). -/
def classCounterData (c : Counters) : Bytes := w16 c.glitch ++ w16 c.eraseSkip

/-- The link counters, in the order of R176, a counter of every link as Board, Tablet, Console, Display. -/
def linkCounterData (c : Counters) : Bytes :=
  w16 c.badFrames.board ++ w16 c.badFrames.tablet ++ w16 c.badFrames.console ++ w16 c.badFrames.display
    ++ w16 c.linkResets.board ++ w16 c.linkResets.tablet ++ w16 c.linkResets.console
    ++ w16 c.linkResets.display
    ++ w16 c.boardDiscards ++ w16 c.tabletDiscards ++ w16 c.consoleDiscards
    ++ w16 c.displaced ++ w16 c.heldAnswers ++ w16 c.busyAnswers ++ w16 c.droppedRequests

/-- A first-fault record: kind in the order of R172, link, seat and frame kind as optional values,
revision, time (R173). -/
def faultData (r : FaultRecord) : Bytes :=
  [match r.kind with
      | .badFrame => 0#8
      | .unknownKind => 1#8
      | .badSeat => 2#8
      | .notAdmitted => 3#8
      | .denied => 4#8
      | .tableFull => 5#8
      | .poolEmpty => 6#8
      | .intakeOverflow => 7#8,
    match r.link with
      | .board => 0#8
      | .tablet => 1#8
      | .console => 2#8
      | .display => 3#8]
    ++ wOpt 1 (fun n : SeatNo => w8 n.val) r.seat ++ wOpt 1 (fun b : Byte => [b]) r.frame
    ++ w48 r.rev ++ w48 r.time

end Sys2Proof.Machine
end

