-- ==== Sys2Proof/Certificates/Slice0/Obligations.lean ====
section
/-! DEFINITION. The statements for the provers. Each docstring names the rules of the manual its
statement rests on; OBLIGATIONS.json lists them. -/

open Sys2Proof Sys2Proof.Machine

/-! ### The machine -/

/-- A step runs the command at the front of the queue, on the state with the rest of the queue. The
queue is the model's own: log entry 2. -/
def Obligations.StepTakesTheFrontCommand : Prop :=
  ∀ (s : State) (c : Instr) (rest : List Instr), s.pending = c :: rest →
    step s = exec c { s with pending := rest }

/-- R94, R128 to R130, R151, with log entry 3 for when time passes. Where no deadline falls, time changes
the Timebase alone: 1 µs at a step on an empty queue. A deadline row lets time pass until that deadline, and
the seat joins the due-expiry set, or the follow ends with TIMEOUT. The resume revision in a follow's
WALK_DONE before revision 1 is the model's choice: log entry 11. -/
def Obligations.TimePassesToTheDeadlines : Prop :=
  (∀ s : State, FlagsStand s → s.pending = [] → s.display.state ≠ .waiting →
      (∀ n i, (s.seat n).item = some i → reached (s.timebase + 1) i.deadline = false) →
      step s = .next { s with timebase := s.timebase + 1 }) ∧
    (∀ (s : State) (n : SeatNo) (i : OpenItem), (s.seat n).item = some i →
      s.cls.state ≠ .resetting → later i.deadline s.timebase = true →
      ∃ t, exec (.deadlineReached n) s = .next t ∧ t.timebase = i.deadline ∧
        t.maint.due.getLsbD n.val = true ∧ t.store = s.store ∧ t.seats = s.seats ∧
        t.journal = s.journal) ∧
    ∀ (s : State) (d : Time), s.display.state = .waiting → s.display.deadline = some d →
      later d s.timebase = true →
      ∃ t, exec .followDeadlineReached s = .next t ∧ t.timebase = d ∧
        t.display = { s.display with
          state := .done, endStatus := some (.timeout, .none), transit := none, deadline := none } ∧
        t.displayOut = s.displayOut ++
          [⟨s.display.tag, .done (walkDone s.display .timeout .none)⟩] ∧
        t.store = s.store ∧ t.seats = s.seats ∧ t.journal = s.journal

/-- R29, R47, R56, R124, R128, R137, R167, R173, R176, R178, R183, R197: what power-on reset leaves. By
the model's choice the class stands RESETTING with the power-on clearance waiting for its first grant (log
entry 1), the commands that wait outside the part go on waiting (log entry 2), no transaction is one that
frames arrived in (log entry 6), and the cleared fields of a scan context (log entry 16) and of a FREE
record (log entry 38) are at their first value or 0. -/
def Obligations.PowerOnResetLeavesPowerOnValues : Prop :=
  ∀ s : State, ∃ t, exec .powerOnReset s = .next t ∧ t.pending = s.pending ∧
    (∀ i, t.store.stroke i = {}) ∧ (∀ p l, t.store.zlist p l = []) ∧ t.store.rev = 0 ∧
    t.store.freeRecs.toList = List.finRange 4096 ∧ t.store.freeRecs.size = 4096 ∧
    t.store.freeBlocks.toList = List.finRange 8192 ∧ t.store.freeBlocks.size = 8192 ∧
    (∀ n : SeatNo,
      (t.seat n).mapping = ⟨16384, 9216, 0, 0⟩ ∧
      (t.seat n).window = ⟨0, 16383, 0, 9215, .clamp⟩ ∧ (t.seat n).pen = ⟨0, .ink, 4, 24, 64⟩ ∧
      (t.seat n).target = .follow ∧ (t.seat n).blocksHeld = 0 ∧
      (t.seat n).quotaReached = false ∧ (t.seat n).item = none ∧ (t.seat n).lastClosed = none ∧
      (t.seat n).cutDue = false ∧ (t.seat n).undo = [] ∧ (t.seat n).handUp = false ∧
      (t.seat n).notices = 0 ∧ (t.seat n).clipped = 0 ∧ (t.seat n).dropped = 0 ∧ (t.seat n).discarded = 0 ∧
      match portOf n with
      | .board => (t.seat n).state = .admitted ∧ (t.seat n).rights = ⟨0b0110#4, .any⟩ ∧
          (t.seat n).quota = 8192
      | .tablet => (t.seat n).state = .vacant ∧ (t.seat n).rights = ⟨0b0100#4, .own⟩ ∧
          (t.seat n).quota = 256
      | .console => (t.seat n).state = .admitted ∧ (t.seat n).rights = ⟨0b1111#4, .any⟩ ∧
          (t.seat n).quota = 8192) ∧
    t.cls.state = .resetting ∧ t.cls.prior = .opened ∧ t.cls.shown = 0 ∧
    t.cls.options = ⟨false, 12, 500, 2000, 2000, 512, #v[1, 1, 1, 1]⟩ ∧
    t.hands = [] ∧ t.noticeQueue = [] ∧ t.eraseQueue = [] ∧ t.maint = ⟨0, false, false, false, none⟩ ∧
    t.arbiter = ⟨true, 48, 0, 0, 0⟩ ∧ t.timebase = 0 ∧ t.journal = ⟨[], 0⟩ ∧
    t.display = {} ∧ t.snapshot = {} ∧ t.displayPending = none ∧ (∀ k : Fin 4, t.watches[k.val] = {}) ∧
    t.faults = ⟨none, 0⟩ ∧ t.counters = {} ∧ t.attention.pending = 0 ∧ t.attention.enabled = 0x7FF#11 ∧
    t.attention.levels.toList = [3, 3, 3, 2, 2, 2, 2, 1, 1, 1, 0] ∧
    t.boardQueue = [] ∧ t.tabletQueue = [] ∧ t.consoleQueue = [.clearance false] ∧ t.answers = [] ∧
    t.consoleOut = [] ∧ t.displayOut = [] ∧ t.shifted = {} ∧ t.commandGrant = none ∧
    t.noticeBasis = none ∧ t.burstGrant = false

/-- R29, R56: the power-on clearance ends at its second grant, with the CLASS_RESET entry of revision 1,
CLASS_READY latched and CLASS_RESET pending for every tablet seat, in ascending order. -/
def Obligations.PowerOnClearanceReachesRevisionOne : Prop :=
  ∃ a b, exec .powerOnClearance State.reset = .next a ∧ a.cls.state = .resetting ∧
    exec .classClearanceGrant a = .next b ∧ b.cls.state = .opened ∧ b.store.rev = 1 ∧
    b.journal = ⟨[{ kind := .classReset, rev := 1, time := 0 }], 0⟩ ∧ b.consoleQueue = [] ∧
    b.consoleOut = [] ∧ b.attention.pending = Source.classReady.bit ∧ b.noticeQueue = tabletSeats ∧
    ∀ n ∈ tabletSeats, (b.seat n).notices = BitVec.twoPow 11 Notice.classReset.ix

/-! ### Class clearance -/

/-- R53, R56, R119, R125: what the first grant of a clearance leaves: RESET CLASS, which stays at the head
of its queue and is answered ACCEPTED behind the WALK_DONE of a running snapshot; and the power-on
clearance, which sends no reply and is marked as started. `commandGrant` and `noticeBasis` tell frames
that arrived meanwhile of the reply and of the notices: log entry 6. In a RESET CLASS the tablet seats
without a notice join the Notice Queue in ascending seat number by the model's choice: log entry 42. The
resume revision in a follow's WALK_DONE before revision 1 is the model's choice: log entry 11. -/
def Obligations.FirstClearanceGrantClearsSeatsAndWalks : Prop :=
  ∀ s : State, winner s = some .console →
    let first (prior : ClassState) (queue : List QueuedCommand) (reply : List ConsoleFrame)
        (grant : Option CommandGrant) (t : State) : Prop :=
      (∀ n, t.seat n = { s.seat n with
        item := none, undo := [], lastClosed := none, cutDue := false, handUp := false
        notices := if portOf n = .tablet then (s.seat n).notices ||| BitVec.twoPow 11 10
          else (s.seat n).notices }) ∧
      t = settle { decideGrant s .console with
        seats := t.seats
        cls := { s.cls with state := .resetting, prior := prior }
        hands := []
        noticeQueue := s.noticeQueue ++ allSeats.filter fun n =>
          decide (portOf n = .tablet ∧ (s.seat n).notices = 0)
        noticeBasis := noticesKept s ((allSeats.filter fun n => decide (portOf n = .tablet)).map fun n =>
          (n, .classReset))
        eraseQueue := s.eraseQueue.map fun g => { g with isOpen := false }
        maint := { s.maint with due := 0 }
        display := if s.display.running then doneCtx s.display .reset .none else s.display
        displayOut := s.displayOut ++ (if s.display.running then
          [⟨s.display.tag, .done (walkDone s.display .reset .none)⟩] else [])
        snapshot := if s.snapshot.running then doneCtx s.snapshot .reset .none else s.snapshot
        attention := { s.attention with pending := if s.snapshot.running then
          s.attention.pending ||| BitVec.twoPow 11 9 else s.attention.pending }
        consoleQueue := queue
        consoleOut := s.consoleOut ++ (if s.snapshot.running then
          [.scan ⟨s.snapshot.tag, .done (walkDone s.snapshot .reset .none)⟩] else []) ++ reply
        commandGrant := grant }
    (∀ rest, s.consoleQueue = .clearance false :: rest →
      ∃ t, exec .powerOnClearance s = .next t ∧ first .opened (.clearance true :: rest) [] none t) ∧
    ∀ tag rest, s.cls.state ≠ .resetting → s.consoleQueue = .cmd tag 0x0C#8 [] :: rest →
      ∃ t, exec .resetClass s = .next t ∧
        first s.cls.state s.consoleQueue [.reply ⟨tag, 0x0C#8, .accepted, []⟩]
          (some { left := false, replied := true }) t

/-- R26, R30, R41, R54, R55, R114, R125: a later clearance grant frees the lowest 64 non-FREE records,
whose blocks go back chain by chain and which leave their Z lists and their groups, and writes nothing;
the one that leaves no such record leaves every Z list empty and the pool full (where the Z lists and the
pool agreed before), ends the clearance with one CLASS_RESET entry, tests the pool and table demands, ends
table-full pending, and leaves blocks held 0 and QUOTA_CLEARED for the tablet seats whose flag was true
and whose quota is above 0. By the model's choice the fields of a freed record have the cleared values of
log entry 38, QUOTA_CLEARED is given in ascending seat number (log entry 42), and `commandGrant` and
`noticeBasis` tell frames that arrived meanwhile that the clearance still stood in the queue and which
notices it gave (log entry 6). -/
def Obligations.ClearanceGrantFreesLowestRecords : Prop :=
  ∀ s : State, StoreCanonical s → winner s = some .console → s.cls.state = .resetting →
    s.consoleQueue.head? ≠ some (.clearance false) →
    let d := decideGrant s .console
    let now := (nonFree s.store).take 64
    let blocks (is : List RecIdx) : FreeStack := { s.store.freeBlocks with
      released := (is.flatMap fun i => (s.store.stroke i).chain).reverse ++ s.store.freeBlocks.released }
    let kept (h : Handle) : Bool :=
      decide (h.idx ∉ now ∨ (s.store.stroke h.idx).state ≠ .erased)
    let unlinked (g : EraseGroup) : EraseGroup := { g with members := g.members.filter kept }
    (64 < (nonFree s.store).length → ∃ t, exec .classClearanceGrant s = .next t ∧
      nonFree t.store = (nonFree s.store).drop 64 ∧
      (∀ i, t.store.stroke i =
        if i ∈ now then { gen := (s.store.stroke i).gen } else s.store.stroke i) ∧
      (∀ p l, t.store.zlist p l = (s.store.zlist p l).filter fun h =>
        decide (¬(h.idx ∈ now ∧ (s.store.stroke h.idx).page = p ∧ (s.store.stroke h.idx).layer = l))) ∧
      ((∀ g ∈ s.eraseQueue ++ s.maint.underReclaim.toList, g.members ≠ []) →
        t.eraseQueue = (s.eraseQueue.map unlinked).filter (fun g => !g.members.isEmpty) ∧
        t.maint.underReclaim = (s.maint.underReclaim.map unlinked).filter fun g => !g.members.isEmpty) ∧
      t.store = { s.store with
        strokes := t.store.strokes, z := t.store.z, freeBlocks := blocks now
        freeRecs := { s.store.freeRecs with freed := s.store.freeRecs.freed ++ now } } ∧
      t = settle (committed d ⟨{ d with
        store := t.store, eraseQueue := t.eraseQueue
        maint := { s.maint with underReclaim := t.maint.underReclaim }
        display := { s.display with pos := t.display.pos }
        snapshot := { s.snapshot with pos := t.snapshot.pos } }, []⟩)) ∧
    ((nonFree s.store).length ≤ 64 → ∃ t, exec .classClearanceGrant s = .next t ∧
      (∀ i, t.store.stroke i =
        if (s.store.stroke i).state = .free then s.store.stroke i
        else { gen := (s.store.stroke i).gen }) ∧
      t.store.freeRecs = { s.store.freeRecs with
        freed := s.store.freeRecs.freed ++ nonFree s.store } ∧
      t.store.freeBlocks = blocks (nonFree s.store) ∧ t.store.rev = upcoming s ∧
      (∀ p l, t.store.zlist p l = (s.store.zlist p l).filter fun h =>
        decide ((s.store.stroke h.idx).state = .free ∨ (s.store.stroke h.idx).page ≠ p ∨
          (s.store.stroke h.idx).layer ≠ l)) ∧
      (ZListsAgree s → ∀ p l, t.store.zlist p l = []) ∧
      (PoolAgrees s → t.store.freeBlocks.size = 8192) ∧
      t.journal = ⟨[{ kind := .classReset, rev := upcoming s, time := s.timebase }], s.store.rev⟩ ∧
      t.eraseQueue = [] ∧
      (let free := t.store.freeBlocks.size
      let recs := t.store.freeRecs.size
      let r := s.cls.options.reserve
      t.maint = {
        due := s.maint.due
        poolDemand := if free ≤ r then true else if r + 256 ≤ free then false else s.maint.poolDemand
        tableDemand := if recs ≤ 64 then true else if 128 ≤ recs then false else s.maint.tableDemand
        tableFull := false, underReclaim := none }) ∧
      (let cleared (n : SeatNo) : Bool :=
        decide (portOf n = .tablet ∧ (s.seat n).quotaReached = true ∧ 0 < (s.seat n).quota)
      (∀ n, t.seat n = { s.seat n with
        blocksHeld := 0, quotaReached := false
        notices := if cleared n then ((s.seat n).notices &&& ~~~(0x60#11)) ||| 0x40#11
          else (s.seat n).notices }) ∧
      t.noticeQueue = s.noticeQueue ++
        allSeats.filter (fun n => cleared n && decide ((s.seat n).notices = 0)) ∧
      t.noticeBasis = noticesKept s ((allSeats.filter cleared).map fun n => (n, .quotaCleared))) ∧
      t.cls = { s.cls with state := s.cls.prior } ∧ t.consoleQueue = s.consoleQueue.tail ∧
      t.consoleOut = s.consoleOut ∧ t.watches = s.watches ∧ t.hands = s.hands ∧
      t.counters = s.counters ∧ t.faults = s.faults ∧
      t.commandGrant = some { left := true, replied := false } ∧ t.burstGrant = false ∧
      ArbiterAfter s .console t ∧
      t.attention = { s.attention with pending := s.attention.pending ||| BitVec.twoPow 11 10 } ∧
      t = settle { committed d ⟨{ d with
          store := { t.store with rev := s.store.rev }, journal := ⟨[], s.store.rev⟩
          display := { s.display with pos := t.display.pos }
          snapshot := { s.snapshot with pos := t.snapshot.pos } }, t.journal.entries⟩ with
        seats := t.seats, noticeQueue := t.noticeQueue, noticeBasis := t.noticeBasis
        eraseQueue := t.eraseQueue, maint := t.maint, cls := t.cls, consoleQueue := t.consoleQueue
        commandGrant := t.commandGrant, attention := t.attention })

/-! ### Arrivals -/

/-- R172, R173, R185, R186, R192: a frame that fails a check, or whose kind its link does not accept. On the
Console Link the UNKNOWN goes into a reply slot that is free and not reserved; by the model's operand
`running` the frame arrived while the last granted transaction ran, whose row stands before its own (log
entry 6). -/
def Obligations.RefusedFramesAreCaptured : Prop :=
  ∀ (s : State) (link : Link),
    exec (.badFrame link) s = .next (settle (caught { s with
      counters := { s.counters with badFrames := s.counters.badFrames.bump link } } .badFrame link
      none none)) ∧
    ∀ kind tag running, kind ∉ acceptedKinds link →
      let seen := caught s .unknownKind link none (some kind)
      (link ≠ .console → exec (.unknownKind link kind ⟨tag, running⟩) s = .next (settle seen)) ∧
      (link = .console → SlotFree s running →
        exec (.unknownKind link kind ⟨tag, running⟩) s = .next (settle { seen with
          consoleOut := s.consoleOut ++ [.reply ⟨tag, 0, .unknown, []⟩] })) ∧
      (link = .console → ¬SlotFree s running →
        exec (.unknownKind link kind ⟨tag, running⟩) s = .next (settle { seen with
          counters := { s.counters with
            busyAnswers := min (s.counters.busyAnswers + 1) 65535 } }))

/-- R190, R191: where a contact sample is placed. At a full queue, `pre` and `post` name the queue around
the MOVE it replaces or removes. Newest and oldest are read by place in the queue, which is DEDUCED: log entry
40. -/
def Obligations.ContactIsPlacedInBoardIntake : Prop :=
  ∀ (s : State) (f : ContactFrame),
    let x : Sample := ⟨f, s.timebase⟩
    let displaced (q : List Sample) : State :=
      { s with
        boardQueue := q
        counters := { s.counters with displaced := min (s.counters.displaced + 1) 65535 } }
    (s.boardQueue.length < 64 →
      exec (.contact f) s = .next (settle { s with boardQueue := s.boardQueue ++ [x] })) ∧
    (s.boardQueue.length = 64 →
      (∀ pre y post, s.boardQueue = pre ++ y :: post → f.phase = .move → y.frame.phase = .move →
        y.frame.contact = f.contact → (∀ z ∈ post, z.frame.contact ≠ f.contact) →
        exec (.contact f) s = .next (settle (displaced (pre ++ x :: post)))) ∧
      (∀ pre y post, s.boardQueue = pre ++ y :: post → y.frame.phase = .move →
        (∀ z ∈ pre, z.frame.phase ≠ .move) →
        (f.phase = .move → ∀ p z q, s.boardQueue = p ++ z :: q → z.frame.contact = f.contact →
          (∀ w ∈ q, w.frame.contact ≠ f.contact) → z.frame.phase ≠ .move) →
        exec (.contact f) s = .next (settle (displaced (pre ++ post ++ [x])))) ∧
      ((∀ y ∈ s.boardQueue, y.frame.phase ≠ .move) →
        exec (.contact f) s = .next (settle
          (caught s .intakeOverflow .board (seatOfContact f.contact) (some 0x10#8)))))

/-- R185, R188, R189: a tablet frame is queued and answered TAKEN, or answered HELD and counted; at 64 unread
answers one that has not begun makes room; one whose POINTS has no point or more than 24 is a bad frame. The
operand `clocked`, the bytes of the front answer shifted out while the frame is shifted in, and that an answer
has begun once a byte of it has been shifted out, are the model's choices: log entry 8. -/
def Obligations.TabletFrameIsTakenOrHeld : Prop :=
  ∀ (s : State) (tag : Byte) (f : TabletFrame) (clocked : Nat) (kept : List Answer),
    let u := answersClocked s clocked
    let answer := exec (.tabletFrameArrival tag f clocked) s
    (f.wellFormed = false → answer = exec (.badFrame .tablet) u) ∧
    (f.wellFormed = true → MakesRoom u kept →
      (s.tabletQueue.length < 48 → answer = .next (settle { u with
        tabletQueue := s.tabletQueue ++ [f]
        answers := kept ++ [.taken tag (47 - s.tabletQueue.length)] })) ∧
      (48 ≤ s.tabletQueue.length → answer = .next (settle { u with
        answers := kept ++ [.held tag]
        counters := { s.counters with heldAnswers := min (s.counters.heldAnswers + 1) 65535 } })))

/-- R48, R121, R188: NOTICE_READ takes up to 8 seats off the Notice Queue and empties their sets, or
answers an empty list while an earlier NOTICE_LIST stands unread, once the answer bytes shifted out during
its own frame are gone (the operand `clocked`, the model's choice: log entry 8). One that arrived while a
transaction ran lists what stood before that transaction and takes that; the notices the transaction added
come after it. That its row stands behind the transaction's, told so by the operand `running`, and that
`noticeBasis` keeps what stood before, is the model's choice: log entry 6. -/
def Obligations.NoticeReadEmptiesTheListedSets : Prop :=
  ∀ (s : State) (tag : Byte) (running : Bool) (clocked : Nat) (kept : List Answer),
    let u := answersClocked s clocked
    let answer := exec (.noticeRead ⟨tag, running⟩ clocked) s
    MakesRoom u kept →
    ((∀ a ∈ u.answers, ∀ g items, a ≠ .noticeList g items) → running = false ∨ s.noticeBasis = none →
      ∃ t, answer = .next t ∧
        (∀ n, t.seat n =
          if n ∈ s.noticeQueue.take 8 then { s.seat n with notices := 0 } else s.seat n) ∧
        t = settle { u with
          seats := t.seats, noticeQueue := s.noticeQueue.drop 8, noticeBasis := none
          answers := kept ++ [.noticeList tag ((s.noticeQueue.take 8).map fun n =>
            ⟨n.val - 4, (s.seat n).notices, (s.seat n).state, s.cls.shown⟩)] }) ∧
    (∀ b, (∀ a ∈ u.answers, ∀ g items, a ≠ .noticeList g items) → running = true →
      s.noticeBasis = some b →
      let left := b.queue.drop 8
      ∃ before : State, (∀ n, before.seat n = { s.seat n with
          notices := ((left.find? fun p => decide (p.1 = n)).map fun p => p.2.notices).getD 0 }) ∧
        before = { u with
          seats := before.seats, noticeQueue := left.map fun p => p.1, noticeBasis := none } ∧
        answer = .next (settle { b.added.foldl (fun v p => addNotice v p.1 p.2) before with
          noticeBasis := some { b with queue := left }
          answers := kept ++ [.noticeList tag ((b.queue.take 8).map fun p => p.2)] })) ∧
    ((∃ a ∈ u.answers, ∃ g items, a = .noticeList g items) →
      answer = .next (settle { u with
        answers := kept ++ [.noticeList tag []] }))

/-- R121, R122, R185, R192, R193, R196, R198: what a COMMAND meets at its arrival, the command under way
counting in the queue and its reply slot as taken; and RANGE, with no other effect, at the grant of a
command whose parameters do not fit its format. That a frame which arrived while a transaction ran is the
row behind it, told so by the operand `running`, is the model's choice: log entry 6; how parameters are
coded: log entry 21. -/
def Obligations.CommandIsQueuedOrAnsweredAtOnce : Prop :=
  (∀ (s : State) (tag code : Byte) (params : Bytes) (running : Bool), params.length ≤ 499 →
    let at_once (r : Result) : State :=
      { s with consoleOut := s.consoleOut ++ [.reply ⟨tag, code, r, []⟩] }
    let counted (u : State) : State :=
      { u with counters := { u.counters with busyAnswers := min (u.counters.busyAnswers + 1) 65535 } }
    let answer := exec (.command ⟨tag, running⟩ code params) s
    (1 ≤ code.toNat ∧ code.toNat ≤ 0x27 →
      (metQueued s running < 8 →
        answer = .next (settle { s with consoleQueue := s.consoleQueue ++ [.cmd tag code params] })) ∧
      (8 ≤ metQueued s running → SlotFree s running →
        answer = .next (settle (counted (at_once .busy)))) ∧
      (8 ≤ metQueued s running → ¬SlotFree s running → answer = .next (settle (counted s)))) ∧
    (code.toNat = 0 ∨ 0x27 < code.toNat →
      (SlotFree s running → answer = .next (settle (at_once .unknown))) ∧
      (¬SlotFree s running → answer = .next (settle (counted s))))) ∧
  (∀ s tag code params running, 499 < params.length →
    exec (.command ⟨tag, running⟩ code params) s = exec (.badFrame .console) s) ∧
  ∀ s code row ok tag params, (code, row, ok) ∈ commandFormats → ConsoleTurn s code tag params →
    ok params = false → exec row s = .next (settle (replied s ⟨tag, code, .range, []⟩))

/-- R154, R158, R183, R187: the master clocks further bytes of a link's outbound stream. They are 00h where no
frame waits, always so on the Board Link; a transfer that ends inside the front frame leaves its rest to
the next; with its last byte the frame is read and leaves its slot, and when the last WALK_DONE leaves the
Display Link the held request is taken. How the bytes are counted, one frame a row, is the model's choice:
log entry 8. -/
def Obligations.OutboundFrameReadFreesTheFront : Prop :=
  ∀ (s : State) (link : Link) (bytes : Nat),
    let answer := exec (.outboundFrameRead ⟨link, bytes⟩) s
    let rest := frontRest s link
    outboundFrames s .board = [] ∧
    (outboundFrames s link = [] →
      answer = .next (settle s) ∧ dataOut s link bytes = List.replicate bytes 0#8) ∧
    (outboundFrames s link ≠ [] → bytes < rest.length →
      dataOut s link bytes = rest.take bytes ∧ ∃ t, answer = .next t ∧
        t = settle { s with shifted := s.shifted.set link (s.shifted.get link + bytes) } ∧
        frontRest t link = rest.drop bytes) ∧
    (outboundFrames s link ≠ [] → rest.length ≤ bytes →
      let u : State := { s with shifted := s.shifted.set link 0 }
      dataOut s link rest.length = rest ∧
      (∀ a as, link = .tablet → s.answers = a :: as →
        answer = .next (settle { u with answers := as })) ∧
      (∀ f fs, link = .console → s.consoleOut = f :: fs →
        answer = .next (settle { u with consoleOut := fs })) ∧
      (∀ r rs, link = .display → s.displayOut = r :: rs →
        (∀ d, r.body ≠ .done d) ∨ (∃ q ∈ rs, ∃ d, q.body = .done d) ∨ s.displayPending = none →
        answer = .next (settle { u with displayOut := rs })) ∧
      ∀ r d rs tag q, link = .display → s.displayOut = r :: rs → r.body = .done d →
        (∀ x ∈ rs, ∀ d, x.body ≠ .done d) → s.displayPending = some (tag, q) →
        answer = exec (requestRow tag q) { u with displayOut := rs, displayPending := none })

/-- R97, R188, R194, R195: LINK_RESET on the two intake links. -/
def Obligations.IntakeLinkResetEmptiesAndMarksCuts : Prop :=
  ∀ (s : State) (tag : Byte) (running : Bool),
    (∃ t, exec (.linkReset .board ⟨tag, running⟩) s = .next t ∧
      (∀ n, t.seat n =
        if portOf n = .board then { s.seat n with cutDue := true } else s.seat n) ∧
      t = settle { s with
        boardQueue := [], seats := t.seats, shifted := { s.shifted with board := 0 }
        counters := { s.counters with
          linkResets := { s.counters.linkResets with board := min (s.counters.linkResets.board + 1) 65535 }
          boardDiscards := min (s.counters.boardDiscards + s.boardQueue.length) 65535 } }) ∧
    ∃ t, exec (.linkReset .tablet ⟨tag, running⟩) s = .next t ∧
      (∀ n, t.seat n =
        if portOf n = .tablet then { s.seat n with cutDue := true } else s.seat n) ∧
      t = settle { s with
        tabletQueue := [], answers := [.taken tag 48], seats := t.seats
        shifted := { s.shifted with tablet := 0 }
        counters := { s.counters with
          linkResets := { s.counters.linkResets with tablet := min (s.counters.linkResets.tablet + 1) 65535 }
          tabletDiscards := min (s.counters.tabletDiscards + s.tabletQueue.length) 65535 } }

/-- R121, R159, R166, R194, R196: LINK_RESET on the two reply links. On the Console Link the commands not
started are discarded and counted (a power-on clearance stays: log entry 7); on the Display Link a running
walk ends with STOPPED and no WALK_DONE, and so does one whose burst ran when the reset arrived: that it
does so whatever end that burst found is DEDUCED, log entry 46. The slot of a reply emptied with the
buffer stays reserved for frames that arrived in the same transaction as the reset. That such a reset is
the row behind the transaction's, told by `running`, `commandGrant` and `burstGrant`, is the model's
choice: log entry 6. -/
def Obligations.ReplyLinkResetEmptiesItsBuffer : Prop :=
  ∀ (s : State) (tag : Byte) (running : Bool),
    let console (kept : List QueuedCommand) (lost : Nat) : State :=
      { s with
        consoleQueue := kept, consoleOut := [], shifted := { s.shifted with console := 0 }
        commandGrant := s.commandGrant.map fun c => { c with emptied := true }
        counters := { s.counters with
          linkResets := { s.counters.linkResets with
            console := min (s.counters.linkResets.console + 1) 65535 }
          consoleDiscards := min (s.counters.consoleDiscards + lost) 65535 } }
    (s.cls.state ≠ .resetting → (∀ b, s.consoleQueue.head? ≠ some (.clearance b)) →
      exec (.linkReset .console ⟨tag, running⟩) s = .next (settle (console [] s.consoleQueue.length))) ∧
    (∀ c rest, s.consoleQueue = c :: rest → s.cls.state = .resetting ∨ (∃ b, c = .clearance b) →
      exec (.linkReset .console ⟨tag, running⟩) s = .next (settle (console [c] rest.length))) ∧
    exec (.linkReset .display ⟨tag, running⟩) s = .next (settle { s with
      displayOut := [], displayPending := none, shifted := { s.shifted with display := 0 }
      counters := { s.counters with
        linkResets := { s.counters.linkResets with
          display := min (s.counters.linkResets.display + 1) 65535 } }
      display :=
        if s.display.state = .walking ∨ s.display.state = .waiting ∨ (running = true ∧ s.burstGrant = true) then
          doneCtx s.display .stopped .none
        else s.display })

/-! ### Display requests -/

/-- R142, R146 to R149, R153 to R156, R160: a display request that finds the completion queue empty is
accepted, superseding a running walk, or refused with one WALK_DONE, which carries r for a FOLLOW; else it
is held in the pending slot, replacing and counting a request held there. DEDUCED: CONTINUE's tag (log
entry 14), the fields a refused request's WALK_DONE leaves absent (log entry 15) and those an accepted one
clears (log entry 16). The resume revision in a follow's WALK_DONE before revision 1 is the model's
choice: log entry 11; that chunks still owed for its last entry do not lower it is DEDUCED: log entry 45. -/
def Obligations.DisplayRequestIsAcceptedRefusedOrHeld : Prop :=
  ∀ (s : State) (tag : Byte) (q : DisplayRequest),
    (displayDones s = 0 → s.cls.state ≠ .resetting → ∀ c, walkOf s tag q c →
      (s.display.running = false → exec (requestRow tag q) s =
        .next (settle { s with display := { c with endStatus := s.display.endStatus } })) ∧
      (s.display.running = true → exec (requestRow tag q) s = .next (settle (withdraw
        { s with
          display := { c with endStatus := some (.superseded, .none) }
          displayOut := s.displayOut ++
            [⟨s.display.tag, .done (walkDone s.display .superseded .none)⟩] } .display)))) ∧
    (displayDones s = 0 → ∀ why, refusalOf s q why →
      exec (requestRow tag q) s = .next (settle { s with displayOut := s.displayOut ++
        [⟨tag, .done (refusedRecord q why)⟩] })) ∧
    (displayDones s ≠ 0 → exec (requestRow tag q) s = .next (settle { s with
      displayPending := some (tag, q)
      counters := { s.counters with
        droppedRequests :=
          if s.displayPending.isSome then min (s.counters.droppedRequests + 1) 65535
          else s.counters.droppedRequests } }))

/-- R139, R141, R153, R157, R160: STOP drops the held request and ends a WALKING or WAITING walk with
STOPPED, under the walk's own tag; it leaves an IDLE or DONE context as it is. A STOP that arrives during
a burst is the row behind that burst's (log entry 6); the resume revision before revision 1 is the model's
choice (log entry 11); that chunks still owed for a follow's last entry do not lower it is DEDUCED (log
entry 45). -/
def Obligations.StopEndsTheWalk : Prop :=
  ∀ (s : State) (tag : Byte),
    (s.display.state = .walking ∨ s.display.state = .waiting →
      exec (.stop tag) s = .next (settle { s with
        displayPending := none
        display := { s.display with
          state := .done, endStatus := some (.stopped, .none), transit := none, deadline := none }
        displayOut := s.displayOut ++
          [⟨s.display.tag, .done (walkDone s.display .stopped .none)⟩] })) ∧
    (s.display.state = .idle ∨ s.display.state = .done →
      exec (.stop tag) s = .next (settle { s with displayPending := none }))

/-! ### Drawing input -/

/-- R32, R49, R54, R73, R77, R87: what disposes of drawing input before it is handled. Board and tablet
input, gone from its queue: RESETTING and FROZEN, a contact or slot that names no seat, a seat that is not
ADMITTED, a FINGER sample while finger ink is off. Console commands: a seat outside 36..39, a seat not
ADMITTED, a layer above 3, a point count outside 1..24. That a FINGER sample so discarded, an UP included,
and a layer above 3 have a due cut served is DEDUCED (log entries 18 and 35), and so is that a START
STROKE with a layer above 3 captures no fault (log entry 44). -/
def Obligations.InputIsDisposedOf : Prop :=
  (∀ s x row, BoardTurn s x →
    (row, x.frame.phase) ∈ [(Instr.down, Phase.down), (.move, .move), (.up, .up)] →
    let u := boardTaken s
    (∀ n, seatOfContact x.frame.contact = some n →
      (s.cls.state = .resetting ∨ (s.seat n).state = .muted ∨ (s.seat n).state = .barred →
        exec row s = .next (settle (discarded u n))) ∧
      (s.cls.state ≠ .resetting → (s.seat n).state = .vacant →
        exec row s = .next (settle (caught u .notAdmitted .board (some n) (some 0x10#8)))) ∧
      (s.cls.state ≠ .resetting → (s.seat n).state = .admitted → x.frame.tool = .finger →
        s.cls.options.fingerInk = false →
        exec row s = .next (settle (committed u (cutServed n ⟨u, []⟩))))) ∧
    (seatOfContact x.frame.contact = none →
      (s.cls.state = .resetting → exec row s = .next (settle u)) ∧
      (s.cls.state ≠ .resetting →
        exec row s = .next (settle (caught u .badSeat .board none (some 0x10#8)))))) ∧
  (∀ s f row kind slot, TabletTurn s f →
    (match f with
      | .begin a _ _ _ _ => row = Instr.start ∧ kind = 0x20#8 ∧ slot = a
      | .points a _ _ => row = .points ∧ kind = 0x21#8 ∧ slot = a
      | .finish a _ => row = .endFrame ∧ kind = 0x22#8 ∧ slot = a
      | .undo a => row = .undo ∧ kind = 0x23#8 ∧ slot = a
      | .hand a _ => row = .hand ∧ kind = 0x24#8 ∧ slot = a) →
    let u := tabletTaken s
    (∀ n, seatOfSlot slot = some n →
      (s.cls.state = .resetting ∨ (s.cls.state = .frozen ∧ row ≠ .hand) ∨
          (s.seat n).state = .barred ∨ ((s.seat n).state = .muted ∧ row ≠ .hand) →
        exec row s = .next (settle (discarded u n))) ∧
      (s.cls.state ≠ .resetting → (s.cls.state = .frozen → row = .hand) →
        (s.seat n).state = .vacant →
        exec row s = .next (settle (caught u .notAdmitted .tablet (some n) (some kind))))) ∧
    (seatOfSlot slot = none →
      (s.cls.state = .resetting → exec row s = .next (settle u)) ∧
      (s.cls.state ≠ .resetting →
        exec row s = .next (settle (caught u .badSeat .tablet none (some kind)))))) ∧
  ∀ s (n : Nat) (i : DrawInput) tag, n < 256 →
    ConsoleTurn s i.code tag (BitVec.ofNat 8 n :: (i.params 0).tail) →
    let reply (r : Result) : State := replied s ⟨tag, i.code, r, []⟩
    let count := ∀ g pts, i = .points g pts → 1 ≤ pts.length ∧ pts.length ≤ 24
    (∀ g pts, i = .points g pts → pts.length < 65536) →
    (n < 36 ∨ 39 < n ∨ ¬count → exec i.consoleRow s = .next (settle (reply .range))) ∧
    ∀ m : SeatNo, m.val = n → 36 ≤ n → count →
      ((s.seat m).state ≠ .admitted → exec i.consoleRow s = .next (settle (reply .state))) ∧
      ∀ g tool layer colour, (s.seat m).state = .admitted → i = .begin g tool layer colour →
        3 < layer.toNat → exec i.consoleRow s = .next (settle (answered ⟨tag, i.code, .range, []⟩
          (committed (decideGrant s .console) (cutServed m ⟨decideGrant s .console, []⟩))))

/-! ### Drawing

Each of these statements begins where a due cut of the seat has been served (R73, R97): `w` is the
transaction then. -/

/-- R73, R81, R84, R87, R89: END, END STROKE and UP finish the open item: an open ink stroke is closed with
no cause; an eraser context leaves its group closed to further members and pushes an ERASE entry; an armed
START, and by END a held point, is cleared. An END of another tag, or without an item, is counted and
answered NOTHING; an UP without an item does nothing. DEDUCED: a stale END has a due cut served (log entry
18), a held point's tag is its contact number (log entry 36), how reply data are coded (log entry 22). -/
def Obligations.EndFinishesTheOpenItem : Prop :=
  (∀ s n tag row r data u fin, (s.seat n).state = .admitted →
    Delivered s n (.finish tag) row r data u fin →
    let w := cutServed n ⟨u, []⟩
    let w' := ended n .plain w
    let item := (w.st.seat n).item.map OpenItem.kind
    (∀ k, item = some k → tagOf n k = tag → r = .ok →
      (∀ h, InkOpen w.st n h tag → data = w48 w'.rev ++ [1#8] ++ handleData h) →
      ((∀ h, ¬InkOpen w.st n h tag) → data = w48 w'.rev ++ [0#8, 0#8, 0#8, 0#8]) →
      exec row s = .next (settle (fin (committed u w')))) ∧
    ((∀ k, item = some k → tagOf n k ≠ tag) → r = .nothing → data = [] →
      exec row s = .next (settle (fin (committed u ⟨discarded w.st n, w.entries⟩))))) ∧
  ∀ s n x eraser, (s.seat n).state = .admitted → BoardInput s n .up x eraser →
    let w := cutServed n ⟨boardTaken s, []⟩
    (∀ p, (w.st.seat n).item.map OpenItem.kind ≠ some (.held p)) →
      exec .up s = .next (settle (committed (boardTaken s) (ended n .plain w)))

/-- R41, R73, R75, R76, R82, R87, R94: START and START STROKE end the seat's old item with SUPERSEDED and
arm the seat, or open an eraser context; at quota an ink one is counted and, on the console, answered FULL;
a layer outside the mask is refused with DENIED. DEDUCED: one refused or counted has a due cut served (log
entry 18), how reply data are coded (log entry 22). -/
def Obligations.StartBeginsAnItem : Prop :=
  ∀ s n tag tool layer colour row r data u fin, (s.seat n).state = .admitted →
    Delivered s n (.begin tag tool layer colour) row r data u fin →
    let w := cutServed n ⟨u, []⟩
    let v := s.seat n
    let o := originOf row
    let refused := ⟨caught w.st .denied o.link (some n) o.frame, w.entries⟩
    (∀ l, layerOfByte layer = some l →
      let pen : InkTool :=
        if tool = 0#8 then .ink else if tool = 1#8 then .highlight else v.pen.tool
      let kind : ItemKind :=
        if tool = 2#8 then .eraser tag l (targetPage s n) none
        else .armed tag pen l (colourOr v colour)
      let full := tool ≠ 2#8 ∧ v.quota ≤ v.blocksHeld
      (inMask v.rights.layers l = true → ¬full → r = .ok →
        let w' := ended n .superseded w
        data = w48 w'.rev → exec row s = .next (settle (fin (committed u
          ⟨timed (itemNow w'.st n (some { kind := kind }) false) n s.timebase, w'.entries⟩)))) ∧
      (inMask v.rights.layers l = true → full → r = .full → data = w48 w.rev →
        exec row s = .next (settle (fin (committed u ⟨discarded w.st n, w.entries⟩)))) ∧
      (inMask v.rights.layers l = false → r = .denied → data = w48 w.rev →
        exec row s = .next (settle (fin (committed u refused))))) ∧
    (layerOfByte layer = none → row = .start →
      exec row s = .next (settle (fin (committed u refused))))

/-- R4, R12, R14, R26, R57, R75, R83, R85, R86, R87, R90, R91: a POINTS or ADD POINTS of 1 to 24 points that
opens a stroke: that of an armed START of its tag, or else an ORPHAN, which ends the seat's old item with
SUPERSEDED. `pointsOpening` says what its points do: the first coded one opens the stroke, with one OPENED
entry over all the points stored, and a refused record or block loses that point and those behind it. With
no ORPHAN layer in the mask the whole frame is refused with DENIED before anything is closed. The record
opened is the head of the free list and its block the top of the free stack. DEDUCED: a DENIED frame has a
due cut served (log entry 18), how a refused ADD POINTS is answered (log entry 19), how reply data are coded
(log entry 22). By the model's choice each refused ORPHAN open at an empty pool captures POOL_EMPTY (log
entry 12). -/
def Obligations.FirstPointOpensTheStroke : Prop :=
  (∀ s n tag pts row r data u fin, (s.seat n).state = .admitted → ZListsAgree s →
    1 ≤ pts.length → pts.length ≤ 24 → Delivered s n (.points tag pts) row r data u fin →
    let w := cutServed n ⟨u, []⟩
    let item := (w.st.seat n).item.map OpenItem.kind
    let o := originOf row
    let orphan : Prop := ∀ k, item = some k → tagOf n k = tag → ∃ q, k = .held q
    (∀ sp w1, ((∃ tool l c, item = some (.armed tag tool l c) ∧ w1 = w ∧
          sp = ⟨targetPage s n, l, tool, c, tag, false, none⟩) ∨
        (orphan ∧ orphanOf w.st n tag = some sp ∧ w1 = ended n .superseded w)) →
      let d := pointsOpening o n sp pts w1
      r = (if d.refused = some .table then .full else .ok) → data = drawnData n d →
      exec row s = .next (settle (fin (committed u
        ⟨timed d.work.st n s.timebase, d.work.entries⟩)))) ∧
    (orphan → orphanOf w.st n tag = none → r = .denied → data = drawnData n ⟨w, 0, 0, none⟩ →
      exec row s = .next (settle (fin (committed u
        ⟨caught w.st .denied o.link (some n) o.frame, w.entries⟩))))) ∧
  (∀ (f g : FreeList) i, f.take = some (i, g) → f.toList = i :: g.toList) ∧
  ∀ (f g : FreeStack) b, f.pop = some (b, g) → f.toList = b :: g.toList

/-- R4, R15, R57, R60, R63, R66, R67, R75, R88, R90, R91, R93: the points of a POINTS, an ADD POINTS or a
MOVE reach the seat's open ink stroke in their order. `pointDrawn` says what one does: it is lifted, dropped
or merged, or it joins the last block, or a new one where that is full, or after 64 full blocks a successor,
the stroke closed with SPLIT; a refused block or record loses it and the points behind it, keeping those
before it, and the stroke gains TRUNCATED. One EXTENDED entry covers all points stored in a stroke. DEDUCED:
how a refused ADD POINTS is answered (log entry 19), how reply data are coded (log entry 22). -/
def Obligations.PointExtendsTheOpenStroke : Prop :=
  ∀ s n tag pts row r data u fin sample h, (s.seat n).state = .admitted → ZListsAgree s →
    PointsDelivered s n tag pts false row r data u fin sample → (s.seat n).cutDue = false →
    InkOpen s n h tag → (s.store.stroke h.idx).chain ≠ [] → s.store.lastPoint h.idx ≠ none →
    let d := pointsDrawn (originOf row) n pts ⟨u, []⟩ 0
    r = (if d.refused = some .table then .full else .ok) → data = drawnData n d →
    exec row s = .next (settle (fin (committed u ⟨timed d.work.st n sample, d.work.entries⟩)))

/-- R60, R63, R66, R75, R88, R94: a point that ends LIFTED, DROPPED or MERGED stores nothing in an open ink
stroke; a lift and a drop set their break marker, and the deadline moves. How reply data are coded: log
entry 22. -/
def Obligations.PointWithoutInkSetsTheMarkers : Prop :=
  ∀ s n tag p row r data u fin sample h lift drop pr dl, (s.seat n).state = .admitted →
    PointsDelivered s n tag [p] false row r data u fin sample → (s.seat n).cutDue = false →
    (s.seat n).item = some ⟨.ink h tag, lift, drop, pr, dl⟩ → r = .ok →
    data = [1#8] ++ handleData h ++ w48 0 ++ [0#8, 0#8] →
    let out := mapPoint (s.seat n) (s.store.stroke h.idx).tool.pen p
    let left (lift drop outside : Bool) : State :=
      settle (fin (timed (itemNow u n (some ⟨.ink h tag, lift, drop, pr, dl⟩) outside) n sample))
    (p.pressure = 0 → exec row s = .next (left true drop false)) ∧
    (out = .dropped → exec row s = .next (left lift true true)) ∧
    ∀ x y wd clamped l, out = .point x y wd clamped → lift = false → drop = false →
      s.store.lastPoint h.idx = some ⟨x, y, wd, l⟩ → exec row s = .next (left false false clamped)

/-- R41, R73, R75, R77 to R79, R81, R94, R99 to R101: a DOWN, or a MOVE that is handled as one. A default
layer outside the mask refuses it with DENIED, and an ink one at quota is counted; else the contact's old
item is ended, a held point as at an UP of that moment, and an ink point is held, with no record and no
entry, or, lifted or dropped, leaves the contact without an item; an eraser opens its context and tests its
point. That a DOWN refused or counted has a due cut served is DEDUCED: log entry 18. -/
def Obligations.DownHoldsTheFirstPoint : Prop :=
  ∀ s n row x eraser, (s.seat n).state = .admitted → ZListsAgree s → BoardInput s n row x eraser →
    let u := boardTaken s
    let w := cutServed n ⟨u, []⟩
    ActsAsDown (w.st.seat n) row eraser →
    let v := s.seat n
    let l : LayerNo := s.cls.options.layers[n.val % 4]
    let tag : Byte := BitVec.ofNat 8 n.val
    let pen : InkTool := if x.frame.tool = .finger then .ink else v.pen.tool
    let out := mapPoint v (if eraser then .eraser else pen.pen) x.frame.point
    let eraserItem : Option OpenItem := some { kind := .eraser tag l (targetPage s n) none }
    (inMask v.rights.layers l = false → exec row s = .next (settle (committed u
      ⟨caught w.st .denied .board (some n) (some 0x10#8), w.entries⟩))) ∧
    (inMask v.rights.layers l = true → eraser = false → v.quota ≤ v.blocksHeld →
      exec row s = .next (settle (committed u ⟨discarded w.st n, w.entries⟩))) ∧
    (inMask v.rights.layers l = true → (eraser = false → v.blocksHeld < v.quota) →
      let w1 := contactEnded n x.stamp w
      let now (item : Option OpenItem) (outside : Bool) : State :=
        settle (committed u ⟨timed (itemNow w1.st n item outside) n x.stamp, w1.entries⟩)
      (∀ px py wd clamped, out = .point px py wd clamped →
        (eraser = false → exec row s = .next (now (some
          { kind := .held ⟨px, py, wd, clamped, x.stamp, pen, colourOr v x.frame.hint, l⟩ })
          clamped)) ∧
        (eraser = true →
          let w2 : Work := ⟨itemNow w1.st n eraserItem clamped, w1.entries⟩
          let w3 := eraserPassed n tag l (targetPage s n) none px py wd w2
          exec row s = .next (settle (committed u ⟨timed w3.st n x.stamp, w3.entries⟩)))) ∧
      (x.frame.point.pressure = 0 →
        exec row s = .next (now (if eraser then eraserItem else none) false)) ∧
      (out = .dropped → exec row s = .next (now (if eraser then eraserItem else none) true)))

/-- R66, R75, R79 to R81, R85, R88, R90, R94: what becomes of a held point. An UP discards it as a glitch when
less than the glitch time has passed since the hold time, and else stores it as a closed dot stroke with
its OPENED and CLOSED entries, or loses it to a refused open. A MOVE of ink that is lifted, dropped or
merged leaves it held; a coded one opens the stroke with both points, or, where that is refused, is lost
and leaves it held. -/
def Obligations.UpReleasesTheHeldPoint : Prop :=
  (∀ s n x eraser p, (s.seat n).state = .admitted → ZListsAgree s → BoardInput s n .up x eraser →
    (s.seat n).cutDue = false → (s.seat n).item.map OpenItem.kind = some (.held p) →
    exec .up s = .next (settle (committed (boardTaken s)
      (heldReleased ⟨.board, some 0x10#8⟩ n p x.stamp .plain ⟨boardTaken s, []⟩)))) ∧
  ∀ s n x p lift drop pr dl, (s.seat n).state = .admitted → ZListsAgree s → BoardInput s n .move x false →
    (s.seat n).cutDue = false → (s.seat n).item = some ⟨.held p, lift, drop, pr, dl⟩ →
    let u := boardTaken s
    let out := mapPoint (s.seat n) p.tool.pen x.frame.point
    let held (lift drop outside : Bool) : State :=
      timed (itemNow u n (some ⟨.held p, lift, drop, pr, dl⟩) outside) n x.stamp
    (x.frame.point.pressure = 0 → exec .move s = .next (settle (held true drop false))) ∧
    (out = .dropped → exec .move s = .next (settle (held lift true true))) ∧
    ∀ x' y wd clamped, out = .point x' y wd clamped →
      let same := (p.x, p.y, p.w) = (x', y, wd) ∧ lift = false ∧ drop = false
      (same → exec .move s = .next (settle (held false false clamped))) ∧
      (¬same → ∀ why, shortage s n true = some why → exec .move s = .next (settle (committed u
        ⟨timed (refusedFor (itemNow u n (some ⟨.held p, lift, drop, pr, dl⟩) clamped)
          ⟨.board, some 0x10#8⟩ n why 1) n x.stamp, []⟩))) ∧
      (¬same → shortage s n true = none →
        let h := nextHandle s
        let one := newRecord s n (heldSpec s n p) p.x p.y p.w p.clamped
        let two := grownStroke s one x' y wd clamped drop
        let first : Entry := .abs p.x p.y p.w false
        let v := strokeAdded u n two first
        let second := codeEntry ⟨p.x, p.y, p.w, false⟩ false (lift || drop) x' y wd
        let v := { v with store := v.store.setBlock (topBlock s).1 [first, second] }
        exec .move s = .next (settle (committed u
          ⟨timed (itemNow v n (some { kind := .ink h (BitVec.ofNat 8 n.val) }) clamped) n x.stamp,
            [{ openedEntry s h two with count := some 2 }]⟩)))

/-- R4, R41, R57, R60, R63, R71, R72, R75, R99 to R101: the eraser points of a POINTS, an ADD POINTS or a
MOVE, in their order, on an eraser context. The CLOSED strokes of its page-layer that a point hits and that
lie in the seat's erase scope are erased, back to front, into the context's group, or into a new open one of
the seat; OPEN ones are counted. A lift or a drop tests nothing. And when a point hits a stroke: it lies in
the stroke's box widened by half the eraser, and within the limit of a stored entry. How reply data are
coded: log entry 22. -/
def Obligations.EraserPointErasesTheStrokesHit : Prop :=
  (∀ s n tag pts row r data u fin sample l page group, (s.seat n).state = .admitted → ZListsAgree s →
    PointsDelivered s n tag pts true row r data u fin sample → (s.seat n).cutDue = false →
    (s.seat n).item.map OpenItem.kind = some (.eraser tag l page group) → r = .ok →
    let w := pointsErasing n pts ⟨u, []⟩
    data = drawnData n ⟨w, 0, 0, none⟩ →
    exec row s = .next (settle (fin (committed u ⟨timed w.st n sample, w.entries⟩)))) ∧
  ∀ (st : Store) (i : RecIdx) (ex ey ew : Nat),
    let b := (st.stroke i).box
    let e : Int := (ew + 1) / 2
    hitTest st i ex ey ew = true ↔
      ((b.x0 : Int) - e ≤ ex ∧ (ex : Int) ≤ b.x1 + e ∧ (b.y0 : Int) - e ≤ ey ∧ (ey : Int) ≤ b.y1 + e) ∧
      ∃ p ∈ st.points i, ((ex : Int) - p.x).natAbs ≤ (ew + 1) / 2 + (p.w + 1) / 2 ∧
        ((ey : Int) - p.y).natAbs ≤ (ew + 1) / 2 + (p.w + 1) / 2

/-- R105 to R109, with R17, R18, R99, R102 and R103 for what erasing and restoring do and R47 for the notice:
UNDO and RETRACT pop the seat's undo stack to the first entry that succeeds. An INK entry erases its
stroke and the chain of its predecessors; an ERASE entry restores its group; a stack with no such entry
is emptied and answered UNDO_EMPTY or NOTHING. A RETRACT for a seat above 39 is answered RANGE, with no other
effect. How reply data are coded: log entry 29. -/
def Obligations.RetractTakesTheTopEntryBack : Prop :=
  (∀ s tag b, ConsoleTurn s 0x14#8 tag [b] → 39 < b.toNat →
    exec .retract s = .next (settle (replied s ⟨tag, 0x14#8, .range, []⟩))) ∧
  ∀ s n row r data u fin origin, RetractDelivered s n row r data u fin origin →
    ((∀ e ∈ (s.seat n).undo, DeadEntry s e) → r = .nothing → data = [] →
      exec row s = .next (settle (fin (addNotice (u.modSeat n fun v => { v with undo := [] }) n
        .undoEmpty)))) ∧
    (∀ dead e rest, (s.seat n).undo = dead ++ e :: rest → (∀ d ∈ dead, DeadEntry s d) →
      let popped : Work := ⟨u.modSeat n fun v => { v with undo := rest }, []⟩
      let done (w : Work) : State :=
        settle (fin (committed u ⟨addNotice w.st n .undoDone, w.entries⟩))
      (∀ h hs, e = .ink h → hs ≠ [] → PredChain s (s.store.stroke h.idx).owner (some h) hs →
        r = .ok →
        data = [0#8] ++ handleData h ++ [1#8] ++ w48 (upcoming s) ++ w16 hs.length
          ++ w48 (upcoming s) →
        exec row s = .next (done (erasedInto (upcoming s) origin false hs popped))) ∧
      ∀ g x, e = .erase g → queuedGroup s g = some x → AllIn s .erased x.members →
        let w := restored x popped
        r = .ok →
        data = [1#8] ++ w48 g ++ [0#8, 0#8, 0#8, 0#8, 0#8, 0#8, 0#8] ++ w16 x.members.length
          ++ w48 w.rev →
        exec row s = .next (done w))

/-! ### Seats and hands -/

/-- R45, R46, R198: what HAND does for an ADMITTED or MUTED seat, and what HAND POLL, CALL NEXT and CLEAR
HANDS do. None of the three clears the HAND source. How reply data are coded: log entry 22. -/
def Obligations.HandsAreRaisedAndLowered : Prop :=
  (∀ s n slot up, TabletTurn s (.hand slot up) → seatOfSlot slot = some n →
    s.cls.state ≠ .resetting → (s.seat n).state = .admitted ∨ (s.seat n).state = .muted →
    ((s.seat n).handUp = up → exec .hand s = .next (settle (tabletTaken s))) ∧
    ((s.seat n).handUp = false → up = true → exec .hand s = .next (settle
      { (tabletTaken s).modSeat n (fun v => { v with handUp := true }) with
        hands := s.hands ++ [n]
        attention := { s.attention with
          pending := s.attention.pending ||| BitVec.twoPow 11 7 } })) ∧
    ((s.seat n).handUp = true → up = false → exec .hand s = .next (settle
      { (tabletTaken s).modSeat n (fun v => { v with handUp := false }) with
        hands := s.hands.filter fun m => decide (m ≠ n) }))) ∧
  ∀ s tag,
    (ConsoleTurn s 0x17#8 tag [] → ∃ map : BitVec 40,
      (∀ n : SeatNo, map.getLsbD n.val = (decide (portOf n = .tablet) && (s.seat n).handUp)) ∧
      exec .handPoll s = .next (settle (replied s ⟨tag, 0x17#8, .ok,
        seatSetData map ++ w16 s.hands.length ++ s.hands.map fun n => BitVec.ofNat 8 n.val⟩))) ∧
    (ConsoleTurn s 0x18#8 tag [] →
      (s.hands = [] →
        exec .callNext s = .next (settle (replied s ⟨tag, 0x18#8, .nothing, []⟩))) ∧
      ∀ n rest, s.hands = n :: rest → exec .callNext s = .next (settle
        { (replied s ⟨tag, 0x18#8, .ok, [BitVec.ofNat 8 n.val]⟩).modSeat n
            (fun v => { v with handUp := false }) with
          hands := rest.filter fun m => decide (m ≠ n) })) ∧
    (ConsoleTurn s 0x19#8 tag [] → exec .clearHands s = .next (settle
      { replied s ⟨tag, 0x19#8, .ok, []⟩ with
        seats := s.seats.map fun v => { v with handUp := false }, hands := [] }))

/-- R33, with R47 for what adding the notice does: ADMIT SEAT in each state of the seat. It writes no
change entry and takes no revision. Nothing is said of `noticeBasis`, a field of the model's own (log
entry 6). -/
def Obligations.AdmitSeatAdmitsAVacantSeat : Prop :=
  ∀ s tag b, ConsoleTurn s 0x01#8 tag [b] →
    let reply (r : Result) : State := replied s ⟨tag, 0x01#8, r, []⟩
    (∀ n, seatOfByte b = some n →
      ((s.seat n).state = .vacant → ∃ t, exec .admitSeat s = .next t ∧ t = settle
        { (reply .ok).modSeat n (fun v => { v with
            state := .admitted
            notices :=
              if portOf n = .tablet then (v.notices &&& ~~~(0x1F#11)) ||| 1#11 else v.notices }) with
          noticeQueue :=
            if portOf n = .tablet ∧ (s.seat n).notices = 0 then s.noticeQueue ++ [n]
            else s.noticeQueue
          noticeBasis := t.noticeBasis }) ∧
      ((s.seat n).state = .admitted → exec .admitSeat s = .next (settle (reply .ok))) ∧
      ((s.seat n).state = .muted ∨ (s.seat n).state = .barred →
        exec .admitSeat s = .next (settle (reply .state)))) ∧
    (39 < b.toNat → exec .admitSeat s = .next (settle (reply .range)))

/-- R37: UNBAR, and the table of the seat commands: the state each leaves a seat of any port in, OK or STATE
as the result, and notices for tablet seats alone; a muted board seat's samples are ignored, and a vacated
console seat's drawing is refused with STATE. -/
def Obligations.SeatCommandsFollowTheStateTable : Prop :=
  (∀ s tag row code b n, (row, code) ∈ [(Instr.admitSeat, 0x01#8), (.vacateSeat, 0x02#8),
      (.mute, 0x04#8), (.unmute, 0x05#8), (.bar, 0x06#8), (.unbar, 0x07#8)] →
    ConsoleTurn s code tag [b] → seatOfByte b = some n →
    let was := (s.seat n).state
    let table : List (Instr × SeatState × SeatState) :=
      [(.admitSeat, .vacant, .admitted), (.admitSeat, .admitted, .admitted),
        (.vacateSeat, .vacant, .vacant), (.vacateSeat, .admitted, .vacant),
        (.vacateSeat, .muted, .vacant), (.vacateSeat, .barred, .vacant),
        (.mute, .admitted, .muted), (.unmute, .muted, .admitted),
        (.bar, .admitted, .barred), (.bar, .muted, .barred), (.unbar, .barred, .admitted)]
    ∃ t data, exec row s = .next t ∧
      (∀ m, m ≠ n → (t.seat m).state = (s.seat m).state) ∧
      (∀ m, portOf m ≠ .tablet → (t.seat m).notices = (s.seat m).notices) ∧
      ((∀ new, (row, was, new) ∉ table) → t = settle (replied s ⟨tag, code, .state, []⟩)) ∧
      (∀ new, (row, was, new) ∈ table → (t.seat n).state = new ∧
        t.consoleOut = s.consoleOut ++ [.reply ⟨tag, code, .ok, data⟩] ∧
        (new = was → t = settle (replied s ⟨tag, code, .ok, data⟩))) ∧
      (row = .unbar → was = .barred → t.store = s.store ∧
        (portOf n = .tablet → (t.seat n).notices.getLsbD 0 = true))) ∧
  (∀ s x n row, BoardTurn s x → seatOfContact x.frame.contact = some n → (s.seat n).state = .muted →
    (row, x.frame.phase) ∈ [(Instr.down, Phase.down), (.move, .move), (.up, .up)] →
    exec row s = .next (settle (discarded (boardTaken s) n))) ∧
  ∀ s n (i : DrawInput) tag, (s.seat n).state = .vacant → 36 ≤ n.val → ConsoleTurn s i.code tag (i.params n) →
    (∀ g pts, i = .points g pts → 1 ≤ pts.length ∧ pts.length ≤ 24) →
    exec i.consoleRow s = .next (settle (replied s ⟨tag, i.code, .state, []⟩))

/-- R34, R35, R37, R47, R89, R96: VACATE SEAT and MUTE, which cut the seat's open item, and UNMUTE and
UNBAR; and what adding a notice of kind k to a seat does, here and in the other statements. The revision 0
of a VACATE SEAT that changes nothing is the model's choice (log entry 27), and so is `noticeBasis`, which
tells of the notices a transaction adds (log entry 6). -/
def Obligations.SeatsAreVacatedMutedAndReadmitted : Prop :=
  (∀ s tag row code b, (row, code) ∈
      [(Instr.vacateSeat, 0x02#8), (.mute, 0x04#8), (.unmute, 0x05#8), (.unbar, 0x07#8)] →
    ConsoleTurn s code tag [b] →
    let d := decideGrant s .console
    let reply (r : Result) (data : Bytes) : State := replied s ⟨tag, code, r, data⟩
    (39 < b.toNat → exec row s = .next (settle (reply .range []))) ∧
    ∀ n, seatOfByte b = some n →
      let u := s.seat n
      let w := ended n .cut ⟨d, []⟩
      let cut (v : State) : State := settle (answered ⟨tag, code, .ok, w48 w.rev⟩
        (committed d ⟨v, w.entries⟩))
      let moved (st : SeatState) (k : Notice) : State :=
        settle (addNotice ((reply .ok []).modSeat n fun v => { v with state := st }) n k)
      (row = .vacateSeat → u.state = .vacant → exec row s = .next (settle (reply .ok (w48 0)))) ∧
      (row = .vacateSeat → u.state ≠ .vacant → exec row s = .next (cut (addNotice
        { w.st.modSeat n (fun v => { v with
            state := .vacant, undo := [], lastClosed := none, cutDue := false, handUp := false }) with
          hands := s.hands.filter fun m => decide (m ≠ n) } n .vacated))) ∧
      (row = .mute → u.state ≠ .admitted → exec row s = .next (settle (reply .state []))) ∧
      (row = .mute → u.state = .admitted → exec row s = .next (cut
        (addNotice (w.st.modSeat n fun v => { v with state := .muted }) n .muted))) ∧
      (row = .unmute → u.state ≠ .muted → exec row s = .next (settle (reply .state []))) ∧
      (row = .unmute → u.state = .muted → exec row s = .next (moved .admitted .unmuted)) ∧
      (row = .unbar → u.state ≠ .barred → exec row s = .next (settle (reply .state []))) ∧
      (row = .unbar → u.state = .barred → exec row s = .next (moved .admitted .admitted))) ∧
  ∀ (s : State) (n : SeatNo) (k : Notice),
    (portOf n ≠ .tablet → addNotice s n k = s) ∧
    (portOf n = .tablet → ∃ set : BitVec 11,
      (∀ j : Notice, set.getLsbD j.ix =
        (decide (j = k) || (decide (j.groupMask ≠ k.groupMask) && (s.seat n).notices.getLsbD j.ix))) ∧
      addNotice s n k = { s.modSeat n (fun v => { v with notices := set }) with
        noticeQueue :=
          if (s.seat n).notices = 0 then s.noticeQueue ++ [n] else s.noticeQueue
        noticeBasis := s.noticeBasis.map fun b => { b with added := b.added ++ [(n, k)] } })

/-- R17, R36, R41, R47, R96, R98 to R100, R103, R113: BAR erases the seat's CLOSED strokes on every page into
one console group, counts its OPEN ones, cuts its open item, lowers its hand and bars it. How reply data
are coded, with the skip count R100 asks for behind the data R36 lists, is the model's choice: log entry
34. -/
def Obligations.BarErasesTheSeatsInk : Prop :=
  ∀ s tag b, ConsoleTurn s 0x06#8 tag [b] →
    let d := decideGrant s .console
    (39 < b.toNat → exec .bar s = .next (settle (replied s ⟨tag, 0x06#8, .range, []⟩))) ∧
    ∀ n, seatOfByte b = some n →
      let all := (List.finRange 16).flatMap fun p => (List.finRange 4).flatMap fun l =>
        s.store.zlist p l
      let own (st : StrokeState) (h : Handle) : Bool :=
        decide ((s.store.stroke h.idx).owner = n ∧ (s.store.stroke h.idx).state = st)
      let hs := all.filter (own .closed)
      let skipped := all.countP (own .opened)
      let w := ended n .cut (erasedInto (upcoming s) .console false hs ⟨{ d with
        counters := { s.counters with
          eraseSkip := grown s.counters.eraseSkip skipped } }, []⟩)
      let group : Bytes := if hs = [] then [0#8, 0#8, 0#8, 0#8, 0#8, 0#8, 0#8]
        else [1#8] ++ w48 (upcoming s)
      ((s.seat n).state = .vacant ∨ (s.seat n).state = .barred →
        exec .bar s = .next (settle (replied s ⟨tag, 0x06#8, .state, []⟩))) ∧
      ((s.seat n).state = .admitted ∨ (s.seat n).state = .muted → AllIn s .closed hs →
        exec .bar s = .next (settle (answered
          ⟨tag, 0x06#8, .ok, w48 w.rev ++ group ++ w16 skipped⟩
          (committed d ⟨addNotice
            { w.st.modSeat n (fun v => { v with state := .barred, handUp := false }) with
              hands := s.hands.filter fun m => decide (m ≠ n) } n .barred, w.entries⟩))))

/-- R38, R41: CONFIGURE SEAT, on the groups its parameters spell. Any failed check answers RANGE and
writes nothing; else every present group is written, ew and quota clamped, and answered. A QUOTA group
that leaves quota-reached and a fall below the quota clears the flag with QUOTA_CLEARED. How parameters
and reply data are coded: log entries 21 and 26. -/
def Obligations.ConfigureSeatWritesThePresentGroups : Prop :=
  ∀ s tag params b items, ConsoleTurn s 0x03#8 tag params →
    readAll rSeatItems params = some (b, items) →
    let fits : Prop :=
      (∀ sx sy ox oy, items.mapping = some (sx, sy, ox, oy) → sx ≤ 131071 ∧ sy ≤ 131071 ∧
        (-16384) ≤ ox ∧ ox ≤ 16383 ∧ (-16384) ≤ oy ∧ oy ≤ 16383) ∧
      (∀ a b c d p, items.window = some (a, b, c, d, p) →
        a ≤ b ∧ c ≤ d ∧ b ≤ 16383 ∧ d ≤ 9215) ∧
      (∀ c t lo hi ew, items.pen = some (c, t, lo, hi, ew) →
        c.toNat ≤ 63 ∧ lo ≠ 0#8 ∧ lo.toNat ≤ hi.toNat) ∧
      ∀ p, items.target = some p → p = 0xFF#8 ∨ p.toNat ≤ 15
    (39 < b.toNat ∨ ¬fits →
      exec .configureSeat s = .next (settle (replied s ⟨tag, 0x03#8, .range, []⟩))) ∧
    ∀ n, seatOfByte b = some n → fits → ∃ c : SeatSettings,
      c.mapping = items.mapping.map (fun m => ⟨m.1, m.2.1, m.2.2.1, m.2.2.2⟩) ∧
      c.window = items.window.map
        (fun w => ⟨w.1, w.2.1, w.2.2.1, w.2.2.2.1, w.2.2.2.2⟩) ∧
      c.pen.map (fun p => (p.colour.val, p.tool, p.wmin, p.wmax, p.ew)) = items.pen.map
        (fun p => (p.1.toNat, p.2.1, p.2.2.1.toNat, p.2.2.2.1.toNat, max 8 p.2.2.2.2.toNat)) ∧
      c.rights = items.rights ∧
      c.target.map (fun | .follow => 255 | .fixed p => p.val) = items.target.map (·.toNat) ∧
      c.quota = items.quota.map (fun q => min q 8192) ∧
      let written := (replied s ⟨tag, 0x03#8, .ok, wOpt 10 mappingData c.mapping
          ++ wOpt 9 windowData c.window ++ wOpt 5 penData c.pen ++ wOpt 2 rightsData c.rights
          ++ wOpt 1 targetData c.target ++ wOpt 2 w16 c.quota⟩).modSeat n fun v => { v with
        mapping := c.mapping.getD v.mapping, window := c.window.getD v.window
        pen := c.pen.getD v.pen, rights := c.rights.getD v.rights
        target := c.target.getD v.target, quota := c.quota.getD v.quota }
      exec .configureSeat s = .next (settle
        (if (s.seat n).quotaReached = true ∧ ∃ q, c.quota = some q ∧ (s.seat n).blocksHeld < q then
          addNotice (written.modSeat n fun v => { v with quotaReached := false }) n .quotaCleared
        else written))

/-! ### The class -/

/-- R49, R89, R96, R103, R135: FREEZE cuts the open item of every tablet seat in one transaction, in ascending
seat number by the model's choice (log entry 42), and freezes the class; THAW opens it again. -/
def Obligations.FreezeAndThawChangeTheClassState : Prop :=
  ∀ s tag,
    let d := decideGrant s .console
    (ConsoleTurn s 0x09#8 tag [] →
      (s.cls.state ≠ .opened →
        exec .freeze s = .next (settle (replied s ⟨tag, 0x09#8, .state, []⟩))) ∧
      (s.cls.state = .opened →
        let w := (allSeats.filter fun n => decide (portOf n = .tablet)).foldl
          (fun w n => ended n .cut w) ⟨d, []⟩
        exec .freeze s = .next (settle (answered ⟨tag, 0x09#8, .ok, w48 w.rev⟩
          (committed d ⟨{ w.st with cls := { s.cls with state := .frozen } }, w.entries⟩))))) ∧
    (ConsoleTurn s 0x0A#8 tag [] →
      (s.cls.state = .frozen → exec .thaw s = .next (settle
        { replied s ⟨tag, 0x0A#8, .ok, []⟩ with cls := { s.cls with state := .opened } })) ∧
      (s.cls.state ≠ .frozen →
        exec .thaw s = .next (settle (replied s ⟨tag, 0x0A#8, .state, []⟩))))

/-- R47, R51: SHOW PAGE sets the shown page, writes one PAGE_SHOWN entry and gives PAGE_SHOWN to every
ADMITTED or MUTED tablet seat; those without a notice join the Notice Queue in ascending seat number by
the model's choice (log entry 42); `noticeBasis` tells of the notices (log entry 6). No watch fires. -/
def Obligations.ShowPageShowsAndNotices : Prop :=
  ∀ s tag b, ConsoleTurn s 0x0B#8 tag [b] →
    let d := decideGrant s .console
    (15 < b.toNat → exec .showPage s = .next (settle (replied s ⟨tag, 0x0B#8, .range, []⟩))) ∧
    ∀ p : PageNo, b.toNat = p.val →
      let given (n : SeatNo) : Bool :=
        decide (portOf n = .tablet ∧ ((s.seat n).state = .admitted ∨ (s.seat n).state = .muted))
      ∃ t, exec .showPage s = .next t ∧
        (∀ n, t.seat n = if given n then
            { s.seat n with notices := (s.seat n).notices ||| BitVec.twoPow 11 9 } else s.seat n) ∧
        t = settle (answered ⟨tag, 0x0B#8, .ok, w48 (upcoming s)⟩ (committed d
          ⟨{ d with
              cls := { s.cls with shown := p }
              seats := t.seats
              noticeQueue := s.noticeQueue ++
                allSeats.filter fun n => given n && decide ((s.seat n).notices = 0)
              noticeBasis := noticesKept s ((allSeats.filter given).map fun n => (n, .pageShown)) },
            [{ kind := .pageShown, rev := upcoming s, time := s.timebase, page := some p }]⟩)) ∧
        t.watches = s.watches ∧ t.attention = s.attention

/-- R50, R114: SET CLASS OPTIONS, on the items its parameters spell: a default layer above 3 answers
RANGE and writes nothing; else every present item is written, clamped, and every option answered; a new
reserve has the demands tested. How parameters and reply data are coded: log entries 20, 21 and 25. -/
def Obligations.ClassOptionsAreClampedAndWritten : Prop :=
  ∀ s tag params items, ConsoleTurn s 0x0D#8 tag params →
    readAll rOptionItems params = some items →
    ((∃ k : Fin 4, ∃ b, items.layers[k.val] = some b ∧ 3 < b.toNat) →
      exec .setClassOptions s = .next (settle (replied s ⟨tag, 0x0D#8, .range, []⟩))) ∧
    ((∀ k : Fin 4, ∀ b, items.layers[k.val] = some b → b.toNat ≤ 3) →
      ∃ o : ClassOptions,
        o.fingerInk = items.fingerInk.getD s.cls.options.fingerInk ∧
        o.glitch = (items.glitch.map fun k => min k 255).getD s.cls.options.glitch ∧
        o.boardIdle = (items.boardIdle.map fun k => max 50 (min k 5000)).getD
          s.cls.options.boardIdle ∧
        o.tabletIdle = (items.tabletIdle.map fun k => max 100 (min k 10000)).getD
          s.cls.options.tabletIdle ∧
        o.consoleIdle = (items.consoleIdle.map fun k => max 100 (min k 10000)).getD
          s.cls.options.consoleIdle ∧
        o.reserve = (items.reserve.map fun k => min k 2048).getD s.cls.options.reserve ∧
        (∀ k : Fin 4, o.layers[k.val].val =
          (items.layers[k.val].map (·.toNat)).getD s.cls.options.layers[k.val].val) ∧
        let d := decideGrant s .console
        exec .setClassOptions s = .next (settle (answered ⟨tag, 0x0D#8, .ok, optionData o⟩
          (committed d ⟨{ d with cls := { s.cls with options := o } }, []⟩))))

/-! ### Ink commands -/

/-- R17, R41, R98 to R100, R103, R104, R111, R112: CLEAR LAYER and ERASE SEAT INK erase the CLOSED strokes
they name, in Z order and in ascending page, then layer, into one new console group, and count the OPEN
ones; with none to erase they answer NOTHING with the number skipped. How reply data are coded: log entry
22. -/
def Obligations.ConsoleErasureTakesTheClosedStrokes : Prop :=
  ∀ (s : State) (tag : Byte) (row : Instr) (code : Byte) (a b : Byte) (all : List Handle)
    (keep : Stroke → Bool), ConsoleTurn s code tag [a, b] →
    let d := decideGrant s .console
    (row = .clearLayer ∧ code = 0x12#8 ∧ (15 < a.toNat ∨ 3 < b.toNat) ∨
      row = .eraseSeatInk ∧ code = 0x13#8 ∧ (39 < a.toNat ∨ (15 < b.toNat ∧ b ≠ 0xFF#8)) →
      exec row s = .next (settle (replied s ⟨tag, code, .range, []⟩))) ∧
    ((row = .clearLayer ∧ code = 0x12#8 ∧ (∀ r, keep r = true) ∧
        ∃ (p : PageNo) (l : LayerNo), a.toNat = p.val ∧ b.toNat = l.val ∧ all = s.store.zlist p l) ∨
      (row = .eraseSeatInk ∧ code = 0x13#8 ∧ (∃ n : SeatNo, a.toNat = n.val ∧
          ∀ r, keep r = decide (r.owner = n)) ∧
        ∃ pages : List PageNo, (b = 0xFF#8 ∧ pages = List.finRange 16 ∨
            ∃ p : PageNo, b.toNat = p.val ∧ pages = [p]) ∧
          all = pages.flatMap fun p => (List.finRange 4).flatMap fun l => s.store.zlist p l) →
      let met (st : StrokeState) (h : Handle) : Bool :=
        keep (s.store.stroke h.idx) && decide ((s.store.stroke h.idx).state = st)
      let hs := all.filter (met .closed)
      let skipped := all.countP (met .opened)
      let w := erasedInto (upcoming s) .console false hs ⟨{ d with
        counters := { s.counters with eraseSkip := grown s.counters.eraseSkip skipped } }, []⟩
      AllIn s .closed hs →
      exec row s = .next (settle (answered
        (if hs = [] then ⟨tag, code, .nothing, w16 skipped⟩
        else ⟨tag, code, .ok,
          w48 (upcoming s) ++ w16 hs.length ++ w16 skipped ++ w48 (upcoming s)⟩) (committed d w))))

/-- R18, R102, R103, R109, R110: RESTORE GROUP restores every member of a queued group and ends it; a group
that is not queued is answered NOTHING. How reply data are coded: log entries 22 and 30. -/
def Obligations.RestoreGroupRestoresEveryMember : Prop :=
  ∀ s tag g, ConsoleTurn s 0x15#8 tag (w48 g) →
    ((∀ x ∈ s.eraseQueue, x.id ≠ g) →
      exec .restoreGroup s = .next (settle (replied s ⟨tag, 0x15#8, .nothing, []⟩))) ∧
    ∀ x, queuedGroup s g = some x → AllIn s .erased x.members →
      let d := decideGrant s .console
      let w := restored x ⟨d, []⟩
      exec .restoreGroup s = .next (settle (answered
        ⟨tag, 0x15#8, .ok, w48 w.rev ++ w16 x.members.length ++
          match x.origin with
          | .seat n => [1#8, BitVec.ofNat 8 n.val]
          | .console => [0#8, 0#8]⟩ (committed d w)))

/-! ### Reading and reporting -/

/-- R21, R39, R52, R131, R168, R171, R175 to R177, R180: the reading commands answer what stands at their
grant, field by field, and change nothing. READ ATTENTION names, of the sources pending and enabled, the
one of highest level, ties taken in attention order. How reply data are coded: log entries 9, 20, 22, 24,
28 and 31. -/
def Obligations.ReadCommandsAnswerWhatStands : Prop :=
  ∀ s tag,
    let gives (row : Instr) (code : Byte) (r : Result) (data : Bytes) : Prop :=
      exec row s = .next (settle (replied s ⟨tag, code, r, data⟩))
    (∀ b, ConsoleTurn s 0x08#8 tag [b] →
      (39 < b.toNat → gives .readSeat 0x08#8 .range []) ∧
      ∀ n : SeatNo, b.toNat = n.val → gives .readSeat 0x08#8 .ok (seatData n (s.seat n))) ∧
    (ConsoleTurn s 0x0E#8 tag [] → gives .readStatus 0x0E#8 .ok (statusData s)) ∧
    (∀ w : WireHandle, ConsoleTurn s 0x16#8 tag (w16 w.index.toNat ++ [w.gen]) →
      (4095 < w.index.toNat → gives .readStroke 0x16#8 .range []) ∧
      ∀ h : Handle, w.index.toNat = h.idx.val → w.gen = h.gen →
        (s.store.live h = false → gives .readStroke 0x16#8 .gone []) ∧
        (s.store.live h = true →
          gives .readStroke 0x16#8 .ok (strokeData h (s.store.stroke h.idx)))) ∧
    (∀ b, ConsoleTurn s 0x1E#8 tag [b] →
      (3 < b.toNat → gives .readWatch 0x1E#8 .range []) ∧
      ∀ n : Fin 4, b.toNat = n.val → gives .readWatch 0x1E#8 .ok (watchData s.watches[n.val])) ∧
    (ConsoleTurn s 0x1F#8 tag [] → ∃ best : Option (Fin 11 × Fin 4),
      (let raised (x : Fin 11) : Prop :=
        s.attention.pending.getLsbD x.val = true ∧ s.attention.enabled.getLsbD x.val = true
      (best = none → ∀ x, ¬raised x) ∧
        ∀ x l, best = some (x, l) → raised x ∧ l = s.attention.levels[x.val] ∧
          ∀ y, raised y → s.attention.levels[y.val] < l ∨ (s.attention.levels[y.val] = l ∧ x ≤ y)) ∧
      gives .readAttention 0x1F#8 .ok
        (wOpt 2 (fun p : Fin 11 × Fin 4 => w8 p.1.val ++ w8 p.2.val) best
          ++ w16 s.attention.pending.toNat)) ∧
    (ConsoleTurn s 0x24#8 tag [] → gives .readCounters 0x24#8 .ok
      (((List.finRange 40).flatMap fun n => seatCounterData (s.seat n))
        ++ classCounterData s.counters ++ linkCounterData s.counters)) ∧
    (ConsoleTurn s 0x26#8 tag [] →
      gives .readTime 0x26#8 .ok (w48 s.timebase ++ w48 s.store.rev))

/-- R173 to R177: READ FAULT answers the record and the count and clears both; the FAULT source stays.
CLEAR COUNTERS answers the counters of the named groups and sets them to 0. How reply data are coded: log
entry 22. -/
def Obligations.ClearingReadsAnswerAndClear : Prop :=
  ∀ s tag,
    (ConsoleTurn s 0x23#8 tag [] → exec .readFault s = .next (settle
      { replied s ⟨tag, 0x23#8, .ok, wOpt 18 faultData s.faults.record ++ w16 s.faults.count⟩ with
        faults := ⟨none, 0⟩ })) ∧
    ∀ b : Byte, b.toNat < 8 → ConsoleTurn s 0x25#8 tag [b] →
      ∃ t, exec .clearCounters s = .next t ∧
        (∀ n, t.seat n = if b.getLsbD 0 then
          { s.seat n with clipped := 0, dropped := 0, discarded := 0 } else s.seat n) ∧
        t.counters.glitch = (if b.getLsbD 1 then 0 else s.counters.glitch) ∧
        t.counters.eraseSkip = (if b.getLsbD 1 then 0 else s.counters.eraseSkip) ∧
        ({ t.counters with glitch := 0, eraseSkip := 0 } : Counters) =
          (if b.getLsbD 2 then {} else { s.counters with glitch := 0, eraseSkip := 0 }) ∧
        t = settle { replied s ⟨tag, 0x25#8, .ok,
            (if b.getLsbD 0 then (List.finRange 40).flatMap fun n => seatCounterData (s.seat n)
              else [])
              ++ (if b.getLsbD 1 then classCounterData s.counters else [])
              ++ (if b.getLsbD 2 then linkCounterData s.counters else [])⟩ with
          seats := t.seats, counters := t.counters }

/-- R181, R182: ACK ATTENTION and SET ATTENTION change the pending set and answer it; CONFIGURE
ATTENTION writes the present enables and levels, a level above 3 taken as 3, and answers them all. How
parameters and reply data are coded: log entries 20, 21 and 32. -/
def Obligations.AttentionCommandsWriteTheSources : Prop :=
  ∀ s tag params,
    let pend (r : Reply) (p : BitVec 11) : State :=
      settle { replied s r with attention := { s.attention with pending := p } }
    (∀ mask, ConsoleTurn s 0x20#8 tag params → readAll (rSet16 11) params = some mask →
      ∃ p, (∀ x : Fin 11, p.getLsbD x.val =
          (s.attention.pending.getLsbD x.val && !mask.getLsbD x.val)) ∧
        exec .ackAttention s = .next (pend ⟨tag, 0x20#8, .ok, w16 p.toNat⟩ p)) ∧
    (∀ set clear, ConsoleTurn s 0x21#8 tag params → readAll rTwoMasks params = some (set, clear) →
      ∃ p, (∀ x : Fin 11, p.getLsbD x.val =
          if set.getLsbD x.val = clear.getLsbD x.val then s.attention.pending.getLsbD x.val
          else set.getLsbD x.val) ∧
        exec .setAttention s = .next (pend ⟨tag, 0x21#8, .ok, w16 p.toNat⟩ p)) ∧
    ∀ items, ConsoleTurn s 0x22#8 tag params → readAll (rSourceItems 11) params = some items →
      ∃ t, exec .configureAttention s = .next t ∧ items.length = 11 ∧
        t.attention.pending = s.attention.pending ∧
        (∀ (x : Fin 11) e l, items[x.val]? = some (e, l) →
          t.attention.enabled.getLsbD x.val = e.getD (s.attention.enabled.getLsbD x.val) ∧
          t.attention.levels[x.val].val =
            (l.map fun b => min b.toNat 3).getD s.attention.levels[x.val].val) ∧
        t = settle { replied s ⟨tag, 0x22#8, .ok,
          (List.finRange 11).flatMap fun x =>
            [if t.attention.enabled.getLsbD x.val then 0#8 else 1#8,
              BitVec.ofNat 8 t.attention.levels[x.val].val]⟩ with attention := t.attention }

/-- R168: ARM WATCH checks its parameters, writes them all, sets ARMED and removes the capture; DISARM
WATCH keeps parameters and capture; a watch number above 3 is answered RANGE. How parameters are coded:
log entries 21 and 24. -/
def Obligations.WatchCommandsWriteOneEntry : Prop :=
  ∀ s tag params,
    (∀ b i, ConsoleTurn s 0x1C#8 tag params → readAll rWatchItems params = some (b, i) →
      let fits : Prop := b.toNat ≤ 3 ∧ i.page.toNat ≤ 15 ∧ i.rect.x1 ≤ 16383 ∧ i.rect.y1 ≤ 9215 ∧
        i.rect.x0 ≤ i.rect.x1 ∧ i.rect.y0 ≤ i.rect.y1
      (¬fits → exec .armWatch s = .next (settle (replied s ⟨tag, 0x1C#8, .range, []⟩))) ∧
      (fits → ∃ t, exec .armWatch s = .next t ∧
        (∀ n : Fin 4, n.val ≠ b.toNat → t.watches[n.val] = s.watches[n.val]) ∧
        (∀ n : Fin 4, n.val = b.toNat → ∃ p : PageNo, p.val = i.page.toNat ∧ t.watches[n.val] =
          { state := .armed, page := p, rect := i.rect, layers := i.layers, seats := i.seats
            kinds := i.kinds, onRegion := i.enables.getLsbD 0, onSeat := i.enables.getLsbD 1
            onKind := i.enables.getLsbD 2, combine := i.combine, capture := none }) ∧
        t = settle { replied s ⟨tag, 0x1C#8, .ok, []⟩ with watches := t.watches })) ∧
    ∀ b, ConsoleTurn s 0x1D#8 tag [b] →
      (3 < b.toNat → exec .disarmWatch s = .next (settle (replied s ⟨tag, 0x1D#8, .range, []⟩))) ∧
      (b.toNat ≤ 3 → ∃ t, exec .disarmWatch s = .next t ∧
        (∀ n : Fin 4, t.watches[n.val] = if n.val = b.toNat then
          { s.watches[n.val] with state := .disarmed } else s.watches[n.val]) ∧
        t = settle { replied s ⟨tag, 0x1D#8, .ok, []⟩ with watches := t.watches })

/-- R127: SET ARBITER. Its own grant is counted under the settings before it; then the present items are
written, the flags cleared where enable is written off, the counter set to 0 where an item is present,
and the arbiter answered as it stands at the end. How parameters and reply data are coded, and when the
requests are read, is the model's choice: log entries 20, 21 and 33. -/
def Obligations.SetArbiterWritesThePresentItems : Prop :=
  ∀ s tag params e p, ConsoleTurn s 0x27#8 tag params →
    readAll rArbiterItems params = some (e, p) →
    let d := (decideGrant s .console).arbiter
    ∃ t, exec .setArbiter s = .next t ∧
      t.arbiter.enabled = e.getD s.arbiter.enabled ∧
      t.arbiter.period = (p.map fun k => max 8 (min k 255)).getD s.arbiter.period ∧
      t.arbiter.counter = (if e = none ∧ p = none then d.counter else 0) ∧
      t.arbiter.waiting = (if e = some false then 0 else d.waiting &&& requestSet t) ∧
      t.arbiter.elevated = (if e = some false then 0 else d.elevated &&& requestSet t) ∧
      t = { replied s ⟨tag, 0x27#8, .ok,
        [if t.arbiter.enabled then 0#8 else 1#8] ++ w16 t.arbiter.period ++ w16 t.arbiter.counter
          ++ ([.console, .board, .display, .tablet, .snapshot, .maintenance] : List Requester).flatMap
            fun r =>
              [if requests t r then 1#8 else 0#8,
                if t.arbiter.waiting.getLsbD r.ix then 0#8 else 1#8,
                if t.arbiter.elevated.getLsbD r.ix then 0#8 else 1#8]⟩ with
        arbiter := t.arbiter }

/-- R161, R165: START SNAPSHOT is answered RANGE, BUSY or ACCEPTED; STOP SNAPSHOT ends a WALKING
snapshot with STOPPED, its WALK_DONE placed before the reply and SNAPSHOT_DONE latched. How parameters
are coded: log entry 21. -/
def Obligations.SnapshotCommandsStartAndStop : Prop :=
  ∀ s tag,
    let reply (code : Byte) (r : Result) : State := replied s ⟨tag, code, r, []⟩
    (∀ params f k, ConsoleTurn s 0x1A#8 tag params → readAll rSnapshot params = some (f, k) →
      let bad : Prop := match f with
        | .layer p l => 15 < p.toNat ∨ 3 < l.toNat
        | .page p _ => 15 < p.toNat
        | .all p _ => 15 < p.toNat
      (bad → exec .startSnapshot s = .next (settle (reply 0x1A#8 .range))) ∧
      (¬bad → s.snapshot.state = .walking ∨ snapshotDones s ≠ 0 →
        exec .startSnapshot s = .next (settle (reply 0x1A#8 .busy))) ∧
      (¬bad → s.snapshot.state ≠ .walking → snapshotDones s = 0 → ∃ m p, formStart f = some (m, p) ∧
        exec .startSnapshot s = .next (settle { reply 0x1A#8 .accepted with snapshot :=
          { state := .walking, mode := formMode f, tag := tag, mask := m, pos := p
            limit := limitOf k, endStatus := s.snapshot.endStatus } }))) ∧
    (ConsoleTurn s 0x1B#8 tag [] →
      (s.snapshot.state ≠ .walking →
        exec .stopSnapshot s = .next (settle (reply 0x1B#8 .nothing))) ∧
      (s.snapshot.state = .walking → exec .stopSnapshot s = .next (settle
        { reply 0x1B#8 .ok with
          snapshot := doneCtx s.snapshot .stopped .none
          consoleOut := s.consoleOut ++
            [.scan ⟨s.snapshot.tag, .done (walkDone s.snapshot .stopped .none)⟩,
              .reply ⟨tag, 0x1B#8, .ok, []⟩]
          attention := { s.attention with
            pending := s.attention.pending ||| BitVec.twoPow 11 9 } })))

/-! ### Bursts and maintenance -/

/-- R138, R142 to R146, R160, R162, R164, R165: one burst of a sweep, of the display context or of the
snapshot context, in each of its forms. The chunks owed for the stroke in transit come first. Then each
stroke from the position on that is due is sent, in Z order, page and layer ascending: to the END where all
fit; up to the first that does not fit the limit, where it ends with LIMIT; or until 16 records are placed,
the rest of the last stroke left in transit. DEDUCED: a limit used up exactly lets the sweep go on until a
stroke does not fit (log entry 10), and a burst whose 16th record was the last does not end the sweep (log
entry 13). -/
def Obligations.SweepBurstSendsTheList : Prop :=
  ∀ (s : State) (snapshot : Bool),
    let c := if snapshot then s.snapshot else s.display
    winner s = some (if snapshot then .snapshot else .display) →
    c.mode = .sweepLayer ∨ c.mode = .sweepPage ∨ c.mode = .sweepAll →
    let row : Instr := if snapshot then .snapshotBurst else .sweepBurst
    let c : ScanCtx := { c with bound := some (c.bound.getD s.store.rev) }
    let owed := owedChunks s.store c.transit
    let due (h : Handle) := sweepRecords s.store (c.bound.getD 0) snapshot h
    let answer (c' : ScanCtx) (out : List ScanRecord) (e : Option (EndStatus × Reason)) : Prop :=
      exec row s = .next (settle (burstLeft snapshot s c' out e))
    (16 ≤ owed.length →
      answer { c with transit := transitAfter 16 c.transit } (owed.take 16) none) ∧
    (owed.length < 16 →
      let left := strokesLeft s.store c
      let all := left.flatMap fun x => due x.2
      (owed.length + all.length < 16 → (∀ k, c.limit = some k → all.length ≤ k) →
        answer { c with
          transit := none, pos := sweepEnd s.store c, limit := c.limit.map fun k => k - all.length }
          (owed ++ all) (some (.finished, .none))) ∧
      ∀ pre pos h rest, left = pre ++ (pos, h) :: rest →
        let out := pre.flatMap fun x => due x.2
        owed.length + out.length < 16 →
        (∀ k, c.limit = some k → out.length ≤ k → k - out.length < (due h).length →
          answer { c with transit := none, pos := pos, limit := some (k - out.length) }
            (owed ++ out) (some (.limit, .none))) ∧
        (due h ≠ [] → 16 ≤ owed.length + out.length + (due h).length →
          (∀ k, c.limit = some k → out.length + (due h).length ≤ k) →
          answer { c with
            transit := strokeLeft s.store h (15 - owed.length - out.length)
            pos := { pos with z := pos.z + 1 }
            limit := c.limit.map fun k => k - (out.length + (due h).length) }
            ((owed ++ out ++ due h).take 16) none))

/-- R138, R144, R146, R149 to R153, R160: one burst of a follow in each of its forms. Its first tests its
revision. Then the chunks owed for the entry in transit are sent, and each entry after the cursor with its
chunks: to the end of the journal, where it waits its timeout, or ends with TIMEOUT where that is 0; up to
the first entry that does not fit the limit, where it ends with LIMIT; or until 16 records are placed. A
limit used up exactly: log entry 10; a burst that has placed its 16th record, which does not find the follow
caught up: log entry 13; the resume revision before revision 1: log entry 11. A follow that
finds its next entries gone, which only a CONTINUE can meet, ends with OVERRUN by the model's choice: log
entry 43. -/
def Obligations.FollowBurstSendsTheEntries : Prop :=
  ∀ s : State, winner s = some .display → s.display.mode = .follow →
    let answer (c' : ScanCtx) (out : List ScanRecord) (e : Option (EndStatus × Reason)) : Prop :=
      exec .followBurst s = .next (settle (burstLeft false s c' out e))
    let c := s.display
    (c.cursor = none → revAbove c.start s.store.rev = true → answer c [] (some (.refused, .range))) ∧
    (c.cursor = none → revAbove c.start s.store.rev = false →
      revAbove s.journal.lost c.start = true → answer c [] (some (.overrun, .none))) ∧
    (∀ k, c.cursor = some k → lappedBy s.journal.lost k = true →
      answer c [] (some (.overrun, .none))) ∧
    ∀ k, (c.cursor = some k ∧ lappedBy s.journal.lost k = false) ∨
        (c.cursor = none ∧ k = ⟨c.start, true, 0⟩ ∧ revAbove c.start s.store.rev = false ∧
          revAbove s.journal.lost c.start = false) →
      let owed := owedChunks s.store c.transit
      let at_ (es : List ChangeEntry) : ScanCtx :=
        { c with cursor := some (es.foldl (cursorPast s.journal) k), transit := none }
      (16 ≤ owed.length →
        answer { at_ [] with transit := transitAfter 16 c.transit } (owed.take 16) none) ∧
      (owed.length < 16 →
        let left := entriesOwed s.journal k
        let all := left.flatMap (entryRecords s.store)
        (owed.length + all.length < 16 → (∀ m, c.limit = some m → all.length ≤ m) →
          let c' : ScanCtx := { at_ left with limit := c.limit.map fun m => m - all.length }
          (c.timeout = 0 → answer c' (owed ++ all) (some (.timeout, .none))) ∧
          (c.timeout ≠ 0 → answer { c' with
            state := .waiting
            deadline := some (s.timebase + BitVec.ofNat 48 (c.timeout * 1000)) } (owed ++ all) none)) ∧
        ∀ pre e rest, left = pre ++ e :: rest →
          let out := pre.flatMap (entryRecords s.store)
          let recs := entryRecords s.store e
          owed.length + out.length < 16 →
          (∀ m, c.limit = some m → out.length ≤ m → m - out.length < recs.length →
            answer { at_ pre with limit := some (m - out.length) } (owed ++ out)
              (some (.limit, .none))) ∧
          (16 ≤ owed.length + out.length + recs.length →
            (∀ m, c.limit = some m → out.length + recs.length ≤ m) →
            answer { at_ (pre ++ [e]) with
              transit := if recs.length = 1 then none else
                e.handle.bind fun h => entryLeft e h (15 - owed.length - out.length)
              limit := c.limit.map fun m => m - (out.length + recs.length) }
              ((owed ++ out ++ recs).take 16) none))

/-- R138, R144, R148: a FETCH sends its stroke, in whatever state it stands, over as many bursts as it takes,
and ends with END after its last chunk; a handle that is not live ends it with GONE, nothing sent. That a
burst whose 16th record is the last chunk ends the walk is DEDUCED: log entry 13. -/
def Obligations.FetchBurstSendsTheStroke : Prop :=
  ∀ s, winner s = some .display → s.display.mode = .fetch →
    let c := s.display
    let answer (c' : ScanCtx) (out : List ScanRecord) (e : Option (EndStatus × Reason)) : Prop :=
      exec .fetchBurst s = .next (settle (burstLeft false s c' out e))
    (∀ tr, c.transit = some tr →
      let owed := owedChunks s.store c.transit
      (owed.length ≤ 16 → answer c owed (some (.finished, .none))) ∧
      (16 < owed.length →
        answer { c with transit := transitAfter 16 c.transit } (owed.take 16) none)) ∧
    ∀ h, c.transit = none → c.fetch = some h →
      let out := strokeRecords s.store h false
      (s.store.live h = false → answer c [] (some (.gone, .none))) ∧
      (s.store.live h = true → out.length ≤ 16 → answer c out (some (.finished, .none))) ∧
      (s.store.live h = true → 16 < out.length →
        answer { c with transit := strokeLeft s.store h 15 } (out.take 16) none)

/-- R41, R81, R89, R94, R97, R114 to R116, R145: a Maintenance grant cuts the seats with cut-due and then
serves the due-expiry set in ascending order: an item whose deadline has not moved on ends with EXPIRED, a
held point as at an UP of that moment. With neither due it frees the first 16 members of the group under
reclaim, taking the head group first where none is, and a sweep's position moves down past what it had
passed. By the model's choice the cuts go in ascending seat number (log entry 42), the position of a context
that runs no sweep stays (log entry 17), and the fields of a freed record have the cleared values of log
entry 38. -/
def Obligations.MaintenanceExpiresCutsAndReclaims : Prop :=
  ∀ s, winner s = some .maintenance →
    let d := decideGrant s .maintenance
    let seats (p : SeatNo → Bool) : List SeatNo := (List.finRange 40).filter p
    let cuts := (seats fun n => (s.seat n).cutDue).foldl (fun w n => cutServed n w) ⟨d, []⟩
    let w := (seats fun n => s.maint.due.getLsbD n.val).foldl (fun w n => dueServed n w) cuts
    ((∃ n, (s.seat n).cutDue = true) ∨ s.maint.due ≠ 0 → ZListsAgree s →
      exec .maintenanceGrant s = .next (settle (committed d
        ⟨{ w.st with maint := { w.st.maint with due := 0 } }, w.entries⟩))) ∧
    ∀ g queue, (∀ m, (s.seat m).cutDue = false) → s.maint.due = 0 →
      (s.maint.underReclaim = some g ∧ queue = s.eraseQueue) ∨
        (s.maint.underReclaim = none ∧ s.eraseQueue = g :: queue) →
      g.members ≠ [] → AllIn s .erased g.members →
      let now := g.members.take 16
      let rest := g.members.drop 16
      let freed (x : Handle) (p : PageNo) (l : LayerNo) : Bool :=
        decide (∃ h ∈ now, h.idx = x.idx ∧ (s.store.stroke h.idx).page = p ∧
          (s.store.stroke h.idx).layer = l)
      let moved (c : ScanCtx) : Position := { c.pos with
        z := c.pos.z - ((s.store.zlist c.pos.page c.pos.layer).take c.pos.z).countP fun x =>
          freed x c.pos.page c.pos.layer }
      ∃ t, exec .maintenanceGrant s = .next t ∧
        (∀ i, t.store.stroke i = if i ∈ now.map Handle.idx then { gen := (s.store.stroke i).gen }
          else s.store.stroke i) ∧
        (∀ p l, t.store.zlist p l = (s.store.zlist p l).filter fun x => !freed x p l) ∧
        (ZListsAgree s →
          (s.display.mode.isSweep = true → t.display.pos = moved s.display) ∧
          (s.snapshot.mode.isSweep = true → t.snapshot.pos = moved s.snapshot)) ∧
        (s.display.mode.isSweep = false → t.display.pos = s.display.pos) ∧
        t.store = { s.store with
          strokes := t.store.strokes, z := t.store.z
          freeRecs := { s.store.freeRecs with
            freed := s.store.freeRecs.freed ++ now.map Handle.idx }
          freeBlocks := { s.store.freeBlocks with
            released := (now.flatMap fun h => (s.store.stroke h.idx).chain).reverse ++
              s.store.freeBlocks.released } } ∧
        t = settle (committed d ⟨{ d with
          store := t.store, eraseQueue := queue
          maint := { s.maint with
            underReclaim := if rest = [] then none else some { g with members := rest }
            tableFull := false }
          display := { s.display with pos := t.display.pos }
          snapshot := { s.snapshot with pos := t.snapshot.pos } }, []⟩)

/-! ### Rules of the whole machine -/

/-- R56, R97, R114, R115, R118 to R120, R125, R126, R163: when each of the six requests; the winner of a
grant decision is the first elevated requester, else the first, in the order of R118, the later grants of a
clearance taken last; the decision clears the winner's flags, counts the grant while protection is enabled,
and samples when the counter reaches SP. And what every statement here calls by name: `settle` clears the
flags of the requesters whose request does not stand, and `withdraw` those of one requester. A decision also
begins anew what a frame may arrive in, `commandGrant`, `noticeBasis` and `burstGrant`: log entry 6. -/
def Obligations.GrantDecisionFollowsTheOrder : Prop :=
  (∀ s : State,
    let slot := replySlotsUsed s < 16
    let clearing := s.cls.state = .resetting
    (requests s .console = true ↔ (∃ b, s.consoleQueue.head? = some (.clearance b)) ∨
      (s.consoleQueue ≠ [] ∧ (clearing ∨ slot))) ∧
    (requests s .board = true ↔ s.boardQueue ≠ []) ∧
    (requests s .display = true ↔ s.display.state = .walking ∧ displayUsed s + 16 ≤ 48) ∧
    (requests s .tablet = true ↔ s.tabletQueue ≠ []) ∧
    (requests s .snapshot = true ↔ s.snapshot.state = .walking ∧ shareUsed s + 16 ≤ 32) ∧
    (requests s .maintenance = true ↔ ¬clearing ∧
      ((∃ n, (s.seat n).cutDue = true) ∨ s.maint.due ≠ 0 ∨ s.maint.underReclaim ≠ none ∨
        ((s.maint.poolDemand = true ∨ s.maint.tableDemand = true ∨ s.maint.tableFull = true) ∧
          ∃ g rest, s.eraseQueue = g :: rest ∧ g.isOpen = false ∧
            ∀ p, s.snapshot.state = .walking → s.snapshot.bound = some p →
              revAbove g.lastRev p = false)))) ∧
  (∀ s r,
    let last := s.cls.state = .resetting ∧ s.consoleQueue.head? ≠ some (.clearance false)
    let place (q : Requester) : Nat := if q = .console ∧ last then 6 else q.ix
    let up (q : Requester) : Bool := s.arbiter.elevated.getLsbD q.ix
    (winner s = some r ↔ requests s r = true ∧ ∀ q, requests s q = true →
      (up q = true → up r = true) ∧ (up q = up r → place r ≤ place q)) ∧
    (winner s = none ↔ ∀ q, requests s q = false) ∧
    let t := decideGrant s r
    let full : Prop := s.arbiter.enabled = true ∧ s.arbiter.period ≤ s.arbiter.counter + 1
    t = { s with
        arbiter := t.arbiter, commandGrant := none, noticeBasis := noticesKept s []
        burstGrant := decide (r = Requester.display) } ∧
      t.arbiter.enabled = s.arbiter.enabled ∧
      t.arbiter.period = s.arbiter.period ∧
      t.arbiter.counter = (if s.arbiter.enabled = false then s.arbiter.counter
        else if s.arbiter.period ≤ s.arbiter.counter + 1 then 0 else s.arbiter.counter + 1) ∧
      (¬full → ∀ q : Requester,
        t.arbiter.waiting.getLsbD q.ix = (decide (q ≠ r) && s.arbiter.waiting.getLsbD q.ix) ∧
        t.arbiter.elevated.getLsbD q.ix = (decide (q ≠ r) && s.arbiter.elevated.getLsbD q.ix)) ∧
      (full → ∀ q : Requester,
        t.arbiter.waiting.getLsbD q.ix = (decide (q ≠ r) && requests s q) ∧
        t.arbiter.elevated.getLsbD q.ix = (decide (q ≠ r) && (s.arbiter.elevated.getLsbD q.ix ||
          (requests s q && s.arbiter.waiting.getLsbD q.ix))))) ∧
  ∀ s r,
    let flags (t : State) (keeps : Requester → Bool) : Prop :=
      t = { s with arbiter := { s.arbiter with
        waiting := t.arbiter.waiting, elevated := t.arbiter.elevated } } ∧
      ∀ q : Requester,
        t.arbiter.waiting.getLsbD q.ix = (keeps q && s.arbiter.waiting.getLsbD q.ix) ∧
        t.arbiter.elevated.getLsbD q.ix = (keeps q && s.arbiter.elevated.getLsbD q.ix)
    flags (settle s) (requests s) ∧ flags (withdraw s r) fun q => decide (q ≠ r)

/-- R169 to R171: when the region condition holds, and which point it captures; an entry matches by its
page, its layer, its kind and the enabled conditions; and an ARMED watch fires at the first entry that
matches it, with its capture and its source. -/
def Obligations.WatchFiresAtTheFirstMatch : Prop :=
  (∀ (st : Store) (w : Watch) (e : ChangeEntry),
    let inside (p : Point) : Prop :=
      w.rect.x0 ≤ p.x ∧ p.x ≤ w.rect.x1 ∧ w.rect.y0 ≤ p.y ∧ p.y ≤ w.rect.y1
    let judged (k : Nat) : Prop := (e.kind = .opened ∧ k = 0) ∨
      (e.kind = .extended ∧ e.first.getD 0 ≤ k ∧ k < e.first.getD 0 + e.count.getD 0)
    let met (p : Point) (k : Nat) : Prop :=
      ∃ h, e.handle = some h ∧ (st.points h.idx)[k]? = some p ∧ judged k ∧ inside p
    (e.kind = .opened ∨ e.kind = .extended → (regionHolds st w e = true ↔ ∃ p k, met p k)) ∧
    (e.kind = .closed ∨ e.kind = .erased → ∀ b, e.box = some b → (regionHolds st w e = true ↔
      b.x0 ≤ w.rect.x1 ∧ w.rect.x0 ≤ b.x1 ∧ b.y0 ≤ w.rect.y1 ∧ w.rect.y0 ≤ b.y1)) ∧
    ∀ p k, regionPoint st w e = some (p, k) ↔ met p k ∧ ∀ q j, met q j → k ≤ j) ∧
  ∀ (s : State) (n : Fin 4) (es : List ChangeEntry),
    let w := s.watches[n.val]
    let st := s.store
    (∀ e, watchMatches st w e = true ↔
      (e.kind = .opened ∨ e.kind = .extended ∨ e.kind = .closed ∨ e.kind = .erased) ∧
      e.page = some w.page ∧ (∃ l, e.layer = some l ∧ w.layers.getLsbD l.val = true) ∧
      let region := w.onRegion = true ∧ regionHolds st w e = true
      let seat := w.onSeat = true ∧ ∃ m : SeatNo, e.seat = some m ∧ w.seats.getLsbD m.val = true
      let kind := w.onKind = true ∧ ∃ b, e.kind.watchBit = some b ∧ w.kinds.getLsbD b = true
      (w.combine = .any ∧ (region ∨ seat ∨ kind)) ∨
        (w.combine = .all ∧ (w.onRegion = true ∨ w.onSeat = true ∨ w.onKind = true) ∧
          (w.onRegion = true → region) ∧ (w.onSeat = true → seat) ∧ (w.onKind = true → kind))) ∧
    (w.state ≠ .armed ∨ (∀ e ∈ es, watchMatches st w e = false) → fireWatch es s n = s) ∧
    ∀ pre e post m h, w.state = .armed → es = pre ++ e :: post →
      (∀ x ∈ pre, watchMatches st w x = false) → watchMatches st w e = true →
      e.seat = some m → e.handle = some h →
      let t := fireWatch es s n
      t = { s with
        watches := t.watches
        attention := { s.attention with
          pending := s.attention.pending ||| BitVec.twoPow 11 (3 + n.val) } } ∧
      (∀ k : Fin 4, k ≠ n → t.watches[k.val] = s.watches[k.val]) ∧
      t.watches[n.val] = { w with
        state := .fired
        capture := some
          { rev := e.rev, time := e.time, seat := m, handle := h, kind := e.kind
            point := if w.onRegion then regionPoint st w e else none
            box := if (if w.onRegion then regionPoint st w e else none).isSome then none
              else e.box } }

/-- R104, R134 to R136: a transaction's entries are written as they stand where they are at most 8. Else the
first of these that is at most 8 is written: the drawing entries with one LAYER_REFRESH behind them for each
page-layer erased or restored, ascending; refresh entries alone, for the page-layers of all entries; and the
same two by page, and for the whole store. An entry joins a journal of fewer than 512, or first removes the
oldest revision, which L becomes; a lone EXTENDED entry of the newest stroke is folded into the newest
entry where that is alone in its revision; in every other case each entry of the list is appended, in their
order. That the drawing entries are tried again at each width is DEDUCED: log entry 23. -/
def Obligations.JournalAppendsDropsAndMerges : Prop :=
  (∀ rev time es,
    let refresh (p : Option PageNo) (l : Option LayerNo) : ChangeEntry :=
      { kind := .layerRefresh, rev := rev, time := time, page := p, layer := l }
    let erasing (e : ChangeEntry) : Bool := decide (e.kind = .erased ∨ e.kind = .restored)
    let drawn := es.filter fun e => !erasing e
    let layersAre (xs : List (PageNo × LayerNo)) (of : List ChangeEntry) : Prop :=
      (xs.Pairwise fun a b => a.1 < b.1 ∨ (a.1 = b.1 ∧ a.2 < b.2)) ∧
        ∀ x, x ∈ xs ↔ ∃ e ∈ of, e.page = some x.1 ∧ e.layer = some x.2
    let pagesAre (xs : List PageNo) (of : List ChangeEntry) : Prop :=
      (xs.Pairwise fun a b => a < b) ∧ ∀ p, p ∈ xs ↔ ∃ e ∈ of, e.page = some p
    (eightEntryRule rev time es).length ≤ 8 ∧ (es.length ≤ 8 → eightEntryRule rev time es = es) ∧
    (8 < es.length → ∀ layers all pages allPages, layersAre layers (es.filter erasing) →
      layersAre all es → pagesAre pages (es.filter erasing) → pagesAre allPages es →
      let byLayer := fun x : PageNo × LayerNo => refresh (some x.1) (some x.2)
      let byPage := fun p : PageNo => refresh (some p) none
      let store := if es.filter erasing = [] then [] else [refresh none none]
      some (eightEntryRule rev time es) =
        [drawn ++ layers.map byLayer, all.map byLayer, drawn ++ pages.map byPage, allPages.map byPage,
          drawn ++ store, [refresh none none]].find? fun xs => decide (xs.length ≤ 8))) ∧
  (∀ (j : Journal) e, j.entries.length < 512 → j.append e = ⟨j.entries ++ [e], j.lost⟩) ∧
  (∀ (j : Journal) e old gone kept, j.entries = old :: gone ++ kept → 512 ≤ j.entries.length →
    (∀ x ∈ gone, x.rev = old.rev) → (∀ x, kept.head? = some x → x.rev ≠ old.rev) →
    j.append e = ⟨kept ++ [e], old.rev⟩) ∧
  (∀ (j : Journal) es, es.length ≠ 1 → j.write es = es.foldl (fun k e => k.append e) j) ∧
  (∀ (j : Journal) e, e.kind ≠ .extended ∨ (∀ last, j.entries.getLast? = some last →
      last.kind ≠ .extended ∨ last.handle ≠ e.handle) → j.write [e] = j.append e) ∧
  (∀ (j : Journal) pre last e, j.entries = pre ++ [last] → (∃ x ∈ pre, x.rev = last.rev) →
    j.write [e] = j.append e) ∧
  ∀ (j : Journal) pre last e h n m a b, j.entries = pre ++ [last] → last.kind = .extended →
    e.kind = .extended → last.handle = some h → e.handle = some h → last.count = some n →
    e.count = some m → last.box = some a → e.box = some b →
    (∀ x ∈ pre, x.rev ≠ last.rev) → j.write [e] = ⟨pre ++ [{ last with
      count := some (n + m), box := some (a.union b), flags := e.flags, rev := e.rev
      time := e.time }], j.lost⟩

/-- R5: every command but power-on reset leaves the store revision and the journal as they are, or takes
the next revision; and the test of the order of issue puts the revision taken above the one before. -/
def Obligations.EveryCommandTakesAtMostOneRevision : Prop :=
  (∀ c s t, c ≠ .powerOnReset → exec c s = .next t →
    (t.store.rev = s.store.rev ∧ t.journal = s.journal) ∨ t.store.rev = upcoming s) ∧
  ∀ r : Rev, nextRev r ≠ 0 ∧ revAbove (nextRev r) r = true ∧ revAbove r (nextRev r) = false

/-- R33 to R38, R50, R51, R127, R178, R182: besides power-on reset, only the commands the manual names write
the settings of a seat, its state, the class options, the shown page, the arbiter's enable and period, and
the attention enables and levels. By the model's choice no command touches the queue of the commands that
wait (log entry 2), and none but the two deadline rows lets time pass (log entry 3). -/
def Obligations.OnlyTheNamedCommandsWriteSettings : Prop :=
  ∀ c s t, c ≠ .powerOnReset → exec c s = .next t → t.pending = s.pending ∧
    (c ≠ .configureSeat → ∀ n, (t.seat n).mapping = (s.seat n).mapping ∧
      (t.seat n).window = (s.seat n).window ∧ (t.seat n).pen = (s.seat n).pen ∧
      (t.seat n).rights = (s.seat n).rights ∧ (t.seat n).target = (s.seat n).target ∧
      (t.seat n).quota = (s.seat n).quota) ∧
    (c ∉ [.admitSeat, .vacateSeat, .mute, .unmute, .bar, .unbar] →
      ∀ n, (t.seat n).state = (s.seat n).state) ∧
    (c ≠ .setClassOptions → t.cls.options = s.cls.options) ∧
    (c ≠ .showPage → t.cls.shown = s.cls.shown) ∧
    (c ≠ .setArbiter → t.arbiter.enabled = s.arbiter.enabled ∧
      t.arbiter.period = s.arbiter.period) ∧
    (c ≠ .configureAttention → t.attention.enabled = s.attention.enabled ∧
      t.attention.levels = s.attention.levels) ∧
    ((∀ n, c ≠ .deadlineReached n) → c ≠ .followDeadlineReached → t.timebase = s.timebase)

/-- R57 to R65: the lift, map, window and width steps for one point of a seat, and R67 with R24 and R25
for the coded entry, which decodes to the point that was coded. -/
def Obligations.MapperArithmeticIsExact : Prop :=
  (∀ (u : Seat) (tool : PenTool) (r : RawPoint),
    let m := u.mapping
    let cx : Int := ((r.ux.toNat * m.sx + 32768) / 65536 : Nat) + m.ox
    let cy : Int := ((r.uy.toNat * m.sy + 32768) / 65536 : Nat) + m.oy
    let p := min r.pressure.toNat 1023
    let w : Nat := match tool with
      | .ink => u.pen.wmin + (p * (u.pen.wmax - u.pen.wmin) + 511) / 1023
      | .highlight => u.pen.wmax
      | .eraser => u.pen.ew
    let inside : Prop := (u.window.wx0 : Int) ≤ cx ∧ cx ≤ u.window.wx1 ∧
      (u.window.wy0 : Int) ≤ cy ∧ cy ≤ u.window.wy1
    (r.pressure = 0 → mapPoint u tool r = .lifted) ∧
    (r.pressure ≠ 0 → inside → ∃ x y : Nat, (x : Int) = cx ∧ (y : Int) = cy ∧
      mapPoint u tool r = .point x y w false) ∧
    (r.pressure ≠ 0 → ¬inside → u.window.policy = .drop → mapPoint u tool r = .dropped) ∧
    (r.pressure ≠ 0 → ¬inside → u.window.policy = .clamp → u.window.wx0 ≤ u.window.wx1 →
      u.window.wy0 ≤ u.window.wy1 → ∃ x y : Nat,
        (x : Int) = max (u.window.wx0 : Int) (min cx u.window.wx1) ∧
        (y : Int) = max (u.window.wy0 : Int) (min cy u.window.wy1) ∧
        mapPoint u tool r = .point x y w true)) ∧
  ∀ prev full broke x y w,
    decodeEntry prev (codeEntry prev full broke x y w) = ⟨x, y, w, broke⟩ ∧
    (full = true ∨ broke = true → codeEntry prev full broke x y w = .abs x y w broke) ∧
    (let dx := (x : Int) - prev.x
    let dy := (y : Int) - prev.y
    let dw := (w : Int) - prev.w
    let fits := (-128) ≤ dx ∧ dx ≤ 127 ∧ (-128) ≤ dy ∧ dy ≤ 127 ∧ (-8) ≤ dw ∧ dw ≤ 7
    (¬fits → codeEntry prev full broke x y w = .abs x y w broke) ∧
      (full = false → broke = false → fits → codeEntry prev full broke x y w = .delta dx dy dw))

/-- R183 to R186, R198: the frame a master sends for an arrival is received as that arrival, whatever
its fields. How the inbound stream of one transfer is read is the model's choice (log entry 41), and so are
the operands that are no part of the frame: `running` (log entry 6), which the receiver is told, and `clocked`
(log entry 8), which it leaves at 0. -/
def Obligations.SentFrameIsReceivedAsSent : Prop :=
  ∀ i link bytes running, i.wellFormed = true → sentFrame i = some (link, bytes) →
    receive link running bytes = [asReceived running i]

/-! ### Invariants -/

/-- R9, R22, R27: every step keeps the tables of the store, which list the places that do not hold the
default, in their canonical form. That form is the model's own representation: log entry 37. -/
def Obligations.EveryStepKeepsTheStoreCanonical : Prop :=
  ∀ s t, StoreCanonical s → step s = .next t → StoreCanonical t

/-- R31, R38, R42 to R44, R47, R50, R126, R127: every step keeps the Hand Queue and the Notice Queue in
agreement with the seats, a VACANT or BARRED seat without an open item, the undo stacks within 8 entries,
the waiting and elevated flags on standing requests, and the settings of seats, class and arbiter in range. -/
def Obligations.EveryStepKeepsSeatsQueuesFlagsAndSettings : Prop :=
  (∀ s t, HandsAgree s → step s = .next t → HandsAgree t) ∧
    (∀ s t, NoticesAgree s → step s = .next t → NoticesAgree t) ∧
    (∀ s t, AbsentSeatsIdle s → step s = .next t → AbsentSeatsIdle t) ∧
    (∀ s t, UndoBounded s → step s = .next t → UndoBounded t) ∧
    (∀ s t, FlagsStand s → step s = .next t → FlagsStand t) ∧
    ∀ s t, SettingsInRange s → step s = .next t → SettingsInRange t

/-- R132, R134, R138, R154, R158, R164, R187 to R192: every step keeps the journal, the intake queues
and the outbound buffers within what they can hold. -/
def Obligations.EveryStepKeepsBuffersWithinBounds : Prop :=
  (∀ s t, JournalBounded s → step s = .next t → JournalBounded t) ∧
    (∀ s t, QueuesBounded s → step s = .next t → QueuesBounded t) ∧
    ∀ s t, OutboundBounded s → step s = .next t → OutboundBounded t

/-- R7, R12, R19, R27: every step keeps each Z list in agreement with the Stroke Table, and the free list made
of FREE records. How the free list is held is the model's choice: log entry 37. -/
def Obligations.EveryStepKeepsZListsInAgreement : Prop :=
  ∀ s t, ZListsAgree s → step s = .next t → ZListsAgree t

/-- R9, R10, R13, R19, R22 to R24, R41, R42, R98, R99: every step keeps the records, the Point Pool, the
open items and the erase groups in agreement: the optional fields of a record by its state; each block once
on the free stack or in a chain, and the chains' blocks filled; blocks held and quota-reached; the open ink
strokes and the OPEN records; every ERASED stroke in exactly one group. The premises are invariants of their
own. How the free stack and the groups are held (log entry 37) and the values of a cleared record (log entry
38) are the model's choices. -/
def Obligations.EveryStepKeepsInkPoolAndGroupsInAgreement : Prop :=
  ∀ s t, StoreCanonical s → ZListsAgree s → InkAgrees s → step s = .next t → InkAgrees t

/-- The state after power-on reset meets every invariant. -/
def Obligations.ResetMeetsTheInvariants : Prop :=
  StoreCanonical State.reset ∧ HandsAgree State.reset ∧ NoticesAgree State.reset ∧
    AbsentSeatsIdle State.reset ∧ UndoBounded State.reset ∧ JournalBounded State.reset ∧
    QueuesBounded State.reset ∧ OutboundBounded State.reset ∧ ZListsAgree State.reset ∧
    FlagsStand State.reset ∧ SettingsInRange State.reset ∧ InkAgrees State.reset
end

