-- ==== Sys2Proof/Laws/State.lean ====
section
/-! SUPPORT. Field by field, what each shared operation of the state leaves as it was. Each lemma says
that one field is unchanged; the field an operation is for has its own lemma in Laws/Ops.lean. -/

namespace Sys2Proof.Machine

/-! ### settle -/

@[simp] theorem settle_store (s : State) : (settle s).store = s.store := rfl
@[simp] theorem settle_seats (s : State) : (settle s).seats = s.seats := rfl
@[simp] theorem settle_cls (s : State) : (settle s).cls = s.cls := rfl
@[simp] theorem settle_hands (s : State) : (settle s).hands = s.hands := rfl
@[simp] theorem settle_noticeQueue (s : State) : (settle s).noticeQueue = s.noticeQueue := rfl
@[simp] theorem settle_eraseQueue (s : State) : (settle s).eraseQueue = s.eraseQueue := rfl
@[simp] theorem settle_maint (s : State) : (settle s).maint = s.maint := rfl
@[simp] theorem settle_timebase (s : State) : (settle s).timebase = s.timebase := rfl
@[simp] theorem settle_journal (s : State) : (settle s).journal = s.journal := rfl
@[simp] theorem settle_display (s : State) : (settle s).display = s.display := rfl
@[simp] theorem settle_displayPending (s : State) : (settle s).displayPending = s.displayPending := rfl
@[simp] theorem settle_snapshot (s : State) : (settle s).snapshot = s.snapshot := rfl
@[simp] theorem settle_watches (s : State) : (settle s).watches = s.watches := rfl
@[simp] theorem settle_faults (s : State) : (settle s).faults = s.faults := rfl
@[simp] theorem settle_counters (s : State) : (settle s).counters = s.counters := rfl
@[simp] theorem settle_attention (s : State) : (settle s).attention = s.attention := rfl
@[simp] theorem settle_boardQueue (s : State) : (settle s).boardQueue = s.boardQueue := rfl
@[simp] theorem settle_tabletQueue (s : State) : (settle s).tabletQueue = s.tabletQueue := rfl
@[simp] theorem settle_consoleQueue (s : State) : (settle s).consoleQueue = s.consoleQueue := rfl
@[simp] theorem settle_answers (s : State) : (settle s).answers = s.answers := rfl
@[simp] theorem settle_shifted (s : State) : (settle s).shifted = s.shifted := rfl
@[simp] theorem settle_consoleOut (s : State) : (settle s).consoleOut = s.consoleOut := rfl
@[simp] theorem settle_displayOut (s : State) : (settle s).displayOut = s.displayOut := rfl
@[simp] theorem settle_commandGrant (s : State) : (settle s).commandGrant = s.commandGrant := rfl
@[simp] theorem settle_noticeBasis (s : State) : (settle s).noticeBasis = s.noticeBasis := rfl
@[simp] theorem settle_burstGrant (s : State) : (settle s).burstGrant = s.burstGrant := rfl
@[simp] theorem settle_pending (s : State) : (settle s).pending = s.pending := rfl

/-! ### withdraw -/

@[simp] theorem withdraw_store (s : State) (r : Requester) : (withdraw s r).store = s.store := rfl
@[simp] theorem withdraw_seats (s : State) (r : Requester) : (withdraw s r).seats = s.seats := rfl
@[simp] theorem withdraw_cls (s : State) (r : Requester) : (withdraw s r).cls = s.cls := rfl
@[simp] theorem withdraw_hands (s : State) (r : Requester) : (withdraw s r).hands = s.hands := rfl
@[simp] theorem withdraw_noticeQueue (s : State) (r : Requester) : (withdraw s r).noticeQueue = s.noticeQueue := rfl
@[simp] theorem withdraw_eraseQueue (s : State) (r : Requester) : (withdraw s r).eraseQueue = s.eraseQueue := rfl
@[simp] theorem withdraw_maint (s : State) (r : Requester) : (withdraw s r).maint = s.maint := rfl
@[simp] theorem withdraw_timebase (s : State) (r : Requester) : (withdraw s r).timebase = s.timebase := rfl
@[simp] theorem withdraw_journal (s : State) (r : Requester) : (withdraw s r).journal = s.journal := rfl
@[simp] theorem withdraw_display (s : State) (r : Requester) : (withdraw s r).display = s.display := rfl
@[simp] theorem withdraw_displayPending (s : State) (r : Requester) : (withdraw s r).displayPending = s.displayPending := rfl
@[simp] theorem withdraw_snapshot (s : State) (r : Requester) : (withdraw s r).snapshot = s.snapshot := rfl
@[simp] theorem withdraw_watches (s : State) (r : Requester) : (withdraw s r).watches = s.watches := rfl
@[simp] theorem withdraw_faults (s : State) (r : Requester) : (withdraw s r).faults = s.faults := rfl
@[simp] theorem withdraw_counters (s : State) (r : Requester) : (withdraw s r).counters = s.counters := rfl
@[simp] theorem withdraw_attention (s : State) (r : Requester) : (withdraw s r).attention = s.attention := rfl
@[simp] theorem withdraw_boardQueue (s : State) (r : Requester) : (withdraw s r).boardQueue = s.boardQueue := rfl
@[simp] theorem withdraw_tabletQueue (s : State) (r : Requester) : (withdraw s r).tabletQueue = s.tabletQueue := rfl
@[simp] theorem withdraw_consoleQueue (s : State) (r : Requester) : (withdraw s r).consoleQueue = s.consoleQueue := rfl
@[simp] theorem withdraw_answers (s : State) (r : Requester) : (withdraw s r).answers = s.answers := rfl
@[simp] theorem withdraw_shifted (s : State) (r : Requester) : (withdraw s r).shifted = s.shifted := rfl
@[simp] theorem withdraw_consoleOut (s : State) (r : Requester) : (withdraw s r).consoleOut = s.consoleOut := rfl
@[simp] theorem withdraw_displayOut (s : State) (r : Requester) : (withdraw s r).displayOut = s.displayOut := rfl
@[simp] theorem withdraw_commandGrant (s : State) (r : Requester) : (withdraw s r).commandGrant = s.commandGrant := rfl
@[simp] theorem withdraw_noticeBasis (s : State) (r : Requester) : (withdraw s r).noticeBasis = s.noticeBasis := rfl
@[simp] theorem withdraw_burstGrant (s : State) (r : Requester) : (withdraw s r).burstGrant = s.burstGrant := rfl
@[simp] theorem withdraw_pending (s : State) (r : Requester) : (withdraw s r).pending = s.pending := rfl

/-! ### decideGrant -/

@[simp] theorem decideGrant_store (s : State) (r : Requester) : (decideGrant s r).store = s.store := by unfold decideGrant; dsimp only; split <;> [split; skip] <;> rfl
@[simp] theorem decideGrant_seats (s : State) (r : Requester) : (decideGrant s r).seats = s.seats := by unfold decideGrant; dsimp only; split <;> [split; skip] <;> rfl
@[simp] theorem decideGrant_cls (s : State) (r : Requester) : (decideGrant s r).cls = s.cls := by unfold decideGrant; dsimp only; split <;> [split; skip] <;> rfl
@[simp] theorem decideGrant_hands (s : State) (r : Requester) : (decideGrant s r).hands = s.hands := by unfold decideGrant; dsimp only; split <;> [split; skip] <;> rfl
@[simp] theorem decideGrant_noticeQueue (s : State) (r : Requester) : (decideGrant s r).noticeQueue = s.noticeQueue := by unfold decideGrant; dsimp only; split <;> [split; skip] <;> rfl
@[simp] theorem decideGrant_eraseQueue (s : State) (r : Requester) : (decideGrant s r).eraseQueue = s.eraseQueue := by unfold decideGrant; dsimp only; split <;> [split; skip] <;> rfl
@[simp] theorem decideGrant_maint (s : State) (r : Requester) : (decideGrant s r).maint = s.maint := by unfold decideGrant; dsimp only; split <;> [split; skip] <;> rfl
@[simp] theorem decideGrant_timebase (s : State) (r : Requester) : (decideGrant s r).timebase = s.timebase := by unfold decideGrant; dsimp only; split <;> [split; skip] <;> rfl
@[simp] theorem decideGrant_journal (s : State) (r : Requester) : (decideGrant s r).journal = s.journal := by unfold decideGrant; dsimp only; split <;> [split; skip] <;> rfl
@[simp] theorem decideGrant_display (s : State) (r : Requester) : (decideGrant s r).display = s.display := by unfold decideGrant; dsimp only; split <;> [split; skip] <;> rfl
@[simp] theorem decideGrant_displayPending (s : State) (r : Requester) : (decideGrant s r).displayPending = s.displayPending := by unfold decideGrant; dsimp only; split <;> [split; skip] <;> rfl
@[simp] theorem decideGrant_snapshot (s : State) (r : Requester) : (decideGrant s r).snapshot = s.snapshot := by unfold decideGrant; dsimp only; split <;> [split; skip] <;> rfl
@[simp] theorem decideGrant_watches (s : State) (r : Requester) : (decideGrant s r).watches = s.watches := by unfold decideGrant; dsimp only; split <;> [split; skip] <;> rfl
@[simp] theorem decideGrant_faults (s : State) (r : Requester) : (decideGrant s r).faults = s.faults := by unfold decideGrant; dsimp only; split <;> [split; skip] <;> rfl
@[simp] theorem decideGrant_counters (s : State) (r : Requester) : (decideGrant s r).counters = s.counters := by unfold decideGrant; dsimp only; split <;> [split; skip] <;> rfl
@[simp] theorem decideGrant_attention (s : State) (r : Requester) : (decideGrant s r).attention = s.attention := by unfold decideGrant; dsimp only; split <;> [split; skip] <;> rfl
@[simp] theorem decideGrant_boardQueue (s : State) (r : Requester) : (decideGrant s r).boardQueue = s.boardQueue := by unfold decideGrant; dsimp only; split <;> [split; skip] <;> rfl
@[simp] theorem decideGrant_tabletQueue (s : State) (r : Requester) : (decideGrant s r).tabletQueue = s.tabletQueue := by unfold decideGrant; dsimp only; split <;> [split; skip] <;> rfl
@[simp] theorem decideGrant_consoleQueue (s : State) (r : Requester) : (decideGrant s r).consoleQueue = s.consoleQueue := by unfold decideGrant; dsimp only; split <;> [split; skip] <;> rfl
@[simp] theorem decideGrant_answers (s : State) (r : Requester) : (decideGrant s r).answers = s.answers := by unfold decideGrant; dsimp only; split <;> [split; skip] <;> rfl
@[simp] theorem decideGrant_shifted (s : State) (r : Requester) : (decideGrant s r).shifted = s.shifted := by unfold decideGrant; dsimp only; split <;> [split; skip] <;> rfl
@[simp] theorem decideGrant_consoleOut (s : State) (r : Requester) : (decideGrant s r).consoleOut = s.consoleOut := by unfold decideGrant; dsimp only; split <;> [split; skip] <;> rfl
@[simp] theorem decideGrant_displayOut (s : State) (r : Requester) : (decideGrant s r).displayOut = s.displayOut := by unfold decideGrant; dsimp only; split <;> [split; skip] <;> rfl
@[simp] theorem decideGrant_pending (s : State) (r : Requester) : (decideGrant s r).pending = s.pending := by unfold decideGrant; dsimp only; split <;> [split; skip] <;> rfl

/-! ### latch -/

@[simp] theorem latch_store (s : State) (x : Source) : (latch s x).store = s.store := rfl
@[simp] theorem latch_seats (s : State) (x : Source) : (latch s x).seats = s.seats := rfl
@[simp] theorem latch_cls (s : State) (x : Source) : (latch s x).cls = s.cls := rfl
@[simp] theorem latch_hands (s : State) (x : Source) : (latch s x).hands = s.hands := rfl
@[simp] theorem latch_noticeQueue (s : State) (x : Source) : (latch s x).noticeQueue = s.noticeQueue := rfl
@[simp] theorem latch_eraseQueue (s : State) (x : Source) : (latch s x).eraseQueue = s.eraseQueue := rfl
@[simp] theorem latch_maint (s : State) (x : Source) : (latch s x).maint = s.maint := rfl
@[simp] theorem latch_arbiter (s : State) (x : Source) : (latch s x).arbiter = s.arbiter := rfl
@[simp] theorem latch_timebase (s : State) (x : Source) : (latch s x).timebase = s.timebase := rfl
@[simp] theorem latch_journal (s : State) (x : Source) : (latch s x).journal = s.journal := rfl
@[simp] theorem latch_display (s : State) (x : Source) : (latch s x).display = s.display := rfl
@[simp] theorem latch_displayPending (s : State) (x : Source) : (latch s x).displayPending = s.displayPending := rfl
@[simp] theorem latch_snapshot (s : State) (x : Source) : (latch s x).snapshot = s.snapshot := rfl
@[simp] theorem latch_watches (s : State) (x : Source) : (latch s x).watches = s.watches := rfl
@[simp] theorem latch_faults (s : State) (x : Source) : (latch s x).faults = s.faults := rfl
@[simp] theorem latch_counters (s : State) (x : Source) : (latch s x).counters = s.counters := rfl
@[simp] theorem latch_boardQueue (s : State) (x : Source) : (latch s x).boardQueue = s.boardQueue := rfl
@[simp] theorem latch_tabletQueue (s : State) (x : Source) : (latch s x).tabletQueue = s.tabletQueue := rfl
@[simp] theorem latch_consoleQueue (s : State) (x : Source) : (latch s x).consoleQueue = s.consoleQueue := rfl
@[simp] theorem latch_answers (s : State) (x : Source) : (latch s x).answers = s.answers := rfl
@[simp] theorem latch_shifted (s : State) (x : Source) : (latch s x).shifted = s.shifted := rfl
@[simp] theorem latch_consoleOut (s : State) (x : Source) : (latch s x).consoleOut = s.consoleOut := rfl
@[simp] theorem latch_displayOut (s : State) (x : Source) : (latch s x).displayOut = s.displayOut := rfl
@[simp] theorem latch_commandGrant (s : State) (x : Source) : (latch s x).commandGrant = s.commandGrant := rfl
@[simp] theorem latch_noticeBasis (s : State) (x : Source) : (latch s x).noticeBasis = s.noticeBasis := rfl
@[simp] theorem latch_burstGrant (s : State) (x : Source) : (latch s x).burstGrant = s.burstGrant := rfl
@[simp] theorem latch_pending (s : State) (x : Source) : (latch s x).pending = s.pending := rfl

/-! ### captureFault -/

@[simp] theorem captureFault_store (s : State) (k : FaultKind) (l : Link) (n : Option SeatNo) (f : Option Byte) : (captureFault s k l n f).store = s.store := rfl
@[simp] theorem captureFault_seats (s : State) (k : FaultKind) (l : Link) (n : Option SeatNo) (f : Option Byte) : (captureFault s k l n f).seats = s.seats := rfl
@[simp] theorem captureFault_cls (s : State) (k : FaultKind) (l : Link) (n : Option SeatNo) (f : Option Byte) : (captureFault s k l n f).cls = s.cls := rfl
@[simp] theorem captureFault_hands (s : State) (k : FaultKind) (l : Link) (n : Option SeatNo) (f : Option Byte) : (captureFault s k l n f).hands = s.hands := rfl
@[simp] theorem captureFault_noticeQueue (s : State) (k : FaultKind) (l : Link) (n : Option SeatNo) (f : Option Byte) : (captureFault s k l n f).noticeQueue = s.noticeQueue := rfl
@[simp] theorem captureFault_eraseQueue (s : State) (k : FaultKind) (l : Link) (n : Option SeatNo) (f : Option Byte) : (captureFault s k l n f).eraseQueue = s.eraseQueue := rfl
@[simp] theorem captureFault_maint (s : State) (k : FaultKind) (l : Link) (n : Option SeatNo) (f : Option Byte) : (captureFault s k l n f).maint = s.maint := rfl
@[simp] theorem captureFault_arbiter (s : State) (k : FaultKind) (l : Link) (n : Option SeatNo) (f : Option Byte) : (captureFault s k l n f).arbiter = s.arbiter := rfl
@[simp] theorem captureFault_timebase (s : State) (k : FaultKind) (l : Link) (n : Option SeatNo) (f : Option Byte) : (captureFault s k l n f).timebase = s.timebase := rfl
@[simp] theorem captureFault_journal (s : State) (k : FaultKind) (l : Link) (n : Option SeatNo) (f : Option Byte) : (captureFault s k l n f).journal = s.journal := rfl
@[simp] theorem captureFault_display (s : State) (k : FaultKind) (l : Link) (n : Option SeatNo) (f : Option Byte) : (captureFault s k l n f).display = s.display := rfl
@[simp] theorem captureFault_displayPending (s : State) (k : FaultKind) (l : Link) (n : Option SeatNo) (f : Option Byte) : (captureFault s k l n f).displayPending = s.displayPending := rfl
@[simp] theorem captureFault_snapshot (s : State) (k : FaultKind) (l : Link) (n : Option SeatNo) (f : Option Byte) : (captureFault s k l n f).snapshot = s.snapshot := rfl
@[simp] theorem captureFault_watches (s : State) (k : FaultKind) (l : Link) (n : Option SeatNo) (f : Option Byte) : (captureFault s k l n f).watches = s.watches := rfl
@[simp] theorem captureFault_counters (s : State) (k : FaultKind) (l : Link) (n : Option SeatNo) (f : Option Byte) : (captureFault s k l n f).counters = s.counters := rfl
@[simp] theorem captureFault_boardQueue (s : State) (k : FaultKind) (l : Link) (n : Option SeatNo) (f : Option Byte) : (captureFault s k l n f).boardQueue = s.boardQueue := rfl
@[simp] theorem captureFault_tabletQueue (s : State) (k : FaultKind) (l : Link) (n : Option SeatNo) (f : Option Byte) : (captureFault s k l n f).tabletQueue = s.tabletQueue := rfl
@[simp] theorem captureFault_consoleQueue (s : State) (k : FaultKind) (l : Link) (n : Option SeatNo) (f : Option Byte) : (captureFault s k l n f).consoleQueue = s.consoleQueue := rfl
@[simp] theorem captureFault_answers (s : State) (k : FaultKind) (l : Link) (n : Option SeatNo) (f : Option Byte) : (captureFault s k l n f).answers = s.answers := rfl
@[simp] theorem captureFault_shifted (s : State) (k : FaultKind) (l : Link) (n : Option SeatNo) (f : Option Byte) : (captureFault s k l n f).shifted = s.shifted := rfl
@[simp] theorem captureFault_consoleOut (s : State) (k : FaultKind) (l : Link) (n : Option SeatNo) (f : Option Byte) : (captureFault s k l n f).consoleOut = s.consoleOut := rfl
@[simp] theorem captureFault_displayOut (s : State) (k : FaultKind) (l : Link) (n : Option SeatNo) (f : Option Byte) : (captureFault s k l n f).displayOut = s.displayOut := rfl
@[simp] theorem captureFault_commandGrant (s : State) (k : FaultKind) (l : Link) (n : Option SeatNo) (f : Option Byte) : (captureFault s k l n f).commandGrant = s.commandGrant := rfl
@[simp] theorem captureFault_noticeBasis (s : State) (k : FaultKind) (l : Link) (n : Option SeatNo) (f : Option Byte) : (captureFault s k l n f).noticeBasis = s.noticeBasis := rfl
@[simp] theorem captureFault_burstGrant (s : State) (k : FaultKind) (l : Link) (n : Option SeatNo) (f : Option Byte) : (captureFault s k l n f).burstGrant = s.burstGrant := rfl
@[simp] theorem captureFault_pending (s : State) (k : FaultKind) (l : Link) (n : Option SeatNo) (f : Option Byte) : (captureFault s k l n f).pending = s.pending := rfl

/-! ### modSeat -/

@[simp] theorem modSeat_store (s : State) (n : SeatNo) (f : Seat → Seat) : (s.modSeat n f).store = s.store := rfl
@[simp] theorem modSeat_cls (s : State) (n : SeatNo) (f : Seat → Seat) : (s.modSeat n f).cls = s.cls := rfl
@[simp] theorem modSeat_hands (s : State) (n : SeatNo) (f : Seat → Seat) : (s.modSeat n f).hands = s.hands := rfl
@[simp] theorem modSeat_noticeQueue (s : State) (n : SeatNo) (f : Seat → Seat) : (s.modSeat n f).noticeQueue = s.noticeQueue := rfl
@[simp] theorem modSeat_eraseQueue (s : State) (n : SeatNo) (f : Seat → Seat) : (s.modSeat n f).eraseQueue = s.eraseQueue := rfl
@[simp] theorem modSeat_maint (s : State) (n : SeatNo) (f : Seat → Seat) : (s.modSeat n f).maint = s.maint := rfl
@[simp] theorem modSeat_arbiter (s : State) (n : SeatNo) (f : Seat → Seat) : (s.modSeat n f).arbiter = s.arbiter := rfl
@[simp] theorem modSeat_timebase (s : State) (n : SeatNo) (f : Seat → Seat) : (s.modSeat n f).timebase = s.timebase := rfl
@[simp] theorem modSeat_journal (s : State) (n : SeatNo) (f : Seat → Seat) : (s.modSeat n f).journal = s.journal := rfl
@[simp] theorem modSeat_display (s : State) (n : SeatNo) (f : Seat → Seat) : (s.modSeat n f).display = s.display := rfl
@[simp] theorem modSeat_displayPending (s : State) (n : SeatNo) (f : Seat → Seat) : (s.modSeat n f).displayPending = s.displayPending := rfl
@[simp] theorem modSeat_snapshot (s : State) (n : SeatNo) (f : Seat → Seat) : (s.modSeat n f).snapshot = s.snapshot := rfl
@[simp] theorem modSeat_watches (s : State) (n : SeatNo) (f : Seat → Seat) : (s.modSeat n f).watches = s.watches := rfl
@[simp] theorem modSeat_faults (s : State) (n : SeatNo) (f : Seat → Seat) : (s.modSeat n f).faults = s.faults := rfl
@[simp] theorem modSeat_counters (s : State) (n : SeatNo) (f : Seat → Seat) : (s.modSeat n f).counters = s.counters := rfl
@[simp] theorem modSeat_attention (s : State) (n : SeatNo) (f : Seat → Seat) : (s.modSeat n f).attention = s.attention := rfl
@[simp] theorem modSeat_boardQueue (s : State) (n : SeatNo) (f : Seat → Seat) : (s.modSeat n f).boardQueue = s.boardQueue := rfl
@[simp] theorem modSeat_tabletQueue (s : State) (n : SeatNo) (f : Seat → Seat) : (s.modSeat n f).tabletQueue = s.tabletQueue := rfl
@[simp] theorem modSeat_consoleQueue (s : State) (n : SeatNo) (f : Seat → Seat) : (s.modSeat n f).consoleQueue = s.consoleQueue := rfl
@[simp] theorem modSeat_answers (s : State) (n : SeatNo) (f : Seat → Seat) : (s.modSeat n f).answers = s.answers := rfl
@[simp] theorem modSeat_shifted (s : State) (n : SeatNo) (f : Seat → Seat) : (s.modSeat n f).shifted = s.shifted := rfl
@[simp] theorem modSeat_consoleOut (s : State) (n : SeatNo) (f : Seat → Seat) : (s.modSeat n f).consoleOut = s.consoleOut := rfl
@[simp] theorem modSeat_displayOut (s : State) (n : SeatNo) (f : Seat → Seat) : (s.modSeat n f).displayOut = s.displayOut := rfl
@[simp] theorem modSeat_commandGrant (s : State) (n : SeatNo) (f : Seat → Seat) : (s.modSeat n f).commandGrant = s.commandGrant := rfl
@[simp] theorem modSeat_noticeBasis (s : State) (n : SeatNo) (f : Seat → Seat) : (s.modSeat n f).noticeBasis = s.noticeBasis := rfl
@[simp] theorem modSeat_burstGrant (s : State) (n : SeatNo) (f : Seat → Seat) : (s.modSeat n f).burstGrant = s.burstGrant := rfl
@[simp] theorem modSeat_pending (s : State) (n : SeatNo) (f : Seat → Seat) : (s.modSeat n f).pending = s.pending := rfl

/-! ### countDiscard -/

@[simp] theorem countDiscard_store (s : State) (n : SeatNo) : (countDiscard s n).store = s.store := rfl
@[simp] theorem countDiscard_cls (s : State) (n : SeatNo) : (countDiscard s n).cls = s.cls := rfl
@[simp] theorem countDiscard_hands (s : State) (n : SeatNo) : (countDiscard s n).hands = s.hands := rfl
@[simp] theorem countDiscard_noticeQueue (s : State) (n : SeatNo) : (countDiscard s n).noticeQueue = s.noticeQueue := rfl
@[simp] theorem countDiscard_eraseQueue (s : State) (n : SeatNo) : (countDiscard s n).eraseQueue = s.eraseQueue := rfl
@[simp] theorem countDiscard_maint (s : State) (n : SeatNo) : (countDiscard s n).maint = s.maint := rfl
@[simp] theorem countDiscard_arbiter (s : State) (n : SeatNo) : (countDiscard s n).arbiter = s.arbiter := rfl
@[simp] theorem countDiscard_timebase (s : State) (n : SeatNo) : (countDiscard s n).timebase = s.timebase := rfl
@[simp] theorem countDiscard_journal (s : State) (n : SeatNo) : (countDiscard s n).journal = s.journal := rfl
@[simp] theorem countDiscard_display (s : State) (n : SeatNo) : (countDiscard s n).display = s.display := rfl
@[simp] theorem countDiscard_displayPending (s : State) (n : SeatNo) : (countDiscard s n).displayPending = s.displayPending := rfl
@[simp] theorem countDiscard_snapshot (s : State) (n : SeatNo) : (countDiscard s n).snapshot = s.snapshot := rfl
@[simp] theorem countDiscard_watches (s : State) (n : SeatNo) : (countDiscard s n).watches = s.watches := rfl
@[simp] theorem countDiscard_faults (s : State) (n : SeatNo) : (countDiscard s n).faults = s.faults := rfl
@[simp] theorem countDiscard_counters (s : State) (n : SeatNo) : (countDiscard s n).counters = s.counters := rfl
@[simp] theorem countDiscard_attention (s : State) (n : SeatNo) : (countDiscard s n).attention = s.attention := rfl
@[simp] theorem countDiscard_boardQueue (s : State) (n : SeatNo) : (countDiscard s n).boardQueue = s.boardQueue := rfl
@[simp] theorem countDiscard_tabletQueue (s : State) (n : SeatNo) : (countDiscard s n).tabletQueue = s.tabletQueue := rfl
@[simp] theorem countDiscard_consoleQueue (s : State) (n : SeatNo) : (countDiscard s n).consoleQueue = s.consoleQueue := rfl
@[simp] theorem countDiscard_answers (s : State) (n : SeatNo) : (countDiscard s n).answers = s.answers := rfl
@[simp] theorem countDiscard_shifted (s : State) (n : SeatNo) : (countDiscard s n).shifted = s.shifted := rfl
@[simp] theorem countDiscard_consoleOut (s : State) (n : SeatNo) : (countDiscard s n).consoleOut = s.consoleOut := rfl
@[simp] theorem countDiscard_displayOut (s : State) (n : SeatNo) : (countDiscard s n).displayOut = s.displayOut := rfl
@[simp] theorem countDiscard_commandGrant (s : State) (n : SeatNo) : (countDiscard s n).commandGrant = s.commandGrant := rfl
@[simp] theorem countDiscard_noticeBasis (s : State) (n : SeatNo) : (countDiscard s n).noticeBasis = s.noticeBasis := rfl
@[simp] theorem countDiscard_burstGrant (s : State) (n : SeatNo) : (countDiscard s n).burstGrant = s.burstGrant := rfl
@[simp] theorem countDiscard_pending (s : State) (n : SeatNo) : (countDiscard s n).pending = s.pending := rfl

/-! ### pushUndo -/

@[simp] theorem pushUndo_store (s : State) (n : SeatNo) (e : UndoEntry) : (pushUndo s n e).store = s.store := rfl
@[simp] theorem pushUndo_cls (s : State) (n : SeatNo) (e : UndoEntry) : (pushUndo s n e).cls = s.cls := rfl
@[simp] theorem pushUndo_hands (s : State) (n : SeatNo) (e : UndoEntry) : (pushUndo s n e).hands = s.hands := rfl
@[simp] theorem pushUndo_noticeQueue (s : State) (n : SeatNo) (e : UndoEntry) : (pushUndo s n e).noticeQueue = s.noticeQueue := rfl
@[simp] theorem pushUndo_eraseQueue (s : State) (n : SeatNo) (e : UndoEntry) : (pushUndo s n e).eraseQueue = s.eraseQueue := rfl
@[simp] theorem pushUndo_maint (s : State) (n : SeatNo) (e : UndoEntry) : (pushUndo s n e).maint = s.maint := rfl
@[simp] theorem pushUndo_arbiter (s : State) (n : SeatNo) (e : UndoEntry) : (pushUndo s n e).arbiter = s.arbiter := rfl
@[simp] theorem pushUndo_timebase (s : State) (n : SeatNo) (e : UndoEntry) : (pushUndo s n e).timebase = s.timebase := rfl
@[simp] theorem pushUndo_journal (s : State) (n : SeatNo) (e : UndoEntry) : (pushUndo s n e).journal = s.journal := rfl
@[simp] theorem pushUndo_display (s : State) (n : SeatNo) (e : UndoEntry) : (pushUndo s n e).display = s.display := rfl
@[simp] theorem pushUndo_displayPending (s : State) (n : SeatNo) (e : UndoEntry) : (pushUndo s n e).displayPending = s.displayPending := rfl
@[simp] theorem pushUndo_snapshot (s : State) (n : SeatNo) (e : UndoEntry) : (pushUndo s n e).snapshot = s.snapshot := rfl
@[simp] theorem pushUndo_watches (s : State) (n : SeatNo) (e : UndoEntry) : (pushUndo s n e).watches = s.watches := rfl
@[simp] theorem pushUndo_faults (s : State) (n : SeatNo) (e : UndoEntry) : (pushUndo s n e).faults = s.faults := rfl
@[simp] theorem pushUndo_counters (s : State) (n : SeatNo) (e : UndoEntry) : (pushUndo s n e).counters = s.counters := rfl
@[simp] theorem pushUndo_attention (s : State) (n : SeatNo) (e : UndoEntry) : (pushUndo s n e).attention = s.attention := rfl
@[simp] theorem pushUndo_boardQueue (s : State) (n : SeatNo) (e : UndoEntry) : (pushUndo s n e).boardQueue = s.boardQueue := rfl
@[simp] theorem pushUndo_tabletQueue (s : State) (n : SeatNo) (e : UndoEntry) : (pushUndo s n e).tabletQueue = s.tabletQueue := rfl
@[simp] theorem pushUndo_consoleQueue (s : State) (n : SeatNo) (e : UndoEntry) : (pushUndo s n e).consoleQueue = s.consoleQueue := rfl
@[simp] theorem pushUndo_answers (s : State) (n : SeatNo) (e : UndoEntry) : (pushUndo s n e).answers = s.answers := rfl
@[simp] theorem pushUndo_shifted (s : State) (n : SeatNo) (e : UndoEntry) : (pushUndo s n e).shifted = s.shifted := rfl
@[simp] theorem pushUndo_consoleOut (s : State) (n : SeatNo) (e : UndoEntry) : (pushUndo s n e).consoleOut = s.consoleOut := rfl
@[simp] theorem pushUndo_displayOut (s : State) (n : SeatNo) (e : UndoEntry) : (pushUndo s n e).displayOut = s.displayOut := rfl
@[simp] theorem pushUndo_commandGrant (s : State) (n : SeatNo) (e : UndoEntry) : (pushUndo s n e).commandGrant = s.commandGrant := rfl
@[simp] theorem pushUndo_noticeBasis (s : State) (n : SeatNo) (e : UndoEntry) : (pushUndo s n e).noticeBasis = s.noticeBasis := rfl
@[simp] theorem pushUndo_burstGrant (s : State) (n : SeatNo) (e : UndoEntry) : (pushUndo s n e).burstGrant = s.burstGrant := rfl
@[simp] theorem pushUndo_pending (s : State) (n : SeatNo) (e : UndoEntry) : (pushUndo s n e).pending = s.pending := rfl

/-! ### setItem -/

@[simp] theorem setItem_store (s : State) (n : SeatNo) (i : Option OpenItem) : (setItem s n i).store = s.store := rfl
@[simp] theorem setItem_cls (s : State) (n : SeatNo) (i : Option OpenItem) : (setItem s n i).cls = s.cls := rfl
@[simp] theorem setItem_hands (s : State) (n : SeatNo) (i : Option OpenItem) : (setItem s n i).hands = s.hands := rfl
@[simp] theorem setItem_noticeQueue (s : State) (n : SeatNo) (i : Option OpenItem) : (setItem s n i).noticeQueue = s.noticeQueue := rfl
@[simp] theorem setItem_eraseQueue (s : State) (n : SeatNo) (i : Option OpenItem) : (setItem s n i).eraseQueue = s.eraseQueue := rfl
@[simp] theorem setItem_maint (s : State) (n : SeatNo) (i : Option OpenItem) : (setItem s n i).maint = s.maint := rfl
@[simp] theorem setItem_arbiter (s : State) (n : SeatNo) (i : Option OpenItem) : (setItem s n i).arbiter = s.arbiter := rfl
@[simp] theorem setItem_timebase (s : State) (n : SeatNo) (i : Option OpenItem) : (setItem s n i).timebase = s.timebase := rfl
@[simp] theorem setItem_journal (s : State) (n : SeatNo) (i : Option OpenItem) : (setItem s n i).journal = s.journal := rfl
@[simp] theorem setItem_display (s : State) (n : SeatNo) (i : Option OpenItem) : (setItem s n i).display = s.display := rfl
@[simp] theorem setItem_displayPending (s : State) (n : SeatNo) (i : Option OpenItem) : (setItem s n i).displayPending = s.displayPending := rfl
@[simp] theorem setItem_snapshot (s : State) (n : SeatNo) (i : Option OpenItem) : (setItem s n i).snapshot = s.snapshot := rfl
@[simp] theorem setItem_watches (s : State) (n : SeatNo) (i : Option OpenItem) : (setItem s n i).watches = s.watches := rfl
@[simp] theorem setItem_faults (s : State) (n : SeatNo) (i : Option OpenItem) : (setItem s n i).faults = s.faults := rfl
@[simp] theorem setItem_counters (s : State) (n : SeatNo) (i : Option OpenItem) : (setItem s n i).counters = s.counters := rfl
@[simp] theorem setItem_attention (s : State) (n : SeatNo) (i : Option OpenItem) : (setItem s n i).attention = s.attention := rfl
@[simp] theorem setItem_boardQueue (s : State) (n : SeatNo) (i : Option OpenItem) : (setItem s n i).boardQueue = s.boardQueue := rfl
@[simp] theorem setItem_tabletQueue (s : State) (n : SeatNo) (i : Option OpenItem) : (setItem s n i).tabletQueue = s.tabletQueue := rfl
@[simp] theorem setItem_consoleQueue (s : State) (n : SeatNo) (i : Option OpenItem) : (setItem s n i).consoleQueue = s.consoleQueue := rfl
@[simp] theorem setItem_answers (s : State) (n : SeatNo) (i : Option OpenItem) : (setItem s n i).answers = s.answers := rfl
@[simp] theorem setItem_shifted (s : State) (n : SeatNo) (i : Option OpenItem) : (setItem s n i).shifted = s.shifted := rfl
@[simp] theorem setItem_consoleOut (s : State) (n : SeatNo) (i : Option OpenItem) : (setItem s n i).consoleOut = s.consoleOut := rfl
@[simp] theorem setItem_displayOut (s : State) (n : SeatNo) (i : Option OpenItem) : (setItem s n i).displayOut = s.displayOut := rfl
@[simp] theorem setItem_commandGrant (s : State) (n : SeatNo) (i : Option OpenItem) : (setItem s n i).commandGrant = s.commandGrant := rfl
@[simp] theorem setItem_noticeBasis (s : State) (n : SeatNo) (i : Option OpenItem) : (setItem s n i).noticeBasis = s.noticeBasis := rfl
@[simp] theorem setItem_burstGrant (s : State) (n : SeatNo) (i : Option OpenItem) : (setItem s n i).burstGrant = s.burstGrant := rfl
@[simp] theorem setItem_pending (s : State) (n : SeatNo) (i : Option OpenItem) : (setItem s n i).pending = s.pending := rfl

/-! ### modItem -/

@[simp] theorem modItem_store (s : State) (n : SeatNo) (f : OpenItem → OpenItem) : (modItem s n f).store = s.store := rfl
@[simp] theorem modItem_cls (s : State) (n : SeatNo) (f : OpenItem → OpenItem) : (modItem s n f).cls = s.cls := rfl
@[simp] theorem modItem_hands (s : State) (n : SeatNo) (f : OpenItem → OpenItem) : (modItem s n f).hands = s.hands := rfl
@[simp] theorem modItem_noticeQueue (s : State) (n : SeatNo) (f : OpenItem → OpenItem) : (modItem s n f).noticeQueue = s.noticeQueue := rfl
@[simp] theorem modItem_eraseQueue (s : State) (n : SeatNo) (f : OpenItem → OpenItem) : (modItem s n f).eraseQueue = s.eraseQueue := rfl
@[simp] theorem modItem_maint (s : State) (n : SeatNo) (f : OpenItem → OpenItem) : (modItem s n f).maint = s.maint := rfl
@[simp] theorem modItem_arbiter (s : State) (n : SeatNo) (f : OpenItem → OpenItem) : (modItem s n f).arbiter = s.arbiter := rfl
@[simp] theorem modItem_timebase (s : State) (n : SeatNo) (f : OpenItem → OpenItem) : (modItem s n f).timebase = s.timebase := rfl
@[simp] theorem modItem_journal (s : State) (n : SeatNo) (f : OpenItem → OpenItem) : (modItem s n f).journal = s.journal := rfl
@[simp] theorem modItem_display (s : State) (n : SeatNo) (f : OpenItem → OpenItem) : (modItem s n f).display = s.display := rfl
@[simp] theorem modItem_displayPending (s : State) (n : SeatNo) (f : OpenItem → OpenItem) : (modItem s n f).displayPending = s.displayPending := rfl
@[simp] theorem modItem_snapshot (s : State) (n : SeatNo) (f : OpenItem → OpenItem) : (modItem s n f).snapshot = s.snapshot := rfl
@[simp] theorem modItem_watches (s : State) (n : SeatNo) (f : OpenItem → OpenItem) : (modItem s n f).watches = s.watches := rfl
@[simp] theorem modItem_faults (s : State) (n : SeatNo) (f : OpenItem → OpenItem) : (modItem s n f).faults = s.faults := rfl
@[simp] theorem modItem_counters (s : State) (n : SeatNo) (f : OpenItem → OpenItem) : (modItem s n f).counters = s.counters := rfl
@[simp] theorem modItem_attention (s : State) (n : SeatNo) (f : OpenItem → OpenItem) : (modItem s n f).attention = s.attention := rfl
@[simp] theorem modItem_boardQueue (s : State) (n : SeatNo) (f : OpenItem → OpenItem) : (modItem s n f).boardQueue = s.boardQueue := rfl
@[simp] theorem modItem_tabletQueue (s : State) (n : SeatNo) (f : OpenItem → OpenItem) : (modItem s n f).tabletQueue = s.tabletQueue := rfl
@[simp] theorem modItem_consoleQueue (s : State) (n : SeatNo) (f : OpenItem → OpenItem) : (modItem s n f).consoleQueue = s.consoleQueue := rfl
@[simp] theorem modItem_answers (s : State) (n : SeatNo) (f : OpenItem → OpenItem) : (modItem s n f).answers = s.answers := rfl
@[simp] theorem modItem_shifted (s : State) (n : SeatNo) (f : OpenItem → OpenItem) : (modItem s n f).shifted = s.shifted := rfl
@[simp] theorem modItem_consoleOut (s : State) (n : SeatNo) (f : OpenItem → OpenItem) : (modItem s n f).consoleOut = s.consoleOut := rfl
@[simp] theorem modItem_displayOut (s : State) (n : SeatNo) (f : OpenItem → OpenItem) : (modItem s n f).displayOut = s.displayOut := rfl
@[simp] theorem modItem_commandGrant (s : State) (n : SeatNo) (f : OpenItem → OpenItem) : (modItem s n f).commandGrant = s.commandGrant := rfl
@[simp] theorem modItem_noticeBasis (s : State) (n : SeatNo) (f : OpenItem → OpenItem) : (modItem s n f).noticeBasis = s.noticeBasis := rfl
@[simp] theorem modItem_burstGrant (s : State) (n : SeatNo) (f : OpenItem → OpenItem) : (modItem s n f).burstGrant = s.burstGrant := rfl
@[simp] theorem modItem_pending (s : State) (n : SeatNo) (f : OpenItem → OpenItem) : (modItem s n f).pending = s.pending := rfl

/-! ### addNotice -/

@[simp] theorem addNotice_store (s : State) (n : SeatNo) (k : Notice) : (addNotice s n k).store = s.store := by unfold addNotice; split <;> rfl
@[simp] theorem addNotice_cls (s : State) (n : SeatNo) (k : Notice) : (addNotice s n k).cls = s.cls := by unfold addNotice; split <;> rfl
@[simp] theorem addNotice_hands (s : State) (n : SeatNo) (k : Notice) : (addNotice s n k).hands = s.hands := by unfold addNotice; split <;> rfl
@[simp] theorem addNotice_eraseQueue (s : State) (n : SeatNo) (k : Notice) : (addNotice s n k).eraseQueue = s.eraseQueue := by unfold addNotice; split <;> rfl
@[simp] theorem addNotice_maint (s : State) (n : SeatNo) (k : Notice) : (addNotice s n k).maint = s.maint := by unfold addNotice; split <;> rfl
@[simp] theorem addNotice_arbiter (s : State) (n : SeatNo) (k : Notice) : (addNotice s n k).arbiter = s.arbiter := by unfold addNotice; split <;> rfl
@[simp] theorem addNotice_timebase (s : State) (n : SeatNo) (k : Notice) : (addNotice s n k).timebase = s.timebase := by unfold addNotice; split <;> rfl
@[simp] theorem addNotice_journal (s : State) (n : SeatNo) (k : Notice) : (addNotice s n k).journal = s.journal := by unfold addNotice; split <;> rfl
@[simp] theorem addNotice_display (s : State) (n : SeatNo) (k : Notice) : (addNotice s n k).display = s.display := by unfold addNotice; split <;> rfl
@[simp] theorem addNotice_displayPending (s : State) (n : SeatNo) (k : Notice) : (addNotice s n k).displayPending = s.displayPending := by unfold addNotice; split <;> rfl
@[simp] theorem addNotice_snapshot (s : State) (n : SeatNo) (k : Notice) : (addNotice s n k).snapshot = s.snapshot := by unfold addNotice; split <;> rfl
@[simp] theorem addNotice_watches (s : State) (n : SeatNo) (k : Notice) : (addNotice s n k).watches = s.watches := by unfold addNotice; split <;> rfl
@[simp] theorem addNotice_faults (s : State) (n : SeatNo) (k : Notice) : (addNotice s n k).faults = s.faults := by unfold addNotice; split <;> rfl
@[simp] theorem addNotice_counters (s : State) (n : SeatNo) (k : Notice) : (addNotice s n k).counters = s.counters := by unfold addNotice; split <;> rfl
@[simp] theorem addNotice_attention (s : State) (n : SeatNo) (k : Notice) : (addNotice s n k).attention = s.attention := by unfold addNotice; split <;> rfl
@[simp] theorem addNotice_boardQueue (s : State) (n : SeatNo) (k : Notice) : (addNotice s n k).boardQueue = s.boardQueue := by unfold addNotice; split <;> rfl
@[simp] theorem addNotice_tabletQueue (s : State) (n : SeatNo) (k : Notice) : (addNotice s n k).tabletQueue = s.tabletQueue := by unfold addNotice; split <;> rfl
@[simp] theorem addNotice_consoleQueue (s : State) (n : SeatNo) (k : Notice) : (addNotice s n k).consoleQueue = s.consoleQueue := by unfold addNotice; split <;> rfl
@[simp] theorem addNotice_answers (s : State) (n : SeatNo) (k : Notice) : (addNotice s n k).answers = s.answers := by unfold addNotice; split <;> rfl
@[simp] theorem addNotice_shifted (s : State) (n : SeatNo) (k : Notice) : (addNotice s n k).shifted = s.shifted := by unfold addNotice; split <;> rfl
@[simp] theorem addNotice_consoleOut (s : State) (n : SeatNo) (k : Notice) : (addNotice s n k).consoleOut = s.consoleOut := by unfold addNotice; split <;> rfl
@[simp] theorem addNotice_displayOut (s : State) (n : SeatNo) (k : Notice) : (addNotice s n k).displayOut = s.displayOut := by unfold addNotice; split <;> rfl
@[simp] theorem addNotice_commandGrant (s : State) (n : SeatNo) (k : Notice) : (addNotice s n k).commandGrant = s.commandGrant := by unfold addNotice; split <;> rfl
@[simp] theorem addNotice_burstGrant (s : State) (n : SeatNo) (k : Notice) : (addNotice s n k).burstGrant = s.burstGrant := by unfold addNotice; split <;> rfl
@[simp] theorem addNotice_pending (s : State) (n : SeatNo) (k : Notice) : (addNotice s n k).pending = s.pending := by unfold addNotice; split <;> rfl

/-! ### lowerHand -/

@[simp] theorem lowerHand_store (s : State) (n : SeatNo) : (lowerHand s n).store = s.store := rfl
@[simp] theorem lowerHand_cls (s : State) (n : SeatNo) : (lowerHand s n).cls = s.cls := rfl
@[simp] theorem lowerHand_noticeQueue (s : State) (n : SeatNo) : (lowerHand s n).noticeQueue = s.noticeQueue := rfl
@[simp] theorem lowerHand_eraseQueue (s : State) (n : SeatNo) : (lowerHand s n).eraseQueue = s.eraseQueue := rfl
@[simp] theorem lowerHand_maint (s : State) (n : SeatNo) : (lowerHand s n).maint = s.maint := rfl
@[simp] theorem lowerHand_arbiter (s : State) (n : SeatNo) : (lowerHand s n).arbiter = s.arbiter := rfl
@[simp] theorem lowerHand_timebase (s : State) (n : SeatNo) : (lowerHand s n).timebase = s.timebase := rfl
@[simp] theorem lowerHand_journal (s : State) (n : SeatNo) : (lowerHand s n).journal = s.journal := rfl
@[simp] theorem lowerHand_display (s : State) (n : SeatNo) : (lowerHand s n).display = s.display := rfl
@[simp] theorem lowerHand_displayPending (s : State) (n : SeatNo) : (lowerHand s n).displayPending = s.displayPending := rfl
@[simp] theorem lowerHand_snapshot (s : State) (n : SeatNo) : (lowerHand s n).snapshot = s.snapshot := rfl
@[simp] theorem lowerHand_watches (s : State) (n : SeatNo) : (lowerHand s n).watches = s.watches := rfl
@[simp] theorem lowerHand_faults (s : State) (n : SeatNo) : (lowerHand s n).faults = s.faults := rfl
@[simp] theorem lowerHand_counters (s : State) (n : SeatNo) : (lowerHand s n).counters = s.counters := rfl
@[simp] theorem lowerHand_attention (s : State) (n : SeatNo) : (lowerHand s n).attention = s.attention := rfl
@[simp] theorem lowerHand_boardQueue (s : State) (n : SeatNo) : (lowerHand s n).boardQueue = s.boardQueue := rfl
@[simp] theorem lowerHand_tabletQueue (s : State) (n : SeatNo) : (lowerHand s n).tabletQueue = s.tabletQueue := rfl
@[simp] theorem lowerHand_consoleQueue (s : State) (n : SeatNo) : (lowerHand s n).consoleQueue = s.consoleQueue := rfl
@[simp] theorem lowerHand_answers (s : State) (n : SeatNo) : (lowerHand s n).answers = s.answers := rfl
@[simp] theorem lowerHand_shifted (s : State) (n : SeatNo) : (lowerHand s n).shifted = s.shifted := rfl
@[simp] theorem lowerHand_consoleOut (s : State) (n : SeatNo) : (lowerHand s n).consoleOut = s.consoleOut := rfl
@[simp] theorem lowerHand_displayOut (s : State) (n : SeatNo) : (lowerHand s n).displayOut = s.displayOut := rfl
@[simp] theorem lowerHand_commandGrant (s : State) (n : SeatNo) : (lowerHand s n).commandGrant = s.commandGrant := rfl
@[simp] theorem lowerHand_noticeBasis (s : State) (n : SeatNo) : (lowerHand s n).noticeBasis = s.noticeBasis := rfl
@[simp] theorem lowerHand_burstGrant (s : State) (n : SeatNo) : (lowerHand s n).burstGrant = s.burstGrant := rfl
@[simp] theorem lowerHand_pending (s : State) (n : SeatNo) : (lowerHand s n).pending = s.pending := rfl

/-! ### placeReply -/

@[simp] theorem placeReply_store (s : State) (r : Reply) : (placeReply s r).store = s.store := rfl
@[simp] theorem placeReply_seats (s : State) (r : Reply) : (placeReply s r).seats = s.seats := rfl
@[simp] theorem placeReply_cls (s : State) (r : Reply) : (placeReply s r).cls = s.cls := rfl
@[simp] theorem placeReply_hands (s : State) (r : Reply) : (placeReply s r).hands = s.hands := rfl
@[simp] theorem placeReply_noticeQueue (s : State) (r : Reply) : (placeReply s r).noticeQueue = s.noticeQueue := rfl
@[simp] theorem placeReply_eraseQueue (s : State) (r : Reply) : (placeReply s r).eraseQueue = s.eraseQueue := rfl
@[simp] theorem placeReply_maint (s : State) (r : Reply) : (placeReply s r).maint = s.maint := rfl
@[simp] theorem placeReply_arbiter (s : State) (r : Reply) : (placeReply s r).arbiter = s.arbiter := rfl
@[simp] theorem placeReply_timebase (s : State) (r : Reply) : (placeReply s r).timebase = s.timebase := rfl
@[simp] theorem placeReply_journal (s : State) (r : Reply) : (placeReply s r).journal = s.journal := rfl
@[simp] theorem placeReply_display (s : State) (r : Reply) : (placeReply s r).display = s.display := rfl
@[simp] theorem placeReply_displayPending (s : State) (r : Reply) : (placeReply s r).displayPending = s.displayPending := rfl
@[simp] theorem placeReply_snapshot (s : State) (r : Reply) : (placeReply s r).snapshot = s.snapshot := rfl
@[simp] theorem placeReply_watches (s : State) (r : Reply) : (placeReply s r).watches = s.watches := rfl
@[simp] theorem placeReply_faults (s : State) (r : Reply) : (placeReply s r).faults = s.faults := rfl
@[simp] theorem placeReply_counters (s : State) (r : Reply) : (placeReply s r).counters = s.counters := rfl
@[simp] theorem placeReply_attention (s : State) (r : Reply) : (placeReply s r).attention = s.attention := rfl
@[simp] theorem placeReply_boardQueue (s : State) (r : Reply) : (placeReply s r).boardQueue = s.boardQueue := rfl
@[simp] theorem placeReply_tabletQueue (s : State) (r : Reply) : (placeReply s r).tabletQueue = s.tabletQueue := rfl
@[simp] theorem placeReply_consoleQueue (s : State) (r : Reply) : (placeReply s r).consoleQueue = s.consoleQueue := rfl
@[simp] theorem placeReply_answers (s : State) (r : Reply) : (placeReply s r).answers = s.answers := rfl
@[simp] theorem placeReply_shifted (s : State) (r : Reply) : (placeReply s r).shifted = s.shifted := rfl
@[simp] theorem placeReply_displayOut (s : State) (r : Reply) : (placeReply s r).displayOut = s.displayOut := rfl
@[simp] theorem placeReply_commandGrant (s : State) (r : Reply) : (placeReply s r).commandGrant = s.commandGrant := rfl
@[simp] theorem placeReply_noticeBasis (s : State) (r : Reply) : (placeReply s r).noticeBasis = s.noticeBasis := rfl
@[simp] theorem placeReply_burstGrant (s : State) (r : Reply) : (placeReply s r).burstGrant = s.burstGrant := rfl
@[simp] theorem placeReply_pending (s : State) (r : Reply) : (placeReply s r).pending = s.pending := rfl

/-! ### finishCommand -/

@[simp] theorem finishCommand_store (s : State) (r : Reply) : (finishCommand s r).store = s.store := rfl
@[simp] theorem finishCommand_seats (s : State) (r : Reply) : (finishCommand s r).seats = s.seats := rfl
@[simp] theorem finishCommand_cls (s : State) (r : Reply) : (finishCommand s r).cls = s.cls := rfl
@[simp] theorem finishCommand_hands (s : State) (r : Reply) : (finishCommand s r).hands = s.hands := rfl
@[simp] theorem finishCommand_noticeQueue (s : State) (r : Reply) : (finishCommand s r).noticeQueue = s.noticeQueue := rfl
@[simp] theorem finishCommand_eraseQueue (s : State) (r : Reply) : (finishCommand s r).eraseQueue = s.eraseQueue := rfl
@[simp] theorem finishCommand_maint (s : State) (r : Reply) : (finishCommand s r).maint = s.maint := rfl
@[simp] theorem finishCommand_timebase (s : State) (r : Reply) : (finishCommand s r).timebase = s.timebase := rfl
@[simp] theorem finishCommand_journal (s : State) (r : Reply) : (finishCommand s r).journal = s.journal := rfl
@[simp] theorem finishCommand_display (s : State) (r : Reply) : (finishCommand s r).display = s.display := rfl
@[simp] theorem finishCommand_displayPending (s : State) (r : Reply) : (finishCommand s r).displayPending = s.displayPending := rfl
@[simp] theorem finishCommand_snapshot (s : State) (r : Reply) : (finishCommand s r).snapshot = s.snapshot := rfl
@[simp] theorem finishCommand_watches (s : State) (r : Reply) : (finishCommand s r).watches = s.watches := rfl
@[simp] theorem finishCommand_faults (s : State) (r : Reply) : (finishCommand s r).faults = s.faults := rfl
@[simp] theorem finishCommand_counters (s : State) (r : Reply) : (finishCommand s r).counters = s.counters := rfl
@[simp] theorem finishCommand_attention (s : State) (r : Reply) : (finishCommand s r).attention = s.attention := rfl
@[simp] theorem finishCommand_boardQueue (s : State) (r : Reply) : (finishCommand s r).boardQueue = s.boardQueue := rfl
@[simp] theorem finishCommand_tabletQueue (s : State) (r : Reply) : (finishCommand s r).tabletQueue = s.tabletQueue := rfl
@[simp] theorem finishCommand_answers (s : State) (r : Reply) : (finishCommand s r).answers = s.answers := rfl
@[simp] theorem finishCommand_shifted (s : State) (r : Reply) : (finishCommand s r).shifted = s.shifted := rfl
@[simp] theorem finishCommand_displayOut (s : State) (r : Reply) : (finishCommand s r).displayOut = s.displayOut := rfl
@[simp] theorem finishCommand_noticeBasis (s : State) (r : Reply) : (finishCommand s r).noticeBasis = s.noticeBasis := rfl
@[simp] theorem finishCommand_burstGrant (s : State) (r : Reply) : (finishCommand s r).burstGrant = s.burstGrant := rfl
@[simp] theorem finishCommand_pending (s : State) (r : Reply) : (finishCommand s r).pending = s.pending := rfl

/-! ### modStroke -/

@[simp] theorem modStroke_seats (s : State) (i : RecIdx) (f : Stroke → Stroke) : (modStroke s i f).seats = s.seats := rfl
@[simp] theorem modStroke_cls (s : State) (i : RecIdx) (f : Stroke → Stroke) : (modStroke s i f).cls = s.cls := rfl
@[simp] theorem modStroke_hands (s : State) (i : RecIdx) (f : Stroke → Stroke) : (modStroke s i f).hands = s.hands := rfl
@[simp] theorem modStroke_noticeQueue (s : State) (i : RecIdx) (f : Stroke → Stroke) : (modStroke s i f).noticeQueue = s.noticeQueue := rfl
@[simp] theorem modStroke_eraseQueue (s : State) (i : RecIdx) (f : Stroke → Stroke) : (modStroke s i f).eraseQueue = s.eraseQueue := rfl
@[simp] theorem modStroke_maint (s : State) (i : RecIdx) (f : Stroke → Stroke) : (modStroke s i f).maint = s.maint := rfl
@[simp] theorem modStroke_arbiter (s : State) (i : RecIdx) (f : Stroke → Stroke) : (modStroke s i f).arbiter = s.arbiter := rfl
@[simp] theorem modStroke_timebase (s : State) (i : RecIdx) (f : Stroke → Stroke) : (modStroke s i f).timebase = s.timebase := rfl
@[simp] theorem modStroke_journal (s : State) (i : RecIdx) (f : Stroke → Stroke) : (modStroke s i f).journal = s.journal := rfl
@[simp] theorem modStroke_display (s : State) (i : RecIdx) (f : Stroke → Stroke) : (modStroke s i f).display = s.display := rfl
@[simp] theorem modStroke_displayPending (s : State) (i : RecIdx) (f : Stroke → Stroke) : (modStroke s i f).displayPending = s.displayPending := rfl
@[simp] theorem modStroke_snapshot (s : State) (i : RecIdx) (f : Stroke → Stroke) : (modStroke s i f).snapshot = s.snapshot := rfl
@[simp] theorem modStroke_watches (s : State) (i : RecIdx) (f : Stroke → Stroke) : (modStroke s i f).watches = s.watches := rfl
@[simp] theorem modStroke_faults (s : State) (i : RecIdx) (f : Stroke → Stroke) : (modStroke s i f).faults = s.faults := rfl
@[simp] theorem modStroke_counters (s : State) (i : RecIdx) (f : Stroke → Stroke) : (modStroke s i f).counters = s.counters := rfl
@[simp] theorem modStroke_attention (s : State) (i : RecIdx) (f : Stroke → Stroke) : (modStroke s i f).attention = s.attention := rfl
@[simp] theorem modStroke_boardQueue (s : State) (i : RecIdx) (f : Stroke → Stroke) : (modStroke s i f).boardQueue = s.boardQueue := rfl
@[simp] theorem modStroke_tabletQueue (s : State) (i : RecIdx) (f : Stroke → Stroke) : (modStroke s i f).tabletQueue = s.tabletQueue := rfl
@[simp] theorem modStroke_consoleQueue (s : State) (i : RecIdx) (f : Stroke → Stroke) : (modStroke s i f).consoleQueue = s.consoleQueue := rfl
@[simp] theorem modStroke_answers (s : State) (i : RecIdx) (f : Stroke → Stroke) : (modStroke s i f).answers = s.answers := rfl
@[simp] theorem modStroke_shifted (s : State) (i : RecIdx) (f : Stroke → Stroke) : (modStroke s i f).shifted = s.shifted := rfl
@[simp] theorem modStroke_consoleOut (s : State) (i : RecIdx) (f : Stroke → Stroke) : (modStroke s i f).consoleOut = s.consoleOut := rfl
@[simp] theorem modStroke_displayOut (s : State) (i : RecIdx) (f : Stroke → Stroke) : (modStroke s i f).displayOut = s.displayOut := rfl
@[simp] theorem modStroke_commandGrant (s : State) (i : RecIdx) (f : Stroke → Stroke) : (modStroke s i f).commandGrant = s.commandGrant := rfl
@[simp] theorem modStroke_noticeBasis (s : State) (i : RecIdx) (f : Stroke → Stroke) : (modStroke s i f).noticeBasis = s.noticeBasis := rfl
@[simp] theorem modStroke_burstGrant (s : State) (i : RecIdx) (f : Stroke → Stroke) : (modStroke s i f).burstGrant = s.burstGrant := rfl
@[simp] theorem modStroke_pending (s : State) (i : RecIdx) (f : Stroke → Stroke) : (modStroke s i f).pending = s.pending := rfl

/-! ### modGroup -/

@[simp] theorem modGroup_store (s : State) (g : Rev) (f : EraseGroup → EraseGroup) : (modGroup s g f).store = s.store := rfl
@[simp] theorem modGroup_seats (s : State) (g : Rev) (f : EraseGroup → EraseGroup) : (modGroup s g f).seats = s.seats := rfl
@[simp] theorem modGroup_cls (s : State) (g : Rev) (f : EraseGroup → EraseGroup) : (modGroup s g f).cls = s.cls := rfl
@[simp] theorem modGroup_hands (s : State) (g : Rev) (f : EraseGroup → EraseGroup) : (modGroup s g f).hands = s.hands := rfl
@[simp] theorem modGroup_noticeQueue (s : State) (g : Rev) (f : EraseGroup → EraseGroup) : (modGroup s g f).noticeQueue = s.noticeQueue := rfl
@[simp] theorem modGroup_maint (s : State) (g : Rev) (f : EraseGroup → EraseGroup) : (modGroup s g f).maint = s.maint := rfl
@[simp] theorem modGroup_arbiter (s : State) (g : Rev) (f : EraseGroup → EraseGroup) : (modGroup s g f).arbiter = s.arbiter := rfl
@[simp] theorem modGroup_timebase (s : State) (g : Rev) (f : EraseGroup → EraseGroup) : (modGroup s g f).timebase = s.timebase := rfl
@[simp] theorem modGroup_journal (s : State) (g : Rev) (f : EraseGroup → EraseGroup) : (modGroup s g f).journal = s.journal := rfl
@[simp] theorem modGroup_display (s : State) (g : Rev) (f : EraseGroup → EraseGroup) : (modGroup s g f).display = s.display := rfl
@[simp] theorem modGroup_displayPending (s : State) (g : Rev) (f : EraseGroup → EraseGroup) : (modGroup s g f).displayPending = s.displayPending := rfl
@[simp] theorem modGroup_snapshot (s : State) (g : Rev) (f : EraseGroup → EraseGroup) : (modGroup s g f).snapshot = s.snapshot := rfl
@[simp] theorem modGroup_watches (s : State) (g : Rev) (f : EraseGroup → EraseGroup) : (modGroup s g f).watches = s.watches := rfl
@[simp] theorem modGroup_faults (s : State) (g : Rev) (f : EraseGroup → EraseGroup) : (modGroup s g f).faults = s.faults := rfl
@[simp] theorem modGroup_counters (s : State) (g : Rev) (f : EraseGroup → EraseGroup) : (modGroup s g f).counters = s.counters := rfl
@[simp] theorem modGroup_attention (s : State) (g : Rev) (f : EraseGroup → EraseGroup) : (modGroup s g f).attention = s.attention := rfl
@[simp] theorem modGroup_boardQueue (s : State) (g : Rev) (f : EraseGroup → EraseGroup) : (modGroup s g f).boardQueue = s.boardQueue := rfl
@[simp] theorem modGroup_tabletQueue (s : State) (g : Rev) (f : EraseGroup → EraseGroup) : (modGroup s g f).tabletQueue = s.tabletQueue := rfl
@[simp] theorem modGroup_consoleQueue (s : State) (g : Rev) (f : EraseGroup → EraseGroup) : (modGroup s g f).consoleQueue = s.consoleQueue := rfl
@[simp] theorem modGroup_answers (s : State) (g : Rev) (f : EraseGroup → EraseGroup) : (modGroup s g f).answers = s.answers := rfl
@[simp] theorem modGroup_shifted (s : State) (g : Rev) (f : EraseGroup → EraseGroup) : (modGroup s g f).shifted = s.shifted := rfl
@[simp] theorem modGroup_consoleOut (s : State) (g : Rev) (f : EraseGroup → EraseGroup) : (modGroup s g f).consoleOut = s.consoleOut := rfl
@[simp] theorem modGroup_displayOut (s : State) (g : Rev) (f : EraseGroup → EraseGroup) : (modGroup s g f).displayOut = s.displayOut := rfl
@[simp] theorem modGroup_commandGrant (s : State) (g : Rev) (f : EraseGroup → EraseGroup) : (modGroup s g f).commandGrant = s.commandGrant := rfl
@[simp] theorem modGroup_noticeBasis (s : State) (g : Rev) (f : EraseGroup → EraseGroup) : (modGroup s g f).noticeBasis = s.noticeBasis := rfl
@[simp] theorem modGroup_burstGrant (s : State) (g : Rev) (f : EraseGroup → EraseGroup) : (modGroup s g f).burstGrant = s.burstGrant := rfl
@[simp] theorem modGroup_pending (s : State) (g : Rev) (f : EraseGroup → EraseGroup) : (modGroup s g f).pending = s.pending := rfl

/-! ### quotaFell -/

@[simp] theorem quotaFell_store (s : State) (n : SeatNo) : (quotaFell s n).store = s.store := by unfold quotaFell; split <;> simp
@[simp] theorem quotaFell_cls (s : State) (n : SeatNo) : (quotaFell s n).cls = s.cls := by unfold quotaFell; split <;> simp
@[simp] theorem quotaFell_hands (s : State) (n : SeatNo) : (quotaFell s n).hands = s.hands := by unfold quotaFell; split <;> simp
@[simp] theorem quotaFell_eraseQueue (s : State) (n : SeatNo) : (quotaFell s n).eraseQueue = s.eraseQueue := by unfold quotaFell; split <;> simp
@[simp] theorem quotaFell_maint (s : State) (n : SeatNo) : (quotaFell s n).maint = s.maint := by unfold quotaFell; split <;> simp
@[simp] theorem quotaFell_arbiter (s : State) (n : SeatNo) : (quotaFell s n).arbiter = s.arbiter := by unfold quotaFell; split <;> simp
@[simp] theorem quotaFell_timebase (s : State) (n : SeatNo) : (quotaFell s n).timebase = s.timebase := by unfold quotaFell; split <;> simp
@[simp] theorem quotaFell_journal (s : State) (n : SeatNo) : (quotaFell s n).journal = s.journal := by unfold quotaFell; split <;> simp
@[simp] theorem quotaFell_display (s : State) (n : SeatNo) : (quotaFell s n).display = s.display := by unfold quotaFell; split <;> simp
@[simp] theorem quotaFell_displayPending (s : State) (n : SeatNo) : (quotaFell s n).displayPending = s.displayPending := by unfold quotaFell; split <;> simp
@[simp] theorem quotaFell_snapshot (s : State) (n : SeatNo) : (quotaFell s n).snapshot = s.snapshot := by unfold quotaFell; split <;> simp
@[simp] theorem quotaFell_watches (s : State) (n : SeatNo) : (quotaFell s n).watches = s.watches := by unfold quotaFell; split <;> simp
@[simp] theorem quotaFell_faults (s : State) (n : SeatNo) : (quotaFell s n).faults = s.faults := by unfold quotaFell; split <;> simp
@[simp] theorem quotaFell_counters (s : State) (n : SeatNo) : (quotaFell s n).counters = s.counters := by unfold quotaFell; split <;> simp
@[simp] theorem quotaFell_attention (s : State) (n : SeatNo) : (quotaFell s n).attention = s.attention := by unfold quotaFell; split <;> simp
@[simp] theorem quotaFell_boardQueue (s : State) (n : SeatNo) : (quotaFell s n).boardQueue = s.boardQueue := by unfold quotaFell; split <;> simp
@[simp] theorem quotaFell_tabletQueue (s : State) (n : SeatNo) : (quotaFell s n).tabletQueue = s.tabletQueue := by unfold quotaFell; split <;> simp
@[simp] theorem quotaFell_consoleQueue (s : State) (n : SeatNo) : (quotaFell s n).consoleQueue = s.consoleQueue := by unfold quotaFell; split <;> simp
@[simp] theorem quotaFell_answers (s : State) (n : SeatNo) : (quotaFell s n).answers = s.answers := by unfold quotaFell; split <;> simp
@[simp] theorem quotaFell_shifted (s : State) (n : SeatNo) : (quotaFell s n).shifted = s.shifted := by unfold quotaFell; split <;> simp
@[simp] theorem quotaFell_consoleOut (s : State) (n : SeatNo) : (quotaFell s n).consoleOut = s.consoleOut := by unfold quotaFell; split <;> simp
@[simp] theorem quotaFell_displayOut (s : State) (n : SeatNo) : (quotaFell s n).displayOut = s.displayOut := by unfold quotaFell; split <;> simp
@[simp] theorem quotaFell_commandGrant (s : State) (n : SeatNo) : (quotaFell s n).commandGrant = s.commandGrant := by unfold quotaFell; split <;> simp
@[simp] theorem quotaFell_burstGrant (s : State) (n : SeatNo) : (quotaFell s n).burstGrant = s.burstGrant := by unfold quotaFell; split <;> simp
@[simp] theorem quotaFell_pending (s : State) (n : SeatNo) : (quotaFell s n).pending = s.pending := by unfold quotaFell; split <;> simp

/-! ### quotaRefused -/

@[simp] theorem quotaRefused_store (s : State) (n : SeatNo) : (quotaRefused s n).store = s.store := by unfold quotaRefused; split <;> simp
@[simp] theorem quotaRefused_cls (s : State) (n : SeatNo) : (quotaRefused s n).cls = s.cls := by unfold quotaRefused; split <;> simp
@[simp] theorem quotaRefused_hands (s : State) (n : SeatNo) : (quotaRefused s n).hands = s.hands := by unfold quotaRefused; split <;> simp
@[simp] theorem quotaRefused_eraseQueue (s : State) (n : SeatNo) : (quotaRefused s n).eraseQueue = s.eraseQueue := by unfold quotaRefused; split <;> simp
@[simp] theorem quotaRefused_maint (s : State) (n : SeatNo) : (quotaRefused s n).maint = s.maint := by unfold quotaRefused; split <;> simp
@[simp] theorem quotaRefused_arbiter (s : State) (n : SeatNo) : (quotaRefused s n).arbiter = s.arbiter := by unfold quotaRefused; split <;> simp
@[simp] theorem quotaRefused_timebase (s : State) (n : SeatNo) : (quotaRefused s n).timebase = s.timebase := by unfold quotaRefused; split <;> simp
@[simp] theorem quotaRefused_journal (s : State) (n : SeatNo) : (quotaRefused s n).journal = s.journal := by unfold quotaRefused; split <;> simp
@[simp] theorem quotaRefused_display (s : State) (n : SeatNo) : (quotaRefused s n).display = s.display := by unfold quotaRefused; split <;> simp
@[simp] theorem quotaRefused_displayPending (s : State) (n : SeatNo) : (quotaRefused s n).displayPending = s.displayPending := by unfold quotaRefused; split <;> simp
@[simp] theorem quotaRefused_snapshot (s : State) (n : SeatNo) : (quotaRefused s n).snapshot = s.snapshot := by unfold quotaRefused; split <;> simp
@[simp] theorem quotaRefused_watches (s : State) (n : SeatNo) : (quotaRefused s n).watches = s.watches := by unfold quotaRefused; split <;> simp
@[simp] theorem quotaRefused_faults (s : State) (n : SeatNo) : (quotaRefused s n).faults = s.faults := by unfold quotaRefused; split <;> simp
@[simp] theorem quotaRefused_counters (s : State) (n : SeatNo) : (quotaRefused s n).counters = s.counters := by unfold quotaRefused; split <;> simp
@[simp] theorem quotaRefused_boardQueue (s : State) (n : SeatNo) : (quotaRefused s n).boardQueue = s.boardQueue := by unfold quotaRefused; split <;> simp
@[simp] theorem quotaRefused_tabletQueue (s : State) (n : SeatNo) : (quotaRefused s n).tabletQueue = s.tabletQueue := by unfold quotaRefused; split <;> simp
@[simp] theorem quotaRefused_consoleQueue (s : State) (n : SeatNo) : (quotaRefused s n).consoleQueue = s.consoleQueue := by unfold quotaRefused; split <;> simp
@[simp] theorem quotaRefused_answers (s : State) (n : SeatNo) : (quotaRefused s n).answers = s.answers := by unfold quotaRefused; split <;> simp
@[simp] theorem quotaRefused_shifted (s : State) (n : SeatNo) : (quotaRefused s n).shifted = s.shifted := by unfold quotaRefused; split <;> simp
@[simp] theorem quotaRefused_consoleOut (s : State) (n : SeatNo) : (quotaRefused s n).consoleOut = s.consoleOut := by unfold quotaRefused; split <;> simp
@[simp] theorem quotaRefused_displayOut (s : State) (n : SeatNo) : (quotaRefused s n).displayOut = s.displayOut := by unfold quotaRefused; split <;> simp
@[simp] theorem quotaRefused_commandGrant (s : State) (n : SeatNo) : (quotaRefused s n).commandGrant = s.commandGrant := by unfold quotaRefused; split <;> simp
@[simp] theorem quotaRefused_burstGrant (s : State) (n : SeatNo) : (quotaRefused s n).burstGrant = s.burstGrant := by unfold quotaRefused; split <;> simp
@[simp] theorem quotaRefused_pending (s : State) (n : SeatNo) : (quotaRefused s n).pending = s.pending := by unfold quotaRefused; split <;> simp

/-! ### poolRefused -/

@[simp] theorem poolRefused_store (s : State) (o : Origins) (n : SeatNo) : (poolRefused s o n).store = s.store := by unfold poolRefused; split <;> [split; skip] <;> simp
@[simp] theorem poolRefused_cls (s : State) (o : Origins) (n : SeatNo) : (poolRefused s o n).cls = s.cls := by unfold poolRefused; split <;> [split; skip] <;> simp
@[simp] theorem poolRefused_hands (s : State) (o : Origins) (n : SeatNo) : (poolRefused s o n).hands = s.hands := by unfold poolRefused; split <;> [split; skip] <;> simp
@[simp] theorem poolRefused_noticeQueue (s : State) (o : Origins) (n : SeatNo) : (poolRefused s o n).noticeQueue = s.noticeQueue := by unfold poolRefused; split <;> [split; skip] <;> simp
@[simp] theorem poolRefused_eraseQueue (s : State) (o : Origins) (n : SeatNo) : (poolRefused s o n).eraseQueue = s.eraseQueue := by unfold poolRefused; split <;> [split; skip] <;> simp
@[simp] theorem poolRefused_maint (s : State) (o : Origins) (n : SeatNo) : (poolRefused s o n).maint = s.maint := by unfold poolRefused; split <;> [split; skip] <;> simp
@[simp] theorem poolRefused_arbiter (s : State) (o : Origins) (n : SeatNo) : (poolRefused s o n).arbiter = s.arbiter := by unfold poolRefused; split <;> [split; skip] <;> simp
@[simp] theorem poolRefused_timebase (s : State) (o : Origins) (n : SeatNo) : (poolRefused s o n).timebase = s.timebase := by unfold poolRefused; split <;> [split; skip] <;> simp
@[simp] theorem poolRefused_journal (s : State) (o : Origins) (n : SeatNo) : (poolRefused s o n).journal = s.journal := by unfold poolRefused; split <;> [split; skip] <;> simp
@[simp] theorem poolRefused_display (s : State) (o : Origins) (n : SeatNo) : (poolRefused s o n).display = s.display := by unfold poolRefused; split <;> [split; skip] <;> simp
@[simp] theorem poolRefused_displayPending (s : State) (o : Origins) (n : SeatNo) : (poolRefused s o n).displayPending = s.displayPending := by unfold poolRefused; split <;> [split; skip] <;> simp
@[simp] theorem poolRefused_snapshot (s : State) (o : Origins) (n : SeatNo) : (poolRefused s o n).snapshot = s.snapshot := by unfold poolRefused; split <;> [split; skip] <;> simp
@[simp] theorem poolRefused_watches (s : State) (o : Origins) (n : SeatNo) : (poolRefused s o n).watches = s.watches := by unfold poolRefused; split <;> [split; skip] <;> simp
@[simp] theorem poolRefused_counters (s : State) (o : Origins) (n : SeatNo) : (poolRefused s o n).counters = s.counters := by unfold poolRefused; split <;> [split; skip] <;> simp
@[simp] theorem poolRefused_boardQueue (s : State) (o : Origins) (n : SeatNo) : (poolRefused s o n).boardQueue = s.boardQueue := by unfold poolRefused; split <;> [split; skip] <;> simp
@[simp] theorem poolRefused_tabletQueue (s : State) (o : Origins) (n : SeatNo) : (poolRefused s o n).tabletQueue = s.tabletQueue := by unfold poolRefused; split <;> [split; skip] <;> simp
@[simp] theorem poolRefused_consoleQueue (s : State) (o : Origins) (n : SeatNo) : (poolRefused s o n).consoleQueue = s.consoleQueue := by unfold poolRefused; split <;> [split; skip] <;> simp
@[simp] theorem poolRefused_answers (s : State) (o : Origins) (n : SeatNo) : (poolRefused s o n).answers = s.answers := by unfold poolRefused; split <;> [split; skip] <;> simp
@[simp] theorem poolRefused_shifted (s : State) (o : Origins) (n : SeatNo) : (poolRefused s o n).shifted = s.shifted := by unfold poolRefused; split <;> [split; skip] <;> simp
@[simp] theorem poolRefused_consoleOut (s : State) (o : Origins) (n : SeatNo) : (poolRefused s o n).consoleOut = s.consoleOut := by unfold poolRefused; split <;> [split; skip] <;> simp
@[simp] theorem poolRefused_displayOut (s : State) (o : Origins) (n : SeatNo) : (poolRefused s o n).displayOut = s.displayOut := by unfold poolRefused; split <;> [split; skip] <;> simp
@[simp] theorem poolRefused_commandGrant (s : State) (o : Origins) (n : SeatNo) : (poolRefused s o n).commandGrant = s.commandGrant := by unfold poolRefused; split <;> [split; skip] <;> simp
@[simp] theorem poolRefused_noticeBasis (s : State) (o : Origins) (n : SeatNo) : (poolRefused s o n).noticeBasis = s.noticeBasis := by unfold poolRefused; split <;> [split; skip] <;> simp
@[simp] theorem poolRefused_burstGrant (s : State) (o : Origins) (n : SeatNo) : (poolRefused s o n).burstGrant = s.burstGrant := by unfold poolRefused; split <;> [split; skip] <;> simp
@[simp] theorem poolRefused_pending (s : State) (o : Origins) (n : SeatNo) : (poolRefused s o n).pending = s.pending := by unfold poolRefused; split <;> [split; skip] <;> simp

/-! ### tableRefused -/

@[simp] theorem tableRefused_store (s : State) (o : Origins) (n : SeatNo) : (tableRefused s o n).store = s.store := rfl
@[simp] theorem tableRefused_seats (s : State) (o : Origins) (n : SeatNo) : (tableRefused s o n).seats = s.seats := rfl
@[simp] theorem tableRefused_cls (s : State) (o : Origins) (n : SeatNo) : (tableRefused s o n).cls = s.cls := rfl
@[simp] theorem tableRefused_hands (s : State) (o : Origins) (n : SeatNo) : (tableRefused s o n).hands = s.hands := rfl
@[simp] theorem tableRefused_noticeQueue (s : State) (o : Origins) (n : SeatNo) : (tableRefused s o n).noticeQueue = s.noticeQueue := rfl
@[simp] theorem tableRefused_eraseQueue (s : State) (o : Origins) (n : SeatNo) : (tableRefused s o n).eraseQueue = s.eraseQueue := rfl
@[simp] theorem tableRefused_arbiter (s : State) (o : Origins) (n : SeatNo) : (tableRefused s o n).arbiter = s.arbiter := rfl
@[simp] theorem tableRefused_timebase (s : State) (o : Origins) (n : SeatNo) : (tableRefused s o n).timebase = s.timebase := rfl
@[simp] theorem tableRefused_journal (s : State) (o : Origins) (n : SeatNo) : (tableRefused s o n).journal = s.journal := rfl
@[simp] theorem tableRefused_display (s : State) (o : Origins) (n : SeatNo) : (tableRefused s o n).display = s.display := rfl
@[simp] theorem tableRefused_displayPending (s : State) (o : Origins) (n : SeatNo) : (tableRefused s o n).displayPending = s.displayPending := rfl
@[simp] theorem tableRefused_snapshot (s : State) (o : Origins) (n : SeatNo) : (tableRefused s o n).snapshot = s.snapshot := rfl
@[simp] theorem tableRefused_watches (s : State) (o : Origins) (n : SeatNo) : (tableRefused s o n).watches = s.watches := rfl
@[simp] theorem tableRefused_counters (s : State) (o : Origins) (n : SeatNo) : (tableRefused s o n).counters = s.counters := rfl
@[simp] theorem tableRefused_boardQueue (s : State) (o : Origins) (n : SeatNo) : (tableRefused s o n).boardQueue = s.boardQueue := rfl
@[simp] theorem tableRefused_tabletQueue (s : State) (o : Origins) (n : SeatNo) : (tableRefused s o n).tabletQueue = s.tabletQueue := rfl
@[simp] theorem tableRefused_consoleQueue (s : State) (o : Origins) (n : SeatNo) : (tableRefused s o n).consoleQueue = s.consoleQueue := rfl
@[simp] theorem tableRefused_answers (s : State) (o : Origins) (n : SeatNo) : (tableRefused s o n).answers = s.answers := rfl
@[simp] theorem tableRefused_shifted (s : State) (o : Origins) (n : SeatNo) : (tableRefused s o n).shifted = s.shifted := rfl
@[simp] theorem tableRefused_consoleOut (s : State) (o : Origins) (n : SeatNo) : (tableRefused s o n).consoleOut = s.consoleOut := rfl
@[simp] theorem tableRefused_displayOut (s : State) (o : Origins) (n : SeatNo) : (tableRefused s o n).displayOut = s.displayOut := rfl
@[simp] theorem tableRefused_commandGrant (s : State) (o : Origins) (n : SeatNo) : (tableRefused s o n).commandGrant = s.commandGrant := rfl
@[simp] theorem tableRefused_noticeBasis (s : State) (o : Origins) (n : SeatNo) : (tableRefused s o n).noticeBasis = s.noticeBasis := rfl
@[simp] theorem tableRefused_burstGrant (s : State) (o : Origins) (n : SeatNo) : (tableRefused s o n).burstGrant = s.burstGrant := rfl
@[simp] theorem tableRefused_pending (s : State) (o : Origins) (n : SeatNo) : (tableRefused s o n).pending = s.pending := rfl

/-! ### joinDue -/

@[simp] theorem joinDue_store (s : State) (n : SeatNo) : (joinDue s n).store = s.store := by unfold joinDue; split <;> rfl
@[simp] theorem joinDue_seats (s : State) (n : SeatNo) : (joinDue s n).seats = s.seats := by unfold joinDue; split <;> rfl
@[simp] theorem joinDue_cls (s : State) (n : SeatNo) : (joinDue s n).cls = s.cls := by unfold joinDue; split <;> rfl
@[simp] theorem joinDue_hands (s : State) (n : SeatNo) : (joinDue s n).hands = s.hands := by unfold joinDue; split <;> rfl
@[simp] theorem joinDue_noticeQueue (s : State) (n : SeatNo) : (joinDue s n).noticeQueue = s.noticeQueue := by unfold joinDue; split <;> rfl
@[simp] theorem joinDue_eraseQueue (s : State) (n : SeatNo) : (joinDue s n).eraseQueue = s.eraseQueue := by unfold joinDue; split <;> rfl
@[simp] theorem joinDue_arbiter (s : State) (n : SeatNo) : (joinDue s n).arbiter = s.arbiter := by unfold joinDue; split <;> rfl
@[simp] theorem joinDue_timebase (s : State) (n : SeatNo) : (joinDue s n).timebase = s.timebase := by unfold joinDue; split <;> rfl
@[simp] theorem joinDue_journal (s : State) (n : SeatNo) : (joinDue s n).journal = s.journal := by unfold joinDue; split <;> rfl
@[simp] theorem joinDue_display (s : State) (n : SeatNo) : (joinDue s n).display = s.display := by unfold joinDue; split <;> rfl
@[simp] theorem joinDue_displayPending (s : State) (n : SeatNo) : (joinDue s n).displayPending = s.displayPending := by unfold joinDue; split <;> rfl
@[simp] theorem joinDue_snapshot (s : State) (n : SeatNo) : (joinDue s n).snapshot = s.snapshot := by unfold joinDue; split <;> rfl
@[simp] theorem joinDue_watches (s : State) (n : SeatNo) : (joinDue s n).watches = s.watches := by unfold joinDue; split <;> rfl
@[simp] theorem joinDue_faults (s : State) (n : SeatNo) : (joinDue s n).faults = s.faults := by unfold joinDue; split <;> rfl
@[simp] theorem joinDue_counters (s : State) (n : SeatNo) : (joinDue s n).counters = s.counters := by unfold joinDue; split <;> rfl
@[simp] theorem joinDue_attention (s : State) (n : SeatNo) : (joinDue s n).attention = s.attention := by unfold joinDue; split <;> rfl
@[simp] theorem joinDue_boardQueue (s : State) (n : SeatNo) : (joinDue s n).boardQueue = s.boardQueue := by unfold joinDue; split <;> rfl
@[simp] theorem joinDue_tabletQueue (s : State) (n : SeatNo) : (joinDue s n).tabletQueue = s.tabletQueue := by unfold joinDue; split <;> rfl
@[simp] theorem joinDue_consoleQueue (s : State) (n : SeatNo) : (joinDue s n).consoleQueue = s.consoleQueue := by unfold joinDue; split <;> rfl
@[simp] theorem joinDue_answers (s : State) (n : SeatNo) : (joinDue s n).answers = s.answers := by unfold joinDue; split <;> rfl
@[simp] theorem joinDue_shifted (s : State) (n : SeatNo) : (joinDue s n).shifted = s.shifted := by unfold joinDue; split <;> rfl
@[simp] theorem joinDue_consoleOut (s : State) (n : SeatNo) : (joinDue s n).consoleOut = s.consoleOut := by unfold joinDue; split <;> rfl
@[simp] theorem joinDue_displayOut (s : State) (n : SeatNo) : (joinDue s n).displayOut = s.displayOut := by unfold joinDue; split <;> rfl
@[simp] theorem joinDue_commandGrant (s : State) (n : SeatNo) : (joinDue s n).commandGrant = s.commandGrant := by unfold joinDue; split <;> rfl
@[simp] theorem joinDue_noticeBasis (s : State) (n : SeatNo) : (joinDue s n).noticeBasis = s.noticeBasis := by unfold joinDue; split <;> rfl
@[simp] theorem joinDue_burstGrant (s : State) (n : SeatNo) : (joinDue s n).burstGrant = s.burstGrant := by unfold joinDue; split <;> rfl
@[simp] theorem joinDue_pending (s : State) (n : SeatNo) : (joinDue s n).pending = s.pending := by unfold joinDue; split <;> rfl

/-! ### setDeadline -/

@[simp] theorem setDeadline_store (s : State) (n : SeatNo) (x : Time) : (setDeadline s n x).store = s.store := by unfold setDeadline; dsimp only; split <;> simp
@[simp] theorem setDeadline_cls (s : State) (n : SeatNo) (x : Time) : (setDeadline s n x).cls = s.cls := by unfold setDeadline; dsimp only; split <;> simp
@[simp] theorem setDeadline_hands (s : State) (n : SeatNo) (x : Time) : (setDeadline s n x).hands = s.hands := by unfold setDeadline; dsimp only; split <;> simp
@[simp] theorem setDeadline_noticeQueue (s : State) (n : SeatNo) (x : Time) : (setDeadline s n x).noticeQueue = s.noticeQueue := by unfold setDeadline; dsimp only; split <;> simp
@[simp] theorem setDeadline_eraseQueue (s : State) (n : SeatNo) (x : Time) : (setDeadline s n x).eraseQueue = s.eraseQueue := by unfold setDeadline; dsimp only; split <;> simp
@[simp] theorem setDeadline_arbiter (s : State) (n : SeatNo) (x : Time) : (setDeadline s n x).arbiter = s.arbiter := by unfold setDeadline; dsimp only; split <;> simp
@[simp] theorem setDeadline_timebase (s : State) (n : SeatNo) (x : Time) : (setDeadline s n x).timebase = s.timebase := by unfold setDeadline; dsimp only; split <;> simp
@[simp] theorem setDeadline_journal (s : State) (n : SeatNo) (x : Time) : (setDeadline s n x).journal = s.journal := by unfold setDeadline; dsimp only; split <;> simp
@[simp] theorem setDeadline_display (s : State) (n : SeatNo) (x : Time) : (setDeadline s n x).display = s.display := by unfold setDeadline; dsimp only; split <;> simp
@[simp] theorem setDeadline_displayPending (s : State) (n : SeatNo) (x : Time) : (setDeadline s n x).displayPending = s.displayPending := by unfold setDeadline; dsimp only; split <;> simp
@[simp] theorem setDeadline_snapshot (s : State) (n : SeatNo) (x : Time) : (setDeadline s n x).snapshot = s.snapshot := by unfold setDeadline; dsimp only; split <;> simp
@[simp] theorem setDeadline_watches (s : State) (n : SeatNo) (x : Time) : (setDeadline s n x).watches = s.watches := by unfold setDeadline; dsimp only; split <;> simp
@[simp] theorem setDeadline_faults (s : State) (n : SeatNo) (x : Time) : (setDeadline s n x).faults = s.faults := by unfold setDeadline; dsimp only; split <;> simp
@[simp] theorem setDeadline_counters (s : State) (n : SeatNo) (x : Time) : (setDeadline s n x).counters = s.counters := by unfold setDeadline; dsimp only; split <;> simp
@[simp] theorem setDeadline_attention (s : State) (n : SeatNo) (x : Time) : (setDeadline s n x).attention = s.attention := by unfold setDeadline; dsimp only; split <;> simp
@[simp] theorem setDeadline_boardQueue (s : State) (n : SeatNo) (x : Time) : (setDeadline s n x).boardQueue = s.boardQueue := by unfold setDeadline; dsimp only; split <;> simp
@[simp] theorem setDeadline_tabletQueue (s : State) (n : SeatNo) (x : Time) : (setDeadline s n x).tabletQueue = s.tabletQueue := by unfold setDeadline; dsimp only; split <;> simp
@[simp] theorem setDeadline_consoleQueue (s : State) (n : SeatNo) (x : Time) : (setDeadline s n x).consoleQueue = s.consoleQueue := by unfold setDeadline; dsimp only; split <;> simp
@[simp] theorem setDeadline_answers (s : State) (n : SeatNo) (x : Time) : (setDeadline s n x).answers = s.answers := by unfold setDeadline; dsimp only; split <;> simp
@[simp] theorem setDeadline_shifted (s : State) (n : SeatNo) (x : Time) : (setDeadline s n x).shifted = s.shifted := by unfold setDeadline; dsimp only; split <;> simp
@[simp] theorem setDeadline_consoleOut (s : State) (n : SeatNo) (x : Time) : (setDeadline s n x).consoleOut = s.consoleOut := by unfold setDeadline; dsimp only; split <;> simp
@[simp] theorem setDeadline_displayOut (s : State) (n : SeatNo) (x : Time) : (setDeadline s n x).displayOut = s.displayOut := by unfold setDeadline; dsimp only; split <;> simp
@[simp] theorem setDeadline_commandGrant (s : State) (n : SeatNo) (x : Time) : (setDeadline s n x).commandGrant = s.commandGrant := by unfold setDeadline; dsimp only; split <;> simp
@[simp] theorem setDeadline_noticeBasis (s : State) (n : SeatNo) (x : Time) : (setDeadline s n x).noticeBasis = s.noticeBasis := by unfold setDeadline; dsimp only; split <;> simp
@[simp] theorem setDeadline_burstGrant (s : State) (n : SeatNo) (x : Time) : (setDeadline s n x).burstGrant = s.burstGrant := by unfold setDeadline; dsimp only; split <;> simp
@[simp] theorem setDeadline_pending (s : State) (n : SeatNo) (x : Time) : (setDeadline s n x).pending = s.pending := by unfold setDeadline; dsimp only; split <;> simp

/-! ### endDisplay -/

@[simp] theorem endDisplay_store (s : State) (e : EndStatus) (r : Reason) : (endDisplay s e r).store = s.store := rfl
@[simp] theorem endDisplay_seats (s : State) (e : EndStatus) (r : Reason) : (endDisplay s e r).seats = s.seats := rfl
@[simp] theorem endDisplay_cls (s : State) (e : EndStatus) (r : Reason) : (endDisplay s e r).cls = s.cls := rfl
@[simp] theorem endDisplay_hands (s : State) (e : EndStatus) (r : Reason) : (endDisplay s e r).hands = s.hands := rfl
@[simp] theorem endDisplay_noticeQueue (s : State) (e : EndStatus) (r : Reason) : (endDisplay s e r).noticeQueue = s.noticeQueue := rfl
@[simp] theorem endDisplay_eraseQueue (s : State) (e : EndStatus) (r : Reason) : (endDisplay s e r).eraseQueue = s.eraseQueue := rfl
@[simp] theorem endDisplay_maint (s : State) (e : EndStatus) (r : Reason) : (endDisplay s e r).maint = s.maint := rfl
@[simp] theorem endDisplay_timebase (s : State) (e : EndStatus) (r : Reason) : (endDisplay s e r).timebase = s.timebase := rfl
@[simp] theorem endDisplay_journal (s : State) (e : EndStatus) (r : Reason) : (endDisplay s e r).journal = s.journal := rfl
@[simp] theorem endDisplay_displayPending (s : State) (e : EndStatus) (r : Reason) : (endDisplay s e r).displayPending = s.displayPending := rfl
@[simp] theorem endDisplay_snapshot (s : State) (e : EndStatus) (r : Reason) : (endDisplay s e r).snapshot = s.snapshot := rfl
@[simp] theorem endDisplay_watches (s : State) (e : EndStatus) (r : Reason) : (endDisplay s e r).watches = s.watches := rfl
@[simp] theorem endDisplay_faults (s : State) (e : EndStatus) (r : Reason) : (endDisplay s e r).faults = s.faults := rfl
@[simp] theorem endDisplay_counters (s : State) (e : EndStatus) (r : Reason) : (endDisplay s e r).counters = s.counters := rfl
@[simp] theorem endDisplay_attention (s : State) (e : EndStatus) (r : Reason) : (endDisplay s e r).attention = s.attention := rfl
@[simp] theorem endDisplay_boardQueue (s : State) (e : EndStatus) (r : Reason) : (endDisplay s e r).boardQueue = s.boardQueue := rfl
@[simp] theorem endDisplay_tabletQueue (s : State) (e : EndStatus) (r : Reason) : (endDisplay s e r).tabletQueue = s.tabletQueue := rfl
@[simp] theorem endDisplay_consoleQueue (s : State) (e : EndStatus) (r : Reason) : (endDisplay s e r).consoleQueue = s.consoleQueue := rfl
@[simp] theorem endDisplay_answers (s : State) (e : EndStatus) (r : Reason) : (endDisplay s e r).answers = s.answers := rfl
@[simp] theorem endDisplay_shifted (s : State) (e : EndStatus) (r : Reason) : (endDisplay s e r).shifted = s.shifted := rfl
@[simp] theorem endDisplay_consoleOut (s : State) (e : EndStatus) (r : Reason) : (endDisplay s e r).consoleOut = s.consoleOut := rfl
@[simp] theorem endDisplay_commandGrant (s : State) (e : EndStatus) (r : Reason) : (endDisplay s e r).commandGrant = s.commandGrant := rfl
@[simp] theorem endDisplay_noticeBasis (s : State) (e : EndStatus) (r : Reason) : (endDisplay s e r).noticeBasis = s.noticeBasis := rfl
@[simp] theorem endDisplay_burstGrant (s : State) (e : EndStatus) (r : Reason) : (endDisplay s e r).burstGrant = s.burstGrant := rfl
@[simp] theorem endDisplay_pending (s : State) (e : EndStatus) (r : Reason) : (endDisplay s e r).pending = s.pending := rfl

/-! ### endSnapshot -/

@[simp] theorem endSnapshot_store (s : State) (e : EndStatus) : (endSnapshot s e).store = s.store := rfl
@[simp] theorem endSnapshot_seats (s : State) (e : EndStatus) : (endSnapshot s e).seats = s.seats := rfl
@[simp] theorem endSnapshot_cls (s : State) (e : EndStatus) : (endSnapshot s e).cls = s.cls := rfl
@[simp] theorem endSnapshot_hands (s : State) (e : EndStatus) : (endSnapshot s e).hands = s.hands := rfl
@[simp] theorem endSnapshot_noticeQueue (s : State) (e : EndStatus) : (endSnapshot s e).noticeQueue = s.noticeQueue := rfl
@[simp] theorem endSnapshot_eraseQueue (s : State) (e : EndStatus) : (endSnapshot s e).eraseQueue = s.eraseQueue := rfl
@[simp] theorem endSnapshot_maint (s : State) (e : EndStatus) : (endSnapshot s e).maint = s.maint := rfl
@[simp] theorem endSnapshot_timebase (s : State) (e : EndStatus) : (endSnapshot s e).timebase = s.timebase := rfl
@[simp] theorem endSnapshot_journal (s : State) (e : EndStatus) : (endSnapshot s e).journal = s.journal := rfl
@[simp] theorem endSnapshot_display (s : State) (e : EndStatus) : (endSnapshot s e).display = s.display := rfl
@[simp] theorem endSnapshot_displayPending (s : State) (e : EndStatus) : (endSnapshot s e).displayPending = s.displayPending := rfl
@[simp] theorem endSnapshot_watches (s : State) (e : EndStatus) : (endSnapshot s e).watches = s.watches := rfl
@[simp] theorem endSnapshot_faults (s : State) (e : EndStatus) : (endSnapshot s e).faults = s.faults := rfl
@[simp] theorem endSnapshot_counters (s : State) (e : EndStatus) : (endSnapshot s e).counters = s.counters := rfl
@[simp] theorem endSnapshot_boardQueue (s : State) (e : EndStatus) : (endSnapshot s e).boardQueue = s.boardQueue := rfl
@[simp] theorem endSnapshot_tabletQueue (s : State) (e : EndStatus) : (endSnapshot s e).tabletQueue = s.tabletQueue := rfl
@[simp] theorem endSnapshot_consoleQueue (s : State) (e : EndStatus) : (endSnapshot s e).consoleQueue = s.consoleQueue := rfl
@[simp] theorem endSnapshot_answers (s : State) (e : EndStatus) : (endSnapshot s e).answers = s.answers := rfl
@[simp] theorem endSnapshot_shifted (s : State) (e : EndStatus) : (endSnapshot s e).shifted = s.shifted := rfl
@[simp] theorem endSnapshot_displayOut (s : State) (e : EndStatus) : (endSnapshot s e).displayOut = s.displayOut := rfl
@[simp] theorem endSnapshot_commandGrant (s : State) (e : EndStatus) : (endSnapshot s e).commandGrant = s.commandGrant := rfl
@[simp] theorem endSnapshot_noticeBasis (s : State) (e : EndStatus) : (endSnapshot s e).noticeBasis = s.noticeBasis := rfl
@[simp] theorem endSnapshot_burstGrant (s : State) (e : EndStatus) : (endSnapshot s e).burstGrant = s.burstGrant := rfl
@[simp] theorem endSnapshot_pending (s : State) (e : EndStatus) : (endSnapshot s e).pending = s.pending := rfl

/-! ### wakeFollow -/

@[simp] theorem wakeFollow_store (s : State) (es : List ChangeEntry) : (wakeFollow s es).store = s.store := by unfold wakeFollow; split <;> [split; skip] <;> rfl
@[simp] theorem wakeFollow_seats (s : State) (es : List ChangeEntry) : (wakeFollow s es).seats = s.seats := by unfold wakeFollow; split <;> [split; skip] <;> rfl
@[simp] theorem wakeFollow_cls (s : State) (es : List ChangeEntry) : (wakeFollow s es).cls = s.cls := by unfold wakeFollow; split <;> [split; skip] <;> rfl
@[simp] theorem wakeFollow_hands (s : State) (es : List ChangeEntry) : (wakeFollow s es).hands = s.hands := by unfold wakeFollow; split <;> [split; skip] <;> rfl
@[simp] theorem wakeFollow_noticeQueue (s : State) (es : List ChangeEntry) : (wakeFollow s es).noticeQueue = s.noticeQueue := by unfold wakeFollow; split <;> [split; skip] <;> rfl
@[simp] theorem wakeFollow_eraseQueue (s : State) (es : List ChangeEntry) : (wakeFollow s es).eraseQueue = s.eraseQueue := by unfold wakeFollow; split <;> [split; skip] <;> rfl
@[simp] theorem wakeFollow_maint (s : State) (es : List ChangeEntry) : (wakeFollow s es).maint = s.maint := by unfold wakeFollow; split <;> [split; skip] <;> rfl
@[simp] theorem wakeFollow_arbiter (s : State) (es : List ChangeEntry) : (wakeFollow s es).arbiter = s.arbiter := by unfold wakeFollow; split <;> [split; skip] <;> rfl
@[simp] theorem wakeFollow_timebase (s : State) (es : List ChangeEntry) : (wakeFollow s es).timebase = s.timebase := by unfold wakeFollow; split <;> [split; skip] <;> rfl
@[simp] theorem wakeFollow_journal (s : State) (es : List ChangeEntry) : (wakeFollow s es).journal = s.journal := by unfold wakeFollow; split <;> [split; skip] <;> rfl
@[simp] theorem wakeFollow_displayPending (s : State) (es : List ChangeEntry) : (wakeFollow s es).displayPending = s.displayPending := by unfold wakeFollow; split <;> [split; skip] <;> rfl
@[simp] theorem wakeFollow_snapshot (s : State) (es : List ChangeEntry) : (wakeFollow s es).snapshot = s.snapshot := by unfold wakeFollow; split <;> [split; skip] <;> rfl
@[simp] theorem wakeFollow_watches (s : State) (es : List ChangeEntry) : (wakeFollow s es).watches = s.watches := by unfold wakeFollow; split <;> [split; skip] <;> rfl
@[simp] theorem wakeFollow_faults (s : State) (es : List ChangeEntry) : (wakeFollow s es).faults = s.faults := by unfold wakeFollow; split <;> [split; skip] <;> rfl
@[simp] theorem wakeFollow_counters (s : State) (es : List ChangeEntry) : (wakeFollow s es).counters = s.counters := by unfold wakeFollow; split <;> [split; skip] <;> rfl
@[simp] theorem wakeFollow_attention (s : State) (es : List ChangeEntry) : (wakeFollow s es).attention = s.attention := by unfold wakeFollow; split <;> [split; skip] <;> rfl
@[simp] theorem wakeFollow_boardQueue (s : State) (es : List ChangeEntry) : (wakeFollow s es).boardQueue = s.boardQueue := by unfold wakeFollow; split <;> [split; skip] <;> rfl
@[simp] theorem wakeFollow_tabletQueue (s : State) (es : List ChangeEntry) : (wakeFollow s es).tabletQueue = s.tabletQueue := by unfold wakeFollow; split <;> [split; skip] <;> rfl
@[simp] theorem wakeFollow_consoleQueue (s : State) (es : List ChangeEntry) : (wakeFollow s es).consoleQueue = s.consoleQueue := by unfold wakeFollow; split <;> [split; skip] <;> rfl
@[simp] theorem wakeFollow_answers (s : State) (es : List ChangeEntry) : (wakeFollow s es).answers = s.answers := by unfold wakeFollow; split <;> [split; skip] <;> rfl
@[simp] theorem wakeFollow_shifted (s : State) (es : List ChangeEntry) : (wakeFollow s es).shifted = s.shifted := by unfold wakeFollow; split <;> [split; skip] <;> rfl
@[simp] theorem wakeFollow_consoleOut (s : State) (es : List ChangeEntry) : (wakeFollow s es).consoleOut = s.consoleOut := by unfold wakeFollow; split <;> [split; skip] <;> rfl
@[simp] theorem wakeFollow_displayOut (s : State) (es : List ChangeEntry) : (wakeFollow s es).displayOut = s.displayOut := by unfold wakeFollow; split <;> [split; skip] <;> rfl
@[simp] theorem wakeFollow_commandGrant (s : State) (es : List ChangeEntry) : (wakeFollow s es).commandGrant = s.commandGrant := by unfold wakeFollow; split <;> [split; skip] <;> rfl
@[simp] theorem wakeFollow_noticeBasis (s : State) (es : List ChangeEntry) : (wakeFollow s es).noticeBasis = s.noticeBasis := by unfold wakeFollow; split <;> [split; skip] <;> rfl
@[simp] theorem wakeFollow_burstGrant (s : State) (es : List ChangeEntry) : (wakeFollow s es).burstGrant = s.burstGrant := by unfold wakeFollow; split <;> [split; skip] <;> rfl
@[simp] theorem wakeFollow_pending (s : State) (es : List ChangeEntry) : (wakeFollow s es).pending = s.pending := by unfold wakeFollow; split <;> [split; skip] <;> rfl

/-! ### lapFollow -/

@[simp] theorem lapFollow_store (s : State) : (lapFollow s).store = s.store := by unfold lapFollow; split <;> simp
@[simp] theorem lapFollow_seats (s : State) : (lapFollow s).seats = s.seats := by unfold lapFollow; split <;> simp
@[simp] theorem lapFollow_cls (s : State) : (lapFollow s).cls = s.cls := by unfold lapFollow; split <;> simp
@[simp] theorem lapFollow_hands (s : State) : (lapFollow s).hands = s.hands := by unfold lapFollow; split <;> simp
@[simp] theorem lapFollow_noticeQueue (s : State) : (lapFollow s).noticeQueue = s.noticeQueue := by unfold lapFollow; split <;> simp
@[simp] theorem lapFollow_eraseQueue (s : State) : (lapFollow s).eraseQueue = s.eraseQueue := by unfold lapFollow; split <;> simp
@[simp] theorem lapFollow_maint (s : State) : (lapFollow s).maint = s.maint := by unfold lapFollow; split <;> simp
@[simp] theorem lapFollow_timebase (s : State) : (lapFollow s).timebase = s.timebase := by unfold lapFollow; split <;> simp
@[simp] theorem lapFollow_journal (s : State) : (lapFollow s).journal = s.journal := by unfold lapFollow; split <;> simp
@[simp] theorem lapFollow_displayPending (s : State) : (lapFollow s).displayPending = s.displayPending := by unfold lapFollow; split <;> simp
@[simp] theorem lapFollow_snapshot (s : State) : (lapFollow s).snapshot = s.snapshot := by unfold lapFollow; split <;> simp
@[simp] theorem lapFollow_watches (s : State) : (lapFollow s).watches = s.watches := by unfold lapFollow; split <;> simp
@[simp] theorem lapFollow_faults (s : State) : (lapFollow s).faults = s.faults := by unfold lapFollow; split <;> simp
@[simp] theorem lapFollow_counters (s : State) : (lapFollow s).counters = s.counters := by unfold lapFollow; split <;> simp
@[simp] theorem lapFollow_attention (s : State) : (lapFollow s).attention = s.attention := by unfold lapFollow; split <;> simp
@[simp] theorem lapFollow_boardQueue (s : State) : (lapFollow s).boardQueue = s.boardQueue := by unfold lapFollow; split <;> simp
@[simp] theorem lapFollow_tabletQueue (s : State) : (lapFollow s).tabletQueue = s.tabletQueue := by unfold lapFollow; split <;> simp
@[simp] theorem lapFollow_consoleQueue (s : State) : (lapFollow s).consoleQueue = s.consoleQueue := by unfold lapFollow; split <;> simp
@[simp] theorem lapFollow_answers (s : State) : (lapFollow s).answers = s.answers := by unfold lapFollow; split <;> simp
@[simp] theorem lapFollow_shifted (s : State) : (lapFollow s).shifted = s.shifted := by unfold lapFollow; split <;> simp
@[simp] theorem lapFollow_consoleOut (s : State) : (lapFollow s).consoleOut = s.consoleOut := by unfold lapFollow; split <;> simp
@[simp] theorem lapFollow_commandGrant (s : State) : (lapFollow s).commandGrant = s.commandGrant := by unfold lapFollow; split <;> simp
@[simp] theorem lapFollow_noticeBasis (s : State) : (lapFollow s).noticeBasis = s.noticeBasis := by unfold lapFollow; split <;> simp
@[simp] theorem lapFollow_burstGrant (s : State) : (lapFollow s).burstGrant = s.burstGrant := by unfold lapFollow; split <;> simp
@[simp] theorem lapFollow_pending (s : State) : (lapFollow s).pending = s.pending := by unfold lapFollow; split <;> simp

/-! ### joinReached -/

@[simp] theorem joinReached_store (s : State) : (joinReached s).store = s.store := by unfold joinReached; split <;> rfl
@[simp] theorem joinReached_seats (s : State) : (joinReached s).seats = s.seats := by unfold joinReached; split <;> rfl
@[simp] theorem joinReached_cls (s : State) : (joinReached s).cls = s.cls := by unfold joinReached; split <;> rfl
@[simp] theorem joinReached_hands (s : State) : (joinReached s).hands = s.hands := by unfold joinReached; split <;> rfl
@[simp] theorem joinReached_noticeQueue (s : State) : (joinReached s).noticeQueue = s.noticeQueue := by unfold joinReached; split <;> rfl
@[simp] theorem joinReached_eraseQueue (s : State) : (joinReached s).eraseQueue = s.eraseQueue := by unfold joinReached; split <;> rfl
@[simp] theorem joinReached_arbiter (s : State) : (joinReached s).arbiter = s.arbiter := by unfold joinReached; split <;> rfl
@[simp] theorem joinReached_timebase (s : State) : (joinReached s).timebase = s.timebase := by unfold joinReached; split <;> rfl
@[simp] theorem joinReached_journal (s : State) : (joinReached s).journal = s.journal := by unfold joinReached; split <;> rfl
@[simp] theorem joinReached_display (s : State) : (joinReached s).display = s.display := by unfold joinReached; split <;> rfl
@[simp] theorem joinReached_displayPending (s : State) : (joinReached s).displayPending = s.displayPending := by unfold joinReached; split <;> rfl
@[simp] theorem joinReached_snapshot (s : State) : (joinReached s).snapshot = s.snapshot := by unfold joinReached; split <;> rfl
@[simp] theorem joinReached_watches (s : State) : (joinReached s).watches = s.watches := by unfold joinReached; split <;> rfl
@[simp] theorem joinReached_faults (s : State) : (joinReached s).faults = s.faults := by unfold joinReached; split <;> rfl
@[simp] theorem joinReached_counters (s : State) : (joinReached s).counters = s.counters := by unfold joinReached; split <;> rfl
@[simp] theorem joinReached_attention (s : State) : (joinReached s).attention = s.attention := by unfold joinReached; split <;> rfl
@[simp] theorem joinReached_boardQueue (s : State) : (joinReached s).boardQueue = s.boardQueue := by unfold joinReached; split <;> rfl
@[simp] theorem joinReached_tabletQueue (s : State) : (joinReached s).tabletQueue = s.tabletQueue := by unfold joinReached; split <;> rfl
@[simp] theorem joinReached_consoleQueue (s : State) : (joinReached s).consoleQueue = s.consoleQueue := by unfold joinReached; split <;> rfl
@[simp] theorem joinReached_answers (s : State) : (joinReached s).answers = s.answers := by unfold joinReached; split <;> rfl
@[simp] theorem joinReached_shifted (s : State) : (joinReached s).shifted = s.shifted := by unfold joinReached; split <;> rfl
@[simp] theorem joinReached_consoleOut (s : State) : (joinReached s).consoleOut = s.consoleOut := by unfold joinReached; split <;> rfl
@[simp] theorem joinReached_displayOut (s : State) : (joinReached s).displayOut = s.displayOut := by unfold joinReached; split <;> rfl
@[simp] theorem joinReached_commandGrant (s : State) : (joinReached s).commandGrant = s.commandGrant := by unfold joinReached; split <;> rfl
@[simp] theorem joinReached_noticeBasis (s : State) : (joinReached s).noticeBasis = s.noticeBasis := by unfold joinReached; split <;> rfl
@[simp] theorem joinReached_burstGrant (s : State) : (joinReached s).burstGrant = s.burstGrant := by unfold joinReached; split <;> rfl
@[simp] theorem joinReached_pending (s : State) : (joinReached s).pending = s.pending := by unfold joinReached; split <;> rfl

/-! ### followTimer -/

@[simp] theorem followTimer_store (s : State) : (followTimer s).store = s.store := by unfold followTimer; split <;> [split; skip] <;> simp
@[simp] theorem followTimer_seats (s : State) : (followTimer s).seats = s.seats := by unfold followTimer; split <;> [split; skip] <;> simp
@[simp] theorem followTimer_cls (s : State) : (followTimer s).cls = s.cls := by unfold followTimer; split <;> [split; skip] <;> simp
@[simp] theorem followTimer_hands (s : State) : (followTimer s).hands = s.hands := by unfold followTimer; split <;> [split; skip] <;> simp
@[simp] theorem followTimer_noticeQueue (s : State) : (followTimer s).noticeQueue = s.noticeQueue := by unfold followTimer; split <;> [split; skip] <;> simp
@[simp] theorem followTimer_eraseQueue (s : State) : (followTimer s).eraseQueue = s.eraseQueue := by unfold followTimer; split <;> [split; skip] <;> simp
@[simp] theorem followTimer_maint (s : State) : (followTimer s).maint = s.maint := by unfold followTimer; split <;> [split; skip] <;> simp
@[simp] theorem followTimer_timebase (s : State) : (followTimer s).timebase = s.timebase := by unfold followTimer; split <;> [split; skip] <;> simp
@[simp] theorem followTimer_journal (s : State) : (followTimer s).journal = s.journal := by unfold followTimer; split <;> [split; skip] <;> simp
@[simp] theorem followTimer_displayPending (s : State) : (followTimer s).displayPending = s.displayPending := by unfold followTimer; split <;> [split; skip] <;> simp
@[simp] theorem followTimer_snapshot (s : State) : (followTimer s).snapshot = s.snapshot := by unfold followTimer; split <;> [split; skip] <;> simp
@[simp] theorem followTimer_watches (s : State) : (followTimer s).watches = s.watches := by unfold followTimer; split <;> [split; skip] <;> simp
@[simp] theorem followTimer_faults (s : State) : (followTimer s).faults = s.faults := by unfold followTimer; split <;> [split; skip] <;> simp
@[simp] theorem followTimer_counters (s : State) : (followTimer s).counters = s.counters := by unfold followTimer; split <;> [split; skip] <;> simp
@[simp] theorem followTimer_attention (s : State) : (followTimer s).attention = s.attention := by unfold followTimer; split <;> [split; skip] <;> simp
@[simp] theorem followTimer_boardQueue (s : State) : (followTimer s).boardQueue = s.boardQueue := by unfold followTimer; split <;> [split; skip] <;> simp
@[simp] theorem followTimer_tabletQueue (s : State) : (followTimer s).tabletQueue = s.tabletQueue := by unfold followTimer; split <;> [split; skip] <;> simp
@[simp] theorem followTimer_consoleQueue (s : State) : (followTimer s).consoleQueue = s.consoleQueue := by unfold followTimer; split <;> [split; skip] <;> simp
@[simp] theorem followTimer_answers (s : State) : (followTimer s).answers = s.answers := by unfold followTimer; split <;> [split; skip] <;> simp
@[simp] theorem followTimer_shifted (s : State) : (followTimer s).shifted = s.shifted := by unfold followTimer; split <;> [split; skip] <;> simp
@[simp] theorem followTimer_consoleOut (s : State) : (followTimer s).consoleOut = s.consoleOut := by unfold followTimer; split <;> [split; skip] <;> simp
@[simp] theorem followTimer_commandGrant (s : State) : (followTimer s).commandGrant = s.commandGrant := by unfold followTimer; split <;> [split; skip] <;> simp
@[simp] theorem followTimer_noticeBasis (s : State) : (followTimer s).noticeBasis = s.noticeBasis := by unfold followTimer; split <;> [split; skip] <;> simp
@[simp] theorem followTimer_burstGrant (s : State) : (followTimer s).burstGrant = s.burstGrant := by unfold followTimer; split <;> [split; skip] <;> simp
@[simp] theorem followTimer_pending (s : State) : (followTimer s).pending = s.pending := by unfold followTimer; split <;> [split; skip] <;> simp

/-! ### testDemands -/

@[simp] theorem testDemands_store (s : State) : (testDemands s).store = s.store := rfl
@[simp] theorem testDemands_seats (s : State) : (testDemands s).seats = s.seats := rfl
@[simp] theorem testDemands_cls (s : State) : (testDemands s).cls = s.cls := rfl
@[simp] theorem testDemands_hands (s : State) : (testDemands s).hands = s.hands := rfl
@[simp] theorem testDemands_noticeQueue (s : State) : (testDemands s).noticeQueue = s.noticeQueue := rfl
@[simp] theorem testDemands_eraseQueue (s : State) : (testDemands s).eraseQueue = s.eraseQueue := rfl
@[simp] theorem testDemands_arbiter (s : State) : (testDemands s).arbiter = s.arbiter := rfl
@[simp] theorem testDemands_timebase (s : State) : (testDemands s).timebase = s.timebase := rfl
@[simp] theorem testDemands_journal (s : State) : (testDemands s).journal = s.journal := rfl
@[simp] theorem testDemands_display (s : State) : (testDemands s).display = s.display := rfl
@[simp] theorem testDemands_displayPending (s : State) : (testDemands s).displayPending = s.displayPending := rfl
@[simp] theorem testDemands_snapshot (s : State) : (testDemands s).snapshot = s.snapshot := rfl
@[simp] theorem testDemands_watches (s : State) : (testDemands s).watches = s.watches := rfl
@[simp] theorem testDemands_faults (s : State) : (testDemands s).faults = s.faults := rfl
@[simp] theorem testDemands_counters (s : State) : (testDemands s).counters = s.counters := rfl
@[simp] theorem testDemands_attention (s : State) : (testDemands s).attention = s.attention := rfl
@[simp] theorem testDemands_boardQueue (s : State) : (testDemands s).boardQueue = s.boardQueue := rfl
@[simp] theorem testDemands_tabletQueue (s : State) : (testDemands s).tabletQueue = s.tabletQueue := rfl
@[simp] theorem testDemands_consoleQueue (s : State) : (testDemands s).consoleQueue = s.consoleQueue := rfl
@[simp] theorem testDemands_answers (s : State) : (testDemands s).answers = s.answers := rfl
@[simp] theorem testDemands_shifted (s : State) : (testDemands s).shifted = s.shifted := rfl
@[simp] theorem testDemands_consoleOut (s : State) : (testDemands s).consoleOut = s.consoleOut := rfl
@[simp] theorem testDemands_displayOut (s : State) : (testDemands s).displayOut = s.displayOut := rfl
@[simp] theorem testDemands_commandGrant (s : State) : (testDemands s).commandGrant = s.commandGrant := rfl
@[simp] theorem testDemands_noticeBasis (s : State) : (testDemands s).noticeBasis = s.noticeBasis := rfl
@[simp] theorem testDemands_burstGrant (s : State) : (testDemands s).burstGrant = s.burstGrant := rfl
@[simp] theorem testDemands_pending (s : State) : (testDemands s).pending = s.pending := rfl

/-! ### demandsAfter -/

@[simp] theorem demandsAfter_store (s : State) (b : State) : (demandsAfter b s).store = s.store := by unfold demandsAfter; split <;> simp
@[simp] theorem demandsAfter_seats (s : State) (b : State) : (demandsAfter b s).seats = s.seats := by unfold demandsAfter; split <;> simp
@[simp] theorem demandsAfter_cls (s : State) (b : State) : (demandsAfter b s).cls = s.cls := by unfold demandsAfter; split <;> simp
@[simp] theorem demandsAfter_hands (s : State) (b : State) : (demandsAfter b s).hands = s.hands := by unfold demandsAfter; split <;> simp
@[simp] theorem demandsAfter_noticeQueue (s : State) (b : State) : (demandsAfter b s).noticeQueue = s.noticeQueue := by unfold demandsAfter; split <;> simp
@[simp] theorem demandsAfter_eraseQueue (s : State) (b : State) : (demandsAfter b s).eraseQueue = s.eraseQueue := by unfold demandsAfter; split <;> simp
@[simp] theorem demandsAfter_arbiter (s : State) (b : State) : (demandsAfter b s).arbiter = s.arbiter := by unfold demandsAfter; split <;> simp
@[simp] theorem demandsAfter_timebase (s : State) (b : State) : (demandsAfter b s).timebase = s.timebase := by unfold demandsAfter; split <;> simp
@[simp] theorem demandsAfter_journal (s : State) (b : State) : (demandsAfter b s).journal = s.journal := by unfold demandsAfter; split <;> simp
@[simp] theorem demandsAfter_display (s : State) (b : State) : (demandsAfter b s).display = s.display := by unfold demandsAfter; split <;> simp
@[simp] theorem demandsAfter_displayPending (s : State) (b : State) : (demandsAfter b s).displayPending = s.displayPending := by unfold demandsAfter; split <;> simp
@[simp] theorem demandsAfter_snapshot (s : State) (b : State) : (demandsAfter b s).snapshot = s.snapshot := by unfold demandsAfter; split <;> simp
@[simp] theorem demandsAfter_watches (s : State) (b : State) : (demandsAfter b s).watches = s.watches := by unfold demandsAfter; split <;> simp
@[simp] theorem demandsAfter_faults (s : State) (b : State) : (demandsAfter b s).faults = s.faults := by unfold demandsAfter; split <;> simp
@[simp] theorem demandsAfter_counters (s : State) (b : State) : (demandsAfter b s).counters = s.counters := by unfold demandsAfter; split <;> simp
@[simp] theorem demandsAfter_attention (s : State) (b : State) : (demandsAfter b s).attention = s.attention := by unfold demandsAfter; split <;> simp
@[simp] theorem demandsAfter_boardQueue (s : State) (b : State) : (demandsAfter b s).boardQueue = s.boardQueue := by unfold demandsAfter; split <;> simp
@[simp] theorem demandsAfter_tabletQueue (s : State) (b : State) : (demandsAfter b s).tabletQueue = s.tabletQueue := by unfold demandsAfter; split <;> simp
@[simp] theorem demandsAfter_consoleQueue (s : State) (b : State) : (demandsAfter b s).consoleQueue = s.consoleQueue := by unfold demandsAfter; split <;> simp
@[simp] theorem demandsAfter_answers (s : State) (b : State) : (demandsAfter b s).answers = s.answers := by unfold demandsAfter; split <;> simp
@[simp] theorem demandsAfter_shifted (s : State) (b : State) : (demandsAfter b s).shifted = s.shifted := by unfold demandsAfter; split <;> simp
@[simp] theorem demandsAfter_consoleOut (s : State) (b : State) : (demandsAfter b s).consoleOut = s.consoleOut := by unfold demandsAfter; split <;> simp
@[simp] theorem demandsAfter_displayOut (s : State) (b : State) : (demandsAfter b s).displayOut = s.displayOut := by unfold demandsAfter; split <;> simp
@[simp] theorem demandsAfter_commandGrant (s : State) (b : State) : (demandsAfter b s).commandGrant = s.commandGrant := by unfold demandsAfter; split <;> simp
@[simp] theorem demandsAfter_noticeBasis (s : State) (b : State) : (demandsAfter b s).noticeBasis = s.noticeBasis := by unfold demandsAfter; split <;> simp
@[simp] theorem demandsAfter_burstGrant (s : State) (b : State) : (demandsAfter b s).burstGrant = s.burstGrant := by unfold demandsAfter; split <;> simp
@[simp] theorem demandsAfter_pending (s : State) (b : State) : (demandsAfter b s).pending = s.pending := by unfold demandsAfter; split <;> simp

/-! ### setSeatState -/

@[simp] theorem setSeatState_store (s : State) (n : SeatNo) (x : SeatState) : (setSeatState s n x).store = s.store := rfl
@[simp] theorem setSeatState_cls (s : State) (n : SeatNo) (x : SeatState) : (setSeatState s n x).cls = s.cls := rfl
@[simp] theorem setSeatState_hands (s : State) (n : SeatNo) (x : SeatState) : (setSeatState s n x).hands = s.hands := rfl
@[simp] theorem setSeatState_noticeQueue (s : State) (n : SeatNo) (x : SeatState) : (setSeatState s n x).noticeQueue = s.noticeQueue := rfl
@[simp] theorem setSeatState_eraseQueue (s : State) (n : SeatNo) (x : SeatState) : (setSeatState s n x).eraseQueue = s.eraseQueue := rfl
@[simp] theorem setSeatState_maint (s : State) (n : SeatNo) (x : SeatState) : (setSeatState s n x).maint = s.maint := rfl
@[simp] theorem setSeatState_arbiter (s : State) (n : SeatNo) (x : SeatState) : (setSeatState s n x).arbiter = s.arbiter := rfl
@[simp] theorem setSeatState_timebase (s : State) (n : SeatNo) (x : SeatState) : (setSeatState s n x).timebase = s.timebase := rfl
@[simp] theorem setSeatState_journal (s : State) (n : SeatNo) (x : SeatState) : (setSeatState s n x).journal = s.journal := rfl
@[simp] theorem setSeatState_display (s : State) (n : SeatNo) (x : SeatState) : (setSeatState s n x).display = s.display := rfl
@[simp] theorem setSeatState_displayPending (s : State) (n : SeatNo) (x : SeatState) : (setSeatState s n x).displayPending = s.displayPending := rfl
@[simp] theorem setSeatState_snapshot (s : State) (n : SeatNo) (x : SeatState) : (setSeatState s n x).snapshot = s.snapshot := rfl
@[simp] theorem setSeatState_watches (s : State) (n : SeatNo) (x : SeatState) : (setSeatState s n x).watches = s.watches := rfl
@[simp] theorem setSeatState_faults (s : State) (n : SeatNo) (x : SeatState) : (setSeatState s n x).faults = s.faults := rfl
@[simp] theorem setSeatState_counters (s : State) (n : SeatNo) (x : SeatState) : (setSeatState s n x).counters = s.counters := rfl
@[simp] theorem setSeatState_attention (s : State) (n : SeatNo) (x : SeatState) : (setSeatState s n x).attention = s.attention := rfl
@[simp] theorem setSeatState_boardQueue (s : State) (n : SeatNo) (x : SeatState) : (setSeatState s n x).boardQueue = s.boardQueue := rfl
@[simp] theorem setSeatState_tabletQueue (s : State) (n : SeatNo) (x : SeatState) : (setSeatState s n x).tabletQueue = s.tabletQueue := rfl
@[simp] theorem setSeatState_consoleQueue (s : State) (n : SeatNo) (x : SeatState) : (setSeatState s n x).consoleQueue = s.consoleQueue := rfl
@[simp] theorem setSeatState_answers (s : State) (n : SeatNo) (x : SeatState) : (setSeatState s n x).answers = s.answers := rfl
@[simp] theorem setSeatState_shifted (s : State) (n : SeatNo) (x : SeatState) : (setSeatState s n x).shifted = s.shifted := rfl
@[simp] theorem setSeatState_consoleOut (s : State) (n : SeatNo) (x : SeatState) : (setSeatState s n x).consoleOut = s.consoleOut := rfl
@[simp] theorem setSeatState_displayOut (s : State) (n : SeatNo) (x : SeatState) : (setSeatState s n x).displayOut = s.displayOut := rfl
@[simp] theorem setSeatState_commandGrant (s : State) (n : SeatNo) (x : SeatState) : (setSeatState s n x).commandGrant = s.commandGrant := rfl
@[simp] theorem setSeatState_noticeBasis (s : State) (n : SeatNo) (x : SeatState) : (setSeatState s n x).noticeBasis = s.noticeBasis := rfl
@[simp] theorem setSeatState_burstGrant (s : State) (n : SeatNo) (x : SeatState) : (setSeatState s n x).burstGrant = s.burstGrant := rfl
@[simp] theorem setSeatState_pending (s : State) (n : SeatNo) (x : SeatState) : (setSeatState s n x).pending = s.pending := rfl

/-! ### setClassState -/

@[simp] theorem setClassState_store (s : State) (c : ClassState) : (setClassState s c).store = s.store := rfl
@[simp] theorem setClassState_seats (s : State) (c : ClassState) : (setClassState s c).seats = s.seats := rfl
@[simp] theorem setClassState_hands (s : State) (c : ClassState) : (setClassState s c).hands = s.hands := rfl
@[simp] theorem setClassState_noticeQueue (s : State) (c : ClassState) : (setClassState s c).noticeQueue = s.noticeQueue := rfl
@[simp] theorem setClassState_eraseQueue (s : State) (c : ClassState) : (setClassState s c).eraseQueue = s.eraseQueue := rfl
@[simp] theorem setClassState_maint (s : State) (c : ClassState) : (setClassState s c).maint = s.maint := rfl
@[simp] theorem setClassState_arbiter (s : State) (c : ClassState) : (setClassState s c).arbiter = s.arbiter := rfl
@[simp] theorem setClassState_timebase (s : State) (c : ClassState) : (setClassState s c).timebase = s.timebase := rfl
@[simp] theorem setClassState_journal (s : State) (c : ClassState) : (setClassState s c).journal = s.journal := rfl
@[simp] theorem setClassState_display (s : State) (c : ClassState) : (setClassState s c).display = s.display := rfl
@[simp] theorem setClassState_displayPending (s : State) (c : ClassState) : (setClassState s c).displayPending = s.displayPending := rfl
@[simp] theorem setClassState_snapshot (s : State) (c : ClassState) : (setClassState s c).snapshot = s.snapshot := rfl
@[simp] theorem setClassState_watches (s : State) (c : ClassState) : (setClassState s c).watches = s.watches := rfl
@[simp] theorem setClassState_faults (s : State) (c : ClassState) : (setClassState s c).faults = s.faults := rfl
@[simp] theorem setClassState_counters (s : State) (c : ClassState) : (setClassState s c).counters = s.counters := rfl
@[simp] theorem setClassState_attention (s : State) (c : ClassState) : (setClassState s c).attention = s.attention := rfl
@[simp] theorem setClassState_boardQueue (s : State) (c : ClassState) : (setClassState s c).boardQueue = s.boardQueue := rfl
@[simp] theorem setClassState_tabletQueue (s : State) (c : ClassState) : (setClassState s c).tabletQueue = s.tabletQueue := rfl
@[simp] theorem setClassState_consoleQueue (s : State) (c : ClassState) : (setClassState s c).consoleQueue = s.consoleQueue := rfl
@[simp] theorem setClassState_answers (s : State) (c : ClassState) : (setClassState s c).answers = s.answers := rfl
@[simp] theorem setClassState_shifted (s : State) (c : ClassState) : (setClassState s c).shifted = s.shifted := rfl
@[simp] theorem setClassState_consoleOut (s : State) (c : ClassState) : (setClassState s c).consoleOut = s.consoleOut := rfl
@[simp] theorem setClassState_displayOut (s : State) (c : ClassState) : (setClassState s c).displayOut = s.displayOut := rfl
@[simp] theorem setClassState_commandGrant (s : State) (c : ClassState) : (setClassState s c).commandGrant = s.commandGrant := rfl
@[simp] theorem setClassState_noticeBasis (s : State) (c : ClassState) : (setClassState s c).noticeBasis = s.noticeBasis := rfl
@[simp] theorem setClassState_burstGrant (s : State) (c : ClassState) : (setClassState s c).burstGrant = s.burstGrant := rfl
@[simp] theorem setClassState_pending (s : State) (c : ClassState) : (setClassState s c).pending = s.pending := rfl

/-! ### freeRecord -/

@[simp] theorem freeRecord_seats (s : State) (i : RecIdx) : (freeRecord s i).seats = s.seats := by unfold freeRecord; dsimp only; split <;> rfl
@[simp] theorem freeRecord_cls (s : State) (i : RecIdx) : (freeRecord s i).cls = s.cls := by unfold freeRecord; dsimp only; split <;> rfl
@[simp] theorem freeRecord_hands (s : State) (i : RecIdx) : (freeRecord s i).hands = s.hands := by unfold freeRecord; dsimp only; split <;> rfl
@[simp] theorem freeRecord_noticeQueue (s : State) (i : RecIdx) : (freeRecord s i).noticeQueue = s.noticeQueue := by unfold freeRecord; dsimp only; split <;> rfl
@[simp] theorem freeRecord_eraseQueue (s : State) (i : RecIdx) : (freeRecord s i).eraseQueue = s.eraseQueue := by unfold freeRecord; dsimp only; split <;> rfl
@[simp] theorem freeRecord_maint (s : State) (i : RecIdx) : (freeRecord s i).maint = s.maint := by unfold freeRecord; dsimp only; split <;> rfl
@[simp] theorem freeRecord_arbiter (s : State) (i : RecIdx) : (freeRecord s i).arbiter = s.arbiter := by unfold freeRecord; dsimp only; split <;> rfl
@[simp] theorem freeRecord_timebase (s : State) (i : RecIdx) : (freeRecord s i).timebase = s.timebase := by unfold freeRecord; dsimp only; split <;> rfl
@[simp] theorem freeRecord_journal (s : State) (i : RecIdx) : (freeRecord s i).journal = s.journal := by unfold freeRecord; dsimp only; split <;> rfl
@[simp] theorem freeRecord_displayPending (s : State) (i : RecIdx) : (freeRecord s i).displayPending = s.displayPending := by unfold freeRecord; dsimp only; split <;> rfl
@[simp] theorem freeRecord_watches (s : State) (i : RecIdx) : (freeRecord s i).watches = s.watches := by unfold freeRecord; dsimp only; split <;> rfl
@[simp] theorem freeRecord_faults (s : State) (i : RecIdx) : (freeRecord s i).faults = s.faults := by unfold freeRecord; dsimp only; split <;> rfl
@[simp] theorem freeRecord_counters (s : State) (i : RecIdx) : (freeRecord s i).counters = s.counters := by unfold freeRecord; dsimp only; split <;> rfl
@[simp] theorem freeRecord_attention (s : State) (i : RecIdx) : (freeRecord s i).attention = s.attention := by unfold freeRecord; dsimp only; split <;> rfl
@[simp] theorem freeRecord_boardQueue (s : State) (i : RecIdx) : (freeRecord s i).boardQueue = s.boardQueue := by unfold freeRecord; dsimp only; split <;> rfl
@[simp] theorem freeRecord_tabletQueue (s : State) (i : RecIdx) : (freeRecord s i).tabletQueue = s.tabletQueue := by unfold freeRecord; dsimp only; split <;> rfl
@[simp] theorem freeRecord_consoleQueue (s : State) (i : RecIdx) : (freeRecord s i).consoleQueue = s.consoleQueue := by unfold freeRecord; dsimp only; split <;> rfl
@[simp] theorem freeRecord_answers (s : State) (i : RecIdx) : (freeRecord s i).answers = s.answers := by unfold freeRecord; dsimp only; split <;> rfl
@[simp] theorem freeRecord_shifted (s : State) (i : RecIdx) : (freeRecord s i).shifted = s.shifted := by unfold freeRecord; dsimp only; split <;> rfl
@[simp] theorem freeRecord_consoleOut (s : State) (i : RecIdx) : (freeRecord s i).consoleOut = s.consoleOut := by unfold freeRecord; dsimp only; split <;> rfl
@[simp] theorem freeRecord_displayOut (s : State) (i : RecIdx) : (freeRecord s i).displayOut = s.displayOut := by unfold freeRecord; dsimp only; split <;> rfl
@[simp] theorem freeRecord_commandGrant (s : State) (i : RecIdx) : (freeRecord s i).commandGrant = s.commandGrant := by unfold freeRecord; dsimp only; split <;> rfl
@[simp] theorem freeRecord_noticeBasis (s : State) (i : RecIdx) : (freeRecord s i).noticeBasis = s.noticeBasis := by unfold freeRecord; dsimp only; split <;> rfl
@[simp] theorem freeRecord_burstGrant (s : State) (i : RecIdx) : (freeRecord s i).burstGrant = s.burstGrant := by unfold freeRecord; dsimp only; split <;> rfl
@[simp] theorem freeRecord_pending (s : State) (i : RecIdx) : (freeRecord s i).pending = s.pending := by unfold freeRecord; dsimp only; split <;> rfl

/-! ### countBusy -/

@[simp] theorem countBusy_store (s : State) : (countBusy s).store = s.store := rfl
@[simp] theorem countBusy_seats (s : State) : (countBusy s).seats = s.seats := rfl
@[simp] theorem countBusy_cls (s : State) : (countBusy s).cls = s.cls := rfl
@[simp] theorem countBusy_hands (s : State) : (countBusy s).hands = s.hands := rfl
@[simp] theorem countBusy_noticeQueue (s : State) : (countBusy s).noticeQueue = s.noticeQueue := rfl
@[simp] theorem countBusy_eraseQueue (s : State) : (countBusy s).eraseQueue = s.eraseQueue := rfl
@[simp] theorem countBusy_maint (s : State) : (countBusy s).maint = s.maint := rfl
@[simp] theorem countBusy_arbiter (s : State) : (countBusy s).arbiter = s.arbiter := rfl
@[simp] theorem countBusy_timebase (s : State) : (countBusy s).timebase = s.timebase := rfl
@[simp] theorem countBusy_journal (s : State) : (countBusy s).journal = s.journal := rfl
@[simp] theorem countBusy_display (s : State) : (countBusy s).display = s.display := rfl
@[simp] theorem countBusy_displayPending (s : State) : (countBusy s).displayPending = s.displayPending := rfl
@[simp] theorem countBusy_snapshot (s : State) : (countBusy s).snapshot = s.snapshot := rfl
@[simp] theorem countBusy_watches (s : State) : (countBusy s).watches = s.watches := rfl
@[simp] theorem countBusy_faults (s : State) : (countBusy s).faults = s.faults := rfl
@[simp] theorem countBusy_attention (s : State) : (countBusy s).attention = s.attention := rfl
@[simp] theorem countBusy_boardQueue (s : State) : (countBusy s).boardQueue = s.boardQueue := rfl
@[simp] theorem countBusy_tabletQueue (s : State) : (countBusy s).tabletQueue = s.tabletQueue := rfl
@[simp] theorem countBusy_consoleQueue (s : State) : (countBusy s).consoleQueue = s.consoleQueue := rfl
@[simp] theorem countBusy_answers (s : State) : (countBusy s).answers = s.answers := rfl
@[simp] theorem countBusy_shifted (s : State) : (countBusy s).shifted = s.shifted := rfl
@[simp] theorem countBusy_consoleOut (s : State) : (countBusy s).consoleOut = s.consoleOut := rfl
@[simp] theorem countBusy_displayOut (s : State) : (countBusy s).displayOut = s.displayOut := rfl
@[simp] theorem countBusy_commandGrant (s : State) : (countBusy s).commandGrant = s.commandGrant := rfl
@[simp] theorem countBusy_noticeBasis (s : State) : (countBusy s).noticeBasis = s.noticeBasis := rfl
@[simp] theorem countBusy_burstGrant (s : State) : (countBusy s).burstGrant = s.burstGrant := rfl
@[simp] theorem countBusy_pending (s : State) : (countBusy s).pending = s.pending := rfl

/-! ### unlinkMember -/

@[simp] theorem unlinkMember_store (s : State) (i : RecIdx) : (unlinkMember s i).store = s.store := rfl
@[simp] theorem unlinkMember_seats (s : State) (i : RecIdx) : (unlinkMember s i).seats = s.seats := rfl
@[simp] theorem unlinkMember_cls (s : State) (i : RecIdx) : (unlinkMember s i).cls = s.cls := rfl
@[simp] theorem unlinkMember_hands (s : State) (i : RecIdx) : (unlinkMember s i).hands = s.hands := rfl
@[simp] theorem unlinkMember_noticeQueue (s : State) (i : RecIdx) : (unlinkMember s i).noticeQueue = s.noticeQueue := rfl
@[simp] theorem unlinkMember_arbiter (s : State) (i : RecIdx) : (unlinkMember s i).arbiter = s.arbiter := rfl
@[simp] theorem unlinkMember_timebase (s : State) (i : RecIdx) : (unlinkMember s i).timebase = s.timebase := rfl
@[simp] theorem unlinkMember_journal (s : State) (i : RecIdx) : (unlinkMember s i).journal = s.journal := rfl
@[simp] theorem unlinkMember_display (s : State) (i : RecIdx) : (unlinkMember s i).display = s.display := rfl
@[simp] theorem unlinkMember_displayPending (s : State) (i : RecIdx) : (unlinkMember s i).displayPending = s.displayPending := rfl
@[simp] theorem unlinkMember_snapshot (s : State) (i : RecIdx) : (unlinkMember s i).snapshot = s.snapshot := rfl
@[simp] theorem unlinkMember_watches (s : State) (i : RecIdx) : (unlinkMember s i).watches = s.watches := rfl
@[simp] theorem unlinkMember_faults (s : State) (i : RecIdx) : (unlinkMember s i).faults = s.faults := rfl
@[simp] theorem unlinkMember_counters (s : State) (i : RecIdx) : (unlinkMember s i).counters = s.counters := rfl
@[simp] theorem unlinkMember_attention (s : State) (i : RecIdx) : (unlinkMember s i).attention = s.attention := rfl
@[simp] theorem unlinkMember_boardQueue (s : State) (i : RecIdx) : (unlinkMember s i).boardQueue = s.boardQueue := rfl
@[simp] theorem unlinkMember_tabletQueue (s : State) (i : RecIdx) : (unlinkMember s i).tabletQueue = s.tabletQueue := rfl
@[simp] theorem unlinkMember_consoleQueue (s : State) (i : RecIdx) : (unlinkMember s i).consoleQueue = s.consoleQueue := rfl
@[simp] theorem unlinkMember_answers (s : State) (i : RecIdx) : (unlinkMember s i).answers = s.answers := rfl
@[simp] theorem unlinkMember_shifted (s : State) (i : RecIdx) : (unlinkMember s i).shifted = s.shifted := rfl
@[simp] theorem unlinkMember_consoleOut (s : State) (i : RecIdx) : (unlinkMember s i).consoleOut = s.consoleOut := rfl
@[simp] theorem unlinkMember_displayOut (s : State) (i : RecIdx) : (unlinkMember s i).displayOut = s.displayOut := rfl
@[simp] theorem unlinkMember_commandGrant (s : State) (i : RecIdx) : (unlinkMember s i).commandGrant = s.commandGrant := rfl
@[simp] theorem unlinkMember_noticeBasis (s : State) (i : RecIdx) : (unlinkMember s i).noticeBasis = s.noticeBasis := rfl
@[simp] theorem unlinkMember_burstGrant (s : State) (i : RecIdx) : (unlinkMember s i).burstGrant = s.burstGrant := rfl
@[simp] theorem unlinkMember_pending (s : State) (i : RecIdx) : (unlinkMember s i).pending = s.pending := rfl

end Sys2Proof.Machine
end

