-- ==== Sys2Proof/Laws/Ops.lean ====
section
/-! SUPPORT. What the shared operations of the state do: one lemma for each, to be cited in place of its
definition. -/

namespace Sys2Proof.Machine

/-! ### Vectors and seats -/

@[simp] theorem updAt_self {α : Type} {n : Nat} (v : Vector α n) (i : Fin n) (f : α → α) :
    (updAt v i f)[i.val] = f v[i.val] := by simp [updAt]

theorem updAt_ne {α : Type} {n : Nat} (v : Vector α n) {i j : Fin n} (f : α → α) (h : j ≠ i) :
    (updAt v i f)[j.val] = v[j.val] := by
  have : i.val ≠ j.val := fun e => h (Fin.ext e.symm)
  simp [updAt, this]

@[simp] theorem seat_modSeat (s : State) (n : SeatNo) (f : Seat → Seat) :
    (s.modSeat n f).seat n = f (s.seat n) := by simp [State.modSeat, State.seat]

theorem seat_modSeat_ne (s : State) {n m : SeatNo} (f : Seat → Seat) (h : m ≠ n) :
    (s.modSeat n f).seat m = s.seat m := by
  simp [State.modSeat, State.seat, updAt_ne _ _ h]

/-- Reading a seat depends on the seat records alone. -/
theorem seat_congr {s t : State} (h : t.seats = s.seats) (n : SeatNo) : t.seat n = s.seat n := by
  simp [State.seat, h]

@[simp] theorem seat_setItem (s : State) (n : SeatNo) (i : Option OpenItem) :
    (setItem s n i).seat n = { s.seat n with item := i } := by simp [setItem]

@[simp] theorem seat_modItem (s : State) (n : SeatNo) (f : OpenItem → OpenItem) :
    (modItem s n f).seat n = { s.seat n with item := (s.seat n).item.map f } := by simp [modItem]

/-- R43: a push keeps at most 8 entries. -/
theorem undo_pushUndo (s : State) (n : SeatNo) (e : UndoEntry) :
    ((pushUndo s n e).seat n).undo = (e :: (s.seat n).undo).take 8 := by
  simp [pushUndo, Config.undoDepth]

/-- R32: discarded and counted. -/
theorem seat_countDiscard (s : State) (n : SeatNo) :
    (countDiscard s n).seat n =
      { s.seat n with discarded := satAdd (s.seat n).discarded 1 } := by simp [countDiscard]

/-! ### Notices, hands -/

/-- R47: a notice to a tablet seat; the other seats keep their records. -/
theorem addNotice_spec (s : State) (n : SeatNo) (k : Notice) (h : portOf n = .tablet) :
    (addNotice s n k).seat n = { s.seat n with notices := noticeSet (s.seat n).notices k } ∧
      (∀ m, m ≠ n → (addNotice s n k).seat m = s.seat m) ∧
      (addNotice s n k).noticeQueue =
        (if (s.seat n).notices = 0 then s.noticeQueue ++ [n] else s.noticeQueue) := by
  unfold addNotice
  rw [if_pos h]
  refine ⟨?_, fun m hm => ?_, rfl⟩
  · simp [State.modSeat, State.seat]
  · exact seat_modSeat_ne s _ hm

/-- R48: a notice to a tablet seat is one of the transaction under way. -/
theorem addNotice_noticeBasis (s : State) (n : SeatNo) (k : Notice) (h : portOf n = .tablet) :
    (addNotice s n k).noticeBasis = s.noticeBasis.map fun b => { b with added := b.added ++ [(n, k)] } := by
  unfold addNotice
  rw [if_pos h]

/-- R47: no notice for a board or console seat. -/
theorem addNotice_other (s : State) (n : SeatNo) (k : Notice) (h : portOf n ≠ .tablet) :
    addNotice s n k = s := by
  unfold addNotice
  rw [if_neg h]

/-- A notice changes nothing of a seat but its pending-notice set. -/
theorem seat_addNotice (s : State) (n m : SeatNo) (k : Notice) :
    ∃ b, (addNotice s n k).seat m = { s.seat m with notices := b } := by
  by_cases h : portOf n = .tablet
  · obtain ⟨h1, h2, -⟩ := addNotice_spec s n k h
    by_cases hm : m = n
    · subst hm; exact ⟨_, h1⟩
    · exact ⟨(s.seat m).notices, h2 m hm⟩
  · rw [addNotice_other s n k h]
    exact ⟨(s.seat m).notices, rfl⟩

/-- R34, R36: the hand comes down and the seat leaves the Hand Queue. -/
theorem lowerHand_spec (s : State) (n : SeatNo) :
    (lowerHand s n).seat n = { s.seat n with handUp := false } ∧
      (∀ m, m ≠ n → (lowerHand s n).seat m = s.seat m) ∧
      (lowerHand s n).hands = s.hands.filter fun m => decide (m ≠ n) := by
  refine ⟨?_, fun m hm => ?_, rfl⟩
  · simp [lowerHand, State.modSeat, State.seat]
  · exact seat_modSeat_ne s _ hm

/-! ### Faults and attention -/

/-- R178: a latch sets its source pending and no other. -/
theorem latch_spec (s : State) (x : Source) :
    (latch s x).attention = { s.attention with pending := s.attention.pending ||| x.bit } := rfl

/-- R173: a fault is counted, the first one is recorded, FAULT is latched. -/
theorem captureFault_spec (s : State) (k : FaultKind) (l : Link) (n : Option SeatNo)
    (f : Option Byte) :
    (captureFault s k l n f).faults =
        ⟨some (s.faults.record.getD ⟨k, l, n, f, s.store.rev, s.timebase⟩), satAdd s.faults.count 1⟩ ∧
      (captureFault s k l n f).attention =
        { s.attention with pending := s.attention.pending ||| Source.fault.bit } := ⟨rfl, rfl⟩

/-! ### The arbiter -/

@[simp] theorem decideGrant_commandGrant (s : State) (r : Requester) :
    (decideGrant s r).commandGrant = none := by
  unfold decideGrant
  dsimp only
  split <;> [split; skip] <;> rfl

/-- R48: a decision keeps what stands of the notices for a read that arrives in its transaction. -/
@[simp] theorem decideGrant_noticeBasis (s : State) (r : Requester) :
    (decideGrant s r).noticeBasis = some { queue := s.noticeQueue.map fun n => (n, noticeItem s n) } := by
  unfold decideGrant
  dsimp only
  split <;> [split; skip] <;> rfl

@[simp] theorem decideGrant_burstGrant (s : State) (r : Requester) :
    (decideGrant s r).burstGrant = decide (r = .display) := by
  unfold decideGrant
  dsimp only
  split <;> [split; skip] <;> rfl

@[simp] theorem finishCommand_commandGrant (s : State) (r : Reply) :
    (finishCommand s r).commandGrant = some { left := true, replied := true } := rfl

/-- R125: a grant decision clears the winner's flags and sets a flag only at a sample. -/
theorem decideGrant_enabled (s : State) (r : Requester) :
    (decideGrant s r).arbiter.enabled = s.arbiter.enabled ∧
      (decideGrant s r).arbiter.period = s.arbiter.period := by
  unfold decideGrant
  dsimp only
  split <;> [split; skip] <;> exact ⟨rfl, rfl⟩

/-- Whether a request stands depends on neither the flags nor the counter of the arbiter. -/
@[simp] theorem requests_arbiter (s : State) (a : Arbiter) (r : Requester) :
    requests { s with arbiter := a } r = requests s r := by cases r <;> rfl

@[simp] theorem requestSet_arbiter (s : State) (a : Arbiter) :
    requestSet { s with arbiter := a } = requestSet s := by
  have h : requestOrder { s with arbiter := a } = requestOrder s := rfl
  simp only [requestSet, h, requests_arbiter]

@[simp] theorem requestSet_settle (s : State) : requestSet (settle s) = requestSet s :=
  requestSet_arbiter s _

/-- The winner of a decision has a standing request (R120). -/
theorem requests_of_winner {s : State} {r : Requester} (h : winner s = some r) :
    requests s r = true := by
  unfold winner at h
  split at h
  · next q hq =>
    cases h
    have := List.find?_some hq
    simp only [Bool.and_eq_true] at this
    exact this.1
  · exact List.find?_some h

/-! ### Transactions -/

@[simp] theorem Tx.on_st (t : Tx) (f : State → State) : (t.on f).st = f t.st := rfl
@[simp] theorem Tx.on_base (t : Tx) (f : State → State) : (t.on f).base = t.base := rfl
@[simp] theorem Tx.on_calls (t : Tx) (f : State → State) : (t.on f).calls = t.calls := rfl
@[simp] theorem Tx.on_rev (t : Tx) (f : State → State) : (t.on f).rev = t.rev := rfl
@[simp] theorem Tx.on_time (t : Tx) (f : State → State) : (t.on f).time = t.time := rfl
@[simp] theorem Tx.on_revTaken (t : Tx) (f : State → State) : (t.on f).revTaken = t.revTaken := rfl
@[simp] theorem Tx.call_st (t : Tx) (c : Call) : (t.call c).st = t.st := rfl
@[simp] theorem Tx.call_base (t : Tx) (c : Call) : (t.call c).base = t.base := rfl
@[simp] theorem Tx.call_calls (t : Tx) (c : Call) : (t.call c).calls = c :: t.calls := rfl
@[simp] theorem Tx.start_st (s : State) : (Tx.start s).st = s := rfl
@[simp] theorem Tx.start_base (s : State) : (Tx.start s).base = s := rfl
@[simp] theorem Tx.start_calls (s : State) : (Tx.start s).calls = [] := rfl
@[simp] theorem Tx.start_revTaken (s : State) : (Tx.start s).revTaken = 0 := rfl

/-- R114: the demands are not tested where neither count nor the reserve changed. -/
theorem demandsAfter_same {b s : State} (h1 : b.store.freeBlocks = s.store.freeBlocks)
    (h2 : b.store.freeRecs = s.store.freeRecs)
    (h3 : b.cls.options.reserve = s.cls.options.reserve) : demandsAfter b s = s := by
  simp [demandsAfter, h1, h2, h3]

/-- R5: a transaction that calls for no entry writes none and takes no revision. -/
theorem Tx.commit_quiet {t : Tx} (h : t.calls = []) : t.commit = demandsAfter t.base t.st := by
  simp [Tx.commit, h]

/-- A commit of one entry other than EXTENDED appends it (R134, R136). -/
theorem Journal.write_one (j : Journal) (e : ChangeEntry) (h : e.kind ≠ .extended) :
    j.write [e] = j.append e := by
  simp [Journal.write, h]

/-- R134: the journal never grows past 512 entries. -/
theorem Journal.append_length (j : Journal) (e : ChangeEntry) (h : j.entries.length ≤ 512) :
    (j.append e).entries.length ≤ 512 := by
  unfold Journal.append
  split
  · next hl => simp [Config.journalSize] at hl ⊢; omega
  · split
    · simp
    · next old es he =>
      simp only [List.length_append, List.length_singleton]
      have : ((old :: es).dropWhile fun x => decide (x.rev = old.rev)).length ≤ es.length := by
        simp only [List.dropWhile_cons, decide_true, if_true]
        exact List.Sublist.length_le (List.dropWhile_sublist _)
      rw [he] at h ⊢
      simp only [List.length_cons] at h
      omega

end Sys2Proof.Machine
end

