-- ==== Sys2Proof/Laws/Grants.lean ====
section
/-! SUPPORT. What a grant does, said once: a console grant answers its head command, an intake grant
handles its oldest item. The statements about single commands rest on these. -/

namespace Sys2Proof.Machine

variable {s u v : State}

/-! ### Console grants -/

theorem consoleGrant_of_turn {code tag : Byte} {params : Bytes} (h : ConsoleTurn s code tag params) :
    consoleGrant s code = some (tag, params) := by
  obtain ⟨h1, h2, h3⟩ := h
  unfold consoleGrant
  rw [if_pos ⟨h1, h2⟩]
  cases hq : s.consoleQueue with
  | nil => rw [hq] at h3; cases h3
  | cons c cs => rw [hq] at h3; cases h3; simp

/-- R192: parameters that fit the format are handed to the command's transaction. -/
theorem serveCommand_of_turn {α : Type} {code tag : Byte} {params : Bytes} {format : Reader α}
    {body : α → Tx → Served} {a : α} (h : ConsoleTurn s code tag params)
    (hp : readAll format params = some a) :
    serveCommand code format body s =
      finishCommand (body a (Tx.start (decideGrant s .console))).1.commit
        ⟨tag, code, (body a (Tx.start (decideGrant s .console))).2.1,
          (body a (Tx.start (decideGrant s .console))).2.2⟩ := by
  simp only [serveCommand, consoleGrant_of_turn h, hp]

/-- R192: parameters that do not fit the format are answered RANGE. -/
theorem serveCommand_malformed {α : Type} {code tag : Byte} {params : Bytes} {format : Reader α}
    {body : α → Tx → Served} (h : ConsoleTurn s code tag params) (hp : readAll format params = none) :
    serveCommand code format body s =
      finishCommand (decideGrant s .console) ⟨tag, code, .range, []⟩ := by
  simp only [serveCommand, consoleGrant_of_turn h, hp]

/-- R122: a command that has been served leaves the queue and its reply stands in a slot. -/
theorem finishCommand_eq (u : State) (r : Reply) : finishCommand u r = settle (answered r u) := rfl

/-- A grant decision changes nothing but the arbiter, and begins anew what frames could arrive in (R125, log
entry 6). -/
theorem decideGrant_same (s : State) (r : Requester) :
    decideGrant s r = { s with
      arbiter := (decideGrant s r).arbiter
      commandGrant := none
      noticeBasis := some { queue := s.noticeQueue.map fun n => (n, noticeItem s n) }
      burstGrant := decide (r = Requester.display) } := by
  unfold decideGrant
  dsimp only
  split <;> [split; skip] <;> rfl

@[simp] theorem seat_decideGrant (s : State) (r : Requester) (n : SeatNo) :
    (decideGrant s r).seat n = s.seat n := seat_congr (by simp) n

theorem settle_same (s : State) : settle s = { s with arbiter := (settle s).arbiter } := rfl

/-! ### Intake grants -/

/-- R118, R122: the oldest sample leaves Board Intake and is handled. -/
theorem boardGrant_of_turn {x : Sample} {body : Sample → State → State} (h : BoardTurn s x) :
    boardGrant x.frame.phase body s =
      settle (body x (boardTaken s)) := by
  obtain ⟨h1, h2⟩ := h
  unfold boardGrant
  cases hq : s.boardQueue with
  | nil => rw [hq] at h2; cases h2
  | cons y ys => rw [hq] at h2; cases h2; simp [h1, boardTaken, hq]

/-- R118, R122: the oldest frame leaves Tablet Intake and is handled. -/
theorem tabletGrant_of_turn {α : Type} {f : TabletFrame} {pick : TabletFrame → Option α} {a : α}
    {body : α → State → State} (h : TabletTurn s f) (hp : pick f = some a) :
    tabletGrant pick body s =
      settle (body a (tabletTaken s)) := by
  obtain ⟨h1, h2⟩ := h
  unfold tabletGrant
  cases hq : s.tabletQueue with
  | nil => rw [hq] at h2; cases h2
  | cons y ys => rw [hq] at h2; cases h2; simp [h1, hp, tabletTaken, hq]

/-- R73: nothing disposes of an input for a seat that draws. -/
theorem dispose_none {o : Origins} {n : SeatNo} {frozen : Bool} (h1 : s.cls.state ≠ .resetting)
    (h2 : frozen = true → s.cls.state ≠ .frozen) (h3 : (s.seat n).state = .admitted) :
    dispose s o (some n) frozen = none := by
  unfold dispose
  dsimp only
  rw [if_neg h1, if_neg (by cases frozen <;> simp_all), h3]

end Sys2Proof.Machine
end

