-- ==== Sys2Proof/Laws/Commit.lean ====
section
/-! SUPPORT. What a transaction's commit leaves, said once: the model's commit is the `committed` of the
statements, up to the withdrawals that `settle` makes. -/

namespace Sys2Proof.Machine

/-! ### Watches -/

/-- R171: one watch is handed a transaction's entries. -/
theorem fireWatch_eq (es : List ChangeEntry) (s : State) (n : Fin 4) :
    fireWatch es s n =
      { s with
        watches := updAt s.watches n (watchAfter s.store es)
        attention := { s.attention with pending :=
          if s.watches[n.val].state = .armed ∧
              (∃ e ∈ es, watchMatches s.store s.watches[n.val] e = true) then
            s.attention.pending ||| BitVec.twoPow 11 (3 + n.val)
          else s.attention.pending } } := by
  have hb : (watchSource n).bit = BitVec.twoPow 11 (3 + n.val) := by
    match n with
    | 0 => rfl
    | 1 => rfl
    | 2 => rfl
    | 3 => rfl
  unfold fireWatch
  by_cases ha : s.watches[n.val].state = .armed
  · simp only [ha, if_true, true_and]
    cases hf : es.find? (watchMatches s.store s.watches[n.val]) with
    | none =>
      have h1 : ¬∃ e ∈ es, watchMatches s.store s.watches[n.val] e = true := by
        rintro ⟨e, he, hm⟩
        exact absurd hm (by simpa using List.find?_eq_none.mp hf e he)
      have h2 : updAt s.watches n (watchAfter s.store es) = s.watches := by
        simp [updAt, watchAfter, ha, hf]
      simp [h1, h2]
    | some e =>
      have h1 : ∃ e ∈ es, watchMatches s.store s.watches[n.val] e = true :=
        ⟨e, List.mem_of_find?_eq_some hf, List.find?_some hf⟩
      have h2 : updAt s.watches n (watchAfter s.store es) =
          updAt s.watches n fun w =>
            { w with state := .fired, capture := captureOf s.store w e } := by
        simp [updAt, watchAfter, ha, hf]
      simp [h1, h2, latch, hb]
  · have h2 : updAt s.watches n (watchAfter s.store es) = s.watches := by
      simp [updAt, watchAfter, ha]
    simp [ha, h2]

/-- R169, R171: all four watches are handed a transaction's entries. -/
theorem fireWatches_eq (es : List ChangeEntry) (s : State) :
    fireWatches es s =
      { s with
        watches := Vector.ofFn fun n : Fin 4 => watchAfter s.store es s.watches[n.val]
        attention := { s.attention with pending := watchesLatched s es } } := by
  have hr : List.finRange 4 = [0, 1, 2, 3] := rfl
  have e1 : ∀ (v : Vector Watch 4) (f : Watch → Watch),
      updAt (updAt (updAt (updAt v 0 f) 1 f) 2 f) 3 f = Vector.ofFn fun n : Fin 4 => f v[n.val] := by
    intro v f
    ext i hi
    simp [updAt]
    match i, hi with
    | 0, _ => simp
    | 1, _ => simp
    | 2, _ => simp
    | 3, _ => simp
  unfold fireWatches watchesLatched
  simp only [hr, List.foldl_cons, List.foldl_nil, fireWatch_eq, ← e1]
  simp [updAt]

/-! ### Demands, withdrawals, the commit -/

/-- R114: the demands at the end of a transaction. -/
theorem demandsAfter_eq (b s : State) : demandsAfter b s = { s with maint := demanded b s } := by
  unfold demandsAfter demanded
  dsimp only
  split <;> rfl

/-- R151: a WAITING follow wakes at an entry above its cursor. -/
theorem wakeFollow_eq (s : State) (es : List ChangeEntry) :
    wakeFollow s es = { s with display := followWoken s.display es } := by
  unfold wakeFollow followWoken
  cases hc : s.display.cursor with
  | none => cases hs : s.display.state <;> rfl
  | some k => cases hs : s.display.state <;> simp <;> split <;> simp_all

/-- A requester whose request does not stand has no bit in the request set. -/
theorem requestSet_bit {s : State} {r : Requester} (h : requests s r = false) :
    requestSet s &&& ~~~r.bit = requestSet s := by
  have hx : ∀ (up : Bool) (c b d t n m : Bool) (r : Requester),
      (match r with
        | .console => c | .board => b | .display => d | .tablet => t | .snapshot => n
        | .maintenance => m) = false →
      let q : Requester → Bool := fun
        | .console => c | .board => b | .display => d | .tablet => t | .snapshot => n
        | .maintenance => m
      let set := (if up then ([.board, .display, .tablet, .snapshot, .maintenance, .console] : List Requester)
        else [.console, .board, .display, .tablet, .snapshot, .maintenance]).foldl
          (fun x r => if q r then x ||| r.bit else x) 0#6
      set &&& ~~~r.bit = set := by
    intro up c b d t n m r
    cases r <;> revert up c b d t n m <;> decide
  have := hx (clearanceRuns s) (requests s .console) (requests s .board) (requests s .display)
    (requests s .tablet) (requests s .snapshot) (requests s .maintenance) r (by cases r <;> exact h)
  simp only [requestSet, requestOrder]
  cases hc : clearanceRuns s <;> simp only [hc] at this ⊢ <;> exact this

/-- R126: withdrawing a requester whose request does not stand is what `settle` does anyway. -/
theorem settle_withdraw {s : State} {r : Requester} (h : requests s r = false) :
    settle (withdraw s r) = settle s := by
  have h1 : requestSet (withdraw s r) = requestSet s := requestSet_arbiter s _
  have h2 := requestSet_bit h
  unfold settle
  rw [h1]
  unfold withdraw
  simp only
  congr 2
  · rw [BitVec.and_assoc, BitVec.and_comm (~~~r.bit), h2]
  · rw [BitVec.and_assoc, BitVec.and_comm (~~~r.bit), h2]

/-- R5: a transaction's revision is the one `committed` gives it. -/
theorem Tx.rev_eq {t : Tx} (hr : t.st.store.rev = t.base.store.rev) : t.rev = upcoming t.st := by
  simp [Tx.rev, upcoming, hr]

theorem Tx.revTaken_eq {t : Tx} (hr : t.st.store.rev = t.base.store.rev) :
    t.revTaken = Work.rev ⟨t.st, t.entries⟩ := by
  unfold Tx.revTaken Work.rev
  rw [Tx.rev_eq hr]
  cases hc : t.calls <;> simp [Tx.entries, hc]

/-- The state before the lap test of a published transaction, and the same with the lap (R152). -/
theorem settle_lapFollow (s : State) (m : Maintenance) :
    settle { lapFollow s with maint := m } =
      settle { s with
        maint := m
        display := if isLapped s.display s.journal.lost then doneCtx s.display .overrun .none
          else s.display
        displayOut := if isLapped s.display s.journal.lost then
          s.displayOut ++ [⟨s.display.tag, .done (walkDone s.display .overrun .none)⟩]
          else s.displayOut } := by
  have hl : (s.display.running && decide (s.display.mode = .follow) && lapped s) =
      isLapped s.display s.journal.lost := rfl
  unfold lapFollow
  rw [hl]
  cases h : isLapped s.display s.journal.lost with
  | false => simp
  | true =>
    simp only [if_true]
    have hw : doneRecord s.display .overrun .none = walkDone s.display .overrun .none := by
      unfold doneRecord walkDone resumeRev resumeOf
      cases s.display.mode <;> (simp [WalkMode.isSweep]; try rfl)
    have := settle_withdraw (s := { s with
        maint := m, display := doneCtx s.display .overrun .none
        displayOut := s.displayOut ++ [⟨s.display.tag, .done (walkDone s.display .overrun .none)⟩] })
      (r := .display) (by simp [requests, doneCtx])
    rw [← this]
    unfold endDisplay
    rw [hw]
    rfl

/-- The journal is written, the revision taken, and the follow woken or lapped (R5, R151, R152). -/
theorem settle_publish (s : State) (rev : Rev) (written : List ChangeEntry) (m : Maintenance) :
    let j := s.journal.write written
    let c := followWoken s.display written
    let lap := decide (j.lost ≠ s.journal.lost) && isLapped c j.lost
    settle { publish rev written s with maint := m } =
      settle { s with
        store := { s.store with rev := rev }
        journal := j
        maint := m
        display := if lap then doneCtx c .overrun .none else c
        displayOut := if lap then s.displayOut ++ [⟨c.tag, .done (walkDone c .overrun .none)⟩]
          else s.displayOut } := by
  intro j c lap
  unfold publish
  simp only [wakeFollow_eq]
  split
  · next hj => simp [lap, j, c, hj]
  · next hj => rw [settle_lapFollow]; simp [lap, j, c, hj]

/-- What a transaction's commit leaves, as the statements name it (R5, R114, R135, R151, R152, R169). -/
theorem settle_commit {t : Tx} (hr : t.st.store.rev = t.base.store.rev)
    (ht : t.st.timebase = t.base.timebase) :
    settle t.commit = settle (committed t.base ⟨t.st, t.entries⟩) := by
  unfold Tx.commit committed
  rw [demandsAfter_eq]
  cases hc : t.calls with
  | nil => simp [Tx.entries, hc]
  | cons c cs =>
    have he : t.entries ≠ [] := by simp [Tx.entries, hc]
    have hd : ∀ (a b : State), a.store.freeBlocks = b.store.freeBlocks →
        a.store.freeRecs = b.store.freeRecs → a.cls = b.cls → a.maint = b.maint →
        demanded t.base a = demanded t.base b := by
      intro a b h1 h2 h3 h4
      simp [demanded, h1, h2, h3, h4]
    have hp : ∀ rev w s, demanded t.base (publish rev w s) = demanded t.base s := by
      intro rev w s
      obtain ⟨h1, h2, h3, h4⟩ : (publish rev w s).store.freeBlocks = s.store.freeBlocks ∧
          (publish rev w s).store.freeRecs = s.store.freeRecs ∧ (publish rev w s).cls = s.cls ∧
          (publish rev w s).maint = s.maint := by
        unfold publish lapFollow
        simp only [wakeFollow_eq]
        split <;> [skip; split] <;> exact ⟨rfl, rfl, rfl, rfl⟩
      exact hd _ _ h1 h2 h3 h4
    simp only [List.isEmpty_cons, Bool.false_eq_true, if_false, he, hp]
    rw [settle_publish, fireWatches_eq, Tx.rev_eq hr]
    simp only [Tx.time, ← ht]
    rfl

end Sys2Proof.Machine
end

