-- ==== Sys2Proof/Laws/Tables.lean ====
section
/-! SUPPORT. The laws of the sparse tables: a read after a write, and the canonical form, which every
write keeps. With them the read-after-write laws of the Stroke Table, the Point Pool and the Z lists. -/

namespace Sys2Proof.Machine

variable {n : Nat} {α : Type}

theorem lookupAt_insertAt_self (d : α) (i : Fin n) (v : α) (t : Table n α)
    (h : ∀ p ∈ t, p.1 ≠ i) : lookupAt d (insertAt i v t) i = v := by
  induction t with
  | nil => simp [insertAt, lookupAt]
  | cons p t ih =>
    obtain ⟨j, w⟩ := p
    have hj : j ≠ i := h (j, w) (by simp)
    unfold insertAt
    split
    · simp [lookupAt]
    · simp only [lookupAt, if_neg hj]
      exact ih fun p hp => h p (by simp [hp])

theorem lookupAt_insertAt_ne (d : α) {i j : Fin n} (v : α) (t : Table n α) (h : j ≠ i) :
    lookupAt d (insertAt i v t) j = lookupAt d t j := by
  induction t with
  | nil => simp [insertAt, lookupAt, Ne.symm h]
  | cons p t ih =>
    obtain ⟨k, w⟩ := p
    unfold insertAt
    split
    · simp [lookupAt, Ne.symm h]
    · by_cases hk : k = j <;> simp [lookupAt, hk, ih]

theorem lookupAt_filter_ne (d : α) {i j : Fin n} (t : Table n α) (h : j ≠ i) :
    lookupAt d (t.filter fun p => decide (p.1 ≠ i)) j = lookupAt d t j := by
  induction t with
  | nil => simp
  | cons p t ih =>
    obtain ⟨k, w⟩ := p
    by_cases hk : k = i
    · subst hk
      have hf : ((k, w) :: t).filter (fun p => decide (p.1 ≠ k)) = t.filter fun p => decide (p.1 ≠ k) := by
        simp
      rw [hf, ih]
      simp [lookupAt, Ne.symm h]
    · have hf : ((k, w) :: t).filter (fun p => decide (p.1 ≠ i))
          = (k, w) :: t.filter fun p => decide (p.1 ≠ i) := by simp [hk]
      rw [hf]
      simp only [lookupAt, ih]

theorem lookupAt_filter_self (d : α) (i : Fin n) (t : Table n α) :
    lookupAt d (t.filter fun p => decide (p.1 ≠ i)) i = d := by
  induction t with
  | nil => simp [lookupAt]
  | cons p t ih =>
    obtain ⟨k, w⟩ := p
    by_cases hk : k = i
    · have hf : ((k, w) :: t).filter (fun p => decide (p.1 ≠ i))
          = t.filter fun p => decide (p.1 ≠ i) := by simp [hk]
      rw [hf, ih]
    · have hf : ((k, w) :: t).filter (fun p => decide (p.1 ≠ i))
          = (k, w) :: t.filter fun p => decide (p.1 ≠ i) := by simp [hk]
      rw [hf]
      simpa only [lookupAt, if_neg hk] using ih

variable [DecidableEq α]

/-- A place reads as it was written. -/
@[simp] theorem lookupAt_assignAt_self (d : α) (t : Table n α) (i : Fin n) (v : α) :
    lookupAt d (assignAt d t i v) i = v := by
  unfold assignAt
  dsimp only
  split
  · next h => rw [h]; exact lookupAt_filter_self d i t
  · exact lookupAt_insertAt_self d i v _ fun p hp => by simpa using (List.mem_filter.mp hp).2

/-- A write leaves every other place alone. -/
theorem lookupAt_assignAt_ne (d : α) (t : Table n α) {i j : Fin n} (v : α) (h : j ≠ i) :
    lookupAt d (assignAt d t i v) j = lookupAt d t j := by
  unfold assignAt
  dsimp only
  split
  · exact lookupAt_filter_ne d t h
  · rw [lookupAt_insertAt_ne d v _ h, lookupAt_filter_ne d t h]

theorem mem_insertAt {i : Fin n} {v : α} {t : Table n α} {p : Fin n × α} :
    p ∈ insertAt i v t ↔ p = (i, v) ∨ p ∈ t := by
  induction t with
  | nil => simp [insertAt]
  | cons q t ih =>
    obtain ⟨j, w⟩ := q
    unfold insertAt
    split
    · simp
    · simp only [List.mem_cons, ih]
      tauto

theorem pairwise_insertAt {i : Fin n} {v : α} {t : Table n α}
    (ht : t.Pairwise fun p q => p.1 < q.1) (hi : ∀ p ∈ t, p.1 ≠ i) :
    (insertAt i v t).Pairwise fun p q => p.1 < q.1 := by
  induction t with
  | nil => simp [insertAt]
  | cons q t ih =>
    obtain ⟨j, w⟩ := q
    rw [List.pairwise_cons] at ht
    unfold insertAt
    split
    · next h =>
      refine List.pairwise_cons.mpr ⟨?_, List.pairwise_cons.mpr ht⟩
      intro p hp
      rcases List.mem_cons.mp hp with rfl | hp
      · exact h
      · exact lt_trans h (ht.1 p hp)
    · next h =>
      refine List.pairwise_cons.mpr ⟨?_, ih ht.2 fun p hp => hi p (by simp [hp])⟩
      intro p hp
      rcases mem_insertAt.mp hp with rfl | hp
      · have : j ≠ i := hi (j, w) (by simp)
        exact lt_of_le_of_ne (not_lt.mp h) this
      · exact ht.1 p hp

/-- Every write keeps the canonical form. -/
theorem tableWf_assignAt (d : α) {t : Table n α} (i : Fin n) (v : α) (ht : tableWf d t = true) :
    tableWf d (assignAt d t i v) = true := by
  simp only [tableWf, Bool.and_eq_true, decide_eq_true_eq, List.all_eq_true] at ht ⊢
  have hf : (t.filter fun p => decide (p.1 ≠ i)).Pairwise fun p q => p.1 < q.1 :=
    ht.1.sublist List.filter_sublist
  have hn : ∀ p ∈ t.filter (fun p => decide (p.1 ≠ i)), p.1 ≠ i := fun p hp => by
    simpa using (List.mem_filter.mp hp).2
  unfold assignAt
  dsimp only
  split
  · exact ⟨hf, fun p hp => ht.2 p (List.mem_filter.mp hp).1⟩
  · next h =>
    refine ⟨pairwise_insertAt hf hn, fun p hp => ?_⟩
    rcases mem_insertAt.mp hp with rfl | hp
    · exact h
    · exact ht.2 p (List.mem_filter.mp hp).1

/-! ### The store -/

@[simp] theorem stroke_setStroke (st : Store) (i : RecIdx) (r : Stroke) :
    (st.setStroke i r).stroke i = r := by simp [Store.stroke, Store.setStroke]

theorem stroke_setStroke_ne (st : Store) {i j : RecIdx} (r : Stroke) (h : j ≠ i) :
    (st.setStroke i r).stroke j = st.stroke j := by
  simp [Store.stroke, Store.setStroke, lookupAt_assignAt_ne _ _ _ h]

@[simp] theorem stroke_setBlock (st : Store) (b : BlockNo) (es : List Entry) (i : RecIdx) :
    (st.setBlock b es).stroke i = st.stroke i := rfl

@[simp] theorem stroke_setZ (st : Store) (p : PageNo) (l : LayerNo) (hs : List Handle) (i : RecIdx) :
    (st.setZ p l hs).stroke i = st.stroke i := rfl

@[simp] theorem block_setBlock (st : Store) (b : BlockNo) (es : List Entry) :
    (st.setBlock b es).block b = es := by simp [Store.block, Store.setBlock]

theorem block_setBlock_ne (st : Store) {b c : BlockNo} (es : List Entry) (h : c ≠ b) :
    (st.setBlock b es).block c = st.block c := by
  simp [Store.block, Store.setBlock, lookupAt_assignAt_ne _ _ _ h]

@[simp] theorem block_setStroke (st : Store) (i : RecIdx) (r : Stroke) (b : BlockNo) :
    (st.setStroke i r).block b = st.block b := rfl

@[simp] theorem block_setZ (st : Store) (p : PageNo) (l : LayerNo) (hs : List Handle) (b : BlockNo) :
    (st.setZ p l hs).block b = st.block b := rfl

@[simp] theorem zlist_setZ (st : Store) (p : PageNo) (l : LayerNo) (hs : List Handle) :
    (st.setZ p l hs).zlist p l = hs := by simp [Store.zlist, Store.setZ]

/-- Different page-layer pairs have different places among the Z lists. -/
theorem zPlace_injective {p q : PageNo} {l m : LayerNo} (h : zPlace p l = zPlace q m) :
    p = q ∧ l = m := by
  simp only [zPlace, Fin.mk.injEq] at h
  constructor <;> ext <;> omega

theorem zlist_setZ_ne (st : Store) {p q : PageNo} {l m : LayerNo} (hs : List Handle)
    (h : (q, m) ≠ (p, l)) : (st.setZ p l hs).zlist q m = st.zlist q m := by
  have : zPlace q m ≠ zPlace p l := fun e => h (by obtain ⟨rfl, rfl⟩ := zPlace_injective e; rfl)
  simp [Store.zlist, Store.setZ, lookupAt_assignAt_ne _ _ _ this]

@[simp] theorem zlist_setStroke (st : Store) (i : RecIdx) (r : Stroke) (p : PageNo) (l : LayerNo) :
    (st.setStroke i r).zlist p l = st.zlist p l := rfl

@[simp] theorem zlist_setBlock (st : Store) (b : BlockNo) (es : List Entry) (p : PageNo) (l : LayerNo) :
    (st.setBlock b es).zlist p l = st.zlist p l := rfl

/-! ### Free collections -/

/-- Allocation takes the head of the free list (R12). -/
theorem FreeList.take_spec {f g : FreeList} {i : RecIdx} (h : f.take = some (i, g)) :
    (f.fresh = i.val ∧ f.fresh < 4096 ∧ g = { f with fresh := f.fresh + 1 }) ∨
      (4096 ≤ f.fresh ∧ f.freed = i :: g.freed ∧ g.fresh = f.fresh) := by
  unfold FreeList.take at h
  split at h
  · next hf => cases h; exact .inl ⟨rfl, hf, rfl⟩
  · next hf =>
    split at h
    · cases h
    · next hq => cases h; exact .inr ⟨by omega, hq, rfl⟩

/-- Allocation pops the top of the free stack (R26). -/
theorem FreeStack.pop_spec {f g : FreeStack} {b : BlockNo} (h : f.pop = some (b, g)) :
    (f.released = b :: g.released ∧ g.fresh = f.fresh) ∨
      (f.released = [] ∧ f.fresh = b.val ∧ f.fresh < 8192 ∧ g = { f with fresh := f.fresh + 1 }) := by
  unfold FreeStack.pop at h
  split at h
  · next hq => cases h; exact .inl ⟨hq, rfl⟩
  · next hq =>
    split at h
    · next hf => cases h; exact .inr ⟨hq, rfl, hf, rfl⟩
    · cases h

/-- A pop lowers the free count by 1 (R22). -/
theorem FreeStack.size_pop {f g : FreeStack} {b : BlockNo} (h : f.pop = some (b, g)) :
    g.size + 1 = f.size := by
  rcases FreeStack.pop_spec h with ⟨h1, h2⟩ | ⟨h1, h2, h3, rfl⟩
  · simp [FreeStack.size, h1, h2]; omega
  · simp [FreeStack.size, Config.blocks]; omega

/-- A freed chain raises the free count by its length (R22). -/
@[simp] theorem FreeStack.size_push (f : FreeStack) (c : List BlockNo) :
    (f.push c).size = f.size + c.length := by
  simp [FreeStack.size, FreeStack.push]; omega

/-- A freed record raises the free-record count by 1 (R12). -/
@[simp] theorem FreeList.size_give (f : FreeList) (i : RecIdx) : (f.give i).size = f.size + 1 := by
  simp [FreeList.size, FreeList.give]; omega

end Sys2Proof.Machine
end

