-- ==== Sys2Proof/Laws/Transactions.lean ====
section
/-! SUPPORT. What the operations of a transaction can change, said once: `Keeps a s u` holds of every
drawing, erasing and restoring operation for the seat `a`, or for no seat in particular. Each operation
has its lemma here. -/

namespace Sys2Proof.Machine

/-- The fields of a seat that no drawing, erasing or restoring operation writes. -/
structure SameSettings (u v : Seat) : Prop where
  state : v.state = u.state
  mapping : v.mapping = u.mapping
  window : v.window = u.window
  pen : v.pen = u.pen
  rights : v.rights = u.rights
  target : v.target = u.target
  quota : v.quota = u.quota
  handUp : v.handUp = u.handUp

theorem SameSettings.refl (u : Seat) : SameSettings u u := ⟨rfl, rfl, rfl, rfl, rfl, rfl, rfl, rfl⟩

theorem SameSettings.trans {u v w : Seat} (h : SameSettings u v) (k : SameSettings v w) :
    SameSettings u w :=
  ⟨k.1.trans h.1, k.2.trans h.2, k.3.trans h.3, k.4.trans h.4, k.5.trans h.5, k.6.trans h.6,
    k.7.trans h.7, k.8.trans h.8⟩

/-- What an operation of a transaction for seat `a` keeps: every block of the part but the store, the
seats, the Notice Queue and the record of its notices, the Erase Queue, the Maintenance Unit, Fault Capture, the
counters and the attention sources; the store revision; the settings of every seat; that other seats without an
open item have none; and the standing properties of tables, notices and undo stacks. -/
structure Keeps (a : Option SeatNo) (s u : State) : Prop where
  frame : u = { s with
    store := u.store, seats := u.seats, noticeQueue := u.noticeQueue, noticeBasis := u.noticeBasis
    eraseQueue := u.eraseQueue, maint := u.maint, faults := u.faults, counters := u.counters
    attention := u.attention }
  rev : u.store.rev = s.store.rev
  settings : ∀ n, SameSettings (s.seat n) (u.seat n)
  items : ∀ n, a ≠ some n → (s.seat n).item = none → (u.seat n).item = none
  canonical : StoreCanonical s → StoreCanonical u
  notices : NoticesAgree s → NoticesAgree u
  undo : UndoBounded s → UndoBounded u

variable {a : Option SeatNo} {s u v : State} {t t₁ t₂ : Tx}

theorem Keeps.refl (a : Option SeatNo) (s : State) : Keeps a s s :=
  ⟨rfl, rfl, fun _ => .refl _, fun _ _ h => h, id, id, id⟩

theorem Keeps.trans (h : Keeps a s u) (k : Keeps a u v) : Keeps a s v where
  frame := by
    obtain ⟨h, -⟩ := h
    rw [h] at k
    exact k.frame
  rev := k.rev.trans h.rev
  settings n := (h.settings n).trans (k.settings n)
  items n hn hi := k.items n hn (h.items n hn hi)
  canonical := k.canonical ∘ h.canonical
  notices := k.notices ∘ h.notices
  undo := k.undo ∘ h.undo

/-- An operation for no seat in particular is an operation for any. -/
theorem Keeps.any (h : Keeps none s u) : Keeps a s u :=
  { h with items := fun n _ hi => h.items n (by simp) hi }

/-! ### Operations of the state -/

/-- An operation that leaves the store revision, the seats and the notices as they are. -/
theorem Keeps.of_same
    (hf : u = { s with
      store := u.store, eraseQueue := u.eraseQueue, maint := u.maint, faults := u.faults
      counters := u.counters, attention := u.attention })
    (hr : u.store.rev = s.store.rev) (hc : StoreCanonical s → StoreCanonical u) : Keeps a s u where
  frame := by rw [hf]
  rev := hr
  settings n := by
    have hs : u.seats = s.seats := by rw [hf]
    rw [seat_congr hs n]; exact .refl _
  items n _ hi := by
    have hs : u.seats = s.seats := by rw [hf]
    rw [seat_congr hs n]; exact hi
  canonical := hc
  notices h := by
    have hs : u.seats = s.seats := by rw [hf]
    have hq : u.noticeQueue = s.noticeQueue := by rw [hf]
    have hb : u.noticeBasis = s.noticeBasis := by rw [hf]
    simpa only [NoticesAgree, hq, hb, seat_congr hs] using h
  undo h n := by
    have hs : u.seats = s.seats := by rw [hf]
    rw [seat_congr hs n]; exact h n

/-- A change of one seat record that keeps its settings and its notices. -/
theorem Keeps.of_modSeat {n : SeatNo} {f : Seat → Seat}
    (h1 : SameSettings (s.seat n) (f (s.seat n))) (h2 : (f (s.seat n)).notices = (s.seat n).notices)
    (h3 : (s.seat n).undo.length ≤ 8 → (f (s.seat n)).undo.length ≤ 8)
    (h4 : a ≠ some n → (s.seat n).item = none → (f (s.seat n)).item = none) :
    Keeps a s (s.modSeat n f) where
  frame := rfl
  rev := rfl
  settings m := by
    by_cases hm : m = n
    · subst hm; rwa [seat_modSeat]
    · rw [seat_modSeat_ne s f hm]; exact .refl _
  items m ha hi := by
    by_cases hm : m = n
    · subst hm; rw [seat_modSeat]; exact h4 ha hi
    · rwa [seat_modSeat_ne s f hm]
  canonical := id
  notices h := by
    have hn : ∀ m, ((s.modSeat n f).seat m).notices = (s.seat m).notices := fun m => by
      by_cases hm : m = n
      · subst hm; rwa [seat_modSeat]
      · rw [seat_modSeat_ne s f hm]
    simpa only [NoticesAgree, hn, modSeat_noticeQueue, modSeat_noticeBasis] using h
  undo h m := by
    by_cases hm : m = n
    · subst hm; rw [seat_modSeat]; exact h3 (h m)
    · rw [seat_modSeat_ne s f hm]; exact h m

/-- R47: after a kind is added, a set holds that kind and the kinds of the other groups it held. -/
theorem getLsbD_noticeSet (b : BitVec 11) (k j : Notice) :
    (noticeSet b k).getLsbD j.ix = (decide (j = k) || (b.getLsbD j.ix && decide (j.groupMask ≠ k.groupMask))) := by
  cases k <;> cases j <;>
    simp [noticeSet, Notice.ix, Notice.groupMask]

theorem noticeSet_oneEach (b : BitVec 11) (k : Notice) (h : OneEach b) : OneEach (noticeSet b k) := by
  intro i j hg hi hj
  rw [getLsbD_noticeSet] at hi hj
  simp only [Bool.or_eq_true, Bool.and_eq_true, decide_eq_true_eq] at hi hj
  rcases hi with rfl | ⟨hi, hik⟩ <;> rcases hj with rfl | ⟨hj, hjk⟩
  · rfl
  · exact absurd hg.symm hjk
  · exact absurd hg hik
  · exact h i j hg hi hj

theorem noticeSet_ne_zero (b : BitVec 11) (k : Notice) : ¬noticeSet b k = 0#11 := fun h => by
  have := getLsbD_noticeSet b k k
  rw [h] at this
  simp at this

theorem NoticesAgree.addNotice (h : NoticesAgree s) (n : SeatNo) (k : Notice) :
    NoticesAgree (addNotice s n k) := by
  by_cases hp : portOf n = .tablet
  · obtain ⟨h1, h2, h3⟩ := addNotice_spec s n k hp
    obtain ⟨q1, q2, q3, q4, q5⟩ := h
    have hn : ((Machine.addNotice s n k).seat n).notices = noticeSet (s.seat n).notices k := by rw [h1]
    refine ⟨?_, fun m => ?_, fun m hm => ?_, fun m => ?_, fun b hb => ?_⟩
    · rw [h3]
      split
      · next hz =>
        have : n ∉ s.noticeQueue := fun hmem => (q2 n).mp hmem hz
        rw [List.nodup_append]
        exact ⟨q1, by simp, by rintro a ha b hb rfl; simp at hb; exact this (hb ▸ ha)⟩
      · exact q1
    · by_cases hm : m = n
      · subst hm
        rw [hn, h3]
        split
        · simp [noticeSet_ne_zero]
        · next hz => simp [noticeSet_ne_zero, (q2 m).mpr hz]
      · rw [h2 m hm, ← q2 m, h3]
        split <;> simp [hm]
    · by_cases hmn : m = n
      · subst hmn; exact hp
      · rw [h2 m hmn] at hm; exact q3 m hm
    · by_cases hmn : m = n
      · subst hmn; rw [hn]; exact noticeSet_oneEach _ _ (q4 m)
      · rw [h2 m hmn]; exact q4 m
    · rw [addNotice_noticeBasis s n k hp] at hb
      obtain ⟨c, hc, rfl⟩ := Option.map_eq_some_iff.mp hb
      exact q5 c hc
  · rwa [addNotice_other s n k hp]

/-- A seat among items of distinct seats is found there; no other seat is. -/
theorem waitingSet_spec {items : List (SeatNo × NoticeItem)} (hd : (items.map Prod.fst).Nodup) :
    (∀ n i, (n, i) ∈ items → waitingSet items n = i.notices) ∧
      ∀ n, n ∉ items.map Prod.fst → waitingSet items n = 0 := by
  induction items with
  | nil => simp [waitingSet]
  | cons p ps ih =>
    obtain ⟨m, j⟩ := p
    simp only [List.map_cons, List.nodup_cons] at hd
    have hc : ∀ n, waitingSet ((m, j) :: ps) n = if n = m then j.notices else waitingSet ps n := fun n => by
      by_cases h : n = m <;> simp [waitingSet, List.lookup_cons, h, beq_eq_false_iff_ne.mpr]
    refine ⟨fun n i hi => ?_, fun n hn => ?_⟩
    · rw [hc]
      rcases List.mem_cons.mp hi with he | hp
      · cases he; simp
      · have : n ≠ m := fun e => hd.1 (e ▸ List.mem_map_of_mem hp)
        simp [this, (ih hd.2).1 n i hp]
    · simp only [List.map_cons, List.mem_cons, not_or] at hn
      simp [hc, hn.1, (ih hd.2).2 n hn.2]

/-- R47, R48: the read of a NOTICE_READ that arrived in a transaction leaves the notices in agreement. -/
theorem NoticesAgree.takeNoticesBefore {b : NoticeBasis} (h : NoticesAgree s) (hb : s.noticeBasis = some b) :
    NoticesAgree (takeNoticesBefore b s) := by
  obtain ⟨-, -, -, -, h⟩ := h
  obtain ⟨hd, hq⟩ := h b hb
  have hd' : ((b.queue.drop Config.noticeItems).map Prod.fst).Nodup := by
    rw [List.map_drop]; exact hd.sublist (List.drop_sublist _ _)
  have hq' := fun p hp => hq p (List.mem_of_mem_drop (i := Config.noticeItems) hp)
  obtain ⟨hw, hz⟩ := waitingSet_spec hd'
  have hall : ∀ (l : List (SeatNo × Notice)) (u : State), NoticesAgree u →
      NoticesAgree (l.foldl (fun s p => Machine.addNotice s p.1 p.2) u) := fun l => by
    induction l with
    | nil => exact fun _ h => h
    | cons p l ih => exact fun u h => ih _ (h.addNotice p.1 p.2)
  have hbefore : NoticesAgree { s with
      noticeQueue := (b.queue.drop Config.noticeItems).map Prod.fst
      noticeBasis := none
      seats := Vector.ofFn fun n : SeatNo =>
        { s.seats[n.val] with notices := waitingSet (b.queue.drop Config.noticeItems) n } } := by
    have he : ∀ n, n ∈ (b.queue.drop Config.noticeItems).map Prod.fst ∨
        waitingSet (b.queue.drop Config.noticeItems) n = 0 := fun n => by
      by_cases hn : n ∈ (b.queue.drop Config.noticeItems).map Prod.fst
      · exact .inl hn
      · exact .inr (hz n hn)
    refine ⟨hd', fun n => ?_, fun n hn => ?_, fun n => ?_, fun c hc => nomatch hc⟩
    · simp only [State.seat, Vector.getElem_ofFn]
      refine ⟨fun hn => ?_, fun hn => (he n).resolve_right hn⟩
      obtain ⟨⟨m, i⟩, hp, rfl⟩ := List.mem_map.mp hn
      rw [hw m i hp]
      exact (hq' _ hp).2.1
    · simp only [State.seat, Vector.getElem_ofFn] at hn
      obtain ⟨⟨m, i⟩, hp, rfl⟩ := List.mem_map.mp ((he n).resolve_right hn)
      exact (hq' _ hp).1
    · simp only [State.seat, Vector.getElem_ofFn]
      rcases he n with hn | hn
      · obtain ⟨⟨m, i⟩, hp, rfl⟩ := List.mem_map.mp hn
        rw [hw m i hp]
        exact (hq' _ hp).2.2
      · rw [hn]
        intro j k _ hj
        simp at hj
  obtain ⟨k1, k2, k3, k4, -⟩ := hall b.added _ hbefore
  refine ⟨k1, k2, k3, k4, fun c hc => ?_⟩
  cases hc
  exact ⟨hd', hq'⟩

theorem keeps_addNotice (n : SeatNo) (k : Notice) : Keeps a s (addNotice s n k) where
  frame := by unfold addNotice; split <;> rfl
  rev := by simp
  settings m := by
    obtain ⟨b, hb⟩ := seat_addNotice s n m k
    rw [hb]; exact ⟨rfl, rfl, rfl, rfl, rfl, rfl, rfl, rfl⟩
  items m _ hi := by
    obtain ⟨b, hb⟩ := seat_addNotice s n m k
    rw [hb]; exact hi
  canonical h := by simpa [StoreCanonical] using h
  notices h := h.addNotice n k
  undo h m := by
    obtain ⟨b, hb⟩ := seat_addNotice s n m k
    rw [hb]; exact h m

theorem keeps_latch (x : Source) : Keeps a s (latch s x) := .of_same rfl rfl id

theorem keeps_captureFault (k : FaultKind) (l : Link) (n : Option SeatNo) (f : Option Byte) :
    Keeps a s (captureFault s k l n f) := .of_same rfl rfl id

theorem keeps_countDiscard (n : SeatNo) : Keeps a s (countDiscard s n) :=
  .of_modSeat ⟨rfl, rfl, rfl, rfl, rfl, rfl, rfl, rfl⟩ rfl id fun _ => id

theorem keeps_pushUndo (n : SeatNo) (e : UndoEntry) : Keeps a s (pushUndo s n e) :=
  .of_modSeat ⟨rfl, rfl, rfl, rfl, rfl, rfl, rfl, rfl⟩ rfl
    (fun _ => by simp [Config.undoDepth]) fun _ => id

theorem keeps_setItem (n : SeatNo) (i : Option OpenItem) : Keeps (some n) s (setItem s n i) :=
  .of_modSeat ⟨rfl, rfl, rfl, rfl, rfl, rfl, rfl, rfl⟩ rfl id fun h => absurd rfl h

theorem keeps_clearItem (n : SeatNo) : Keeps a s (setItem s n none) :=
  .of_modSeat ⟨rfl, rfl, rfl, rfl, rfl, rfl, rfl, rfl⟩ rfl id fun _ _ => rfl

theorem keeps_modItem (n : SeatNo) (f : OpenItem → OpenItem) : Keeps a s (modItem s n f) :=
  .of_modSeat ⟨rfl, rfl, rfl, rfl, rfl, rfl, rfl, rfl⟩ rfl id fun _ h => by simp [h]

theorem keeps_store {st : Store} (hr : st.rev = s.store.rev)
    (hc : StoreCanonical s → StoreCanonical { s with store := st }) :
    Keeps a s { s with store := st } := .of_same rfl hr hc

theorem StoreCanonical.setStroke (h : StoreCanonical s) (i : RecIdx) (r : Stroke) :
    StoreCanonical { s with store := s.store.setStroke i r } :=
  ⟨tableWf_assignAt _ i r h.1, h.2.1, h.2.2⟩

theorem StoreCanonical.setBlock (h : StoreCanonical s) (b : BlockNo) (es : List Entry) :
    StoreCanonical { s with store := s.store.setBlock b es } :=
  ⟨h.1, tableWf_assignAt _ b es h.2.1, h.2.2⟩

theorem StoreCanonical.setZ (h : StoreCanonical s) (p : PageNo) (l : LayerNo) (hs : List Handle) :
    StoreCanonical { s with store := s.store.setZ p l hs } :=
  ⟨h.1, h.2.1, tableWf_assignAt _ _ hs h.2.2⟩

theorem keeps_modStroke (i : RecIdx) (f : Stroke → Stroke) : Keeps a s (modStroke s i f) :=
  keeps_store rfl fun h => h.setStroke i _

theorem keeps_modGroup (g : Rev) (f : EraseGroup → EraseGroup) : Keeps a s (modGroup s g f) :=
  .of_same rfl rfl id

theorem keeps_quotaFell (n : SeatNo) : Keeps a s (quotaFell s n) := by
  unfold quotaFell
  split
  · exact .trans (.of_modSeat ⟨rfl, rfl, rfl, rfl, rfl, rfl, rfl, rfl⟩ rfl id fun _ => id)
      (keeps_addNotice n _)
  · exact .refl a s

theorem keeps_quotaRefused (n : SeatNo) : Keeps a s (quotaRefused s n) := by
  unfold quotaRefused
  split
  · exact .refl a s
  · exact .trans (.trans (.of_modSeat ⟨rfl, rfl, rfl, rfl, rfl, rfl, rfl, rfl⟩ rfl id fun _ => id)
      (keeps_latch _)) (keeps_addNotice n _)

theorem keeps_poolRefused (o : Origins) (n : SeatNo) : Keeps a s (poolRefused s o n) := by
  unfold poolRefused
  split
  · split
    · exact .refl a s
    · exact .trans (keeps_captureFault _ _ _ _) (keeps_modItem n _)
  · exact keeps_captureFault _ _ _ _

theorem keeps_tableRefused (o : Origins) (n : SeatNo) : Keeps a s (tableRefused s o n) :=
  .of_same rfl rfl id

theorem keeps_joinDue (n : SeatNo) : Keeps a s (joinDue s n) := by
  unfold joinDue
  split
  · exact .refl a s
  · exact .of_same rfl rfl id

theorem keeps_setDeadline (n : SeatNo) (x : Time) : Keeps a s (setDeadline s n x) := by
  unfold setDeadline
  dsimp only
  split
  · exact .trans (keeps_modItem n _) (keeps_joinDue n)
  · exact keeps_modItem n _

theorem keeps_joinGroup (g : Rev) (h : Handle) (r : Rev) (o : Origin) (b : Bool) :
    Keeps a s (joinGroup s g h r o b) := by
  unfold joinGroup
  split
  · exact keeps_modGroup _ _
  · exact .of_same rfl rfl id

theorem keeps_takeBlock {n : SeatNo} {b : BlockNo} (h : takeBlock s n = some (b, u)) :
    Keeps a s u := by
  unfold takeBlock at h
  split at h
  · cases h
  · have hb : ∀ f : FreeStack, Keeps a s
        (State.modSeat { s with store := { s.store with freeBlocks := f } } n
          fun t => { t with blocksHeld := t.blocksHeld + 1 }) := fun f =>
      .trans (keeps_store (st := { s.store with freeBlocks := f }) rfl id)
        (.of_modSeat ⟨rfl, rfl, rfl, rfl, rfl, rfl, rfl, rfl⟩ rfl id fun _ => id)
    dsimp only at h
    split at h <;> cases h
    · exact .trans (hb _) (keeps_latch _)
    · exact hb _

/-! ### Operations of a transaction -/

/-- `Keeps` for transactions: the base stays, the state keeps what `Keeps` says. -/
structure Tx.Keeps (a : Option SeatNo) (t t' : Tx) : Prop where
  base : t'.base = t.base
  st : Machine.Keeps a t.st t'.st

theorem Tx.Keeps.refl (a : Option SeatNo) (t : Tx) : Tx.Keeps a t t := ⟨rfl, .refl a t.st⟩

theorem Tx.Keeps.trans (h : Tx.Keeps a t t₁) (k : Tx.Keeps a t₁ t₂) : Tx.Keeps a t t₂ :=
  ⟨k.base.trans h.base, h.st.trans k.st⟩

theorem Tx.Keeps.any (h : Tx.Keeps none t t₁) : Tx.Keeps a t t₁ := ⟨h.base, h.st.any⟩

theorem Tx.keeps_on {f : State → State} (h : Machine.Keeps a t.st (f t.st)) : Tx.Keeps a t (t.on f) :=
  ⟨rfl, h⟩

theorem Tx.Keeps.on {f : State → State} (h : Tx.Keeps a t t₁)
    (k : Machine.Keeps a t₁.st (f t₁.st)) : Tx.Keeps a t (t₁.on f) := h.trans (Tx.keeps_on k)

/-- `Tx.Keeps.on` for an operation that also answers something. -/
theorem Tx.Keeps.on_pair {β : Type} {b : β} {f : State → State} (h : Tx.Keeps a t t₁)
    (k : Machine.Keeps a t₁.st (f t₁.st)) : Tx.Keeps a t (t₁.on f, b).1 := Tx.Keeps.on h k

theorem Tx.keeps_call (c : Call) : Tx.Keeps a t (t.call c) := ⟨rfl, .refl a _⟩

theorem Tx.keeps_refuse (o : Origins) (n : SeatNo) (w : Shortage) : Tx.Keeps a t (t.refuse o n w) := by
  cases w
  · exact ⟨rfl, keeps_tableRefused o n⟩
  · exact ⟨rfl, keeps_quotaRefused n⟩
  · exact .refl a t
  · exact ⟨rfl, keeps_poolRefused o n⟩

theorem Tx.keeps_lose (n : SeatNo) (k : Nat) : Tx.Keeps a t (t.lose n k) :=
  ⟨rfl, .of_modSeat ⟨rfl, rfl, rfl, rfl, rfl, rfl, rfl, rfl⟩ rfl id fun _ => id⟩

theorem Tx.keeps_truncate (h : Handle) : Tx.Keeps a t (t.truncate h) :=
  Tx.keeps_on (f := fun s => modStroke s h.idx _) (keeps_modStroke h.idx _)

theorem Tx.keeps_skip : Tx.Keeps a t t.skip := ⟨rfl, .of_same rfl rfl id⟩

/-- R14. -/
theorem Tx.keeps_openStroke {n : SeatNo} {sp : OpenSpec} {x y w : Nat} {c : Bool} {h : Handle}
    (e : t.openStroke n sp x y w c = some (h, t₁)) : Tx.Keeps a t t₁ := by
  unfold Tx.openStroke at e
  split at e
  · cases e
  · next i recs _ =>
    split at e
    · cases e
    · next b s hs =>
      cases e
      refine ⟨rfl, ?_⟩
      have h1 : Machine.Keeps a t.st { t.st with store := { t.st.store with freeRecs := recs } } :=
        keeps_store (st := { t.st.store with freeRecs := recs }) rfl id
      have h2 := h1.trans (keeps_takeBlock hs)
      refine h2.trans (keeps_store rfl fun k => ?_)
      exact ((k.setStroke i _).setBlock b _).setZ sp.page sp.layer _

/-- R16, R89. -/
theorem Tx.keeps_closeInk (n : SeatNo) (h : Handle) (tag : Byte) (c : CloseCause) :
    Tx.Keeps a t (t.closeInk n h tag c) := by
  unfold Tx.closeInk
  split
  · dsimp only
    have h1 : ∀ {x : Tx}, Tx.Keeps a t x →
        Tx.Keeps a t (x.on (·.modSeat n fun u => { u with lastClosed := some (tag, h) })) := fun k =>
      k.on (.of_modSeat ⟨rfl, rfl, rfl, rfl, rfl, rfl, rfl, rfl⟩ rfl id fun _ => id)
    have h2 := h1 (Tx.keeps_on (t := t) (f := fun s => modStroke s h.idx fun r =>
      { r with state := .closed, closeTime := some t.time, flags := r.flags.closedBy c, lastRev := t.rev })
      (keeps_modStroke h.idx _))
    split
    · exact ⟨h2.base, h2.st⟩
    · exact ⟨h2.base, h2.st.trans (keeps_pushUndo n (.ink h))⟩
  · exact .refl a t

theorem Tx.keeps_toInk (n : SeatNo) (h : Handle) (tag : Byte) (l d : Bool) :
    Tx.Keeps (some n) t (t.toInk n h tag l d) := ⟨rfl, keeps_setItem n _⟩

/-- R15. -/
theorem Tx.keeps_putEntry (n : SeatNo) (h : Handle) (b : BlockNo) (es : List Entry) (fresh : Bool)
    (x y w : Nat) (c d : Bool) : Tx.Keeps a t (t.putEntry n h b es fresh x y w c d) := by
  unfold Tx.putEntry
  have h1 : Tx.Keeps a t (t.on fun s => { s with store := s.store.setBlock b es }) :=
    Tx.keeps_on (keeps_store rfl fun k => k.setBlock b es)
  exact ⟨rfl, (h1.st.trans (keeps_modStroke h.idx _)).trans (keeps_modItem n _)⟩

/-- R93. -/
theorem Tx.keeps_splitStroke (o : Origins) (n : SeatNo) (h : Handle) (tag : Byte) (x y w : Nat)
    (c : Bool) : Tx.Keeps (some n) t (t.splitStroke o n h tag x y w c).1 := by
  unfold Tx.splitStroke
  split
  · exact (Tx.keeps_truncate h).trans (Tx.keeps_refuse o n _)
  · dsimp only
    split
    · exact .refl _ t
    · next e =>
      have h1 := (Tx.keeps_closeInk (a := some n) n h tag .split).trans (Tx.keeps_openStroke e)
      exact Tx.Keeps.trans h1 (Tx.keeps_toInk n _ tag false false)

/-- R67, R88, R91. -/
theorem Tx.keeps_storePoint (o : Origins) (n : SeatNo) (h : Handle) (tag : Byte) (l d : Bool)
    (x y w : Nat) (c : Bool) : Tx.Keeps (some n) t (t.storePoint o n h tag l d x y w c).1 := by
  unfold Tx.storePoint
  dsimp only
  split
  · exact .refl _ t
  · split
    · exact .refl _ t
    · split
      · exact Tx.keeps_putEntry ..
      · split
        · exact Tx.keeps_splitStroke ..
        · split
          · exact (Tx.keeps_truncate h).trans (Tx.keeps_refuse o n _)
          · split
            · exact .refl _ t
            · next s' hb =>
              have h1 : Tx.Keeps (some n) t { t with st := s' } := ⟨rfl, keeps_takeBlock hb⟩
              dsimp only
              exact h1.trans (Tx.keeps_putEntry ..)

theorem Tx.keeps_mapped (n : SeatNo) (tool : PenTool) (r : RawPoint) :
    Tx.Keeps a t (t.mapped n tool r).2 := by
  unfold Tx.mapped
  dsimp only
  split
  · exact Tx.keeps_on (.of_modSeat ⟨rfl, rfl, rfl, rfl, rfl, rfl, rfl, rfl⟩ rfl id fun _ => id)
  · exact .refl a t

/-- The transaction after a mapped point, whatever the outcome. -/
theorem Tx.keeps_of_mapped {n : SeatNo} {tool : PenTool} {r : RawPoint} {m : MapOut}
    (e : t.mapped n tool r = (m, t₁)) : Tx.Keeps a t t₁ := by
  have := Tx.keeps_mapped (a := a) (t := t) n tool r
  rwa [e] at this

theorem Tx.keeps_inkPoint (o : Origins) (n : SeatNo) (r : RawPoint) :
    Tx.Keeps (some n) t (t.inkPoint o n r).1 := by
  unfold Tx.inkPoint
  split
  · split
    · next e => exact Tx.Keeps.on (Tx.keeps_of_mapped e) (f := fun s => modItem s n _) (keeps_modItem n _)
    · next e => exact Tx.Keeps.on (Tx.keeps_of_mapped e) (f := fun s => modItem s n _) (keeps_modItem n _)
    · next e =>
      dsimp only
      split
      · exact Tx.keeps_of_mapped e
      · exact (Tx.keeps_of_mapped e).trans (Tx.keeps_storePoint ..)
  · exact .refl _ t

theorem Tx.keeps_inkPoints (o : Origins) (n : SeatNo) (rs : List RawPoint) (t : Tx) :
    Tx.Keeps (some n) t (Tx.inkPoints o n rs t) := by
  induction rs generalizing t with
  | nil => exact .refl _ t
  | cons r rs ih =>
    have h := Tx.keeps_inkPoint (t := t) o n r
    unfold Tx.inkPoints
    split
    · next e => rw [e] at h; exact h.trans (ih _)
    · next e => rw [e] at h; exact h.trans (Tx.keeps_lose n _)

theorem Tx.keeps_openPoints (o : Origins) (n : SeatNo) (sp : OpenSpec) (rs : List RawPoint) (t : Tx) :
    Tx.Keeps (some n) t (Tx.openPoints o n sp rs t) := by
  induction rs generalizing t with
  | nil => exact .refl _ t
  | cons r rs ih =>
    unfold Tx.openPoints
    split
    · next e =>
      have h := Tx.keeps_of_mapped (a := some n) e
      split
      · exact (h.trans (Tx.keeps_refuse o n _)).trans (Tx.keeps_lose n _)
      · split
        · exact h
        · next eo =>
          exact ((h.trans (Tx.keeps_openStroke eo)).trans (Tx.keeps_toInk n _ sp.tag false false)).trans
            (Tx.keeps_inkPoints o n rs _)
    · next e => exact (Tx.keeps_of_mapped e).trans (ih _)

/-! ### Erasing, restoring and retraction -/

/-- R17. -/
theorem Tx.keeps_erase (h : Handle) (g : Rev) (o : Origin) (b : Bool) :
    Tx.Keeps a t (t.erase h g o b) := by
  unfold Tx.erase
  dsimp only
  split
  · have h1 := Tx.keeps_on (t := t) (f := fun s => joinGroup s g h t.rev o b)
      (keeps_joinGroup (a := a) g h t.rev o b)
    have h2 := Tx.Keeps.on h1 (f := fun s => modStroke s h.idx fun r =>
      { r with state := .erased, group := some g, eraseRev := some t.rev, lastRev := t.rev })
      (keeps_modStroke h.idx _)
    have h3 : Tx.Keeps a t (((t.on (joinGroup · g h t.rev o b)).on
        (modStroke · h.idx fun r =>
          { r with state := .erased, group := some g, eraseRev := some t.rev, lastRev := t.rev })).on
        (·.modSeat (t.st.store.stroke h.idx).owner fun u =>
          { u with blocksHeld := u.blocksHeld - (t.st.store.stroke h.idx).chain.length })) :=
      h2.on (.of_modSeat ⟨rfl, rfl, rfl, rfl, rfl, rfl, rfl, rfl⟩ rfl id fun _ => id)
    exact (Tx.Keeps.on h3 (f := fun s => quotaFell s _) (keeps_quotaFell _)).trans (Tx.keeps_call _)
  · exact .refl a t

theorem keeps_setContextGroup (n : SeatNo) (g : Option Rev) : Keeps a s (setContextGroup s n g) :=
  keeps_modItem n _

/-- R101. -/
theorem Tx.keeps_hitStrokes (n : SeatNo) (sc : Scope) (x y w : Nat) (hs : List Handle) (t : Tx) :
    Tx.Keeps a t (Tx.hitStrokes n sc x y w hs t) := by
  induction hs generalizing t with
  | nil => exact .refl a t
  | cons h hs ih =>
    unfold Tx.hitStrokes
    dsimp only
    split
    · split
      · refine Tx.Keeps.trans ?_ (ih _)
        exact Tx.Keeps.on (Tx.keeps_erase h _ _ _) (keeps_setContextGroup n _)
      · split
        · exact Tx.keeps_skip.trans (ih _)
        · exact ih t
    · exact .refl a t

theorem Tx.keeps_eraserPoint (n : SeatNo) (r : RawPoint) : Tx.Keeps a t (t.eraserPoint n r) := by
  unfold Tx.eraserPoint
  split
  · split
    · next e => exact (Tx.keeps_of_mapped e).trans (Tx.keeps_hitStrokes ..)
    · next e => exact Tx.keeps_of_mapped e
  · exact .refl a t

theorem Tx.keeps_eraserPoints (n : SeatNo) (rs : List RawPoint) (t : Tx) :
    Tx.Keeps a t (Tx.eraserPoints n rs t) := by
  unfold Tx.eraserPoints
  induction rs generalizing t with
  | nil => exact .refl a t
  | cons r rs ih => exact (Tx.keeps_eraserPoint n r).trans (ih _)

/-- R89, R102. -/
theorem Tx.keeps_closeEraser (n : SeatNo) (g : Option Rev) : Tx.Keeps a t (t.closeEraser n g) := by
  unfold Tx.closeEraser
  split
  · exact .refl a t
  · exact ⟨rfl, (keeps_modGroup _ _).trans (keeps_pushUndo n _)⟩

theorem Tx.keeps_eraseAll (keep : Stroke → Bool) (hs : List Handle) (r : Tx × Nat × Nat) :
    Tx.Keeps a r.1 (Tx.eraseAll keep hs r).1 := by
  induction hs generalizing r with
  | nil => exact .refl a _
  | cons h hs ih =>
    obtain ⟨t, k, l⟩ := r
    unfold Tx.eraseAll
    dsimp only
    split
    · exact (Tx.keeps_erase h t.rev .console false).trans
        (ih (t.erase h t.rev .console false, k + 1, l))
    · split
      · exact (Tx.keeps_skip (t := t)).trans (ih (t.skip, k, l + 1))
      · exact ih (t, k, l)

theorem Tx.keeps_eraseSeat (n : SeatNo) (ps : List PageNo) : Tx.Keeps a t (t.eraseSeat n ps).1 :=
  Tx.keeps_eraseAll _ _ (t, 0, 0)

/-- R18. -/
theorem Tx.keeps_restoreStroke (g : Rev) (h : Handle) : Tx.Keeps a t (Tx.restoreStroke g t h) := by
  unfold Tx.restoreStroke
  dsimp only
  split
  · have h1 := Tx.keeps_on (t := t) (f := fun s => modStroke s h.idx fun r =>
      { r with state := .closed, group := none, eraseRev := none, lastRev := t.rev })
      (keeps_modStroke (a := a) h.idx _)
    have h2 : Tx.Keeps a t ((t.on (modStroke · h.idx fun r =>
        { r with state := .closed, group := none, eraseRev := none, lastRev := t.rev })).on
        (·.modSeat (t.st.store.stroke h.idx).owner fun u =>
          { u with blocksHeld := u.blocksHeld + (t.st.store.stroke h.idx).chain.length })) :=
      h1.on (.of_modSeat ⟨rfl, rfl, rfl, rfl, rfl, rfl, rfl, rfl⟩ rfl id fun _ => id)
    exact h2.trans (Tx.keeps_call _)
  · exact .refl a t

/-- A change of every seat record that keeps settings, notices, undo stacks and absent items. -/
theorem Keeps.of_map {f : Seat → Seat} (h1 : ∀ u, SameSettings u (f u))
    (h2 : ∀ u, (f u).notices = u.notices) (h3 : ∀ u, (f u).undo = u.undo)
    (h4 : ∀ u, u.item = none → (f u).item = none) :
    Keeps a s { s with seats := s.seats.map f } := by
  have hm : ∀ n, State.seat { s with seats := s.seats.map f } n = f (s.seat n) := fun n => by
    simp [State.seat]
  exact
    { frame := rfl
      rev := rfl
      settings := fun n => by rw [hm]; exact h1 _
      items := fun n _ hi => by rw [hm]; exact h4 _ hi
      canonical := id
      notices := fun h => by
        have e : ∀ n, (State.seat { s with seats := s.seats.map f } n).notices = (s.seat n).notices :=
          fun n => by rw [hm, h2]
        simpa only [NoticesAgree, e] using h
      undo := fun h n => by rw [hm, h3]; exact h n }

theorem keeps_dropContexts (g : Rev) : Keeps a s (dropContexts s g) := by
  unfold dropContexts
  refine .of_map (fun u => ?_) (fun u => ?_) (fun u => ?_) (fun u hu => ?_)
  · split <;> [(split <;> [split; skip]); skip] <;> exact ⟨rfl, rfl, rfl, rfl, rfl, rfl, rfl, rfl⟩
  · split <;> [(split <;> [split; skip]); skip] <;> rfl
  · split <;> [(split <;> [split; skip]); skip] <;> rfl
  · simp [hu]

/-- R109. -/
theorem Tx.keeps_restoreGroup (g : EraseGroup) : Tx.Keeps a t (t.restoreGroup g) := by
  unfold Tx.restoreGroup
  have hf : ∀ (ms : List Handle) (t : Tx), Tx.Keeps a t (ms.foldl (Tx.restoreStroke g.id) t) := by
    intro ms
    induction ms with
    | nil => exact fun t => .refl a t
    | cons h ms ih => exact fun t => (Tx.keeps_restoreStroke g.id h).trans (ih _)
  have h1 := hf g.members t
  exact ⟨h1.base, (h1.st.trans (v := { (g.members.foldl (Tx.restoreStroke g.id) t).st with
    eraseQueue := (g.members.foldl (Tx.restoreStroke g.id) t).st.eraseQueue.filter
      fun x => decide (x.id ≠ g.id) }) (.of_same rfl rfl id)).trans (keeps_dropContexts g.id)⟩

theorem Tx.keeps_eraseChain (o : Origin) (n : SeatNo) (k : Nat) (h : Option Handle) (r : Tx × Nat) :
    Tx.Keeps a r.1 (Tx.eraseChain o n k h r).1 := by
  induction k generalizing h r with
  | zero => exact .refl a _
  | succ k ih =>
    obtain ⟨t, c⟩ := r
    cases h with
    | none => exact .refl a _
    | some h =>
      unfold Tx.eraseChain
      dsimp only
      split
      · exact (Tx.keeps_erase h t.rev o false).trans (ih _ (t.erase h t.rev o false, c + 1))
      · exact .refl a _

/-- R106. -/
theorem Tx.keeps_retract (n : SeatNo) (o : Origin) (es : List UndoEntry) (t : Tx)
    (hu : (t.st.seat n).undo.length ≤ 8 → es.length ≤ 8) :
    Tx.Keeps a t (Tx.retract n o es t).1 := by
  induction es generalizing t with
  | nil =>
    exact Tx.keeps_on (f := fun s => s.modSeat n fun u => { u with undo := [] })
      (.of_modSeat ⟨rfl, rfl, rfl, rfl, rfl, rfl, rfl, rfl⟩ rfl (fun _ => Nat.zero_le 8) fun _ => id)
  | cons e es ih =>
    have hk : Tx.Keeps a t (t.on (·.modSeat n fun u => { u with undo := es })) :=
      Tx.keeps_on (.of_modSeat ⟨rfl, rfl, rfl, rfl, rfl, rfl, rfl, rfl⟩ rfl
        (fun h => Nat.le_of_succ_le (hu h)) fun _ => id)
    have hi : Tx.Keeps a t (Tx.retract n o es (t.on (·.modSeat n fun u => { u with undo := es }))).1 :=
      hk.trans (ih _ (by simp [Tx.on, seat_modSeat]))
    unfold Tx.retract
    dsimp only
    split
    · next h =>
      split
      · exact hk.trans (Tx.keeps_eraseChain o
          ((t.on (·.modSeat n fun u => { u with undo := es })).st.store.stroke h.idx).owner
          Config.records (some h) (t.on (·.modSeat n fun u => { u with undo := es }), 0))
      · exact hi
    · split
      · exact hk.trans (Tx.keeps_restoreGroup _)
      · exact hi

/-- R105, R108. -/
theorem Tx.keeps_runRetract (n : SeatNo) (o : Origin) : Tx.Keeps a t (t.runRetract n o).1 := by
  unfold Tx.runRetract
  have h := Tx.keeps_retract (a := a) n o (t.st.seat n).undo t id
  split
  next e =>
  rw [e] at h
  exact h.on (keeps_addNotice n _)

/-! ### Open items -/

/-- R89, R96. -/
theorem Tx.keeps_endItem (n : SeatNo) (c : CloseCause) : Tx.Keeps a t (t.endItem n c) := by
  unfold Tx.endItem
  split
  · exact .refl a t
  · dsimp only
    refine Tx.Keeps.on ?_ (keeps_clearItem n)
    split
    · exact Tx.keeps_closeInk ..
    · exact Tx.keeps_closeEraser ..
    · exact .refl a t
    · exact .refl a t

/-- R96. -/
theorem Tx.keeps_cutSeat (n : SeatNo) : Tx.Keeps a t (t.cutSeat n) := Tx.keeps_endItem n .cut

/-- R97. -/
theorem Tx.keeps_serveCut (n : SeatNo) : Tx.Keeps a t (t.serveCut n) := by
  unfold Tx.serveCut
  split
  · exact (Tx.keeps_cutSeat n).on
      (.of_modSeat ⟨rfl, rfl, rfl, rfl, rfl, rfl, rfl, rfl⟩ rfl id fun _ => id)
  · exact .refl a t

theorem Tx.keeps_serveCuts (ns : List SeatNo) (t : Tx) : Tx.Keeps a t (Tx.serveCuts ns t) := by
  unfold Tx.serveCuts
  induction ns generalizing t with
  | nil => exact .refl a t
  | cons n ns ih => exact (Tx.keeps_serveCut n).trans (ih _)

/-- R81, R85, R90. -/
theorem Tx.keeps_makeDot (o : Origins) (n : SeatNo) (p : HeldPoint) (c : CloseCause) :
    Tx.Keeps a t (t.makeDot o n p c) := by
  unfold Tx.makeDot
  dsimp only
  split
  · exact ((Tx.keeps_refuse o n _).trans (Tx.keeps_lose n 1)).on (keeps_clearItem n)
  · split
    · exact .refl a t
    · next e => exact ((Tx.keeps_openStroke e).trans (Tx.keeps_closeInk ..)).on (keeps_clearItem n)

/-- R81. -/
theorem Tx.keeps_releaseHeld (o : Origins) (n : SeatNo) (p : HeldPoint) (x : Time) (c : CloseCause) :
    Tx.Keeps a t (t.releaseHeld o n p x c) := by
  unfold Tx.releaseHeld
  split
  · exact Tx.keeps_makeDot o n p c
  · exact Tx.Keeps.on (Tx.keeps_on (.of_same rfl rfl id)) (keeps_clearItem n)

/-- R94. -/
theorem Tx.keeps_expireSeat (n : SeatNo) : Tx.Keeps a t (t.expireSeat n) := by
  unfold Tx.expireSeat
  split
  · exact .refl a t
  · split
    · exact .refl a t
    · split
      · exact Tx.keeps_releaseHeld ..
      · exact Tx.keeps_endItem n .expired

/-- R82. -/
theorem Tx.keeps_beginInput (o : Origins) (n : SeatNo) (tag tool layer colour : Byte) (x : Time) :
    Tx.Keeps (some n) t (t.beginInput o n tag tool layer colour x).1 := by
  unfold Tx.beginInput
  dsimp only
  split
  · exact Tx.Keeps.on_pair (.refl _ t) (keeps_captureFault _ _ _ _)
  · split
    · exact Tx.Keeps.on_pair (.refl _ t) (keeps_captureFault _ _ _ _)
    · split
      · exact Tx.Keeps.on_pair (.refl _ t) (keeps_countDiscard n)
      · exact Tx.Keeps.on_pair (Tx.Keeps.on (Tx.keeps_endItem n .superseded) (keeps_setItem n _))
          (keeps_setDeadline n x)

/-- R86. -/
theorem Tx.keeps_orphanPoints (o : Origins) (n : SeatNo) (tag : Byte) (pts : List RawPoint) (x : Time) :
    Tx.Keeps (some n) t (t.orphanPoints o n tag pts x).1 := by
  unfold Tx.orphanPoints
  split
  · exact Tx.Keeps.on_pair (.refl _ t) (keeps_captureFault _ _ _ _)
  · exact Tx.Keeps.on_pair (.trans (Tx.keeps_endItem n .superseded) (Tx.keeps_openPoints ..))
      (keeps_setDeadline n x)

/-- R83. -/
theorem Tx.keeps_pointsInput (o : Origins) (n : SeatNo) (tag : Byte) (pts : List RawPoint) (x : Time) :
    Tx.Keeps (some n) t (t.pointsInput o n tag pts x).1 := by
  unfold Tx.pointsInput
  split
  · exact Tx.keeps_orphanPoints ..
  · split
    · exact Tx.keeps_orphanPoints ..
    · split
      · exact Tx.Keeps.on_pair (Tx.keeps_inkPoints ..) (keeps_setDeadline n x)
      · exact Tx.Keeps.on_pair (Tx.keeps_openPoints ..) (keeps_setDeadline n x)
      · exact Tx.Keeps.on_pair (Tx.keeps_eraserPoints ..) (keeps_setDeadline n x)
      · exact Tx.keeps_orphanPoints ..

/-- R84. -/
theorem Tx.keeps_finishInput (n : SeatNo) (tag : Byte) : Tx.Keeps a t (t.finishInput n tag).1 := by
  unfold Tx.finishInput
  split
  · split
    · exact Tx.keeps_endItem n .plain
    · exact Tx.Keeps.on_pair (.refl _ t) (keeps_countDiscard n)
  · exact Tx.Keeps.on_pair (.refl _ t) (keeps_countDiscard n)

theorem Tx.keeps_endContact (n : SeatNo) (x : Time) : Tx.Keeps a t (t.endContact n x) := by
  unfold Tx.endContact
  split
  · exact Tx.keeps_releaseHeld ..
  · exact Tx.keeps_endItem n .superseded

theorem Tx.keeps_newContact (n : SeatNo) (tool : PenTool) (x : Sample) :
    Tx.Keeps (some n) t (t.newContact n tool x) := by
  have hold : ∀ it : InkTool, Tx.Keeps (some n) t
      (match t.mapped n it.pen x.frame.point with
        | (.point px py w clamped, t') =>
          t'.on (setItem · n (some
            { kind := .held ⟨px, py, w, clamped, x.stamp, it,
                colourOr (t.st.seat n) x.frame.hint, defaultLayer t.st n⟩ }))
        | (_, t') => t') := by
    intro it
    split
    · next e => exact (Tx.keeps_of_mapped e).on (keeps_setItem n _)
    · next e => exact Tx.keeps_of_mapped e
  unfold Tx.newContact
  dsimp only
  refine Tx.Keeps.on ?_ (keeps_setDeadline n x.stamp)
  cases tool
  · exact hold .ink
  · exact hold .highlight
  · exact (Tx.keeps_on (keeps_setItem n _)).trans (Tx.keeps_eraserPoint n _)

/-- R78. -/
theorem Tx.keeps_downInput (n : SeatNo) (tool : PenTool) (x : Sample) :
    Tx.Keeps (some n) t (t.downInput n tool x) := by
  unfold Tx.downInput
  split
  · exact Tx.keeps_on (keeps_captureFault _ _ _ _)
  · split
    · exact Tx.keeps_on (keeps_countDiscard n)
    · exact (Tx.keeps_endContact n x.stamp).trans (Tx.keeps_newContact n tool x)

theorem Tx.keeps_openHeld (n : SeatNo) (p : HeldPoint) (l d : Bool) (x y w : Nat) (c : Bool) :
    Tx.Keeps (some n) t (t.openHeld n p l d x y w c) := by
  unfold Tx.openHeld
  dsimp only
  split
  · exact (Tx.keeps_refuse ..).trans (Tx.keeps_lose n 1)
  · split
    · exact .refl _ t
    · next h t' e =>
      have h1 := (Tx.keeps_openStroke (a := some n) e).trans
        (Tx.keeps_toInk n h (BitVec.ofNat 8 n.val) l d)
      have h2 := h1.trans
        (Tx.keeps_storePoint boardOrigin n h (BitVec.ofNat 8 n.val) l d x y w c)
      split
      · next e2 => rw [e2] at h2; exact h2
      · next e2 => rw [e2] at h2; exact h2.trans (Tx.keeps_lose n 1)

theorem Tx.keeps_moveHeld (n : SeatNo) (p : HeldPoint) (l d : Bool) (r : RawPoint) :
    Tx.Keeps (some n) t (t.moveHeld n p l d r) := by
  unfold Tx.moveHeld
  split
  · next e => exact (Tx.keeps_of_mapped e).on (keeps_modItem n _)
  · next e => exact (Tx.keeps_of_mapped e).on (keeps_modItem n _)
  · next e =>
    split
    · exact Tx.keeps_of_mapped e
    · exact (Tx.keeps_of_mapped e).trans (Tx.keeps_openHeld ..)

/-- R79. -/
theorem Tx.keeps_moveInput (n : SeatNo) (tool : PenTool) (x : Sample) :
    Tx.Keeps (some n) t (t.moveInput n tool x) := by
  unfold Tx.moveInput
  split
  · split
    · exact Tx.keeps_downInput ..
    · exact (Tx.keeps_moveHeld ..).on (keeps_setDeadline n _)
  · split
    · exact Tx.keeps_downInput ..
    · exact (Tx.keeps_inkPoints ..).on (keeps_setDeadline n _)
  · split
    · exact (Tx.keeps_eraserPoint ..).on (keeps_setDeadline n _)
    · exact Tx.keeps_downInput ..
  · exact Tx.keeps_downInput ..

/-- R81. -/
theorem Tx.keeps_upInput (n : SeatNo) (x : Sample) : Tx.Keeps a t (t.upInput n x) := by
  unfold Tx.upInput
  split
  · exact Tx.keeps_releaseHeld ..
  · exact Tx.keeps_endItem n .plain

/-! ### The commit -/

/-- `u` is `s` but for what a commit changes: the watches and their attention sources, the journal, the
store revision, a follow of the display context, and the reclaim demands (R5, R114, R135, R152,
R169). -/
def CommitChange (s u : State) : Prop :=
  u = { s with
    store := { s.store with rev := u.store.rev }
    maint := u.maint, arbiter := u.arbiter, journal := u.journal, display := u.display
    watches := u.watches, attention := u.attention, displayOut := u.displayOut }

theorem CommitChange.trans (h : CommitChange s u) (k : CommitChange u v) : CommitChange s v := by
  unfold CommitChange at *
  rw [h] at k
  exact k

theorem fireWatch_change (es : List ChangeEntry) (s : State) (n : Fin 4) :
    CommitChange s (fireWatch es s n) := by
  unfold fireWatch
  dsimp only
  split
  · split <;> rfl
  · rfl

theorem fireWatches_change (es : List ChangeEntry) (s : State) : CommitChange s (fireWatches es s) := by
  unfold fireWatches
  generalize List.finRange 4 = ns
  induction ns generalizing s with
  | nil => rfl
  | cons n ns ih => exact (fireWatch_change es s n).trans (ih _)

theorem wakeFollow_change (s : State) (es : List ChangeEntry) : CommitChange s (wakeFollow s es) := by
  unfold wakeFollow
  split
  · split <;> rfl
  · rfl

theorem lapFollow_change (s : State) : CommitChange s (lapFollow s) := by
  unfold lapFollow
  split
  · unfold endDisplay withdraw; rfl
  · rfl

theorem publish_change (x : Rev) (es : List ChangeEntry) (s : State) :
    CommitChange s (publish x es s) := by
  have h1 : CommitChange s { s with journal := s.journal.write es, store := { s.store with rev := x } } :=
    rfl
  unfold publish
  dsimp only
  split
  · exact h1.trans (wakeFollow_change _ _)
  · exact (h1.trans (wakeFollow_change _ _)).trans (lapFollow_change _)

theorem demandsAfter_change (b s : State) : CommitChange s (demandsAfter b s) := by
  unfold demandsAfter
  split <;> rfl

/-- A commit changes nothing else. -/
theorem Tx.commit_change (t : Tx) : CommitChange t.st t.commit := by
  unfold Tx.commit
  dsimp only
  refine CommitChange.trans ?_ (demandsAfter_change _ _)
  split
  · rfl
  · exact (fireWatches_change _ _).trans (publish_change _ _ _)

/-- The store revision after a commit: the transaction's when an entry was called for, else as it was
(R5). -/
theorem Tx.commit_rev (t : Tx) :
    t.commit.store.rev = if t.calls.isEmpty then t.st.store.rev else t.rev := by
  unfold Tx.commit
  dsimp only
  rw [demandsAfter_store]
  split
  · rfl
  · unfold publish
    dsimp only
    split <;> simp

end Sys2Proof.Machine
end

