-- ==== Sys2Proof/Tests/Slice0.lean ====
section
/-! SUPPORT. Tests whose expected results come from the manual, and for each statement with hypotheses
a witness: concrete states and operands that meet them, one for each of its clauses. -/

namespace Sys2Proof.Tests

open Sys2Proof Sys2Proof.Machine

/-! ### Helpers -/

/-- A raw point. -/
def pt (x y p : Nat) : RawPoint := ⟨BitVec.ofNat 16 x, BitVec.ofNat 16 y, BitVec.ofNat 16 p⟩

/-- The part some time after the power-on clearance, with nothing waiting, at revision 7. -/
def quiet : State := { State.reset with consoleQueue := [], cls := {}, store := { rev := 7 }, timebase := 1000000 }

/-- A console command waits at the head of the console queue. -/
def asked (code : Byte) (params : Bytes) (s : State) : State :=
  { s with consoleQueue := [.cmd 5 code params] }

/-- A tablet frame waits in Tablet Intake. -/
def framed (f : TabletFrame) (s : State) : State := { s with tabletQueue := [f] }

/-- A sample of contact 1 that has just arrived waits in Board Intake. -/
def touched (ph : Phase) (tool : ContactTool) (p : RawPoint) (s : State) : State :=
  { s with boardQueue := [⟨⟨1, ph, tool, p, 70⟩, s.timebase⟩] }

/-- A seat is ADMITTED. -/
def admitted (n : SeatNo) (s : State) : State := s.modSeat n fun u => { u with state := .admitted }

/-- A seat is ADMITTED with this open item. -/
def holding (n : SeatNo) (k : ItemKind) (s : State) : State :=
  s.modSeat n fun u => { u with state := .admitted, item := some { kind := k, deadline := 2000000 } }

/-- The handle of the one stroke of `inked`. -/
def h0 : Handle := ⟨0, 1⟩

/-- The store holds one stroke in record 0 and block 0, on page 0 and layer 2, of this state and
owner. -/
def inked (st : StrokeState) (n : SeatNo) (s : State) : State :=
  { s with store := { s.store with
      strokes := [(0,
        { state := st, gen := 1, owner := n, layer := 2, tag := 9, openRev := 5, lastRev := 6
          count := 1, chain := [0], box := ⟨98, 102, 98, 102⟩
          closeTime := if st = .opened then none else some 10
          group := if st = .erased then some 6 else none
          eraseRev := if st = .erased then some 6 else none })]
      pool := [(0, [.abs 100 100 4 false])]
      z := [(2, [h0])]
      freeRecs := ⟨1, []⟩
      freeBlocks := ⟨[], 1⟩ } }

/-- Seat 4 draws: its open item is the OPEN stroke of `inked`, tag 9. -/
def inking : State := holding 4 (.ink h0 9) (inked .opened 4 quiet)

/-- Board seat 1 draws the OPEN stroke of `inked`, tag 1. -/
def touching : State := holding 1 (.ink h0 1) (inked .opened 1 quiet)

/-- The group of the ERASED stroke of `inked`. -/
def group6 : EraseGroup := ⟨6, .console, 6, [h0], false⟩

/-- The state a command leaves. -/
def after (i : Instr) (s : State) : State :=
  match exec i s with
  | .next t => t
  | _ => s

/-! ### Well-formedness: an ill-formed term for each check -/

/-- R198: a POINTS frame of no point is refused. -/
theorem test_points_none : (Instr.tabletFrameArrival 1 (.points 0 1 []) 0).wellFormed = false := by
  decide

/-- R198: a POINTS frame of 25 points is refused, one of 24 is not. -/
theorem test_points_25 :
    (Instr.tabletFrameArrival 1 (.points 0 1 (List.replicate 25 (pt 1 1 1))) 0).wellFormed = false ∧
    (Instr.tabletFrameArrival 1 (.points 0 1 (List.replicate 24 (pt 1 1 1))) 0).wellFormed = true := by
  decide

/-- R184: a COMMAND of 500 parameter bytes has a payload of 501 bytes and is refused. -/
theorem test_command_too_long :
    (Instr.command ⟨1, false⟩ 0x0E#8 (List.replicate 500 0)).wellFormed = false ∧
    (Instr.command ⟨1, false⟩ 0x0E#8 (List.replicate 499 0)).wellFormed = true := by
  decide +kernel

/-- R186: a kind its link accepts is no UNKNOWN_KIND. -/
theorem test_known_kind :
    (Instr.unknownKind .tablet 0x25#8 ⟨1, false⟩).wellFormed = false ∧
    (Instr.unknownKind .board 0x25#8 ⟨1, false⟩).wellFormed = true := by
  decide

/-! ### The wire (R184, R185, R198) -/

/-- R184: over the nine bytes 31h to 39h the CRC is 29B1h. -/
theorem test_crc : crc16 [0x31, 0x32, 0x33, 0x34, 0x35, 0x36, 0x37, 0x38, 0x39] = 0x29B1#16 := by
  decide +kernel

/-- R198: the two entries of the worked case of section 3.11 as they are sent. -/
theorem test_entries_as_sent :
    wEntry (.abs 13192 2109 20 false) = [0x33#8, 0x88#8, 0x08#8, 0x3D#8, 0x14#8] ∧
    wEntry (.delta 63 29 1) = [0x80#8, 0x3F#8, 0x1D#8, 0x01#8, 0x00#8] := by
  decide +kernel

/-- R185: noise before a STOP frame is skipped, and a false A7h before it costs one bad frame. -/
theorem test_hunting :
    receive .display false (0x55#8 :: frameBytes 0x44#8 3 []) = [.stop 3] ∧
    receive .display false ([0xA7#8, 0x00#8, 0x00#8, 0xFF#8] ++ frameBytes 0x44#8 3 []) =
      [.badFrame .display, .stop 3] := by
  decide +kernel

/-! ### The Coordinate Mapper: the worked case of section 3.11 and the limits of R56 and R65 -/

/-- Seat 9 of the worked case. -/
def seat9 : Seat :=
  { state := .admitted, mapping := ⟨8192, 4608, 8192, 0⟩, window := ⟨8192, 16383, 0, 4607, .clamp⟩
    pen := ⟨0, .ink, 6, 30, 64⟩, rights := ⟨0b0100#4, .own⟩, quota := 256 }

/-- The two points, and the third point at the window's edge under CLAMP and under DROP. -/
theorem test_worked_case_points :
    mapPoint seat9 .ink (pt 40000 30000 600) = .point 13192 2109 20 false ∧
    mapPoint seat9 .ink (pt 40500 30400 640) = .point 13255 2138 21 false ∧
    mapPoint seat9 .ink (pt 65535 30000 600) = .point 16383 2109 20 true ∧
    mapPoint { seat9 with window := ⟨8192, 16383, 0, 4607, .drop⟩ } .ink (pt 65535 30000 600) =
      .dropped := by
  decide +kernel

/-- R56: at the power-on scale raw 65533 stays on the canvas and raw 65534 is clamped. -/
theorem test_power_on_scale :
    mapPoint {} .ink (pt 65533 0 1023) = .point 16383 0 24 false ∧
    mapPoint {} .ink (pt 65534 65533 1023) = .point 16383 9215 24 true := by
  decide +kernel

/-- R65: the width table of seat 9, the clamped pressure 1500 with it. -/
theorem test_widths :
    ([1, 21, 22, 512, 600, 640, 1023].map fun p => widthOf seat9.pen .ink p) =
      [6, 6, 7, 18, 20, 21, 30] ∧
    pressureOf (pt 0 0 1500) = 1023 := by
  decide +kernel

/-- Seat 9 of the worked case with its armed START, and the frame of the two points waiting. -/
def workedFrame : State :=
  framed (.points 5 14 [pt 40000 30000 600, pt 40500 30400 640])
    (quiet.modSeat 9 fun _ => { seat9 with item := some { kind := .armed 14 .ink 2 0 } })

/-- Section 3.11: the frame of two points opens the stroke with both, in one block. -/
theorem test_worked_case_frame :
    (after .points workedFrame).store.block 0 = [.abs 13192 2109 20 false, .delta 63 29 1] ∧
    ((after .points workedFrame).store.stroke 0).box = ⟨13182, 13266, 2099, 2149⟩ ∧
    ((after .points workedFrame).journal.entries.map fun e => (e.kind, e.first, e.count)) =
      [(.opened, some 0, some 2)] := by
  decide +kernel

/-! ### The life of a stroke: sections 4.9 and 4.10, R93, R104 -/

/-- A touch that was held 5 ms ago, with its UP waiting. -/
def shortTouch : State :=
  touched .up .pen (pt 0 0 0) (holding 1
    (.held ⟨5000, 4219, 10, false, 1000000 - 5000, .ink, 0, 1⟩) quiet)

/-- Section 4.9: an UP 5 ms after the DOWN is a glitch. -/
theorem test_glitch :
    (after .up shortTouch).counters.glitch = 1 ∧ ((after .up shortTouch).seat 1).item = none ∧
    (after .up shortTouch).store.rev = 7 := by
  decide +kernel

/-- Section 4.10: POINTS of another tag supersedes the open stroke and opens an ORPHAN on its layer. -/
theorem test_orphan :
    let t := after .points (framed (.points 0 15 [pt 400 400 600]) inking)
    (t.store.stroke 0).flags.superseded = true ∧ (t.store.stroke 1).flags.orphan = true ∧
      (t.store.stroke 1).layer = 2 ∧ (t.journal.entries.map (·.kind)) = [.closed, .opened] ∧
      (t.seat 4).item.map OpenItem.kind = some (.ink ⟨1, 1⟩ 15) ∧ (t.seat 4).undo = [.ink h0] := by
  decide +kernel

/-- The stroke of `inking` with a full chain of 64 blocks, and one more point waiting. -/
def fullChain : State :=
  framed (.points 0 9 [pt 400 400 600])
    { inking with store := { (inking.store.setStroke 0 { inking.store.stroke 0 with
        count := 1536, chain := (List.range 64).map fun k => Fin.ofNat 8192 k }).setBlock 63
        (List.replicate 24 (.abs 50 50 4 false)) with freeBlocks := ⟨[], 64⟩ } }

/-- R93: the 65th block of a stroke splits it. -/
theorem test_split :
    let t := after .points fullChain
    (t.store.stroke 0).flags.split = true ∧ (t.store.stroke 1).pred = some h0 ∧
      (t.store.stroke 1).count = 1 ∧ (t.seat 4).undo = [] ∧
      (t.seat 4).lastClosed = some (9, h0) := by
  decide +kernel

/-- R104: CLEAR LAYER of 9 strokes writes one LAYER_REFRESH for the layer. -/
theorem test_layer_refresh :
    let e : ChangeEntry := { kind := .erased, rev := 8, time := 0, page := some 0, layer := some 2 }
    eightEntryRule 8 0 (List.replicate 9 e) =
      [{ kind := .layerRefresh, rev := 8, time := 0, page := some 0, layer := some 2 }] ∧
    eightEntryRule 8 0 (List.replicate 8 e) = List.replicate 8 e := by
  decide +kernel

/-! ### Reset, the outbound stream, reply slots, the skip count -/

/-- R29, R160, R197: a FOLLOW that arrives before the power-on clearance has begun is REFUSED with
RESETTING and carries its own r. -/
theorem test_follow_refused_at_reset :
    (after (.follow 4 3 0 0) State.reset).displayOut =
      [⟨4, .done ⟨.refused, .resetting, .follow, none, some 3, 0⟩⟩] := by
  decide +kernel

/-- R183: a TAKEN answer of eight bytes is shifted out over two transfers, and 00h follows it. -/
theorem test_outbound_stream :
    let s : State := { quiet with answers := [.taken 7 47] }
    let t := after (.outboundFrameRead ⟨.tablet, 3⟩) s
    dataOut s .tablet 3 ++ dataOut t .tablet 7 =
      frameBytes 0xA0#8 7 [47#8] ++ List.replicate 2 0#8 ∧
    (after (.outboundFrameRead ⟨.tablet, 5⟩) t).answers = [] ∧
    dataOut quiet .board 2 = [0#8, 0#8] := by
  decide +kernel

/-- The console queue is full, 15 replies are unread and the head command can be granted. -/
def oneSlot : State :=
  { quiet with
    consoleQueue := List.replicate 8 (.cmd 1 0x26#8 [])
    consoleOut := List.replicate 15 (.reply ⟨1, 0x26#8, .ok, []⟩) }

/-- R192: the one slot left is reserved while the head command runs, so that a COMMAND that arrives then finds
a full queue and no slot, and is discarded and counted; one that arrives behind it is queued. -/
theorem test_reserved_slot :
    let s := after .readTime oneSlot
    (after (.command ⟨2, true⟩ 0x26#8 []) s).consoleOut = s.consoleOut ∧
    (after (.command ⟨2, true⟩ 0x26#8 []) s).counters.busyAnswers = 1 ∧
    (after (.command ⟨2, false⟩ 0x26#8 []) s).consoleQueue.length = 8 := by
  decide +kernel

/-- R121, R192, R196: behind a LINK_RESET that falls in a console transaction seven commands find room in the
queue beside the one under way, and the eighth is answered BUSY. -/
theorem test_reset_in_a_transaction :
    let send (t : State) (_ : Nat) : State := after (.command ⟨2, true⟩ 0x26#8 []) t
    let s := (List.range 7).foldl send (after (.linkReset .console ⟨1, false⟩) (after .readTime oneSlot))
    s.consoleQueue.length = 7 ∧ s.consoleOut = [] ∧
    (send s 7).consoleQueue.length = 7 ∧ (send s 7).consoleOut = [.reply ⟨2, 0x26#8, .busy, []⟩] := by
  decide +kernel

/-- R121, R174, R181: what an UNKNOWN_KIND that arrives during READ FAULT and ACK ATTENTION captures stands
after them. -/
theorem test_fault_after_the_transaction :
    let fault (t : State) : State := after (.unknownKind .console 0x20#8 ⟨2, true⟩) t
    (fault (after .readFault (asked 0x23#8 [] quiet))).faults.count = 1 ∧
    (fault (after .ackAttention (asked 0x20#8 [0, 1] quiet))).attention.pending = 1 := by
  decide +kernel

/-- R100: BAR counts the one OPEN stroke it meets and reports it in its reply. -/
theorem test_bar_skip_count :
    (after .bar (asked 0x06#8 [4] inking)).counters.eraseSkip = 1 ∧
    (after .bar (asked 0x06#8 [4] inking)).consoleOut =
      [.reply ⟨5, 0x06#8, .ok, w48 8 ++ List.replicate 7 0#8 ++ [0#8, 1#8]⟩] := by
  decide +kernel

/-! ### Witnesses: the machine, arrivals, display requests -/

/-- StepTakesTheFrontCommand. -/
theorem witness_step : ({ quiet with pending := [.stop 1, .move] } : State).pending = .stop 1 :: [.move] :=
  rfl

/-- A follow that waits until 1000001. -/
def waitingFollow : State :=
  { quiet with display := { state := .waiting, mode := .follow, tag := 3, deadline := some 1000001 } }

/-- TimePassesToTheDeadlines, its three clauses, each deadline one microsecond away. -/
theorem witness_time :
    (FlagsStand quiet ∧ quiet.pending = [] ∧ quiet.display.state ≠ .waiting ∧
      ∀ n i, (quiet.seat n).item = some i → reached (quiet.timebase + 1) i.deadline = false) ∧
    (let s := { inking with timebase := 1999999 };
      (s.seat 4).item.map OpenItem.deadline = some 2000000 ∧ s.cls.state ≠ .resetting ∧
        later 2000000 s.timebase = true) ∧
    waitingFollow.display.deadline = some 1000001 ∧ later 1000001 waitingFollow.timebase = true := by
  refine ⟨⟨by unfold FlagsStand; decide +kernel, rfl, by decide, ?_⟩, by decide +kernel, rfl,
    by decide +kernel⟩
  intro n i h
  have : ∀ n : SeatNo, (quiet.seat n).item = none := by decide +kernel
  rw [this n] at h
  cases h

/-- FirstClearanceGrantClearsSeatsAndWalks, for both commands, the walk of the display running and a
snapshot with it. -/
theorem witness_first_clearance :
    (winner State.reset = some .console ∧ State.reset.consoleQueue = .clearance false :: []) ∧
    let s := asked 0x0C#8 [] { waitingFollow with snapshot := { state := .walking } }
    winner s = some .console ∧ s.cls.state ≠ .resetting ∧
      s.consoleQueue = .cmd 5 0x0C#8 [] :: [] ∧ s.display.running = true ∧
      s.snapshot.running = true := by
  decide +kernel

/-- A clearance under way over `k` records that are not FREE. -/
def clearing (k : Nat) : State :=
  { quiet with
    cls := { quiet.cls with state := .resetting }, consoleQueue := [.clearance true]
    store := { quiet.store with strokes := (List.range k).map fun i =>
      (Fin.ofNat 4096 i, { state := .closed, gen := 1 }) } }

/-- ClearanceGrantFreesLowestRecords, its two clauses at 65 and 64 records, and groups of one member, queued
and under reclaim; `witness_last_clearance` has the agreement of Z lists and pool. -/
theorem witness_clearance :
    (∀ k ∈ [64, 65], StoreCanonical (clearing k) ∧ winner (clearing k) = some .console ∧
      (clearing k).cls.state = .resetting ∧
      (clearing k).consoleQueue.head? ≠ some (.clearance false)) ∧
    64 < (nonFree (clearing 65).store).length ∧ (nonFree (clearing 64).store).length ≤ 64 ∧
    ∀ g ∈ [group6] ++ (some { group6 with id := 5 }).toList, g.members ≠ [] := by
  unfold StoreCanonical
  decide +kernel

/-- Reply slots: none is free for a frame that arrived while the head command of `oneSlot` ran, one is where
one reply fewer was unread, and its slot stays reserved where a LINK_RESET has emptied it. -/
theorem witness_slot :
    let fewer : State := { oneSlot with consoleOut := oneSlot.consoleOut.tail }
    ¬SlotFree (after .readTime oneSlot) true ∧ SlotFree (after .readTime fewer) true ∧
    metSlots (after (.linkReset .console ⟨1, false⟩) (after .readTime oneSlot)) true = 1 ∧
    metSlots (after (.linkReset .console ⟨1, false⟩) (after .readTime oneSlot)) false = 0 := by
  unfold SlotFree metSlots
  decide +kernel

/-- RefusedFramesAreCaptured: kinds that their link does not accept; `witness_slot` has its slots. -/
theorem witness_refused : 0x26#8 ∉ acceptedKinds .tablet ∧ 0x31#8 ∉ acceptedKinds .console := by
  decide

/-- A Board Intake queue of 64 samples: `first` and 63 UPs of contact 3. -/
def fullBoard (first : Sample) : State :=
  { quiet with boardQueue := first :: List.replicate 63 ⟨⟨3, .up, .pen, pt 0 0 0, 0⟩, 5⟩ }

/-- ContactIsPlacedInBoardIntake: a queue with room, and at a full queue a MOVE that replaces the
newest of its contact, a DOWN that removes the oldest MOVE, and no MOVE. -/
theorem witness_contact :
    quiet.boardQueue.length < 64 ∧ (fullBoard ⟨⟨1, .move, .pen, pt 0 0 0, 0⟩, 5⟩).boardQueue.length = 64 ∧
    (∀ z ∈ List.replicate 63 (⟨⟨3, .up, .pen, pt 0 0 0, 0⟩, 5⟩ : Sample), z.frame.contact ≠ 1) ∧
    (∀ y ∈ (fullBoard ⟨⟨1, .down, .pen, pt 0 0 0, 0⟩, 5⟩).boardQueue, y.frame.phase ≠ .move) := by
  decide +kernel

/-- TabletFrameIsTakenOrHeld at 47 and 48 queued frames. -/
theorem witness_tablet_frame :
    let s (k : Nat) : State := { quiet with tabletQueue := List.replicate k (.undo 1) }
    (s 47).tabletQueue.length < 48 ∧ 48 ≤ (s 48).tabletQueue.length ∧
    (TabletFrame.points 31 1 (List.replicate 24 (pt 1 1 1))).wellFormed = true := by
  decide +kernel

/-- 64 unread answers, the first of them begun. -/
def fullAnswers (a b : Answer) : State :=
  { quiet with answers := a :: b :: List.replicate 62 (.noticeList 1 []), shifted := { tablet := 1 } }

/-- The unread answers make room: 63 of them; a begun HELD, an empty list and a HELD that leaves; and a
begun list and an empty list that leaves. -/
theorem witness_room :
    (MakesRoom { quiet with answers := List.replicate 63 (.held 1) } (List.replicate 63 (.held 1))) ∧
    (MakesRoom (fullAnswers (.held 1) (.held 2)) (.held 1 :: List.replicate 62 (.noticeList 1 []))) ∧
    MakesRoom (fullAnswers (.noticeList 1 []) (.noticeList 2 []))
      (.noticeList 1 [] :: List.replicate 62 (.noticeList 1 [])) := by
  refine ⟨.inl ⟨by decide, rfl⟩,
    .inr ⟨[.held 1], [], .held 2, List.replicate 62 (.noticeList 1 []), by decide, rfl, rfl, rfl,
      .inl ⟨.inr ⟨2, rfl⟩, fun x hx => by cases hx⟩⟩,
    .inr ⟨[.noticeList 1 []], [], .noticeList 2 [], List.replicate 62 (.noticeList 1 []), by decide, rfl,
      rfl, rfl, .inr ⟨⟨2, rfl⟩, by simp, fun x hx => ?_⟩⟩⟩
  rw [List.nil_append] at hx
  rw [List.eq_of_mem_replicate hx]
  rintro (⟨g, k, h⟩ | ⟨g, h⟩) <;> cases h

/-- What is shifted out while a tablet frame is shifted in: nothing, which leaves the buffers of
`witness_room`; three bytes of the front answer, which begin it; and the whole of it. -/
theorem witness_clocked :
    answersClocked { quiet with answers := List.replicate 63 (.held 1) } 0 =
      { quiet with answers := List.replicate 63 (.held 1) } ∧
    answersClocked (fullAnswers (.held 1) (.held 2)) 0 = fullAnswers (.held 1) (.held 2) ∧
    answersClocked { fullAnswers (.held 1) (.held 2) with shifted := {} } 3 =
      { fullAnswers (.held 1) (.held 2) with shifted := { tablet := 3 } } ∧
    (answersClocked (fullAnswers (.held 1) (.held 2)) 7).answers.length = 63 ∧
    (TabletFrame.points 31 1 []).wellFormed = false := by
  decide +kernel

/-- R183, R188: an answer whose first byte is shifted out during the frame that fills the buffer stays,
and the next HELD makes room. -/
theorem test_begun_during_the_frame :
    let s : State := { fullAnswers (.held 1) (.held 2) with shifted := {} }
    (after (.noticeRead ⟨9, false⟩ 1) s).answers =
      .held 1 :: List.replicate 62 (.noticeList 1 []) ++ [.noticeList 9 []] ∧
    (after (.noticeRead ⟨9, false⟩ 0) s).answers =
      .held 2 :: List.replicate 62 (.noticeList 1 []) ++ [.noticeList 9 []] := by
  decide +kernel

/-- Nine tablet seats are ADMITTED with that notice pending, the first of them seat 4, which MUTE waits for. -/
def muting : State :=
  asked 0x04#8 [4] ((tabletSeats.take 9).foldl (fun s n => addNotice (admitted n s) n .admitted) quiet)

/-- R48: a NOTICE_READ that arrives while MUTE runs lists eight seats as they stood before it; the muted seat
rejoins at the tail with the new kind alone. One that arrives behind MUTE lists what it left. -/
theorem test_notices_before_the_transaction :
    let s := after .mute muting
    let item (k : Nat) : NoticeItem := ⟨k, 1, .admitted, 0⟩
    (after (.noticeRead ⟨9, true⟩ 0) s).answers = [.noticeList 9 ((List.range 8).map item)] ∧
    (after (.noticeRead ⟨9, true⟩ 0) s).noticeQueue = [12, 4] ∧
    ((after (.noticeRead ⟨9, true⟩ 0) s).seat 4).notices = 0b100#11 ∧
    (after (.noticeRead ⟨9, false⟩ 0) s).answers =
      [.noticeList 9 (⟨0, 0b100#11, .muted, 0⟩ :: (List.range 7).map fun k => item (k + 1))] ∧
    (after (.noticeRead ⟨9, false⟩ 0) s).noticeQueue = [12] := by
  decide +kernel

/-- R48: a NOTICE_READ that arrives while SHOW PAGE runs lists the page shown before it. -/
theorem test_page_before_the_transaction :
    let s := after .showPage (asked 0x0B#8 [3] (addNotice (admitted 4 quiet) 4 .admitted))
    (after (.noticeRead ⟨9, true⟩ 0) s).answers = [.noticeList 9 [⟨0, 1, .admitted, 0⟩]] ∧
    ((after (.noticeRead ⟨9, true⟩ 0) s).seat 4).notices = BitVec.twoPow 11 9 ∧
    (after (.noticeRead ⟨9, false⟩ 0) s).answers = [.noticeList 9 [⟨0, 0x201#11, .admitted, 3⟩]] := by
  decide +kernel

/-- NoticeReadEmptiesTheListedSets: no list unread, with and without a transaction it arrived in, and a list
unread; `witness_room` has their buffers. -/
theorem witness_notice_read :
    (∀ a ∈ List.replicate 63 (Answer.held 1), ∀ g items, a ≠ .noticeList g items) ∧
    (after .mute muting).answers = [] ∧ (after .mute muting).noticeBasis.isSome = true ∧
    quiet.noticeBasis = none ∧
    ∃ a ∈ (fullAnswers (.held 1) (.held 2)).answers, ∃ g items, a = .noticeList g items := by
  refine ⟨fun a ha g items => ?_, by decide +kernel, by decide +kernel, rfl, .noticeList 1 [], by decide, 1, [],
    rfl⟩
  rw [List.eq_of_mem_replicate ha]
  simp

/-- CommandIsQueuedOrAnsweredAtOnce: 7 and 8 queued commands, the one under way counting, with the codes 01h,
27h and 28h (`witness_slot` has the reply slots), and a READ STATUS with a parameter byte too many. -/
theorem witness_command :
    metQueued (after .readTime oneSlot) false < 8 ∧ 8 ≤ metQueued (after .readTime oneSlot) true ∧
    8 ≤ metQueued oneSlot false ∧
    (1 ≤ (0x01#8).toNat ∧ (0x27#8).toNat ≤ 0x27) ∧ 0x27 < (0x28#8).toNat ∧
    (List.replicate 499 (0 : Byte)).length ≤ 499 ∧
    ConsoleTurn (asked 0x0E#8 [0] quiet) 0x0E#8 5 [0] ∧
    ∃ ok, (0x0E#8, Instr.readStatus, ok) ∈ commandFormats ∧ ok [0] = false := by
  refine ⟨by unfold metQueued; decide +kernel, by unfold metQueued; decide +kernel,
    by unfold metQueued; decide +kernel, by decide, by decide, List.length_replicate.le,
    by unfold ConsoleTurn; decide +kernel, fits [], ?_, rfl⟩
  simp [commandFormats]

/-- A WALK_DONE under a tag. -/
def doneOf (tag : Byte) : TaggedRecord := ⟨tag, .done ⟨.finished, .none, .sweepAll, some 7, none, 0⟩⟩

/-- A frame waits on each link that sends, on the Display Link the last WALK_DONE with a request held. -/
def outbound : State :=
  { quiet with
    answers := [.held 1], consoleOut := [.reply ⟨1, 0x0E#8, .ok, []⟩]
    displayOut := [doneOf 1], displayPending := some (2, .resume 0) }

/-- OutboundFrameReadFreesTheFront: no frame, a part of one, the whole of one, a WALK_DONE behind the one
read, and the last WALK_DONE with a request held. -/
theorem witness_outbound_read :
    outboundFrames quiet .tablet = [] ∧
    (∀ l ∈ [Link.tablet, .console, .display],
      outboundFrames outbound l ≠ [] ∧ 1 < (frontRest outbound l).length) ∧
    outbound.answers = .held 1 :: [] ∧ outbound.consoleOut = .reply ⟨1, 0x0E#8, .ok, []⟩ :: [] ∧
    (∃ q ∈ [doneOf 2], ∃ d, q.body = .done d) ∧
    outbound.displayOut = doneOf 1 :: [] ∧ (∃ d, (doneOf 1).body = .done d) ∧
    (∀ x ∈ ([] : List TaggedRecord), ∀ d, x.body ≠ .done d) ∧
    outbound.displayPending = some (2, .resume 0) :=
  ⟨rfl, by decide +kernel, rfl, rfl, ⟨doneOf 2, List.mem_singleton.2 rfl, _, rfl⟩, rfl, ⟨_, rfl⟩,
    by simp, rfl⟩

/-- ReplyLinkResetEmptiesItsBuffer: commands not started, a clearance at the head in OPEN, and a RESETTING
class; `test_reset_in_a_burst` has a reset in a burst. -/
theorem witness_reply_link_reset :
    (let s := asked 0x0E#8 [] quiet;
      s.cls.state ≠ .resetting ∧ ∀ b, s.consoleQueue.head? ≠ some (.clearance b)) ∧
    State.reset.consoleQueue = .clearance false :: [] ∧
    (clearing 1).consoleQueue = .clearance true :: [] ∧ (clearing 1).cls.state = .resetting := by
  decide +kernel

/-- A display walk that ended with LIMIT. -/
def limited : State :=
  { quiet with display := { state := .done, mode := .sweepAll, tag := 3, endStatus := some (.limit, .none) } }

/-- DisplayRequestIsAcceptedRefusedOrHeld: a walk for each request, a refusal for each reason, and a
request that is held. -/
theorem witness_display_request :
    (∀ s ∈ [quiet, limited, waitingFollow], displayDones s = 0 ∧ s.cls.state ≠ .resetting) ∧
    (∃ c, walkOf quiet 9 (.sweep (.layer 15 3) 65) c) ∧ (∃ c, walkOf limited 9 (.resume 0) c) ∧
    (∃ c, walkOf quiet 9 (.follow 7 0 0) c) ∧ (∃ c, walkOf quiet 9 (.fetch ⟨4095, 0⟩) c) ∧
    refusalOf quiet (.sweep (.layer 16 0) 0) .range ∧ refusalOf quiet (.resume 0) .state ∧
    refusalOf quiet (.fetch ⟨4096, 0⟩) .range ∧ refusalOf State.reset (.follow 3 0 0) .resetting ∧
    displayDones State.reset = 0 ∧ waitingFollow.display.running = true ∧ displayDones outbound ≠ 0 := by
  refine ⟨by decide, ⟨_, 0, _, rfl, rfl⟩, ⟨_, rfl, ⟨_, rfl⟩, rfl⟩, ⟨_, rfl⟩,
    ⟨_, by decide, rfl⟩, .inr ⟨by decide, rfl, rfl⟩, .inr ⟨by decide, ?_, rfl⟩,
    .inr ⟨by decide, by decide, rfl⟩, .inl ⟨rfl, rfl⟩, rfl, rfl, by decide⟩
  rintro ⟨h, -⟩
  exact absurd h (by decide)

/-- StopEndsTheWalk: a WAITING walk, a DONE one, and none. -/
theorem witness_stop :
    waitingFollow.display.state = .waiting ∧ limited.display.state = .done ∧
    quiet.display.state = .idle := by
  decide

/-- InputIsDisposedOf: a contact and a slot for a seat that is not ADMITTED, a contact and a slot that
name no seat at the first number above their range, a FROZEN and a RESETTING class, a FINGER sample, and
console input for seat 40, of no point, and on layer 4. -/
theorem witness_disposed :
    (let s := (touched .down .pen (pt 1 1 1) quiet).modSeat 1 fun u => { u with state := .vacant };
      BoardTurn s ⟨⟨1, .down, .pen, pt 1 1 1, 70⟩, 1000000⟩ ∧ seatOfContact 1 = some 1 ∧
        (s.seat 1).state = .vacant) ∧
    (let x : Sample := ⟨⟨4, .up, .pen, pt 1 1 1, 0⟩, 5⟩;
      BoardTurn { quiet with boardQueue := [x] } x ∧ seatOfContact 4 = none) ∧
    (let s := framed (.hand 0 true) quiet;
      TabletTurn s (.hand 0 true) ∧ seatOfSlot 0 = some 4 ∧ (s.seat 4).state = .vacant) ∧
    (TabletTurn (framed (.undo 32) quiet) (.undo 32) ∧ seatOfSlot 32 = none) ∧
    (let s := framed (.finish 31 1) { quiet with cls := { quiet.cls with state := .frozen } };
      TabletTurn s (.finish 31 1) ∧ s.cls.state = .frozen) ∧
    TabletTurn (framed (.finish 31 1) (clearing 1)) (.finish 31 1) ∧
    (let s := touched .move .finger (pt 1 1 1) quiet;
      BoardTurn s ⟨⟨1, .move, .finger, pt 1 1 1, 70⟩, 1000000⟩ ∧ (s.seat 1).state = .admitted ∧
        s.cls.options.fingerInk = false) ∧
    ConsoleTurn (asked 0x11#8 [40, 9] quiet) 0x11#8 5 [40, 9] ∧
    ConsoleTurn (asked 0x10#8 [36, 9, 0, 0] quiet) 0x10#8 5 [36, 9, 0, 0] ∧
    ¬(1 ≤ ([] : List RawPoint).length) ∧
    ConsoleTurn (asked 0x0F#8 [36, 9, 0, 4, 1] quiet) 0x0F#8 5 [36, 9, 0, 4, 1] ∧
    (quiet.seat 36).state = .admitted := by
  unfold BoardTurn TabletTurn ConsoleTurn
  decide +kernel

/-! ### Witnesses: drawing -/

/-- A drawing frame of the seat is delivered. -/
theorem delivered_frame {s : State} {n : SeatNo} {i : DrawInput} {f : TabletFrame} {row : Instr}
    (slot : Byte) (hf : f = i.frame slot) (hr : row = i.tabletRow) (hc : s.cls.state = .opened)
    (hn : seatOfSlot slot = some n) (hw : winner (framed f s) = some .tablet) (r : Result) (data : Bytes) :
    Delivered (framed f s) n i row r data (tabletTaken (framed f s)) id :=
  .inl ⟨hr, hc, rfl, rfl, slot, hn, hw, congrArg some hf⟩

/-- A drawing command of the seat is delivered. -/
theorem delivered_command {s : State} {n : SeatNo} {i : DrawInput} {code : Byte} {ps : Bytes}
    {row : Instr} (hk : code = i.code) (hp : ps = i.params n) (hr : row = i.consoleRow)
    (hn : 36 ≤ n.val) (hc : s.cls.state ≠ .resetting)
    (hw : winner (asked code ps s) = some .console) (r : Result) (data : Bytes) :
    Delivered (asked code ps s) n i row r data (decideGrant (asked code ps s) .console)
      (answered ⟨5, code, r, data⟩) := by
  subst hk hp
  exact .inr ⟨hr, hn, rfl, 5, rfl, hw, hc, rfl⟩

/-- A sample of seat 1 is presented. -/
theorem board_input {s : State} {row : Instr} {ph : Phase} {tool : ContactTool} {p : RawPoint}
    {eraser : Bool} (hw : winner (touched ph tool p s) = some .board) (hc : s.cls.state ≠ .resetting)
    (hr : (row, ph) ∈ [(Instr.down, Phase.down), (.move, .move), (.up, .up)])
    (ht : if eraser then tool = .eraser
      else tool = .pen ∨ (tool = .finger ∧ s.cls.options.fingerInk = true)) :
    BoardInput (touched ph tool p s) 1 row ⟨⟨1, ph, tool, p, 70⟩, s.timebase⟩ eraser :=
  ⟨⟨hw, rfl⟩, hc, rfl, hr, ht⟩

/-- A seat whose open item is of another kind has no open ink stroke. -/
theorem not_ink {s : State} {n : SeatNo} {k : ItemKind} {tag : Byte}
    (h : (s.seat n).item.map OpenItem.kind = some k) (hk : ∀ h, k ≠ .ink h tag) :
    ∀ h, ¬InkOpen s n h tag :=
  fun g hg => hk g (Option.some.inj (h.symm.trans hg.1))

/-- The Stroke Table has a record at most in place 0, and the Z lists agree with it. -/
abbrev OneRecord (s : State) : Prop :=
  (∀ x ∈ s.store.strokes, x.1 = 0) ∧
    (∀ p l, ((s.store.zlist p l).map Handle.idx).Nodup ∧ ∀ h ∈ s.store.zlist p l,
      s.store.live h = true ∧ (s.store.stroke h.idx).page = p ∧ (s.store.stroke h.idx).layer = l) ∧
    ((s.store.stroke 0).state ≠ .free →
      (⟨0, (s.store.stroke 0).gen⟩ : Handle) ∈
        s.store.zlist (s.store.stroke 0).page (s.store.stroke 0).layer ∧ 0 < s.store.freeRecs.fresh) ∧
    s.store.freeRecs.freed = []

/-- The Z lists of a store of one record at most agree. -/
theorem agrees {s : State} (h : OneRecord s) : ZListsAgree s := by
  obtain ⟨hs, hz, h0, hf⟩ := h
  have hr : ∀ i : RecIdx, i ≠ 0 → s.store.stroke i = {} := by
    intro i hi
    unfold Store.stroke
    generalize s.store.strokes = t at hs
    induction t with
    | nil => rfl
    | cons x t ih =>
      have hx : x.1 ≠ i := (hs x List.mem_cons_self).trans_ne hi.symm
      rw [lookupAt, if_neg hx]
      exact ih fun y hy => hs y (List.mem_cons_of_mem _ hy)
  have hn : ∀ i, (s.store.stroke i).state ≠ .free → i = 0 := by
    intro i hi
    by_contra h
    rw [hr i h] at hi
    exact hi rfl
  refine ⟨hz, fun i hi => ?_, hf ▸ List.nodup_nil, hf ▸ fun i hi => (by cases hi), fun i hi => ?_⟩
  · have := hn i hi
    subst this
    exact (h0 hi).1
  · by_contra hi'
    have := hn i hi'
    subst this
    rcases hi with hi | hi
    · rw [hf] at hi
      cases hi
    · exact absurd (h0 hi').2 (Nat.not_lt.2 hi)

/-- A clearance under way over the stroke of `inked`. -/
def clearingInk : State :=
  { inked .closed 4 quiet with cls := { quiet.cls with state := .resetting }, consoleQueue := [.clearance true] }

/-- ClearanceGrantFreesLowestRecords, its last grant with the Z lists and the pool in agreement. -/
theorem witness_last_clearance :
    StoreCanonical clearingInk ∧ winner clearingInk = some .console ∧ clearingInk.cls.state = .resetting ∧
    clearingInk.consoleQueue.head? ≠ some (.clearance false) ∧
    (nonFree clearingInk.store).length ≤ 64 ∧ ZListsAgree clearingInk ∧ PoolAgrees clearingInk := by
  have hr : ∀ i : RecIdx, i ≠ 0 → clearingInk.store.stroke i = {} := fun i hi => if_neg (Ne.symm hi)
  refine ⟨by unfold StoreCanonical; decide +kernel, by decide +kernel, rfl, by decide, by decide +kernel,
    agrees (by decide +kernel), by decide +kernel, by simp [clearingInk, inked, quiet, chainBlocks],
    by simp [clearingInk, inked, quiet, FreeStack.size, chainBlocks, Config.blocks], fun i => ?_⟩
  by_cases hi : i = 0
  · subst hi
    refine ⟨fun h => absurd h (by decide), fun _ => ⟨by decide, by decide, by decide, fun k b hb => ?_⟩⟩
    match k with
    | 0 => cases hb; exact ⟨by decide +kernel, 100, 100, 4, false, by decide +kernel, fun _ => rfl⟩
    | k + 1 => cases hb
  · simp only [hr i hi]
    exact ⟨fun _ => trivial, fun h => absurd rfl h⟩

/-- Seat 36 draws the OPEN stroke of `inked`, tag 9. -/
def consoleInking : State := holding 36 (.ink h0 9) (inked .opened 36 quiet)

/-- EndFinishesTheOpenItem: END and END STROKE on an open stroke, END on an armed START, on an eraser
context with a group and of another tag; UP on a stroke and without an item. -/
theorem witness_end :
    (∀ r d, Delivered (framed (.finish 0 9) inking) 4 (.finish 9) .endFrame r d
      (tabletTaken (framed (.finish 0 9) inking)) id) ∧
    InkOpen (cutServed 4 ⟨tabletTaken (framed (.finish 0 9) inking), []⟩).st 4 h0 9 ∧
    (∀ r d, ∃ u fin, Delivered (asked 0x11#8 [36, 9] consoleInking) 36 (.finish 9) .endStroke r d u fin) ∧
    (∀ k ∈ [ItemKind.armed 9 .ink 2 0, .eraser 9 2 0 (some 6)],
      let s := framed (.finish 0 9) (holding 4 k quiet)
      winner s = some .tablet ∧ tagOf 4 k = 9 ∧
        ∀ h, ¬InkOpen (cutServed 4 ⟨tabletTaken s, []⟩).st 4 h 9) ∧
    tagOf 4 (.ink h0 9) ≠ 8 ∧
    (∀ s ∈ [touching, quiet],
      BoardInput (touched .up .pen (pt 0 0 0) s) 1 .up ⟨⟨1, .up, .pen, pt 0 0 0, 70⟩, s.timebase⟩ false ∧
      ∀ p, ((s.seat 1).item.map OpenItem.kind) ≠ some (.held p)) := by
  refine ⟨delivered_frame 0 rfl rfl rfl (by decide) (by decide +kernel),
    by unfold InkOpen; decide +kernel, fun r d => ⟨_, _, delivered_command (by rfl) (by decide) (by rfl)
      (by decide) (by decide) (by decide +kernel) r d⟩, ?_, by decide, ?_⟩
  · intro k hk
    rcases List.mem_cons.1 hk with rfl | hk
    · exact ⟨by decide +kernel, rfl, not_ink (k := .armed 9 .ink 2 0) (by decide +kernel) (by simp)⟩
    · rw [List.mem_singleton.1 hk]
      exact ⟨by decide +kernel, rfl,
        not_ink (k := .eraser 9 2 0 (some 6)) (by decide +kernel) (by simp)⟩
  · intro s hs
    rcases List.mem_cons.1 hs with rfl | hs
    · have h : (touching.seat 1).item.map OpenItem.kind = some (.ink h0 1) := by decide +kernel
      exact ⟨board_input (by decide +kernel) (by decide) (by decide) (by decide), by rw [h]; simp⟩
    · rw [List.mem_singleton.1 hs]
      have h : (quiet.seat 1).item.map OpenItem.kind = none := by decide +kernel
      exact ⟨board_input (by decide +kernel) (by decide) (by decide) (by decide), by rw [h]; simp⟩

/-- StartBeginsAnItem: an ink START, an ERASER START STROKE, one at quota, one on a layer outside the
mask, the last layer, and one on layer 4. -/
theorem witness_start :
    (∀ r d, Delivered (framed (.begin 0 9 0 2 63) (admitted 4 quiet)) 4 (.begin 9 0 2 63) .start r d
      (tabletTaken (framed (.begin 0 9 0 2 63) (admitted 4 quiet))) id) ∧
    (∀ r d, ∃ u fin, Delivered (asked 0x0F#8 [36, 9, 2, 3, 64] quiet) 36 (.begin 9 2 3 64) .startStroke r d
      u fin) ∧
    (layerOfByte 2 = some 2 ∧ inMask ((admitted 4 quiet).seat 4).rights.layers 2 = true ∧
      ¬((admitted 4 quiet).seat 4).quota ≤ ((admitted 4 quiet).seat 4).blocksHeld) ∧
    (let s := (admitted 4 quiet).modSeat 4 fun u => { u with quota := 0 };
      (s.seat 4).quota ≤ (s.seat 4).blocksHeld) ∧
    inMask ((admitted 4 quiet).seat 4).rights.layers 3 = false ∧ layerOfByte 4 = none :=
  ⟨delivered_frame 0 rfl rfl rfl (by decide) (by decide +kernel),
    fun r d => ⟨_, _, delivered_command (by rfl) (by decide) (by rfl) (by decide) (by decide)
      (by decide +kernel) r d⟩, by decide +kernel, by decide +kernel, by decide +kernel, by decide⟩

/-- Seat 4 is armed by a START of tag 9. -/
def armed : State := holding 4 (.armed 9 .ink 2 0) quiet

/-- A POINTS of one point, a lift or of pressure 600, for slot 0 and this tag. -/
def onePoint (tag : Byte) (p : Nat) : TabletFrame := .points 0 tag [pt 400 400 p]

/-- A frame of a lift and a coded point, and one of 24 coded points. -/
def someFrames : List (List RawPoint) :=
  [[pt 400 400 0, pt 400 400 600], List.replicate 24 (pt 400 400 600)]

/-- The Stroke Table has no free record. -/
def fullTable (s : State) : State := { s with store := { s.store with freeRecs := ⟨4096, []⟩ } }

/-- Seat 4 has no block left in its quota. -/
def noQuota (s : State) : State := s.modSeat 4 fun u => { u with quota := 0 }

/-- The Point Pool has no free block. -/
def noBlock (s : State) : State := { s with store := { s.store with freeBlocks := ⟨[], 8192⟩ } }

/-- The free blocks are within the reserve. -/
def lowPool (s : State) : State := { s with store := { s.store with freeBlocks := ⟨[], 8000⟩ } }

/-- The four shortages, in the order of R90 and R91, and none. -/
theorem witness_shortage :
    shortage (fullTable armed) 4 true = some .table ∧ shortage (fullTable armed) 4 false = none ∧
    shortage (noQuota armed) 4 true = some .quota ∧ shortage (lowPool armed) 4 true = some .reserve ∧
    shortage (noBlock quiet) 36 true = some .pool ∧ shortage (lowPool quiet) 36 true = none := by
  decide +kernel

/-- FirstPointOpensTheStroke: frames of several points and of 24, for an armed START, no item and a superseded
stroke, and an ADD POINTS of one; the Z lists agree in each; a mask without layers; and what a frame comes to:
a lift and a point stored, and 24 lost at a full table. -/
theorem witness_first_point :
    (∀ s ∈ [armed, admitted 4 quiet, inking, fullTable armed], ∀ pts ∈ someFrames, ∀ r d,
      Delivered (framed (.points 0 10 pts) s) 4 (.points 10 pts) .points r d
        (tabletTaken (framed (.points 0 10 pts) s)) id) ∧
    (∀ s ∈ [armed, admitted 4 quiet, inking, fullTable armed], ∀ f, ZListsAgree (framed f s)) ∧
    (∀ r d, ∃ u fin, Delivered (asked 0x10#8 ([36, 9, 0, 1] ++ [1, 144, 1, 144, 2, 88]) quiet)
      36 (.points 9 [pt 400 400 600]) .addPoints r d u fin) ∧
    (armed.seat 4).item.map OpenItem.kind = some (.armed 9 .ink 2 0) ∧
    orphanOf (admitted 4 quiet) 4 9 = some ⟨0, 2, .ink, 0, 9, true, none⟩ ∧
    orphanOf inking 4 10 = some ⟨0, 2, .ink, 0, 10, true, none⟩ ∧
    orphanOf ((admitted 4 quiet).modSeat 4 fun u => { u with rights := ⟨0, .own⟩ }) 4 9 = none ∧
    mapPoint { window := ⟨0, 16383, 0, 9215, .drop⟩ } .ink (pt 65535 0 1) = .dropped ∧
    (∀ pts ∈ someFrames,
      let sp : OpenSpec := ⟨0, 2, .ink, 0, 9, false, none⟩
      (pointsOpening (originOf .points) 4 sp pts ⟨armed, []⟩).stored = 1 ∧
      (pointsOpening (originOf .points) 4 sp pts ⟨fullTable armed, []⟩).refused = some .table) := by
  refine ⟨?_, ?_, ?_, by decide +kernel, by decide +kernel, by decide +kernel, by decide +kernel,
    by decide +kernel, by decide +kernel⟩
  · have hw : ∀ s ∈ [armed, admitted 4 quiet, inking, fullTable armed], ∀ pts ∈ someFrames,
        winner (framed (.points 0 10 pts) s) = some .tablet ∧ s.cls.state = .opened := by decide +kernel
    intro s hs pts hp
    exact delivered_frame 0 rfl rfl (hw s hs pts hp).2 (by decide) (hw s hs pts hp).1
  · have h : ∀ s ∈ [armed, admitted 4 quiet, inking, fullTable armed], OneRecord s := by decide +kernel
    exact fun s hs _ => agrees (h s hs)
  · exact fun r d => ⟨_, _, delivered_command (by rfl) (by decide +kernel) (by rfl) (by decide)
      (by decide) (by decide +kernel) r d⟩

/-- The stroke of `inking` with its only block full. -/
def fullBlock : State :=
  { inking with store := inking.store.setBlock 0 (List.replicate 24 (.abs 50 50 4 false)) }

/-- PointExtendsTheOpenStroke: POINTS, ADD POINTS and a MOVE; a block with room, a full one and a full chain,
the two with and without a refusal, and what two points come to there. -/
theorem witness_extend :
    (∀ s ∈ [inking, fullBlock, fullChain, noQuota fullBlock, fullTable fullChain], ∀ pts ∈ someFrames,
      ∀ r d, PointsDelivered (framed (.points 0 9 pts) s) 4 9 pts false .points r d
        (tabletTaken (framed (.points 0 9 pts) s)) id s.timebase) ∧
    (∀ r d, ∃ u fin, PointsDelivered (asked 0x10#8 ([36, 9, 0, 1] ++ [1, 144, 1, 144, 2, 88]) consoleInking)
      36 9 [pt 400 400 600] false .addPoints r d u fin 1000000) ∧
    (∀ r d, PointsDelivered (touched .move .pen (pt 400 400 600) touching) 1 1 [pt 400 400 600] false .move
      r d (boardTaken (touched .move .pen (pt 400 400 600) touching)) id 1000000) ∧
    (∀ s ∈ [inking, fullBlock, fullChain, noQuota fullBlock, fullTable fullChain],
      ∀ f, ZListsAgree (framed f s)) ∧
    (∀ s ∈ [inking, fullBlock, fullChain, noQuota fullBlock, fullTable fullChain],
      (s.seat 4).item.map OpenItem.kind = some (.ink h0 9) ∧
      (s.seat 4).cutDue = false ∧ s.store.live h0 = true ∧ (s.store.stroke 0).state = .opened ∧
      (s.store.stroke 0).chain ≠ [] ∧ s.store.lastPoint 0 ≠ none) ∧
    (∀ s ∈ [inking, fullBlock, fullChain],
      (pointsDrawn (originOf .points) 4 [pt 400 400 600, pt 404 400 600] ⟨s, []⟩ 0).stored = 2) ∧
    (pointsDrawn (originOf .points) 4 [pt 400 400 600, pt 404 400 600] ⟨noQuota fullBlock, []⟩ 0).refused =
      some .quota ∧
    (pointsDrawn (originOf .points) 4 [pt 400 400 600, pt 404 400 600] ⟨fullTable fullChain, []⟩ 0).refused =
      some .table := by
  have hw : ∀ s ∈ [inking, fullBlock, fullChain, noQuota fullBlock, fullTable fullChain],
      ∀ pts ∈ someFrames, winner (framed (.points 0 9 pts) s) = some .tablet ∧ s.cls.state = .opened ∧
        1 ≤ pts.length ∧ pts.length ≤ 24 := by decide +kernel
  refine ⟨fun s hs pts hp r d => .inl ⟨delivered_frame 0 (by rfl) (by rfl) (hw s hs pts hp).2.1 (by decide)
      (hw s hs pts hp).1 r d, (hw s hs pts hp).2.2.1, (hw s hs pts hp).2.2.2, rfl⟩, ?_, ?_, ?_,
    by decide +kernel, by decide +kernel, by decide +kernel, by decide +kernel⟩
  · exact fun r d => ⟨_, _, .inl ⟨delivered_command (by rfl) (by decide +kernel) (by rfl) (by decide)
      (by decide) (by decide +kernel) r d, by decide, by decide, rfl⟩⟩
  · exact fun r d => .inr ⟨rfl, rfl, rfl, _,
      board_input (by decide +kernel) (by decide) (by decide) (by decide), rfl, rfl⟩
  · have h : ∀ s ∈ [inking, fullBlock, fullChain, noQuota fullBlock, fullTable fullChain],
      OneRecord s := by decide +kernel
    exact fun s hs _ => agrees (h s hs)

/-- R91: a frame of two points at a block with room for one and no quota: the first stays, with its EXTENDED
entry, the second is lost, and the stroke gains TRUNCATED. -/
theorem test_refusal_midway :
    let room : State := { inking with store := inking.store.setBlock 0 (List.replicate 23 (.abs 50 50 4 false)) }
    let t := after .points (framed (.points 0 9 [pt 400 400 600, pt 404 400 600]) (noQuota room))
    (t.journal.entries.map fun e => (e.kind, e.count)) = [(.extended, some 1)] ∧
    (t.store.stroke 0).flags.truncated = true ∧ (t.seat 4).dropped = 1 ∧ (t.seat 4).quotaReached = true := by
  decide +kernel

/-- PointWithoutInkSetsTheMarkers: a lift, a drop under DROP, and a point equal to the last entry. -/
theorem witness_no_ink :
    (∀ r d, PointsDelivered (framed (onePoint 9 0) inking) 4 9 [pt 400 400 0] false .points r d
      (tabletTaken (framed (onePoint 9 0) inking)) id 1000000) ∧
    (inking.seat 4).item = some { kind := .ink h0 9, deadline := 2000000 } ∧
    (pt 400 400 0).pressure = 0 ∧
    mapPoint { window := ⟨0, 16383, 0, 9215, .drop⟩ } .ink (pt 65535 0 1) = .dropped ∧
    mapPoint (inking.seat 4) .ink (pt 400 711 1) = .point 100 100 4 false ∧
    inking.store.lastPoint 0 = some ⟨100, 100, 4, false⟩ :=
  ⟨fun r d => .inl ⟨delivered_frame 0 (by rfl) (by rfl) (by decide) (by decide) (by decide +kernel) r d,
      by decide, by decide, rfl⟩, by decide +kernel, by decide, by decide +kernel, by decide +kernel,
    by decide +kernel⟩

/-- A touch that was held at this time, `quiet`'s Timebase being 1000000. -/
def heldAt (t : Nat) (s : State) : State :=
  holding 1 (.held ⟨5000, 4219, 10, false, BitVec.ofNat 48 t, .ink, 0, 1⟩) s

/-- The Z lists agree in the states of a held point, whatever sample waits. -/
theorem held_agrees : ∀ s ∈ [quiet, heldAt 988000 quiet, heldAt 988001 quiet, heldAt 990000 quiet,
    fullTable (heldAt 988000 quiet), fullTable (heldAt 988001 quiet), inked .closed 1 quiet],
    ∀ ph tool p, ZListsAgree (touched ph tool p s) := by
  have h : ∀ s ∈ [quiet, heldAt 988000 quiet, heldAt 988001 quiet, heldAt 990000 quiet,
      fullTable (heldAt 988000 quiet), fullTable (heldAt 988001 quiet), inked .closed 1 quiet],
      OneRecord s := by decide +kernel
  exact fun s hs _ _ _ => agrees (h s hs)

/-- DownHoldsTheFirstPoint: a DOWN and a MOVE without an item, an eraser DOWN over a stroke, and a DOWN on a
held point under the glitch time; coded and lifted; a mask without layers and a quota of 0. -/
theorem witness_down :
    (∀ k ∈ [0, 600], ∀ s ∈ [quiet, heldAt 990000 quiet],
      BoardInput (touched .down .pen (pt 400 400 k) s) 1 .down
        ⟨⟨1, .down, .pen, pt 400 400 k, 70⟩, s.timebase⟩ false) ∧
    (BoardInput (touched .move .pen (pt 400 400 0) quiet) 1 .move
        ⟨⟨1, .move, .pen, pt 400 400 0, 70⟩, 1000000⟩ false ∧ (quiet.seat 1).item = none) ∧
    BoardInput (touched .down .eraser (pt 400 711 1) (inked .closed 1 quiet)) 1 .down
        ⟨⟨1, .down, .eraser, pt 400 711 1, 70⟩, 1000000⟩ true ∧
    (inMask (quiet.seat 1).rights.layers quiet.cls.options.layers[1] = true ∧
      (quiet.seat 1).blocksHeld < (quiet.seat 1).quota ∧
      mapPoint (quiet.seat 1) .ink (pt 400 400 600) = .point 100 56 16 false) ∧
    (contactEnded 1 1000000 ⟨heldAt 990000 quiet, []⟩).st.counters.glitch = 1 ∧
    inMask 0 quiet.cls.options.layers[1] = false := by
  have h : ∀ k ∈ [0, 600], ∀ s ∈ [quiet, heldAt 990000 quiet],
      winner (touched .down .pen (pt 400 400 k) s) = some .board ∧ s.cls.state ≠ .resetting := by
    decide +kernel
  exact ⟨fun k hk s hs => board_input (h k hk s hs).1 (h k hk s hs).2 (by decide) (.inl rfl),
    ⟨board_input (by decide +kernel) (by decide) (by decide) (.inl rfl), by decide +kernel⟩,
    board_input (by decide +kernel) (by decide) (by decide) (by rfl),
    by decide +kernel, by decide +kernel, by decide +kernel⟩

/-- UpReleasesTheHeldPoint: an UP one microsecond under the glitch time, at it, and at it with a full table;
and a MOVE that is lifted, dropped, merged or coded, with a free record and without. -/
theorem witness_up :
    (∀ t ∈ [988000, 988001], ∀ s ∈ [heldAt t quiet, fullTable (heldAt t quiet)],
      BoardInput (touched .up .pen (pt 0 0 0) s) 1 .up ⟨⟨1, .up, .pen, pt 0 0 0, 70⟩, s.timebase⟩ false ∧
      (s.seat 1).cutDue = false) ∧
    shortage (heldAt 988000 quiet) 1 true = none ∧
    shortage (fullTable (heldAt 988000 quiet)) 1 true = some .table ∧
    (∀ k ∈ [0, 400], BoardInput (touched .move .pen (pt 400 400 k) (heldAt 988000 quiet)) 1 .move
      ⟨⟨1, .move, .pen, pt 400 400 k, 70⟩, 1000000⟩ false) ∧
    mapPoint ((heldAt 988000 quiet).seat 1) .ink (pt 400 400 400) = .point 100 56 12 false ∧
    mapPoint ((heldAt 988000 quiet).seat 1) .ink (pt 20000 30002 307) = .point 5000 4219 10 false := by
  have h : ∀ t ∈ [988000, 988001], ∀ s ∈ [heldAt t quiet, fullTable (heldAt t quiet)],
      winner (touched .up .pen (pt 0 0 0) s) = some .board ∧ s.cls.state ≠ .resetting ∧
        (s.seat 1).cutDue = false := by decide +kernel
  have hm : ∀ k ∈ [0, 400],
      winner (touched .move .pen (pt 400 400 k) (heldAt 988000 quiet)) = some .board := by
    decide +kernel
  exact ⟨fun t ht s hs => ⟨board_input (h t ht s hs).1 (h t ht s hs).2.1 (by decide) (.inl rfl),
      (h t ht s hs).2.2⟩, by decide +kernel, by decide +kernel,
    fun k hk => board_input (hm k hk) (by decide) (by decide) (.inl rfl), by decide +kernel,
    by decide +kernel⟩

/-- Seat 4 erases on page 0, layer 2, into this group, where a CLOSED stroke of its own lies, with a point
waiting. -/
def erasing (g : Option Rev) : State := holding 4 (.eraser 9 2 0 g) (inked .closed 4 quiet)

/-- Frames of two eraser points, at the place of the stroke of `inked`: a lift and a hit, and two hits. -/
def eraseFrames : List (List RawPoint) :=
  [[pt 400 711 0, pt 400 711 600], [pt 400 711 600, pt 404 711 600]]

/-- EraserPointErasesTheStrokesHit: frames of two points, with and without a group; a lift, a drop, a hit
and a miss. -/
theorem witness_eraser :
    (∀ s ∈ [erasing none, erasing (some 6)], ∀ pts ∈ eraseFrames, ∀ r d,
      PointsDelivered (framed (.points 0 9 pts) s) 4 9 pts true .points r d
        (tabletTaken (framed (.points 0 9 pts) s)) id s.timebase) ∧
    (∀ s ∈ [erasing none, erasing (some 6)], ∀ f, ZListsAgree (framed f s)) ∧
    mapPoint ((erasing none).seat 4) .eraser (pt 400 711 600) = .point 100 100 64 false ∧
    ((erasing none).seat 4).item = some { kind := .eraser 9 2 0 none, deadline := 2000000 } ∧
    (∀ pts ∈ eraseFrames, (pointsErasing 4 pts ⟨erasing none, []⟩).entries.length = 1) ∧
    eraserHits (erasing none) 4 100 100 64 .closed h0 = true ∧
    eraserHits (erasing none) 4 1000 100 64 .closed h0 = false ∧
    mapPoint { window := ⟨0, 16383, 0, 9215, .drop⟩ } .eraser (pt 65535 0 1) = .dropped := by
  refine ⟨?_, ?_, by decide +kernel, by decide +kernel, by decide +kernel, by decide +kernel,
    by decide +kernel, by decide +kernel⟩
  · have h : ∀ s ∈ [erasing none, erasing (some 6)], ∀ pts ∈ eraseFrames,
        winner (framed (.points 0 9 pts) s) = some .tablet ∧ s.cls.state = .opened ∧
          1 ≤ pts.length ∧ pts.length ≤ 24 := by decide +kernel
    exact fun s hs pts hp r d => .inl ⟨delivered_frame 0 (by rfl) (by rfl) (h s hs pts hp).2.1 (by decide)
      (h s hs pts hp).1 r d, (h s hs pts hp).2.2.1, (h s hs pts hp).2.2.2, rfl⟩
  · have h : ∀ s ∈ [erasing none, erasing (some 6)], OneRecord s := by decide +kernel
    exact fun s hs _ => agrees (h s hs)

/-- R71: the limit of the hit test: ceil(64/2) + ceil(4/2) = 34 from the entry at x = 100, whose box ends at
102, 2 before the stroke's box widened by 32 ends. -/
theorem test_hit_limit :
    hitTest (inked .closed 4 quiet).store 0 134 100 64 = true ∧
    hitTest (inked .closed 4 quiet).store 0 135 100 64 = false := by
  decide +kernel

/-- Seat 4 with an undo stack over the stroke of `inked`, its UNDO waiting. -/
def undoing (st : StrokeState) (undo : List UndoEntry) : State :=
  framed (.undo 0) ((admitted 4 (inked st 4 { quiet with eraseQueue := [group6] })).modSeat 4
    fun u => { u with undo := undo })

/-- RetractTakesTheTopEntryBack: a seat above 39, an empty stack, an INK entry, and an ERASE entry under a dead one. -/
theorem witness_retract :
    ConsoleTurn (asked 0x14#8 [40] quiet) 0x14#8 5 [40] ∧ 39 < (40#8).toNat ∧
    (∀ r data, RetractDelivered (undoing .closed []) 4 .undo r data (tabletTaken (undoing .closed [])) id
      (.seat 4)) ∧
    (∀ r data, RetractDelivered (undoing .closed [.ink h0]) 4 .undo r data
      (tabletTaken (undoing .closed [.ink h0])) id (.seat 4)) ∧
    (∀ r data, RetractDelivered (undoing .erased [.ink h0, .erase 6]) 4 .undo r data
      (tabletTaken (undoing .erased [.ink h0, .erase 6])) id (.seat 4)) ∧
    (∀ r data, ∃ u fin, RetractDelivered (asked 0x14#8 [4] quiet) 4 .retract r data u fin .console) ∧
    ((undoing .closed []).seat 4).undo = [] ∧
    ((undoing .closed [.ink h0]).seat 4).undo = [] ++ .ink h0 :: [] ∧
    PredChain (undoing .closed [.ink h0]) 4 (some h0) [h0] ∧
    ((undoing .erased [.ink h0, .erase 6]).seat 4).undo = [.ink h0] ++ .erase 6 :: [] ∧
    DeadEntry (undoing .erased [.ink h0, .erase 6]) (.ink h0) ∧
    queuedGroup (undoing .erased [.ink h0, .erase 6]) 6 = some group6 ∧
    AllIn (undoing .erased [.ink h0, .erase 6]) .erased group6.members := by
  have hw (st : StrokeState) (undo : List UndoEntry) (h : winner (undoing st undo) = some .tablet)
      (ha : ((undoing st undo).seat 4).state = .admitted) (r : Result) (data : Bytes) :
      RetractDelivered (undoing st undo) 4 .undo r data (tabletTaken (undoing st undo)) id (.seat 4) :=
    .inl ⟨rfl, rfl, ha, rfl, rfl, rfl, 0, by decide, h, rfl⟩
  refine ⟨by unfold ConsoleTurn; decide +kernel, by decide, hw _ _ (by decide +kernel) (by decide +kernel),
    hw _ _ (by decide +kernel) (by decide +kernel), hw _ _ (by decide +kernel) (by decide +kernel),
    fun r data => ⟨_, _, .inr ⟨rfl, rfl, rfl, 5, rfl, by decide +kernel, by decide, rfl⟩⟩,
    by decide +kernel, by decide +kernel, ?_, by decide +kernel, by unfold DeadEntry; decide +kernel,
    by decide +kernel, by unfold AllIn; decide +kernel⟩
  unfold PredChain
  refine ⟨rfl, by decide +kernel, by decide +kernel, by decide +kernel, by decide, ?_⟩
  unfold PredChain
  have hp : ((undoing .closed [.ink h0]).store.stroke h0.idx).pred = none := by decide +kernel
  intro h hh
  rw [hp] at hh
  cases hh

/-! ### Witnesses: seats, hands and the class -/

/-- Seat 4 with its hand up and nothing else of note. -/
def handUp : State :=
  { (admitted 4 quiet).modSeat 4 (fun u => { u with state := .admitted, handUp := true }) with hands := [4] }

/-- HandsAreRaisedAndLowered: HAND in its three clauses, and the three commands, the queue empty and
not. -/
theorem witness_hands :
    (∀ s ∈ [framed (.hand 0 true) (admitted 4 quiet), framed (.hand 0 true) handUp],
      TabletTurn s (.hand 0 true) ∧ s.cls.state ≠ .resetting ∧ (s.seat 4).state = .admitted) ∧
    (TabletTurn (framed (.hand 0 false) handUp) (.hand 0 false) ∧ seatOfSlot 0 = some 4 ∧
      (handUp.seat 4).handUp = true ∧ (quiet.seat 4).handUp = false) ∧
    ConsoleTurn (asked 0x17#8 [] handUp) 0x17#8 5 [] ∧ ConsoleTurn (asked 0x18#8 [] quiet) 0x18#8 5 [] ∧
    ConsoleTurn (asked 0x18#8 [] handUp) 0x18#8 5 [] ∧ handUp.hands = 4 :: [] ∧
    ConsoleTurn (asked 0x19#8 [] handUp) 0x19#8 5 [] := by
  unfold TabletTurn ConsoleTurn
  decide +kernel

/-- Seat 4 in this state. -/
def stated (st : SeatState) (s : State) : State := s.modSeat 4 fun u => { u with state := st }

/-- AdmitSeatAdmitsAVacantSeat: each state of the seat, and the first number that names none. -/
theorem witness_admit :
    (∀ st ∈ [SeatState.vacant, .admitted, .muted, .barred],
      ConsoleTurn (asked 0x01#8 [4] (stated st quiet)) 0x01#8 5 [4] ∧
        ((stated st quiet).seat 4).state = st) ∧
    seatOfByte 4 = some 4 ∧ ConsoleTurn (asked 0x01#8 [40] quiet) 0x01#8 5 [40] ∧ 39 < (40#8).toNat := by
  unfold ConsoleTurn
  decide +kernel

/-- SeatCommandsFollowTheStateTable: each command with a seat in each state, a muted board seat's sample, and
input for a vacated console seat. -/
theorem witness_seat_table :
    (∀ code ∈ [0x01#8, 0x02#8, 0x04#8, 0x05#8, 0x06#8, 0x07#8],
      ∀ st ∈ [SeatState.vacant, .admitted, .muted, .barred],
        ConsoleTurn (asked code [4] (stated st quiet)) code 5 [4] ∧ ((stated st quiet).seat 4).state = st) ∧
    (let s := (touched .down .pen (pt 1 1 1) quiet).modSeat 1 fun u => { u with state := .muted };
      BoardTurn s ⟨⟨1, .down, .pen, pt 1 1 1, 70⟩, 1000000⟩ ∧ (s.seat 1).state = .muted) ∧
    (let s := (asked 0x11#8 [36, 9] quiet).modSeat 36 fun u => { u with state := .vacant };
      ConsoleTurn s 0x11#8 5 [36, 9] ∧ (s.seat 36).state = .vacant) := by
  unfold ConsoleTurn BoardTurn
  decide +kernel

/-- SeatsAreVacatedMutedAndReadmitted: each command with a seat in the state it acts on and in another,
seat 40, and the two ports of `addNotice`. -/
theorem witness_seat_states :
    (∀ p ∈ [(0x02#8, SeatState.vacant), (0x02#8, .muted), (0x04#8, .vacant), (0x04#8, .admitted),
        (0x05#8, .muted), (0x05#8, .barred), (0x07#8, .barred), (0x07#8, .vacant)],
      ConsoleTurn (asked p.1 [4] (stated p.2 quiet)) p.1 5 [4] ∧
        ((stated p.2 quiet).seat 4).state = p.2) ∧
    ConsoleTurn (asked 0x04#8 [40] quiet) 0x04#8 5 [40] ∧ 39 < (40#8).toNat ∧
    portOf 3 ≠ .tablet ∧ portOf 4 = .tablet := by
  unfold ConsoleTurn
  decide +kernel

/-- BarErasesTheSeatsInk: a seat that owns a CLOSED stroke, a MUTED one that owns none, a BARRED one, and
seat 40. -/
theorem witness_bar :
    (let s := asked 0x06#8 [4] (admitted 4 (inked .closed 4 quiet));
      ConsoleTurn s 0x06#8 5 [4] ∧ (s.seat 4).state = .admitted ∧ AllIn s .closed [h0] ∧
        s.store.zlist 0 2 = [h0] ∧ (s.store.stroke 0).owner = 4) ∧
    ConsoleTurn (asked 0x06#8 [4] (stated .muted quiet)) 0x06#8 5 [4] ∧
    ConsoleTurn (asked 0x06#8 [4] (stated .barred quiet)) 0x06#8 5 [4] ∧
    ConsoleTurn (asked 0x06#8 [40] quiet) 0x06#8 5 [40] := by
  unfold ConsoleTurn AllIn
  decide +kernel

/-- The parameters of a CONFIGURE SEAT of seat 4 with a MAPPING, its scale sx given, and a QUOTA. -/
def mappingParams (a b c : Byte) (quota : Byte) : Bytes :=
  [4, 1, a, b, c, 0, 0, 0, 0, 0, 0, 0] ++ 0 :: List.replicate 9 0 ++ 0 :: List.replicate 5 0
    ++ [0, 0, 0] ++ [0, 0] ++ [1, quota, 0]

/-- ConfigureSeatWritesThePresentGroups: a scale of 131071 with a quota above 8192, and one of 131072,
which fails its check. -/
theorem witness_configure :
    (let p := mappingParams 1 255 255 0xFF#8;
      ConsoleTurn (asked 0x03#8 p quiet) 0x03#8 5 p ∧ readAll rSeatItems p =
        some (4, ⟨some (131071, 0, 0, 0), none, none, none, none, some 65280⟩)) ∧
    (let p := mappingParams 2 0 0 1;
      ConsoleTurn (asked 0x03#8 p quiet) 0x03#8 5 p ∧ readAll rSeatItems p =
        some (4, ⟨some (131072, 0, 0, 0), none, none, none, none, some 256⟩)) ∧
    seatOfByte 4 = some 4 := by
  unfold ConsoleTurn
  decide +kernel

/-- FreezeAndThawChangeTheClassState: both commands in OPEN and in FROZEN. -/
theorem witness_freeze :
    ∀ code ∈ [0x09#8, 0x0A#8], ∀ c ∈ [ClassState.opened, .frozen],
      ConsoleTurn (asked code [] { quiet with cls := { quiet.cls with state := c } }) code 5 [] := by
  unfold ConsoleTurn
  decide +kernel

/-- ShowPageShowsAndNotices: the last page and the first number that names none. -/
theorem witness_show_page :
    ConsoleTurn (asked 0x0B#8 [15] quiet) 0x0B#8 5 [15] ∧ (15#8).toNat = (15 : PageNo).val ∧
    ConsoleTurn (asked 0x0B#8 [16] quiet) 0x0B#8 5 [16] ∧ 15 < (16#8).toNat := by
  unfold ConsoleTurn
  decide +kernel

/-- The parameters of a SET CLASS OPTIONS with a glitch time of 256 ms and this default layer of board
seat 3. -/
def optionParams (layer : Byte) : Bytes :=
  [0, 0] ++ [1, 1, 0] ++ List.replicate 12 0 ++ List.replicate 6 0 ++ [1, layer]

/-- ClassOptionsAreClampedAndWritten: default layers 3 and 4. -/
theorem witness_options :
    (ConsoleTurn (asked 0x0D#8 (optionParams 3) quiet) 0x0D#8 5 (optionParams 3) ∧
      readAll rOptionItems (optionParams 3) =
        some ⟨none, some 256, none, none, none, none, #v[none, none, none, some 3]⟩) ∧
    ConsoleTurn (asked 0x0D#8 (optionParams 4) quiet) 0x0D#8 5 (optionParams 4) ∧
    readAll rOptionItems (optionParams 4) =
      some ⟨none, some 256, none, none, none, none, #v[none, none, none, some 4]⟩ := by
  unfold ConsoleTurn
  decide +kernel

/-! ### Witnesses: ink commands and reports -/

/-- ConsoleErasureTakesTheClosedStrokes: both commands, with a stroke to erase, with none, and with a
number out of range. -/
theorem witness_console_erasure :
    (let s := asked 0x12#8 [0, 2] (inked .closed 4 quiet);
      ConsoleTurn s 0x12#8 5 [0, 2] ∧ s.store.zlist 0 2 = [h0] ∧ AllIn s .closed [h0]) ∧
    (let s := asked 0x13#8 [4, 0xFF#8] (inked .closed 4 quiet);
      ConsoleTurn s 0x13#8 5 [4, 0xFF#8] ∧ (s.store.stroke 0).owner = 4 ∧
        ((List.finRange 16).flatMap fun p => (List.finRange 4).flatMap fun l => s.store.zlist p l) =
          [h0]) ∧
    ConsoleTurn (asked 0x12#8 [15, 3] quiet) 0x12#8 5 [15, 3] ∧
    ConsoleTurn (asked 0x12#8 [16, 3] quiet) 0x12#8 5 [16, 3] ∧
    ConsoleTurn (asked 0x13#8 [40, 15] quiet) 0x13#8 5 [40, 15] := by
  unfold ConsoleTurn AllIn
  decide +kernel

/-- RestoreGroupRestoresEveryMember: a queued group, and none. -/
theorem witness_restore :
    (let s := asked 0x15#8 (w48 6) (inked .erased 4 { quiet with eraseQueue := [group6] });
      ConsoleTurn s 0x15#8 5 (w48 6) ∧ queuedGroup s 6 = some group6 ∧
        AllIn s .erased group6.members) ∧
    ConsoleTurn (asked 0x15#8 (w48 6) quiet) 0x15#8 5 (w48 6) ∧
    ∀ x ∈ quiet.eraseQueue, x.id ≠ 6 := by
  unfold ConsoleTurn AllIn
  decide +kernel

/-- ReadCommandsAnswerWhatStands: each command, with numbers at and above the end of their range, and
a live and a dead handle. -/
theorem witness_reads :
    (∀ p ∈ [(0x08#8, [39#8]), (0x08#8, [40#8]), (0x0E#8, []), (0x16#8, w16 0 ++ [1#8]),
        (0x16#8, w16 4095 ++ [0#8]), (0x16#8, w16 4096 ++ [0#8]), (0x1E#8, [3#8]), (0x1E#8, [4#8]),
        (0x1F#8, []), (0x24#8, []), (0x26#8, [])],
      ConsoleTurn (asked p.1 p.2 inking) p.1 5 p.2) ∧
    inking.store.live h0 = true ∧ inking.store.live ⟨4095, 0⟩ = false := by
  unfold ConsoleTurn
  decide +kernel

/-- ClearingReadsAnswerAndClear: READ FAULT, and CLEAR COUNTERS of all groups. -/
theorem witness_clearing :
    ConsoleTurn (asked 0x23#8 [] quiet) 0x23#8 5 [] ∧
    ConsoleTurn (asked 0x25#8 [7] quiet) 0x25#8 5 [7] ∧ (7#8).toNat < 8 := by
  unfold ConsoleTurn
  decide +kernel

/-- AttentionCommandsWriteTheSources: a mask of the last source, one mask in both places, and an item
that disables FAULT and sets its level to 4. -/
theorem witness_attention :
    (ConsoleTurn (asked 0x20#8 [4, 0] quiet) 0x20#8 5 [4, 0] ∧
      readAll (rSet16 11) [4, 0] = some 1024) ∧
    (ConsoleTurn (asked 0x21#8 [0, 3, 0, 1] quiet) 0x21#8 5 [0, 3, 0, 1] ∧
      readAll rTwoMasks [0, 3, 0, 1] = some (3, 1)) ∧
    let p := [1#8, 1#8, 1#8, 4#8] ++ List.replicate 40 0#8
    ConsoleTurn (asked 0x22#8 p quiet) 0x22#8 5 p ∧ readAll (rSourceItems 11) p =
      some ((some false, some 4) :: List.replicate 10 (none, none)) := by
  unfold ConsoleTurn
  decide +kernel

/-- The parameters of an ARM WATCH of this watch over the whole of page 15. -/
def watchParams (n : Byte) : Bytes :=
  [n, 15] ++ w16 0 ++ w16 16383 ++ w16 0 ++ w16 9215 ++ [15] ++ List.replicate 5 255 ++ [15, 7, 1]

/-- WatchCommandsWriteOneEntry: watch 3, and watch 4, which there is not. -/
theorem witness_watch_commands :
    (∀ n ∈ [3#8, 4#8],
      ConsoleTurn (asked 0x1C#8 (watchParams n) quiet) 0x1C#8 5 (watchParams n) ∧
        readAll rWatchItems (watchParams n) = some (n,
          ⟨15, ⟨0, 16383, 0, 9215⟩, 15, BitVec.allOnes 40, 15, 7, .any⟩)) ∧
    ConsoleTurn (asked 0x1D#8 [3] quiet) 0x1D#8 5 [3] ∧
    ConsoleTurn (asked 0x1D#8 [4] quiet) 0x1D#8 5 [4] := by
  unfold ConsoleTurn
  decide +kernel

/-- SetArbiterWritesThePresentItems: enable written off with a period of 7, and both items absent. -/
theorem witness_set_arbiter :
    (ConsoleTurn (asked 0x27#8 [1, 1, 1, 0, 7] quiet) 0x27#8 5 [1, 1, 1, 0, 7] ∧
      readAll rArbiterItems [1, 1, 1, 0, 7] = some (some false, some 7)) ∧
    ConsoleTurn (asked 0x27#8 [0, 0, 0, 0, 0] quiet) 0x27#8 5 [0, 0, 0, 0, 0] ∧
    readAll rArbiterItems [0, 0, 0, 0, 0] = some (none, none) := by
  unfold ConsoleTurn
  decide +kernel

/-- The parameters of a START SNAPSHOT of page 15, layer `l`, with limit 64. -/
def snapshotParams (l : Byte) : Bytes := [0, 15, l, 0, 0, 0, 64]

/-- A snapshot is WALKING. -/
def snapping : State := { quiet with snapshot := { state := .walking, tag := 2 } }

/-- SnapshotCommandsStartAndStop: START SNAPSHOT in range, out of range and while one walks; STOP
SNAPSHOT with and without a walk. -/
theorem witness_snapshot_commands :
    (∀ l ∈ [3#8, 4#8], ∀ s ∈ [quiet, snapping],
      ConsoleTurn (asked 0x1A#8 (snapshotParams l) s) 0x1A#8 5 (snapshotParams l) ∧
        readAll rSnapshot (snapshotParams l) = some (.layer 15 l, 64)) ∧
    snapping.snapshot.state = .walking ∧ quiet.snapshot.state ≠ .walking ∧ snapshotDones quiet = 0 ∧
    ∀ s ∈ [quiet, snapping], ConsoleTurn (asked 0x1B#8 [] s) 0x1B#8 5 [] := by
  unfold ConsoleTurn
  decide +kernel

/-! ### Witnesses: bursts, maintenance, rules and invariants -/

/-- A layer sweep over the stroke of `inked`. -/
def sweeping (limit : Option Nat) : State :=
  { inked .closed 4 quiet with
    display := { state := .walking, tag := 3, pos := ⟨0, 2, 0⟩, limit := limit } }

/-- The stroke of 64 full blocks of `fullChain` stands in a store with nothing waiting. -/
def longStroke : State := { fullChain with tabletQueue := [] }

/-- The stroke of `longStroke` in transit, with 64 chunks owed. -/
def owing : Transit := ⟨h0, 0, 64, some 1536⟩

/-- SweepBurstSendsTheList: a sweep whose limit its 2 records just fit, one they do not fit, a long stroke,
the same in transit, and each of them as a snapshot; a page sweep and a sweep of all pages. -/
theorem witness_sweep :
    (∀ k ∈ [1, 2], winner (sweeping (some k)) = some .display ∧
      strokesLeft (sweeping (some k)).store (sweeping (some k)).display = [] ++ (⟨0, 2, 0⟩, h0) :: [] ∧
      (sweepRecords (sweeping (some k)).store 7 false h0).length = 2) ∧
    (∀ c ∈ [({ state := .walking, pos := ⟨0, 2, 0⟩ } : ScanCtx),
        { state := .walking, mode := .sweepPage, mask := 0b1111#4, transit := some owing },
        { state := .walking, mode := .sweepAll, mask := 0b0100#4 }],
      winner { longStroke with display := c } = some .display ∧
      winner { longStroke with snapshot := c } = some .snapshot ∧
      strokesLeft longStroke.store c = [] ++ (⟨0, 2, 0⟩, h0) :: []) ∧
    (sweepRecords longStroke.store 7 false h0).length = 65 ∧
    16 ≤ (owedChunks longStroke.store (some owing)).length := by
  decide +kernel

/-- R159: a LINK_RESET that arrives while a burst runs finds its walk ended STOPPED, though the burst ended it with
LIMIT, and a CONTINUE is refused; behind the burst the walk has ended with LIMIT. -/
theorem test_reset_in_a_burst :
    let s := after .sweepBurst (sweeping (some 1))
    let t := after (.linkReset .display ⟨1, true⟩) s
    t.display.endStatus = some (.stopped, .none) ∧ t.displayOut = [] ∧
    (after (.continueWalk 2 9) t).displayOut.map (·.body) = [.done (refusedRecord (.resume 9) .state)] ∧
    (after (.linkReset .display ⟨1, false⟩) s).display.endStatus = some (.limit, .none) := by
  decide +kernel

/-- The entry of a whole stroke of this length, revision 7. -/
def wholeEntry (count : Nat) : ChangeEntry :=
  { kind := .opened, rev := 7, time := 5, page := some 0, layer := some 2, handle := some h0
    first := some 0, count := some count }

/-- A follow from revision `start` with this timeout; the journal holds these entries. -/
def following (start lost : Rev) (timeout : Nat) (es : List ChangeEntry) : State :=
  { longStroke with
    journal := ⟨es, lost⟩
    display := { state := .walking, mode := .follow, tag := 3, start := start, timeout := timeout } }

/-- A journal entry of revision 7 that is sent as one record. -/
def plainEntry : ChangeEntry := { kind := .closed, rev := 7, time := 5, handle := some h0 }

/-- FollowBurstSendsTheEntries: a revision above the store's, one below L, a cursor L has passed; an end of
the journal with and without a timeout; an entry that does not fit the limit, one with 64 chunks and a
sixteenth; and chunks owed. -/
theorem witness_follow :
    (∀ s ∈ [following 8 0 0 [plainEntry], following 5 6 0 [plainEntry], following 6 6 0 [plainEntry],
        following 6 6 200 [plainEntry], following 6 6 0 [wholeEntry 1536]],
      winner s = some .display ∧ s.display.mode = .follow ∧ s.display.transit = none ∧
        s.display.cursor = none) ∧
    revAbove 8 7 = true ∧ (revAbove 5 7 = false ∧ revAbove 6 5 = true) ∧
    revAbove 6 7 = false ∧ revAbove 6 6 = false ∧ lappedBy 6 ⟨6, false, 1⟩ = true ∧
    (entriesOwed ⟨[plainEntry], 6⟩ ⟨6, true, 0⟩ = [] ++ plainEntry :: [] ∧
      (entryRecords longStroke.store plainEntry).length = 1) ∧
    (entriesOwed ⟨[wholeEntry 1536], 6⟩ ⟨6, true, 0⟩ = [] ++ wholeEntry 1536 :: [] ∧
      (entryRecords longStroke.store (wholeEntry 1536)).length = 65) ∧
    (entriesOwed ⟨List.replicate 16 plainEntry, 6⟩ ⟨6, true, 0⟩ =
        List.replicate 15 plainEntry ++ plainEntry :: [] ∧
      ((List.replicate 15 plainEntry).flatMap (entryRecords longStroke.store)).length = 15) ∧
    16 ≤ (owedChunks longStroke.store (some owing)).length := by
  decide +kernel

/-- FetchBurstSendsTheStroke: a live and a dead handle, a long stroke, and one in transit. -/
theorem witness_fetch :
    (∀ h ∈ [h0, ⟨0, 2⟩],
      winner { longStroke with display := { state := .walking, mode := .fetch, fetch := some h } } =
        some .display) ∧
    (inked .erased 4 quiet).store.live h0 = true ∧
    (strokeRecords (inked .erased 4 quiet).store h0 false).length ≤ 16 ∧
    longStroke.store.live h0 = true ∧ 16 < (strokeRecords longStroke.store h0 false).length ∧
    longStroke.store.live ⟨0, 2⟩ = false ∧ 16 < (owedChunks longStroke.store (some owing)).length ∧
    (owedChunks longStroke.store (some { owing with next := 48 })).length ≤ 16 := by
  decide +kernel

/-- Seat 4 is in the due-expiry set with its deadline reached. -/
def expiring : State :=
  { inking with timebase := 2000000, maint := { inking.maint with due := BitVec.twoPow 40 4 } }

/-- Seat 4 has cut-due true. -/
def cutting : State := inking.modSeat 4 fun u => { u with cutDue := true }

/-- The head group of the Erase Queue waits for the pool demand. -/
def reclaiming : State :=
  { inked .erased 4 quiet with eraseQueue := [group6], maint := { quiet.maint with poolDemand := true } }

/-- Seat 1 is in the due-expiry set with a held point whose deadline is reached. -/
def heldExpiring : State :=
  { heldAt 988000 quiet with timebase := 2000000, maint := { due := BitVec.twoPow 40 1 } }

/-- Two seats are due, one with a held point, beside a seat with cut-due. -/
def crowded : State :=
  let s := heldAt 988000 (holding 4 (.ink h0 9) (inked .opened 4 quiet))
  { (s.modSeat 2 fun u => { u with item := some { kind := .armed 2 .ink 0 0 }, cutDue := true }) with
    timebase := 2000000, maint := { due := BitVec.twoPow 40 1 ||| BitVec.twoPow 40 4 } }

/-- MaintenanceExpiresCutsAndReclaims: an ink stroke that is due, a cut, a held point that is due, that
beside an ink stroke and a cut; and a group to reclaim, taken from the head of its queue and under reclaim
already. -/
theorem witness_maintenance :
    (∀ s ∈ [expiring, cutting, heldExpiring, crowded], winner s = some .maintenance ∧
      ((∃ n, (s.seat n).cutDue = true) ∨ s.maint.due ≠ 0)) ∧
    (∀ s ∈ [reclaiming, { reclaiming with eraseQueue := [], maint := { underReclaim := some group6 } }],
      winner s = some .maintenance ∧ (∀ m, (s.seat m).cutDue = false) ∧ s.maint.due = 0 ∧
        AllIn s .erased group6.members) ∧
    (∀ s ∈ [expiring, cutting, heldExpiring, crowded, reclaiming], ZListsAgree s) := by
  refine ⟨by decide +kernel, by unfold AllIn; decide +kernel, ?_⟩
  have h : ∀ s ∈ [expiring, cutting, heldExpiring, crowded, reclaiming],
      OneRecord s := by decide +kernel
  exact fun s hs => agrees (h s hs)

/-- R94: a held point that expires beside an ink stroke that does becomes a dot stroke with EXPIRED, and their
entries stand in ascending seat number. -/
theorem test_held_among_the_due :
    let t := after .maintenanceGrant crowded
    (t.journal.entries.map fun e => (e.kind, e.seat)) =
      [(.opened, some 1), (.closed, some 1), (.closed, some 4)] ∧
    (t.store.stroke 1).flags.expired = true ∧ (t.seat 2).item = none ∧ t.maint.due = 0 := by
  decide +kernel

/-- An armed watch 2 on page 0 for ERASED, and an entry it matches. -/
def watching : State :=
  { quiet with watches :=
      quiet.watches.set 2 ({ state := .armed, layers := 4, kinds := 8, onKind := true } : Watch) }

/-- The ERASED entry of a stroke of seat 4. -/
def erasedEntry : ChangeEntry :=
  { kind := .erased, rev := 8, time := 5, page := some 0, layer := some 2, handle := some h0
    seat := some 4 }

/-- WatchFiresAtTheFirstMatch: an OPENED entry whose point 0 lies in the region, and a CLOSED one whose box
meets it; a match behind an entry that matches nothing. -/
theorem witness_watch :
    (let e : ChangeEntry := { erasedEntry with kind := .opened };
      e.handle = some h0 ∧ ((inked .opened 4 quiet).store.points h0.idx)[0]? = some ⟨100, 100, 4, false⟩) ∧
    ({ erasedEntry with kind := .closed, box := some ⟨98, 102, 98, 102⟩ } : ChangeEntry).box =
      some ⟨98, 102, 98, 102⟩ ∧
    watching.watches[2].state = .armed ∧
    watchMatches watching.store watching.watches[2] { erasedEntry with kind := .closed } = false ∧
    watchMatches watching.store watching.watches[2] erasedEntry = true ∧
    quiet.watches[2].state ≠ .armed := by
  decide +kernel

/-- An EXTENDED entry of revision `r` for the stroke of `inked`. -/
def extendedEntry (r : Nat) : ChangeEntry :=
  { kind := .extended, rev := BitVec.ofNat 48 r, time := 0, handle := some h0, count := some 1
    box := some ⟨0, 1, 0, 1⟩ }

/-- A journal of `k + 2` entries, the oldest two of one revision. -/
def journalOf (k : Nat) : Journal :=
  ⟨extendedEntry 1 :: [extendedEntry 1] ++ List.replicate k (extendedEntry 2), 0⟩

/-- JournalAppendsDropsAndMerges: nine entries of two page-layers; 511 and 512 entries, the oldest two of one
revision; an EXTENDED entry behind one of its stroke, alone in its revision and not, behind one of another
stroke and in an empty journal; an entry of another kind; and two entries. -/
theorem witness_journal :
    (let es := { erasedEntry with kind := .closed } :: List.replicate 8 { erasedEntry with layer := some 1 };
      let xs : List (PageNo × LayerNo) := [(0, 1), (0, 2)];
      8 < es.length ∧ (xs.Pairwise fun a b => a.1 < b.1 ∨ (a.1 = b.1 ∧ a.2 < b.2)) ∧
        ∀ p l, (p, l) ∈ xs ↔ ∃ e ∈ es, e.page = some p ∧ e.layer = some l) ∧
    (journalOf 509).entries.length < 512 ∧ 512 ≤ (journalOf 510).entries.length ∧
    (∀ x ∈ [extendedEntry 1], x.rev = (extendedEntry 1).rev) ∧
    ((List.replicate 510 (extendedEntry 2)).head?.map (·.rev)) = some 2 ∧
    (journalOf 1).entries = [extendedEntry 1, extendedEntry 1] ++ [extendedEntry 2] ∧
    (∀ x ∈ [extendedEntry 1, extendedEntry 1], x.rev ≠ (extendedEntry 2).rev) ∧
    (journalOf 0).entries = [extendedEntry 1] ++ [extendedEntry 1] ∧ erasedEntry.kind ≠ .extended ∧
    (∀ last ∈ (journalOf 1).entries.getLast?,
      last.kind ≠ .extended ∨ last.handle ≠ ({ extendedEntry 3 with handle := some ⟨1, 1⟩ } : ChangeEntry).handle) ∧
    (⟨[], 0⟩ : Journal).entries.getLast? = none ∧ [erasedEntry, erasedEntry].length ≠ 1 := by
  decide +kernel

/-- R104: a CLOSED entry beside eight ERASED ones of one page-layer is kept before its LAYER_REFRESH; nine
CLOSED entries of two page-layers are covered by two LAYER_REFRESH. -/
theorem test_drawing_entries_kept :
    let drawn (l : LayerNo) : ChangeEntry := { erasedEntry with kind := .closed, layer := some l }
    (eightEntryRule 8 5 (drawn 2 :: List.replicate 8 { erasedEntry with layer := some 1 })).map
        (fun e => (e.kind, e.layer)) = [(.closed, some 2), (.layerRefresh, some 1)] ∧
    (eightEntryRule 8 5 (drawn 2 :: List.replicate 8 (drawn 1))).map (fun e => (e.kind, e.layer)) =
      [(.layerRefresh, some 1), (.layerRefresh, some 2)] := by
  decide +kernel

/-- EveryCommandTakesAtMostOneRevision and OnlyTheNamedCommandsWriteSettings. -/
theorem witness_next : (Instr.stop 1) ≠ .powerOnReset ∧ ∃ t, exec (.stop 1) quiet = .next t :=
  ⟨by decide, _, rfl⟩

/-- MapperArithmeticIsExact: a point at a window's edge, and one beyond it under each policy. -/
theorem witness_mapper :
    (pt 65533 0 1).pressure ≠ 0 ∧ ((65533 * 16384 + 32768) / 65536 : Nat) = 16383 ∧
    ((65534 * 16384 + 32768) / 65536 : Nat) = 16384 ∧ ({} : Seat).window.policy = .clamp ∧
    ({ window := ⟨0, 16383, 0, 9215, .drop⟩ } : Seat).window.policy = .drop := by
  decide +kernel

/-- SentFrameIsReceivedAsSent: a POINTS of 24 points and a COMMAND of 499 parameter bytes. -/
theorem witness_frame :
    (Instr.tabletFrameArrival 1 (.points 0 9 (List.replicate 24 (pt 1 2 3))) 0).wellFormed = true ∧
    (sentFrame (.tabletFrameArrival 1 (.points 0 9 (List.replicate 24 (pt 1 2 3))) 0)).isSome = true ∧
    (Instr.command ⟨1, true⟩ 2 (List.replicate 499 0)).wellFormed = true ∧
    (sentFrame (.command ⟨1, true⟩ 2 (List.replicate 499 0))).isSome = true := by
  decide +kernel

/-- Every step from the state after power-on reset answers a next state: the premise of the statements
about invariants, whose other premise ResetMeetsTheInvariants states of the same state. -/
theorem witness_reset_steps : ∃ t, step State.reset = .next t := ⟨_, rfl⟩

end Sys2Proof.Tests
end

