-- ==== Sys2Proof/Proofs/PowerOn.lean ====
section
namespace Sys2Proof.Machine

/-! What power-on reset leaves, the power-on clearance, and the invariants at reset. -/

/-- The part after the first grant of the power-on clearance. -/
def powerOnStarted : State :=
  settle (firstClearance .opened
    { decideGrant State.reset .console with consoleQueue := [.clearance true] })

/-- The part after the second grant of the power-on clearance, which is its last. -/
def powerOnDone : State := settle (laterClearance (decideGrant powerOnStarted .console))

theorem exec_powerOnClearance_reset :
    exec .powerOnClearance State.reset = .next powerOnStarted := by
  have hw : winner State.reset = some .console := by decide +kernel
  show Host.Outcome.next (if winner State.reset = some .console then _ else _) = _
  rw [if_pos hw]
  rfl

theorem exec_classClearanceGrant_powerOnStarted :
    exec .classClearanceGrant powerOnStarted = .next powerOnDone := by
  have hw : winner powerOnStarted = some .console ∧ clearanceRuns powerOnStarted := by decide +kernel
  show Host.Outcome.next (if winner powerOnStarted = some .console ∧ clearanceRuns powerOnStarted then _ else _) = _
  rw [if_pos hw]
  rfl

/-- Settles O4: the two grants, run from the power-on state. -/
theorem powerOnClearanceReachesRevisionOne : Obligations.PowerOnClearanceReachesRevisionOne := by
  unfold Obligations.PowerOnClearanceReachesRevisionOne
  refine ⟨powerOnStarted, powerOnDone, exec_powerOnClearance_reset, ?_,
    exec_classClearanceGrant_powerOnStarted, ?_⟩ <;> decide +kernel

theorem FreeList.toList_unused : ({} : FreeList).toList = List.finRange 4096 := by
  unfold FreeList.toList
  rw [List.append_nil]
  exact List.filter_eq_self.mpr fun i _ => decide_eq_true (Nat.zero_le i.val)

theorem FreeList.size_unused : ({} : FreeList).size = 4096 := by
  simp [FreeList.size, Config.records]

theorem FreeStack.size_unused : ({} : FreeStack).size = 8192 := by
  simp [FreeStack.size, Config.blocks]

theorem FreeStack.toList_unused : ({} : FreeStack).toList = List.finRange 8192 := by
  unfold FreeStack.toList
  rw [List.nil_append]
  exact List.filter_eq_self.mpr fun i _ => decide_eq_true (Nat.zero_le i.val)

theorem seat_reset (n : SeatNo) : State.reset.seat n = Seat.powerOn n.val := by
  simp [State.reset, State.seat]

/-- The state, rights and quota that a port's seats have at power-on (R56). -/
theorem seat_powerOn_port (n : SeatNo) :
    match portOf n with
    | .board => (Seat.powerOn n.val).state = .admitted ∧
        (Seat.powerOn n.val).rights = ⟨0b0110#4, .any⟩ ∧ (Seat.powerOn n.val).quota = 8192
    | .tablet => (Seat.powerOn n.val).state = .vacant ∧
        (Seat.powerOn n.val).rights = ⟨0b0100#4, .own⟩ ∧ (Seat.powerOn n.val).quota = 256
    | .console => (Seat.powerOn n.val).state = .admitted ∧
        (Seat.powerOn n.val).rights = ⟨0b1111#4, .any⟩ ∧ (Seat.powerOn n.val).quota = 8192 := by
  unfold portOf Seat.powerOn
  by_cases hb : n.val < 4
  · simp [hb]
  · by_cases ht : n.val < 36 <;> simp [hb, ht]

/-- But for its state, rights and quota every seat is alike at power-on (R56). -/
theorem seat_powerOn_common (n : Nat) :
    Seat.powerOn n = { ({} : Seat) with
      state := (Seat.powerOn n).state, rights := (Seat.powerOn n).rights
      quota := (Seat.powerOn n).quota } := by
  unfold Seat.powerOn
  split <;> [skip; split] <;> rfl

/-- Settles O3: power-on reset leaves `State.reset`, read field by field. -/
theorem powerOnResetLeavesPowerOnValues : Obligations.PowerOnResetLeavesPowerOnValues := by
  intro s
  refine ⟨{ State.reset with pending := s.pending }, rfl, rfl, fun _ => rfl, fun _ _ => rfl, rfl,
    FreeList.toList_unused, FreeList.size_unused, FreeStack.toList_unused,
    FreeStack.size_unused, ?seats, ?rest⟩
  case seats =>
    intro n
    have hs : State.seat { State.reset with pending := s.pending } n = Seat.powerOn n.val := seat_reset n
    have hp := seat_powerOn_port n
    rw [hs, seat_powerOn_common]
    exact ⟨rfl, rfl, rfl, rfl, rfl, rfl, rfl, rfl, rfl, rfl, rfl, rfl, rfl, rfl, rfl, hp⟩
  case rest =>
    refine ⟨rfl, rfl, rfl, rfl, rfl, rfl, rfl, rfl, rfl, rfl, rfl, rfl, rfl, rfl, fun k => ?_, rfl, rfl, rfl,
      rfl, rfl, rfl, rfl, rfl, rfl, rfl, rfl, rfl, rfl, rfl, rfl⟩
    simp [State.reset]

theorem settingsInRange_reset : SettingsInRange State.reset := by
  refine ⟨fun n => ?_, by decide⟩
  have hp := seat_powerOn_port n
  have hq : (Seat.powerOn n.val).quota ≤ 8192 := by
    cases h : portOf n <;> (rw [h] at hp; simp [hp.2.2])
  dsimp only
  rw [seat_reset, seat_powerOn_common]
  simpa using hq

/-- No seat holds or has open anything at power-on. -/
theorem seat_reset_idle (n : SeatNo) :
    (State.reset.seat n).item = none ∧ (State.reset.seat n).blocksHeld = 0 ∧
      (State.reset.seat n).quotaReached = false ∧ (State.reset.seat n).undo = [] ∧
      (State.reset.seat n).handUp = false ∧ (State.reset.seat n).notices = 0 := by
  rw [seat_reset, seat_powerOn_common]
  exact ⟨rfl, rfl, rfl, rfl, rfl, rfl⟩

theorem poolAgrees_reset : PoolAgrees State.reset := by
  refine ⟨List.nodup_nil, fun b hb => ?_, FreeStack.size_unused, fun i => ⟨fun _ => rfl, fun h => absurd rfl h⟩⟩
  simp [chainBlocks, State.reset] at hb

theorem groupsAgree_reset : GroupsAgree State.reset :=
  ⟨List.nodup_nil, fun _ hg => (List.not_mem_nil hg).elim, fun _ hi => StrokeState.noConfusion hi, List.nodup_nil⟩

theorem inkAgrees_reset : InkAgrees State.reset := by
  refine ⟨fun i => rfl, poolAgrees_reset, ⟨fun _ n => (seat_reset_idle n).2.1, fun n h => ?_⟩,
    ⟨fun n h tag hk => ?_, fun _ n => (seat_reset_idle n).1, fun h => absurd rfl h⟩, groupsAgree_reset⟩
  · simp [(seat_reset_idle n).2.2.1] at h
  · simp [(seat_reset_idle n).1] at hk

theorem handsAgree_reset : HandsAgree State.reset := by
  have hh : ∀ n, (State.reset.seat n).handUp = false := fun n => (seat_reset_idle n).2.2.2.2.1
  refine ⟨List.nodup_nil, fun n => ?_, fun n h => ?_⟩
  · rw [hh]; exact ⟨fun h => (List.not_mem_nil h).elim, Bool.noConfusion⟩
  · rw [hh] at h; cases h

theorem noticesAgree_reset : NoticesAgree State.reset := by
  have hn : ∀ n, (State.reset.seat n).notices = 0 := fun n => (seat_reset_idle n).2.2.2.2.2
  refine ⟨List.nodup_nil, fun n => ?_, fun n h => absurd (hn n) h, fun n => ?_, fun b h => by cases h⟩
  · rw [hn]; exact ⟨fun h => (List.not_mem_nil h).elim, fun h => absurd rfl h⟩
  · rw [hn]; intro j k _ h; simp at h

theorem zListsAgree_reset : ZListsAgree State.reset :=
  ⟨fun _ _ => ⟨List.nodup_nil, fun _ h => (List.not_mem_nil h).elim⟩, fun _ hi => absurd rfl hi, List.nodup_nil,
    fun _ hi => (List.not_mem_nil hi).elim, fun _ _ => rfl⟩

/-- Settles O60: the store and the queues are empty, and no seat has anything open. -/
theorem resetMeetsTheInvariants : Obligations.ResetMeetsTheInvariants := by
  refine ⟨⟨rfl, rfl, rfl⟩, handsAgree_reset, noticesAgree_reset, fun n _ => (seat_reset_idle n).1, fun n => ?_,
    Nat.zero_le _, ⟨?_, ?_, ?_, ?_, ?_⟩, ⟨?_, ?_, ?_, ?_, ?_⟩, zListsAgree_reset, ⟨?_, ?_⟩,
    settingsInRange_reset, inkAgrees_reset⟩
  · rw [(seat_reset_idle n).2.2.2.1]; exact Nat.zero_le _
  all_goals decide +kernel

end Sys2Proof.Machine
end

