-- ==== Sys2Proof/Proofs/SparseTables.lean ====
section
/-! More laws of the sparse tables: a canonical table is, up to order, one place with its value and the rest. -/

namespace Sys2Proof.Machine

variable {n : Nat} {α : Type}

theorem insertAt_perm (i : Fin n) (v : α) (t : Table n α) : (insertAt i v t).Perm ((i, v) :: t) := by
  induction t with
  | nil => exact .refl _
  | cons p t ih =>
    obtain ⟨j, w⟩ := p
    unfold insertAt
    split
    · exact .refl _
    · exact (ih.cons _).trans (.swap _ _ _)

/-- A place that does not read as the default is listed. -/
theorem mem_of_lookupAt_ne {d : α} {t : Table n α} {i : Fin n} (h : lookupAt d t i ≠ d) :
    (i, lookupAt d t i) ∈ t := by
  induction t with
  | nil => exact absurd rfl h
  | cons p t ih =>
    obtain ⟨j, w⟩ := p
    unfold lookupAt at h ⊢
    split
    · next hj => simp [hj]
    · next hj =>
      rw [if_neg hj] at h
      exact List.mem_cons_of_mem _ (ih h)

variable [DecidableEq α]

/-- The pairs of a table at other places. -/
def tableRest (t : Table n α) (i : Fin n) : Table n α := t.filter fun p => decide (p.1 ≠ i)

/-- The pair that lists a value at a place: none for the default. -/
def listedAt (d : α) (i : Fin n) (v : α) : Table n α := if v = d then [] else [(i, v)]

theorem assignAt_perm (d : α) (t : Table n α) (i : Fin n) (v : α) :
    (assignAt d t i v).Perm (listedAt d i v ++ tableRest t i) := by
  unfold assignAt listedAt tableRest
  dsimp only
  split
  · exact .refl _
  · exact insertAt_perm i v _

/-- A canonical table is one place and the others. -/
theorem canonical_perm {d : α} {t : Table n α} (ht : tableWf d t = true) (i : Fin n) :
    t.Perm (listedAt d i (lookupAt d t i) ++ tableRest t i) := by
  induction t with
  | nil => simp [listedAt, lookupAt, tableRest]
  | cons p t ih =>
    obtain ⟨j, w⟩ := p
    simp only [tableWf, Bool.and_eq_true, decide_eq_true_eq, List.all_eq_true, List.pairwise_cons] at ht ih
    obtain ⟨⟨hlt, hpw⟩, hall⟩ := ht
    have hw : w ≠ d := hall (j, w) (by simp)
    by_cases hj : j = i
    · subst hj
      have hrest : ∀ p ∈ t, p.1 ≠ j := fun p hp => (ne_of_lt (hlt p hp)).symm
      simp [listedAt, lookupAt, hw, tableRest]
      rw [List.filter_eq_self.mpr fun p hp => by simpa using hrest p hp]
    · have h1 := ih ⟨hpw, fun p hp => hall p (by simp [hp])⟩
      have h2 : tableRest ((j, w) :: t) i = (j, w) :: tableRest t i := by simp [tableRest, hj]
      rw [h2, lookupAt, if_neg hj]
      exact (h1.cons _).trans (List.perm_middle.symm)

/-- A listed pair of a canonical table is what the table reads there. -/
theorem lookupAt_of_mem {d : α} {t : Table n α} (ht : tableWf d t = true) {i : Fin n} {v : α}
    (h : (i, v) ∈ t) : lookupAt d t i = v := by
  have hp := (canonical_perm ht i).mem_iff.mp h
  rcases List.mem_append.mp hp with hp | hp
  · unfold listedAt at hp
    split at hp
    · cases hp
    · simpa using (List.mem_singleton.mp hp).symm
  · simp [tableRest] at hp

/-- The total of a number over a table, taken apart at one place. -/
theorem sum_canonical {d : α} {t : Table n α} (ht : tableWf d t = true) (i : Fin n) (f : α → Nat) (hf : f d = 0) :
    (t.map fun p => f p.2).sum = f (lookupAt d t i) + ((tableRest t i).map fun p => f p.2).sum := by
  rw [((canonical_perm ht i).map fun p => f p.2).sum_eq, List.map_append, List.sum_append]
  unfold listedAt
  split
  · next h => simp [h, hf]
  · simp

theorem sum_assignAt (d : α) (t : Table n α) (i : Fin n) (v : α) (f : α → Nat) (hf : f d = 0) :
    ((assignAt d t i v).map fun p => f p.2).sum = f v + ((tableRest t i).map fun p => f p.2).sum := by
  rw [((assignAt_perm d t i v).map fun p => f p.2).sum_eq, List.map_append, List.sum_append]
  unfold listedAt
  split
  · next h => simp [h, hf]
  · simp

theorem flatMap_canonical {β : Type} {d : α} {t : Table n α} (ht : tableWf d t = true) (i : Fin n)
    (f : α → List β) (hf : f d = []) :
    (t.flatMap fun p => f p.2).Perm (f (lookupAt d t i) ++ (tableRest t i).flatMap fun p => f p.2) := by
  refine ((canonical_perm ht i).flatMap_right _).trans ?_
  rw [List.flatMap_append]
  refine List.Perm.append_right _ (.of_eq ?_)
  unfold listedAt
  split
  · next h => simp [h, hf]
  · simp

theorem flatMap_assignAt {β : Type} (d : α) (t : Table n α) (i : Fin n) (v : α) (f : α → List β)
    (hf : f d = []) :
    ((assignAt d t i v).flatMap fun p => f p.2).Perm (f v ++ (tableRest t i).flatMap fun p => f p.2) := by
  refine ((assignAt_perm d t i v).flatMap_right _).trans ?_
  rw [List.flatMap_append]
  refine List.Perm.append_right _ (.of_eq ?_)
  unfold listedAt
  split
  · next h => simp [h, hf]
  · simp

end Sys2Proof.Machine
end

