-- ==== Sys2Proof/Proofs/InkView.lean ====
section
/-! The moves of ink: what a state holds of strokes, blocks, open ink strokes and erase groups, and the few
ways in which an operation changes it. The invariants of the store are proved move by move. -/

namespace Sys2Proof.Machine

/-! ### What the agreements are about -/

/-- What of a state the agreements of the store are about: the store, the blocks each seat holds, the handle
of each seat's open ink stroke, and the groups with their members. -/
@[ext] structure InkView where
  store : Store
  held : SeatNo → Nat
  item : SeatNo → Option Handle
  queue : List (Rev × List Handle)
  reclaim : Option (Rev × List Handle)

/-- The id and the members of a group. -/
def EraseGroup.core (g : EraseGroup) : Rev × List Handle := (g.id, g.members)

def viewOf (s : State) : InkView where
  store := s.store
  held n := (s.seat n).blocksHeld
  item n := inkHandle (s.seat n)
  queue := s.eraseQueue.map EraseGroup.core
  reclaim := s.maint.underReclaim.map EraseGroup.core

@[simp] theorem viewOf_store (s : State) : (viewOf s).store = s.store := rfl
@[simp] theorem viewOf_held (s : State) (n : SeatNo) : (viewOf s).held n = (s.seat n).blocksHeld := rfl
@[simp] theorem viewOf_item (s : State) (n : SeatNo) : (viewOf s).item n = inkHandle (s.seat n) := rfl
@[simp] theorem viewOf_queue (s : State) : (viewOf s).queue = s.eraseQueue.map EraseGroup.core := rfl
@[simp] theorem viewOf_reclaim (s : State) :
    (viewOf s).reclaim = s.maint.underReclaim.map EraseGroup.core := rfl

theorem inkHandle_eq_some {u : Seat} {h : Handle} :
    inkHandle u = some h ↔ ∃ tag, u.item.map OpenItem.kind = some (.ink h tag) := by
  unfold inkHandle
  split
  · next g tag e => simp [e]
  · next hne =>
    constructor
    · intro e; cases e
    · rintro ⟨tag, e⟩; exact absurd e (hne h tag)

/-! ### The store operations as functions of the store -/

/-- A new stroke joins the store with its first entry (R14). -/
def Store.added (st : Store) (recs : FreeList) (blocks : FreeStack) (i : RecIdx) (r : Stroke) (b : BlockNo)
    (e : Entry) : Store :=
  ((({ st with freeRecs := recs, freeBlocks := blocks }).setStroke i r).setBlock b [e]).setZ r.page r.layer
    (st.zlist r.page r.layer ++ [(⟨i, r.gen⟩ : Handle)])

/-- A record is freed (R19). -/
def Store.freed (st : Store) (i : RecIdx) : Store :=
  let r := st.stroke i
  if r.state = .free then st
  else
    (({ st with freeBlocks := st.freeBlocks.push r.chain, freeRecs := st.freeRecs.give i }).setZ r.page r.layer
      ((st.zlist r.page r.layer).filter fun h => decide (h.idx ≠ i))).setStroke i { gen := r.gen }

/-- The groups after a stroke has joined the one of an id (R99). -/
def joinedQueue (q : List (Rev × List Handle)) (g : Rev) (h : Handle) : List (Rev × List Handle) :=
  if ∃ x ∈ q, x.1 = g then q.map fun x => if x.1 = g then (x.1, x.2 ++ [h]) else x else q ++ [(g, [h])]

/-- The record of a stroke that a seat has just opened (R14). -/
structure IsNewborn (r : Stroke) (gen : Byte) (n : SeatNo) (b : BlockNo) : Prop where
  state : r.state = .opened
  gen : r.gen = gen
  owner : r.owner = n
  count : r.count = 1
  chain : r.chain = [b]
  closeTime : r.closeTime = none
  group : r.group = none
  eraseRev : r.eraseRev = none

/-- The handle names a live stroke in this state. -/
def Store.holds (st : Store) (h : Handle) (x : StrokeState) : Prop :=
  st.live h = true ∧ (st.stroke h.idx).state = x

/-- One member of a group is restored (R18). -/
def InkView.restore1 (rev : Rev) (v : InkView) (h : Handle) : InkView :=
  let r := v.store.stroke h.idx
  if v.store.live h = true ∧ r.state = .erased then
    { v with
      store := v.store.setStroke h.idx
        { r with state := .closed, group := none, eraseRev := none, lastRev := rev }
      held := Function.update v.held r.owner (v.held r.owner + r.chain.length) }
  else v

theorem InkView.restore1_of_holds {rev : Rev} {v : InkView} {h : Handle} (hs : v.store.holds h .erased) :
    v.restore1 rev h = { v with
      store := v.store.setStroke h.idx
        { v.store.stroke h.idx with state := .closed, group := none, eraseRev := none, lastRev := rev }
      held := Function.update v.held (v.store.stroke h.idx).owner
        (v.held (v.store.stroke h.idx).owner + (v.store.stroke h.idx).chain.length) } := if_pos hs

theorem InkView.restore1_of_not_holds {rev : Rev} {v : InkView} {h : Handle} (hs : ¬v.store.holds h .erased) :
    v.restore1 rev h = v := if_neg hs

/-! ### The moves -/

/-- The ways in which one operation of a transaction changes the ink. Each constructor carries what the
operation has tested, and no invariant. -/
inductive InkMove (v : InkView) : InkView → Prop
  /-- Open (R14): the head of the free list and the top of the free stack become a stroke of the seat. -/
  | opened {n : SeatNo} {i : RecIdx} {recs : FreeList} {b : BlockNo} {blocks : FreeStack} {r : Stroke}
      {x y w : Nat} (hi : v.store.freeRecs.take = some (i, recs))
      (hb : v.store.freeBlocks.pop = some (b, blocks))
      (hr : IsNewborn r ((v.store.stroke i).gen + 1) n b) (hn : v.item n = none) :
      InkMove v { v with
        store := v.store.added recs blocks i r b (.abs x y w false)
        held := Function.update v.held n (v.held n + 1)
        item := Function.update v.item n (some ⟨i, r.gen⟩) }
  /-- Close (R16): the open ink stroke of the seat is closed, and the seat has none. -/
  | closed {n : SeatNo} {h : Handle} {time : Time} {flags : StrokeFlags} {rev : Rev} (hn : v.item n = some h)
      (hs : v.store.holds h .opened) :
      InkMove v { v with
        store := v.store.setStroke h.idx { v.store.stroke h.idx with
          state := .closed, closeTime := some time, flags := flags, lastRev := rev }
        item := Function.update v.item n none }
  /-- The open item of a seat is ended whose stroke is no live OPEN one: the store stays (R13). -/
  | dropped {n : SeatNo} {h : Handle} (hn : v.item n = some h) (hs : ¬v.store.holds h .opened) :
      InkMove v { v with item := Function.update v.item n none }
  /-- Extend (R15) within the last block. -/
  | grown {n : SeatNo} {h : Handle} {b : BlockNo} {e : Entry} {box : Box} {flags : StrokeFlags} {rev : Rev}
      (hn : v.item n = some h) (hs : v.store.holds h .opened)
      (hb : (v.store.stroke h.idx).chain.getLast? = some b) (hl : (v.store.block b).length < 24) :
      InkMove v { v with
        store := (v.store.setBlock b (v.store.block b ++ [e])).setStroke h.idx { v.store.stroke h.idx with
          count := (v.store.stroke h.idx).count + 1, box := box, flags := flags, lastRev := rev } }
  /-- Extend (R15) with a new block. -/
  | extended {n : SeatNo} {h : Handle} {b c : BlockNo} {blocks : FreeStack} {x y w : Nat} {l : Bool} {box : Box}
      {flags : StrokeFlags} {rev : Rev} (hn : v.item n = some h) (hs : v.store.holds h .opened)
      (hb : (v.store.stroke h.idx).chain.getLast? = some b) (hl : 24 ≤ (v.store.block b).length)
      (hc : (v.store.stroke h.idx).chain.length < 64) (hp : v.store.freeBlocks.pop = some (c, blocks)) :
      InkMove v { v with
        store := ({ v.store with freeBlocks := blocks }.setBlock c [.abs x y w l]).setStroke h.idx
          { v.store.stroke h.idx with
            count := (v.store.stroke h.idx).count + 1, chain := (v.store.stroke h.idx).chain ++ [c], box := box
            flags := flags, lastRev := rev }
        held := Function.update v.held n (v.held n + 1) }
  /-- An OPEN stroke gains a flag (R91). -/
  | flagged {h : Handle} {flags : StrokeFlags} (hs : v.store.holds h .opened) :
      InkMove v { v with store := v.store.setStroke h.idx { v.store.stroke h.idx with flags := flags } }
  /-- Erase (R17, R99). -/
  | erased {h : Handle} {g rev : Rev} (hs : v.store.holds h .closed) :
      InkMove v { v with
        store := v.store.setStroke h.idx { v.store.stroke h.idx with
          state := .erased, group := some g, eraseRev := some rev, lastRev := rev }
        held := Function.update v.held (v.store.stroke h.idx).owner
          (v.held (v.store.stroke h.idx).owner - (v.store.stroke h.idx).chain.length)
        queue := joinedQueue v.queue g h }
  /-- A queued group is restored (R18, R109). -/
  | restored {g : Rev} {ms : List Handle} {rev : Rev} (hq : v.queue.find? (fun x => decide (x.1 = g)) = some (g, ms)) :
      InkMove v { ms.foldl (InkView.restore1 rev) v with queue := v.queue.filter fun x => decide (x.1 ≠ g) }
  /-- The head group is taken under reclaim (R116). -/
  | detached {g : Rev × List Handle} {q : List (Rev × List Handle)} (hq : v.queue = g :: q)
      (hr : v.reclaim = none) : InkMove v { v with queue := q, reclaim := some g }
  /-- The first member of the group under reclaim is freed; the group ends with its last (R19, R116). -/
  | reclaimed {g : Rev} {h : Handle} {ms : List Handle} (hr : v.reclaim = some (g, h :: ms)) :
      InkMove v { v with store := v.store.freed h.idx, reclaim := if ms = [] then none else some (g, ms) }
  /-- A group under reclaim without a member ends. -/
  | emptied {g : Rev} (hr : v.reclaim = some (g, [])) : InkMove v { v with reclaim := none }

/-- Any number of moves. -/
abbrev InkMoves : InkView → InkView → Prop := Relation.ReflTransGen InkMove

/-! ### Store revision -/

theorem restore1_rev (rev : Rev) (v : InkView) (h : Handle) : (v.restore1 rev h).store.rev = v.store.rev := by
  unfold InkView.restore1
  dsimp only
  split <;> rfl

theorem foldl_restore1_rev (rev : Rev) (ms : List Handle) (v : InkView) :
    (ms.foldl (InkView.restore1 rev) v).store.rev = v.store.rev := by
  induction ms generalizing v with
  | nil => rfl
  | cons h ms ih => exact (ih _).trans (restore1_rev rev v h)

@[simp] theorem Store.freed_rev (st : Store) (i : RecIdx) : (st.freed i).rev = st.rev := by
  unfold Store.freed
  dsimp only
  split <;> rfl

/-- No move takes a revision. -/
theorem InkMove.rev {v v' : InkView} (m : InkMove v v') : v'.store.rev = v.store.rev := by
  cases m with
  | restored hq => exact foldl_restore1_rev _ _ _
  | reclaimed hr => exact Store.freed_rev _ _
  | _ => rfl

theorem InkMoves.rev {v v' : InkView} (m : InkMoves v v') : v'.store.rev = v.store.rev := by
  induction m with
  | refl => rfl
  | tail _ m ih => exact m.rev.trans ih

end Sys2Proof.Machine
end

