-- ==== Sys2Proof/Proofs/InkStore.lean ====
section
/-! What the moves of ink keep of the store: the canonical tables and the agreement of the Z lists. -/

namespace Sys2Proof.Machine

variable {st st' : Store} {v v' : InkView}

/-! ### Canonical tables -/

/-- The tables of a store are in canonical form. -/
structure Store.Canonical (st : Store) : Prop where
  strokes : tableWf ({} : Stroke) st.strokes = true
  pool : tableWf ([] : List Entry) st.pool = true
  z : tableWf ([] : List Handle) st.z = true

theorem storeCanonical_iff (s : State) : StoreCanonical s ↔ s.store.Canonical :=
  ⟨fun ⟨h1, h2, h3⟩ => ⟨h1, h2, h3⟩, fun ⟨h1, h2, h3⟩ => ⟨h1, h2, h3⟩⟩

theorem Store.Canonical.setStroke (h : st.Canonical) (i : RecIdx) (r : Stroke) : (st.setStroke i r).Canonical :=
  ⟨tableWf_assignAt _ i r h.strokes, h.pool, h.z⟩

theorem Store.Canonical.setBlock (h : st.Canonical) (b : BlockNo) (es : List Entry) :
    (st.setBlock b es).Canonical :=
  ⟨h.strokes, tableWf_assignAt _ b es h.pool, h.z⟩

theorem Store.Canonical.setZ (h : st.Canonical) (p : PageNo) (l : LayerNo) (hs : List Handle) :
    (st.setZ p l hs).Canonical :=
  ⟨h.strokes, h.pool, tableWf_assignAt _ (zPlace p l) hs h.z⟩

theorem Store.Canonical.congr (h : st.Canonical) (h1 : st'.strokes = st.strokes) (h2 : st'.pool = st.pool)
    (h3 : st'.z = st.z) : st'.Canonical := ⟨h1 ▸ h.strokes, h2 ▸ h.pool, h3 ▸ h.z⟩

theorem Store.Canonical.withBlocks (h : st.Canonical) (f : FreeStack) :
    ({ st with freeBlocks := f } : Store).Canonical := h.congr rfl rfl rfl

theorem Store.Canonical.added (h : st.Canonical) (recs : FreeList) (blocks : FreeStack) (i : RecIdx) (r : Stroke)
    (b : BlockNo) (e : Entry) : (st.added recs blocks i r b e).Canonical :=
  (((h.congr (st' := { st with freeRecs := recs, freeBlocks := blocks }) rfl rfl rfl).setStroke i r).setBlock
    b [e]).setZ _ _ _

theorem Store.Canonical.freed (h : st.Canonical) (i : RecIdx) : (st.freed i).Canonical := by
  unfold Store.freed
  dsimp only
  split
  · exact h
  · exact ((h.congr (st' := { st with
      freeBlocks := st.freeBlocks.push (st.stroke i).chain, freeRecs := st.freeRecs.give i }) rfl rfl rfl).setZ
      _ _ _).setStroke _ _

theorem foldl_restore1_keeps {P : Store → Prop}
    (hP : ∀ (st : Store) (h : Handle) (rev : Rev), st.holds h .erased → P st → P (st.setStroke h.idx
      { st.stroke h.idx with state := .closed, group := none, eraseRev := none, lastRev := rev }))
    (rev : Rev) (ms : List Handle) (v : InkView) (h : P v.store) :
    P (ms.foldl (InkView.restore1 rev) v).store := by
  induction ms generalizing v with
  | nil => exact h
  | cons m ms ih =>
    refine ih _ ?_
    unfold InkView.restore1
    dsimp only
    split
    · next hm => exact hP _ _ _ hm h
    · exact h

theorem InkMove.canonical (m : InkMove v v') (h : v.store.Canonical) : v'.store.Canonical := by
  cases m with
  | opened hi hb hr hn =>
    exact h.added _ _ _ _ _ _
  | closed hn hs => exact h.setStroke _ _
  | dropped hn hs => exact h
  | grown hn hs hb hl => exact (h.setBlock _ _).setStroke _ _
  | extended hn hs hb hl hc hp =>
    exact ((h.withBlocks _).setBlock _ _).setStroke _ _
  | flagged hs => exact h.setStroke _ _
  | erased hs => exact h.setStroke _ _
  | restored hq => exact foldl_restore1_keeps (P := Store.Canonical) (fun _ _ _ _ h => h.setStroke _ _) _ _ _ h
  | detached hq hr => exact h
  | reclaimed hr => exact h.freed _
  | emptied hr => exact h

/-! ### Z lists -/

/-- The parts of `ZListsAgree`, by name. -/
structure Store.ZAgree (st : Store) : Prop where
  nodup : ∀ p l, ((st.zlist p l).map Handle.idx).Nodup
  live : ∀ {p l h}, h ∈ st.zlist p l →
    st.live h = true ∧ (st.stroke h.idx).page = p ∧ (st.stroke h.idx).layer = l
  listed : ∀ {i}, (st.stroke i).state ≠ .free →
    (⟨i, (st.stroke i).gen⟩ : Handle) ∈ st.zlist (st.stroke i).page (st.stroke i).layer
  freedNodup : st.freeRecs.freed.Nodup
  freedUsed : ∀ i ∈ st.freeRecs.freed, i.val < st.freeRecs.fresh
  free : ∀ i, i ∈ st.freeRecs.freed ∨ st.freeRecs.fresh ≤ i.val → (st.stroke i).state = .free

theorem zListsAgree_iff (s : State) : ZListsAgree s ↔ s.store.ZAgree :=
  ⟨fun ⟨h1, h2, h3, h4, h5⟩ =>
      ⟨fun p l => (h1 p l).1, fun {p l h} hh => (h1 p l).2 h hh, fun {i} => h2 i, h3, h4, h5⟩,
    fun ⟨h0, h1, h2, h3, h4, h5⟩ => ⟨fun p l => ⟨h0 p l, fun _ hh => h1 hh⟩, fun _ => h2, h3, h4, h5⟩⟩

theorem Store.live_iff (st : Store) (h : Handle) :
    st.live h = true ↔ (st.stroke h.idx).gen = h.gen ∧ (st.stroke h.idx).state ≠ .free := by
  simp [Store.live]

theorem Store.live_congr {h : Handle} (e : st'.stroke h.idx = st.stroke h.idx) : st'.live h = st.live h := by
  simp [Store.live, e]

theorem Store.ZAgree.congr (h : st.ZAgree) (h1 : st'.strokes = st.strokes) (h2 : st'.z = st.z)
    (h3 : st'.freeRecs = st.freeRecs) : st'.ZAgree := by
  have hs : ∀ i, st'.stroke i = st.stroke i := fun i => by simp [Store.stroke, h1]
  have hz : ∀ p l, st'.zlist p l = st.zlist p l := fun p l => by simp [Store.zlist, h2]
  have hl : ∀ x, st'.live x = st.live x := fun x => Store.live_congr (hs _)
  exact
    { nodup := fun p l => by rw [hz]; exact h.nodup p l
      live := fun hh => by rw [hz] at hh; rw [hl, hs]; exact h.live hh
      listed := fun hi => by rw [hs] at hi ⊢; rw [hz]; exact h.listed hi
      freedNodup := by rw [h3]; exact h.freedNodup
      freedUsed := by rw [h3]; exact h.freedUsed
      free := fun i hi => by rw [h3] at hi; rw [hs]; exact h.free i hi }

/-- A write to a record that stays in use under its generation, page and layer. -/
theorem Store.ZAgree.setStroke (h : st.ZAgree) {i : RecIdx} {r : Stroke} (h0 : (st.stroke i).state ≠ .free)
    (h1 : r.state ≠ .free) (hg : r.gen = (st.stroke i).gen) (hp : r.page = (st.stroke i).page)
    (hl : r.layer = (st.stroke i).layer) : (st.setStroke i r).ZAgree where
  nodup := h.nodup
  live {p l x} hx := by
    obtain ⟨hlive, hpage, hlayer⟩ := h.live (p := p) (l := l) (by simpa using hx)
    rw [Store.live_iff] at hlive ⊢
    by_cases hi : x.idx = i
    · subst hi; simp [hg, hp, hl, h1, hlive, hpage, hlayer]
    · simp [stroke_setStroke_ne _ _ hi, hlive, hpage, hlayer]
  listed {j} hj := by
    by_cases hi : j = i
    · subst hi; simpa [hg, hp, hl] using h.listed h0
    · rw [stroke_setStroke_ne _ _ hi] at hj ⊢
      simpa using h.listed hj
  freedNodup := h.freedNodup
  freedUsed := h.freedUsed
  free j hj := by
    have hf := h.free j hj
    have hne : j ≠ i := fun e => h0 (by rw [← e]; exact hf)
    rw [stroke_setStroke_ne _ _ hne]
    exact hf

/-- A record is FREE at the head of the free list (R12). -/
theorem Store.ZAgree.head_free (h : st.ZAgree) {i : RecIdx} {recs : FreeList}
    (hi : st.freeRecs.take = some (i, recs)) : (st.stroke i).state = .free := by
  rcases FreeList.take_spec hi with ⟨h1, -, -⟩ | ⟨-, h1, -⟩
  · exact h.free i (.inr h1.le)
  · exact h.free i (.inl (h1 ▸ List.mem_cons_self))

/-- What stays free when the head record is taken. -/
theorem Store.ZAgree.take (h : st.ZAgree) {i : RecIdx} {recs : FreeList} (hi : st.freeRecs.take = some (i, recs)) :
    recs.freed.Nodup ∧ (∀ j ∈ recs.freed, j.val < recs.fresh) ∧
      ∀ j, j ∈ recs.freed ∨ recs.fresh ≤ j.val → j ≠ i ∧ (st.stroke j).state = .free := by
  have hn := h.freedNodup
  have hu := h.freedUsed
  rcases FreeList.take_spec hi with ⟨h1, h2, rfl⟩ | ⟨h1, h2, h3⟩
  · refine ⟨hn, fun j hj => Nat.lt_succ_of_lt (hu j hj), fun j hj => ?_⟩
    rcases hj with hj | hj
    · exact ⟨fun e => by have := hu j hj; rw [e] at this; omega, h.free j (.inl hj)⟩
    · dsimp only at hj
      exact ⟨fun e => by rw [e] at hj; omega, h.free j (.inr (by omega))⟩
  · rw [h2] at hn hu
    obtain ⟨hni, hn⟩ := List.nodup_cons.mp hn
    refine ⟨hn, fun j hj => h3 ▸ hu j (List.mem_cons_of_mem _ hj), fun j hj => ?_⟩
    rcases hj with hj | hj
    · exact ⟨fun e => hni (e ▸ hj), h.free j (.inl (h2 ▸ List.mem_cons_of_mem _ hj))⟩
    · have := j.isLt; rw [h3] at hj; omega

theorem Store.stroke_added (st : Store) (recs : FreeList) (blocks : FreeStack) (i : RecIdx) (r : Stroke)
    (b : BlockNo) (e : Entry) (j : RecIdx) :
    (st.added recs blocks i r b e).stroke j = if j = i then r else st.stroke j := by
  unfold Store.added
  rw [stroke_setZ, stroke_setBlock]
  split
  · next h => rw [h, stroke_setStroke]
  · next h => rw [stroke_setStroke_ne _ _ h]; rfl

theorem Store.zlist_added (st : Store) (recs : FreeList) (blocks : FreeStack) (i : RecIdx) (r : Stroke)
    (b : BlockNo) (e : Entry) (p : PageNo) (l : LayerNo) :
    (st.added recs blocks i r b e).zlist p l =
      if (p, l) = (r.page, r.layer) then st.zlist p l ++ [⟨i, r.gen⟩] else st.zlist p l := by
  unfold Store.added
  split
  · next h => cases h; rw [zlist_setZ]
  · next h => rw [zlist_setZ_ne _ _ h]; rfl

/-- R14: a stroke opened in the head record of the free list. -/
theorem Store.ZAgree.added (h : st.ZAgree) {i : RecIdx} {recs : FreeList} {blocks : FreeStack} {r : Stroke}
    {b : BlockNo} {e : Entry} (hi : st.freeRecs.take = some (i, recs)) (hr : r.state ≠ .free) :
    (st.added recs blocks i r b e).ZAgree := by
  have hfree := h.head_free hi
  obtain ⟨h1, h2, h3⟩ := h.take hi
  have hni : ∀ {p l x}, x ∈ st.zlist p l → x.idx ≠ i := fun hx e =>
    ((Store.live_iff _ _).mp (h.live hx).1).2 (e ▸ hfree)
  have hlive : ∀ {p l x}, x ∈ st.zlist p l → (st.added recs blocks i r b e).live x = true ∧
      ((st.added recs blocks i r b e).stroke x.idx).page = p ∧
      ((st.added recs blocks i r b e).stroke x.idx).layer = l := fun {p l x} hx => by
    rw [Store.live_iff, Store.stroke_added, if_neg (hni hx), ← Store.live_iff]
    exact h.live hx
  exact
    { nodup := fun p l => by
        rw [Store.zlist_added]
        split
        · rw [List.map_append, List.nodup_append]
          refine ⟨h.nodup p l, by simp, fun a ha c hc => ?_⟩
          obtain ⟨x, hx, rfl⟩ := List.mem_map.mp ha
          simp only [List.map_cons, List.map_nil, List.mem_singleton] at hc
          exact hc ▸ hni hx
        · exact h.nodup p l
      live := fun {p l x} hx => by
        rw [Store.zlist_added] at hx
        split at hx
        · next hpl =>
          rcases List.mem_append.mp hx with hx | hx
          · exact hlive hx
          · obtain rfl := List.mem_singleton.mp hx
            cases hpl
            simp [Store.live_iff, Store.stroke_added, hr]
        · exact hlive hx
      listed := fun {j} hj => by
        rw [Store.stroke_added] at hj ⊢
        rw [Store.zlist_added]
        split at hj
        · next e => simp [e]
        · next e =>
          have := h.listed hj
          rw [if_neg e]
          split
          · exact List.mem_append_left _ this
          · exact this
      freedNodup := h1
      freedUsed := h2
      free := fun j hj => by
        obtain ⟨hne, hf⟩ := h3 j hj
        rw [Store.stroke_added, if_neg hne]
        exact hf }

theorem Store.stroke_freed (st : Store) (i j : RecIdx) :
    (st.freed i).stroke j =
      if j = i ∧ (st.stroke i).state ≠ .free then { gen := (st.stroke i).gen } else st.stroke j := by
  unfold Store.freed
  dsimp only
  split
  · next h => simp [h]
  · next h =>
    by_cases hj : j = i
    · subst hj; simp [h]
    · rw [stroke_setStroke_ne _ _ hj, if_neg (fun e => hj e.1)]
      rfl

theorem Store.zlist_freed (st : Store) (i : RecIdx) (p : PageNo) (l : LayerNo) :
    (st.freed i).zlist p l =
      if (st.stroke i).state ≠ .free ∧ (st.stroke i).page = p ∧ (st.stroke i).layer = l then
        (st.zlist p l).filter fun h => decide (h.idx ≠ i)
      else st.zlist p l := by
  unfold Store.freed
  dsimp only
  split
  · next h => simp [h]
  · next h =>
    rw [zlist_setStroke]
    by_cases hpl : (p, l) = ((st.stroke i).page, (st.stroke i).layer)
    · cases hpl
      rw [zlist_setZ, if_pos ⟨h, rfl, rfl⟩]
    · rw [zlist_setZ_ne _ _ hpl, if_neg (fun e => hpl (by rw [e.2.1, e.2.2]))]
      rfl

/-- R19: a record is freed. -/
theorem Store.ZAgree.freed (h : st.ZAgree) (i : RecIdx) : (st.freed i).ZAgree := by
  by_cases hf : (st.stroke i).state = .free
  · unfold Store.freed; dsimp only; rwa [if_pos hf]
  have hmem : ∀ {p l x}, x ∈ (st.freed i).zlist p l → x ∈ st.zlist p l ∧ x.idx ≠ i := fun {p l x} hx => by
    rw [Store.zlist_freed] at hx
    split at hx
    · simpa using hx
    · next hpl =>
      refine ⟨hx, fun e => hpl ⟨hf, ?_⟩⟩
      have := (h.live hx).2
      rwa [e] at this
  have hrecs : (st.freed i).freeRecs = st.freeRecs.give i := by
    unfold Store.freed; dsimp only; rw [if_neg hf]; rfl
  have hnot : i ∉ st.freeRecs.freed := fun hm => hf (h.free i (.inl hm))
  exact
    { nodup := fun p l => by
        rw [Store.zlist_freed]
        split
        · exact (h.nodup p l).sublist (List.filter_sublist.map _)
        · exact h.nodup p l
      live := fun hx => by
        obtain ⟨hm, hne⟩ := hmem hx
        rw [Store.live_iff, Store.stroke_freed, if_neg (fun e => hne e.1), ← Store.live_iff]
        exact h.live hm
      listed := fun {j} hj => by
        rw [Store.stroke_freed] at hj ⊢
        split at hj
        · exact absurd rfl hj
        · next e =>
          have hne : j ≠ i := fun e' => e ⟨e', hf⟩
          have := h.listed hj
          rw [if_neg e, Store.zlist_freed]
          split
          · exact List.mem_filter.mpr ⟨this, by simpa using hne⟩
          · exact this
      freedNodup := by
        rw [hrecs]
        exact List.nodup_append.mpr ⟨h.freedNodup, by simp, fun a ha b hb e => hnot (by simp_all)⟩
      freedUsed := fun j hj => by
        rw [hrecs] at hj ⊢
        rcases List.mem_append.mp hj with hj | hj
        · exact h.freedUsed j hj
        · obtain rfl := List.mem_singleton.mp hj
          exact not_le.mp fun hle => hf (h.free j (.inr hle))
      free := fun j hj => by
        rw [Store.stroke_freed]
        split
        · rfl
        · next e =>
          rw [hrecs] at hj
          have hne : j ≠ i := fun e' => e ⟨e', hf⟩
          exact h.free j (hj.imp_left fun hm => by simpa [FreeList.give, hne] using hm) }

theorem holds_used {h : Handle} {x : StrokeState} (hs : st.holds h x) : (st.stroke h.idx).state ≠ .free :=
  ((Store.live_iff _ _).mp hs.1).2

theorem InkMove.zAgree (m : InkMove v v') (h : v.store.ZAgree) : v'.store.ZAgree := by
  cases m with
  | opened hi hb hr hn => exact h.added hi (by rw [hr.state]; decide)
  | closed hn hs => exact h.setStroke (holds_used hs) (by simp) rfl rfl rfl
  | dropped hn hs => exact h
  | @grown n x b e _ _ _ hn hs hb hl =>
    exact (h.congr (st' := v.store.setBlock b (v.store.block b ++ [e])) rfl rfl rfl).setStroke
      (i := x.idx) (holds_used hs) (by simpa using holds_used hs) rfl rfl rfl
  | @extended n x b c blocks x' y w l _ _ _ hn hs hb hl hc hp =>
    have h1 : ({ v.store with freeBlocks := blocks }.setBlock c [.abs x' y w l]).ZAgree := h.congr rfl rfl rfl
    refine h1.setStroke (i := x.idx) ?_ ?_ rfl rfl rfl <;> exact holds_used hs
  | flagged hs => exact h.setStroke (holds_used hs) (by simpa using holds_used hs) rfl rfl rfl
  | erased hs => exact h.setStroke (holds_used hs) (by simp) rfl rfl rfl
  | restored hq =>
    exact foldl_restore1_keeps (P := Store.ZAgree)
      (fun _ _ _ hm h => h.setStroke (holds_used hm) (by simp) rfl rfl rfl) _ _ _ h
  | detached hq hr => exact h
  | reclaimed hr => exact h.freed _
  | emptied hr => exact h

theorem InkMoves.canonical (m : InkMoves v v') (h : v.store.Canonical) : v'.store.Canonical := by
  induction m with
  | refl => exact h
  | tail _ m ih => exact m.canonical ih

theorem InkMoves.zAgree (m : InkMoves v v') (h : v.store.ZAgree) : v'.store.ZAgree := by
  induction m with
  | refl => exact h
  | tail _ m ih => exact m.zAgree ih

end Sys2Proof.Machine
end

