-- ==== Sys2Proof/Proofs/InkOps.lean ====
section
/-! The operations of a transaction as moves of ink, one lemma each: `Moves` says what a state operation can do
to the ink, `Tx.Moves` the same of a transaction under way. -/

namespace Sys2Proof.Machine

variable {s u w : State} {t t₁ t₂ : Tx}

/-! ### Moves between states -/

/-- A seat whose quota-reached flag stands afterwards had it before with this quota and no more blocks, or
is at its quota (R41). -/
def QuotaKept (a b : Seat) : Prop :=
  b.quotaReached = true →
    (a.quotaReached = true ∧ b.quota = a.quota ∧ a.blocksHeld ≤ b.blocksHeld) ∨ b.quota ≤ b.blocksHeld

theorem QuotaKept.refl (a : Seat) : QuotaKept a a := fun h => .inl ⟨h, rfl, le_rfl⟩

theorem QuotaKept.trans {a b c : Seat} (h : QuotaKept a b) (k : QuotaKept b c) : QuotaKept a c := fun hc => by
  rcases k hc with ⟨hb, hq, hl⟩ | hc
  · rcases h hb with ⟨ha, hq', hl'⟩ | hb
    · exact .inl ⟨ha, hq.trans hq', hl'.trans hl⟩
    · exact .inr (hq ▸ hb.trans hl)
  · exact .inr hc

/-- What stays beside the ink in an operation that writes no change entry: the journal, whether the class is
RESETTING and then that idle seats are idle, and the standing of the quota-reached flags. -/
structure InkFrame (s u : State) : Prop where
  journal : u.journal = s.journal
  resetting : u.cls.state = .resetting ↔ s.cls.state = .resetting
  idle : s.cls.state = .resetting → ∀ n, (s.seat n).item = none → (u.seat n).item = none
  quota : ∀ n, QuotaKept (s.seat n) (u.seat n)

theorem InkFrame.refl (s : State) : InkFrame s s := ⟨rfl, .rfl, fun _ _ h => h, fun _ => .refl _⟩

theorem InkFrame.trans (h : InkFrame s u) (k : InkFrame u w) : InkFrame s w where
  journal := k.journal.trans h.journal
  resetting := k.resetting.trans h.resetting
  idle hr n hn := k.idle (h.resetting.mpr hr) n (h.idle hr n hn)
  quota n := (h.quota n).trans (k.quota n)

/-- `u` comes from `s` by moves of ink. -/
structure Moves (s u : State) : Prop extends InkFrame s u where
  ink : InkMoves (viewOf s) (viewOf u)

theorem Moves.refl (s : State) : Moves s s := ⟨.refl s, .refl⟩

theorem Moves.trans (h : Moves s u) (k : Moves u w) : Moves s w :=
  ⟨h.toInkFrame.trans k.toInkFrame, .trans h.ink k.ink⟩

theorem Moves.rev (h : Moves s u) : u.store.rev = s.store.rev := h.ink.rev

theorem Moves.not_resetting (h : Moves s u) (hr : s.cls.state ≠ .resetting) : u.cls.state ≠ .resetting :=
  fun e => hr (h.resetting.mp e)

/-! ### Operations that move no ink -/

/-- A seat record keeps its ink. -/
structure SeatQuiet (a b : Seat) : Prop where
  ink : inkHandle b = inkHandle a
  held : b.blocksHeld = a.blocksHeld
  idle : a.item = none → b.item = none
  quota : QuotaKept a b

theorem inkHandle_congr {a b : Seat} (h : b.item = a.item) : inkHandle b = inkHandle a := by
  simp [inkHandle, h]

theorem SeatQuiet.of_eq {a b : Seat} (h1 : b.item = a.item) (h2 : b.blocksHeld = a.blocksHeld)
    (h3 : b.quotaReached = a.quotaReached) (h4 : b.quota = a.quota) : SeatQuiet a b :=
  ⟨inkHandle_congr h1, h2, fun h => h1.trans h, fun h => .inl ⟨h3 ▸ h, h4, h2.ge⟩⟩

theorem SeatQuiet.refl (a : Seat) : SeatQuiet a a := .of_eq rfl rfl rfl rfl

/-- An operation that leaves store, journal, groups and the ink of every seat. -/
theorem Moves.of_quiet (h1 : u.store = s.store) (h2 : u.journal = s.journal)
    (h3 : u.cls.state = .resetting ↔ s.cls.state = .resetting)
    (h4 : u.eraseQueue.map EraseGroup.core = s.eraseQueue.map EraseGroup.core)
    (h5 : u.maint.underReclaim = s.maint.underReclaim) (h6 : ∀ n, SeatQuiet (s.seat n) (u.seat n)) : Moves s u where
  journal := h2
  resetting := h3
  idle _ n := (h6 n).idle
  quota n := (h6 n).quota
  ink := by
    have : viewOf u = viewOf s := by
      apply InkView.ext
      · exact h1
      · exact funext fun n => (h6 n).held
      · exact funext fun n => (h6 n).ink
      · exact h4
      · simp [viewOf, h5]
    rw [this]

/-- An operation that leaves store, seats, journal, class and groups. -/
theorem Moves.of_same (h1 : u.store = s.store) (h2 : u.seats = s.seats) (h3 : u.journal = s.journal)
    (h4 : u.cls = s.cls) (h5 : u.eraseQueue = s.eraseQueue) (h6 : u.maint.underReclaim = s.maint.underReclaim) :
    Moves s u :=
  .of_quiet h1 h3 (by rw [h4]) (by rw [h5]) h6 fun n => by rw [seat_congr h2]; exact .refl _

theorem Moves.of_modSeat {n : SeatNo} {f : Seat → Seat} (h : SeatQuiet (s.seat n) (f (s.seat n))) :
    Moves s (s.modSeat n f) :=
  .of_quiet rfl rfl .rfl rfl rfl fun m => by
    by_cases hm : m = n
    · subst hm; rwa [seat_modSeat]
    · rw [seat_modSeat_ne s f hm]; exact .refl _

/-- A change of every seat record. -/
theorem Moves.of_map {f : Seat → Seat} (h : ∀ a, SeatQuiet a (f a)) : Moves s { s with seats := s.seats.map f } :=
  .of_quiet rfl rfl .rfl rfl rfl fun n => by simpa [State.seat] using h _

theorem moves_latch (x : Source) : Moves s (latch s x) := .of_same rfl rfl rfl rfl rfl rfl

theorem moves_captureFault (k : FaultKind) (l : Link) (n : Option SeatNo) (f : Option Byte) :
    Moves s (captureFault s k l n f) := .of_same rfl rfl rfl rfl rfl rfl

theorem moves_countDiscard (n : SeatNo) : Moves s (countDiscard s n) := .of_modSeat (.of_eq rfl rfl rfl rfl)

theorem moves_pushUndo (n : SeatNo) (e : UndoEntry) : Moves s (pushUndo s n e) :=
  .of_modSeat (.of_eq rfl rfl rfl rfl)

theorem moves_addNotice (n : SeatNo) (k : Notice) : Moves s (addNotice s n k) :=
  .of_quiet (by simp) (by simp) (by simp) (by simp) (by simp) fun m => by
    obtain ⟨b, hb⟩ := seat_addNotice s n m k
    rw [hb]
    exact .of_eq rfl rfl rfl rfl

theorem moves_lowerHand (n : SeatNo) : Moves s (lowerHand s n) :=
  .of_quiet rfl rfl .rfl rfl rfl fun m => by
    obtain ⟨h1, h2, -⟩ := lowerHand_spec s n
    by_cases hm : m = n
    · subst hm; rw [h1]; exact .of_eq rfl rfl rfl rfl
    · rw [h2 m hm]; exact .refl _

/-- An open item is changed that stays of its kind, or stays no ink stroke. -/
theorem moves_modItem (n : SeatNo) {f : OpenItem → OpenItem}
    (h : ∀ i, inkHandle { s.seat n with item := some (f i) } = inkHandle { s.seat n with item := some i }) :
    Moves s (modItem s n f) :=
  .of_modSeat
    { ink := by
        cases hi : (s.seat n).item with
        | none => simp [inkHandle, hi]
        | some i => exact (h i).trans (inkHandle_congr hi.symm)
      held := rfl
      idle := fun hi => by simp [hi]
      quota := fun hq => .inl ⟨hq, rfl, le_rfl⟩ }

/-- An open item that is no ink stroke is cleared, or set while the class is not RESETTING. -/
theorem moves_setItem {n : SeatNo} {i : Option OpenItem} (h1 : inkHandle (s.seat n) = none)
    (h2 : inkHandle { s.seat n with item := i } = none) (h3 : i = none ∨ s.cls.state ≠ .resetting) :
    Moves s (setItem s n i) where
  journal := rfl
  resetting := .rfl
  idle hr m hm := by
    by_cases e : m = n
    · subst e; rw [seat_setItem]; exact h3.resolve_right (· hr)
    · rw [setItem, seat_modSeat_ne _ _ e]; exact hm
  quota m := by
    by_cases e : m = n
    · subst e; rw [seat_setItem]; exact fun hq => .inl ⟨hq, rfl, le_rfl⟩
    · rw [setItem, seat_modSeat_ne _ _ e]; exact .refl _
  ink := by
    have : viewOf (setItem s n i) = viewOf s := by
      apply InkView.ext <;> try rfl
      · funext m
        by_cases e : m = n
        · subst e; simp
        · simp [setItem, seat_modSeat_ne _ _ e]
      · funext m
        by_cases e : m = n
        · subst e; simp [h1, h2]
        · simp [setItem, seat_modSeat_ne _ _ e]
    rw [this]

theorem moves_joinDue (n : SeatNo) : Moves s (joinDue s n) := by
  unfold joinDue
  split
  · exact .refl s
  · exact .of_same rfl rfl rfl rfl rfl rfl

theorem moves_setDeadline (n : SeatNo) (x : Time) : Moves s (setDeadline s n x) := by
  have h : Moves s (modItem s n fun i => { i with deadline := x + ms (idleOf s n) }) :=
    moves_modItem n fun _ => rfl
  unfold setDeadline
  dsimp only
  split
  · exact h.trans (moves_joinDue n)
  · exact h

theorem moves_modGroup (g : Rev) {f : EraseGroup → EraseGroup} (h : ∀ x, (f x).core = x.core) :
    Moves s (modGroup s g f) :=
  .of_quiet rfl rfl .rfl (by
    simp only [modGroup, List.map_map]
    refine List.map_congr_left fun x _ => ?_
    simp only [Function.comp]
    split <;> [exact h x; rfl]) rfl fun _ => .refl _

theorem moves_quotaFell (n : SeatNo) : Moves s (quotaFell s n) := by
  unfold quotaFell
  split
  · refine .trans (.of_modSeat ⟨rfl, rfl, id, fun h => ?_⟩) (moves_addNotice n _)
    cases h
  · exact .refl s

theorem moves_quotaRefused {n : SeatNo} (h : (s.seat n).quota ≤ (s.seat n).blocksHeld) :
    Moves s (quotaRefused s n) := by
  unfold quotaRefused
  split
  · exact .refl s
  · have h1 : Moves s (s.modSeat n fun t => { t with quotaReached := true }) :=
      .of_modSeat ⟨rfl, rfl, id, fun _ => .inr h⟩
    exact (h1.trans (moves_latch _)).trans (moves_addNotice n _)

theorem moves_poolRefused (o : Origins) (n : SeatNo) : Moves s (poolRefused s o n) := by
  unfold poolRefused
  split
  · split
    · exact .refl s
    · exact .trans (moves_captureFault ..) (moves_modItem n fun _ => rfl)
  · exact moves_captureFault ..

theorem moves_tableRefused (o : Origins) (n : SeatNo) : Moves s (tableRefused s o n) :=
  .of_same rfl rfl rfl rfl rfl rfl

/-! ### Moves of a transaction -/

/-- The base stays, and the state reached comes by moves of ink. -/
structure Tx.Moves (t t' : Tx) : Prop where
  base : t'.base = t.base
  st : Machine.Moves t.st t'.st

theorem Tx.Moves.refl (t : Tx) : Tx.Moves t t := ⟨rfl, .refl t.st⟩

theorem Tx.Moves.trans (h : Tx.Moves t t₁) (k : Tx.Moves t₁ t₂) : Tx.Moves t t₂ :=
  ⟨k.base.trans h.base, h.st.trans k.st⟩

theorem Tx.moves_on {f : State → State} (h : Machine.Moves t.st (f t.st)) : Tx.Moves t (t.on f) := ⟨rfl, h⟩

theorem Tx.Moves.on {f : State → State} (h : Tx.Moves t t₁) (k : Machine.Moves t₁.st (f t₁.st)) :
    Tx.Moves t (t₁.on f) := h.trans (Tx.moves_on k)

theorem Tx.moves_call (c : Call) : Tx.Moves t (t.call c) := ⟨rfl, .refl _⟩

theorem Tx.moves_lose (n : SeatNo) (k : Nat) : Tx.Moves t (t.lose n k) :=
  ⟨rfl, .of_modSeat (.of_eq rfl rfl rfl rfl)⟩

theorem Tx.moves_skip : Tx.Moves t t.skip := ⟨rfl, .of_same rfl rfl rfl rfl rfl rfl⟩

theorem Tx.moves_refuse {o : Origins} {n : SeatNo} {why : Shortage}
    (h : why = .quota → (t.st.seat n).quota ≤ (t.st.seat n).blocksHeld) : Tx.Moves t (t.refuse o n why) := by
  cases why with
  | table => exact ⟨rfl, moves_tableRefused o n⟩
  | quota => exact ⟨rfl, moves_quotaRefused (h rfl)⟩
  | reserve => exact .refl t
  | pool => exact ⟨rfl, moves_poolRefused o n⟩

theorem quota_of_blockRefusal {n : SeatNo} (h : blockRefusal s n = some .quota) :
    (s.seat n).quota ≤ (s.seat n).blocksHeld := by
  unfold blockRefusal at h
  by_cases hq : atQuota s n = true
  · simpa [atQuota] using hq
  · dsimp only at h
    rw [if_neg hq] at h
    split at h <;> [cases h; split at h <;> cases h]

theorem quota_of_openRefusal {n : SeatNo} (h : openRefusal s n = some .quota) :
    (s.seat n).quota ≤ (s.seat n).blocksHeld := by
  unfold openRefusal at h
  split at h
  · cases h
  · exact quota_of_blockRefusal h

theorem moves_flagged {h : Handle} {flags : StrokeFlags → StrokeFlags} (hs : s.store.holds h .opened) :
    Moves s (modStroke s h.idx fun r => { r with flags := flags r.flags }) :=
  ⟨⟨rfl, .rfl, fun _ _ h => h, fun _ => .refl _⟩, .single (.flagged hs)⟩

theorem Tx.moves_truncate {h : Handle} (hs : t.st.store.holds h .opened) : Tx.Moves t (t.truncate h) :=
  Tx.moves_on (f := fun s => modStroke s h.idx _) (moves_flagged (flags := fun f => { f with truncated := true }) hs)

theorem takeBlock_spec {n : SeatNo} {b : BlockNo} (h : takeBlock s n = some (b, u)) :
    ∃ f, s.store.freeBlocks.pop = some (b, f) ∧ ∃ a, u =
      { s.modSeat n fun v => { v with blocksHeld := v.blocksHeld + 1 } with
        store := { s.store with freeBlocks := f }, attention := a } := by
  unfold takeBlock at h
  split at h
  · cases h
  · next b' f hp =>
    refine ⟨f, ?_, ?_⟩
    · dsimp only at h
      cases h
      exact hp
    · dsimp only at h
      cases h
      split
      · exact ⟨_, rfl⟩
      · exact ⟨_, rfl⟩

end Sys2Proof.Machine
end

