-- ==== Sys2Proof/Proofs/InkStrokes.lean ====
section
/-! The drawing operations of a transaction as moves of ink (Machine/Strokes.lean). -/

namespace Sys2Proof.Machine

variable {s u w : State} {t t₁ t₂ : Tx}

/-! ### Open and close -/

/-- R14: what an open leaves. -/
theorem Tx.openStroke_spec {n : SeatNo} {sp : OpenSpec} {x y w : Nat} {c : Bool} {h : Handle}
    (e : t.openStroke n sp x y w c = some (h, t₁)) :
    ∃ i recs b blocks a, t.st.store.freeRecs.take = some (i, recs) ∧
      t.st.store.freeBlocks.pop = some (b, blocks) ∧ h = ⟨i, (t.st.store.stroke i).gen + 1⟩ ∧
      t₁ = { t with
        st := { t.st.modSeat n fun v => { v with blocksHeld := v.blocksHeld + 1 } with
          store := t.st.store.added recs blocks i (openedRecord t n sp h.gen b x y w c) b (.abs x y w false)
          attention := a }
        calls := .opened h 1 :: t.calls
        stored := t.stored + 1 } := by
  unfold Tx.openStroke at e
  split at e
  · cases e
  · next i recs hi =>
    split at e
    · cases e
    · next b s' hb =>
      obtain ⟨blocks, hp, a, rfl⟩ := takeBlock_spec hb
      cases e
      exact ⟨i, recs, b, blocks, a, hi, hp, rfl, rfl⟩

theorem isNewborn_openedRecord (t : Tx) (n : SeatNo) (sp : OpenSpec) (gen : Byte) (b : BlockNo) (x y w : Nat)
    (c : Bool) : IsNewborn (openedRecord t n sp gen b x y w c) gen n b := ⟨rfl, rfl, rfl, rfl, rfl, rfl, rfl, rfl⟩

theorem inkHandle_ink (u : Seat) (h : Handle) (tag : Byte) (l d p : Bool) (x : Time) :
    inkHandle { u with item := some ⟨.ink h tag, l, d, p, x⟩ } = some h := rfl

/-! ### One seat at a time -/

/-- A move of ink that changes the record of one seat. -/
theorem Moves.of_move {n : SeatNo} {v : InkView} (m : InkMove (viewOf s) v) (hst : u.store = v.store)
    (hothers : ∀ m, m ≠ n → u.seat m = s.seat m ∧ v.held m = (s.seat m).blocksHeld ∧
      v.item m = inkHandle (s.seat m))
    (hheld : (u.seat n).blocksHeld = v.held n) (hitem : inkHandle (u.seat n) = v.item n)
    (hq : (viewOf u).queue = v.queue) (hr : (viewOf u).reclaim = v.reclaim) (hj : u.journal = s.journal)
    (hc : u.cls = s.cls) (hidle : s.cls.state = .resetting → (s.seat n).item = none → (u.seat n).item = none)
    (hquota : QuotaKept (s.seat n) (u.seat n)) : Moves s u where
  journal := hj
  resetting := by rw [hc]
  idle hr m hm := by
    by_cases e : m = n
    · rw [e] at hm ⊢; exact hidle hr hm
    · rw [(hothers m e).1]; exact hm
  quota m := by
    by_cases e : m = n
    · rw [e]; exact hquota
    · rw [(hothers m e).1]; exact .refl _
  ink := by
    have hv : viewOf u = v := by
      apply InkView.ext
      · exact hst
      · funext m
        by_cases e : m = n
        · rw [e]; exact hheld
        · rw [viewOf_held, (hothers m e).1, (hothers m e).2.1]
      · funext m
        by_cases e : m = n
        · rw [e]; exact hitem
        · rw [viewOf_item, (hothers m e).1, (hothers m e).2.2]
      · exact hq
      · exact hr
    exact .single (hv ▸ m)

/-- An open whose stroke becomes the open item of a seat, seen from the state without that item. -/
theorem Tx.moves_open_cleared {n : SeatNo} {sp : OpenSpec} {x y w : Nat} {c : Bool} {h : Handle}
    (e : t.openStroke n sp x y w c = some (h, t₁)) (hr : t.st.cls.state ≠ .resetting) (tag : Byte) (l d : Bool) :
    Machine.Moves (setItem t.st n none) (t₁.toInk n h tag l d).st := by
  obtain ⟨i, recs, b, blocks, a, hi, hp, rfl, rfl⟩ := Tx.openStroke_spec e
  refine .of_move (n := n) (.opened (v := viewOf (setItem t.st n none)) (x := x) (y := y) (w := w) hi hp
    (isNewborn_openedRecord t n sp ((t.st.store.stroke i).gen + 1) b x y w c) ?_) rfl (fun m hm => ?_) ?_ ?_
    rfl rfl rfl rfl (fun hr' => absurd hr' hr) ?_
  · simp [inkHandle]
  · simp [Tx.toInk, setItem, State.seat, State.modSeat, updAt_ne _ _ hm, Function.update_of_ne hm]
  · simp [Tx.toInk, setItem, State.seat, State.modSeat]
  · simp [Tx.toInk, setItem, State.seat, State.modSeat, inkHandle, openedRecord]
  · simp [Tx.toInk, setItem, State.seat, State.modSeat, QuotaKept]
    exact fun hq => .inl hq

/-- An open whose stroke becomes the open item of a seat that had no open ink stroke. -/
theorem Tx.moves_openStroke_toInk {n : SeatNo} {sp : OpenSpec} {x y w : Nat} {c : Bool} {h : Handle}
    (e : t.openStroke n sp x y w c = some (h, t₁)) (hn : inkHandle (t.st.seat n) = none)
    (hr : t.st.cls.state ≠ .resetting) (tag : Byte) (l d : Bool) : Tx.Moves t (t₁.toInk n h tag l d) := by
  refine ⟨?_, (moves_setItem hn (by simp [inkHandle]) (.inl rfl)).trans (Tx.moves_open_cleared e hr tag l d)⟩
  obtain ⟨i, recs, b, blocks, a, hi, hp, rfl, rfl⟩ := Tx.openStroke_spec e
  rfl

/-- The state a close of an open ink stroke reaches once the item is cleared (R16, R89). -/
theorem moves_closed {n : SeatNo} {h : Handle} {time : Time} {rev : Rev} {flags : StrokeFlags}
    (hn : inkHandle (s.seat n) = some h) (hs : s.store.holds h .opened)
    (h1 : u.store = s.store.setStroke h.idx { s.store.stroke h.idx with
      state := .closed, closeTime := some time, flags := flags, lastRev := rev })
    (h2 : u.journal = s.journal) (h3 : u.cls = s.cls) (h4 : u.eraseQueue = s.eraseQueue) (h5 : u.maint = s.maint)
    (h6 : ∀ m, m ≠ n → u.seat m = s.seat m) (h7 : (u.seat n).item = none)
    (h8 : (u.seat n).blocksHeld = (s.seat n).blocksHeld) (h9 : QuotaKept (s.seat n) (u.seat n)) : Moves s u :=
  .of_move (n := n) (.closed (v := viewOf s) (time := time) (rev := rev) (flags := flags) hn hs) h1
    (fun m hm => ⟨h6 m hm, rfl, Function.update_of_ne hm _ _⟩) h8 (by simp [inkHandle, h7]) (by simp [h4])
    (by simp [h5]) h2 h3 (fun _ _ => h7) h9

/-- Where the stroke of the open item is no live OPEN one, the item goes and nothing else. -/
theorem moves_dropped {n : SeatNo} {h : Handle} (hn : inkHandle (s.seat n) = some h)
    (hs : ¬s.store.holds h .opened) : Moves s (setItem s n none) :=
  .of_move (n := n) (.dropped (v := viewOf s) hn hs) rfl
    (fun m hm => ⟨seat_modSeat_ne _ _ hm, rfl, Function.update_of_ne hm _ _⟩) (by simp) (by simp [inkHandle]) rfl rfl
    rfl rfl (fun _ _ => by simp) (by rw [seat_setItem]; exact fun hq => .inl ⟨hq, rfl, le_rfl⟩)

/-- R16, R89: the close of a seat's open ink stroke, with the item cleared behind it. -/
theorem Tx.moves_closeInk_clear {n : SeatNo} {h : Handle} (hn : inkHandle (t.st.seat n) = some h) (tag : Byte)
    (c : CloseCause) : Tx.Moves t ((t.closeInk n h tag c).on (setItem · n none)) := by
  unfold Tx.closeInk
  split
  · next hs =>
    have hseat : ∀ (f : Seat → Seat) m, m ≠ n → (t.st.modSeat n f).seat m = t.st.seat m := fun f m hm =>
      seat_modSeat_ne _ _ hm
    dsimp only
    split
    · refine ⟨rfl, moves_closed hn hs rfl rfl rfl rfl rfl (fun m hm => ?_) ?_ ?_ ?_⟩
      · simp [setItem, seat_modSeat_ne _ _ hm]; rfl
      · simp
      · simp; rfl
      · simp only [Tx.on_st, Tx.call_st, seat_setItem, seat_modSeat]
        exact fun hq => .inl ⟨hq, rfl, le_rfl⟩
    · refine ⟨rfl, moves_closed hn hs rfl rfl rfl rfl rfl (fun m hm => ?_) ?_ ?_ ?_⟩
      · simp [setItem, pushUndo, seat_modSeat_ne _ _ hm]; rfl
      · simp
      · simp [pushUndo]; rfl
      · simp only [Tx.on_st, Tx.call_st, seat_setItem, pushUndo, seat_modSeat]
        exact fun hq => .inl ⟨hq, rfl, le_rfl⟩
  · next hs => exact ⟨rfl, moves_dropped hn hs⟩


/-! ### The points of an input -/

theorem updAt_updAt {α : Type} {k : Nat} (v : Vector α k) (i : Fin k) (f g : α → α) :
    updAt (updAt v i f) i g = updAt v i fun a => g (f a) := by
  simp [updAt]

/-- The close and the clearing of an item do not see which item stands before. -/
theorem Tx.closeInk_toInk_clear (t : Tx) (n : SeatNo) (h : Handle) (tag tag' : Byte) (l d : Bool)
    (c : CloseCause) :
    (((t.toInk n h tag l d).closeInk n h tag' c).on (setItem · n none)).st =
      ((t.closeInk n h tag' c).on (setItem · n none)).st := by
  unfold Tx.closeInk
  by_cases hs : t.st.store.live h ∧ (t.st.store.stroke h.idx).state = .opened
  · have hs' : (t.toInk n h tag l d).st.store.live h ∧
        ((t.toInk n h tag l d).st.store.stroke h.idx).state = .opened := hs
    rw [if_pos hs, if_pos hs']
    by_cases hc : c = .split
    · simp [hc, Tx.toInk, Tx.on, Tx.call, setItem, modStroke, State.modSeat, updAt_updAt, Tx.time, Tx.rev]
    · simp [hc, Tx.toInk, Tx.on, Tx.call, setItem, modStroke, pushUndo, State.modSeat, updAt_updAt, Tx.time, Tx.rev]
  · have hs' : ¬((t.toInk n h tag l d).st.store.live h ∧
        ((t.toInk n h tag l d).st.store.stroke h.idx).state = .opened) := hs
    rw [if_neg hs, if_neg hs']
    simp [Tx.toInk, Tx.on, setItem, State.modSeat, updAt_updAt]

theorem Tx.closeInk_base (t : Tx) (n : SeatNo) (h : Handle) (tag : Byte) (c : CloseCause) :
    (t.closeInk n h tag c).base = t.base := (Tx.keeps_closeInk (a := none) n h tag c).base

/-- R15: a coded entry joins the last block. -/
theorem Tx.moves_putEntry_grown {n : SeatNo} {h : Handle} {b : BlockNo} (hn : inkHandle (t.st.seat n) = some h)
    (hs : t.st.store.holds h .opened) (hb : (t.st.store.stroke h.idx).chain.getLast? = some b)
    (hl : (t.st.store.block b).length < 24) (e : Entry) (x y w : Nat) (c d : Bool) :
    Tx.Moves t (t.putEntry n h b (t.st.store.block b ++ [e]) false x y w c d) := by
  refine ⟨rfl, .of_move (n := n) (.grown (v := viewOf t.st) (e := e) hn hs hb hl) rfl (fun m hm => ?_) ?_ ?_ rfl rfl
    rfl rfl ?_ ?_⟩
  · exact ⟨seat_modSeat_ne _ _ hm, rfl, rfl⟩
  · simp [Tx.putEntry, modItem, modStroke, State.seat, State.modSeat]
  · cases hi : (t.st.seat n).item <;>
      simp_all [Tx.putEntry, modItem, modStroke, State.seat, State.modSeat, inkHandle]
  · intro _ hi
    simp_all [Tx.putEntry, modItem, modStroke, State.seat, State.modSeat, inkHandle]
  · intro hq
    refine .inl ⟨?_, ?_, ?_⟩ <;> simp_all [Tx.putEntry, modItem, modStroke, State.seat, State.modSeat]

/-- R15, R26: a coded entry starts a new block. -/
theorem Tx.moves_putEntry_extended {n : SeatNo} {h : Handle} {b c : BlockNo} (hn : inkHandle (t.st.seat n) = some h)
    (hs : t.st.store.holds h .opened) (hb : (t.st.store.stroke h.idx).chain.getLast? = some b)
    (hl : 24 ≤ (t.st.store.block b).length) (hc : (t.st.store.stroke h.idx).chain.length < 64)
    (hp : takeBlock t.st n = some (c, u)) (x y w x' y' w' : Nat) (l cl d : Bool) :
    Tx.Moves t (({ t with st := u }).putEntry n h c [.abs x' y' w' l] true x y w cl d) := by
  obtain ⟨f, hf, a, rfl⟩ := takeBlock_spec hp
  refine ⟨rfl, .of_move (n := n) (.extended (v := viewOf t.st) (x := x') (y := y') (w := w') (l := l) hn hs hb hl hc hf)
    rfl (fun m hm => ?_) ?_ ?_ rfl rfl rfl rfl ?_ ?_⟩
  · simp [Tx.putEntry, Tx.on, modItem, modStroke, State.seat, State.modSeat, updAt_ne _ _ hm,
      Function.update_of_ne hm]
  · simp [Tx.putEntry, Tx.on, modItem, modStroke, State.seat, State.modSeat]
  · cases hi : (t.st.seat n).item <;>
      simp_all [Tx.putEntry, Tx.on, modItem, modStroke, State.seat, State.modSeat, inkHandle]
  · intro _ hi
    simp_all [Tx.putEntry, Tx.on, modItem, modStroke, State.seat, State.modSeat, inkHandle]
  · intro hq
    refine .inl ⟨?_, ?_, ?_⟩ <;> simp_all [Tx.putEntry, Tx.on, modItem, modStroke, State.seat, State.modSeat]

theorem seat_truncate (t : Tx) (h : Handle) (n : SeatNo) : (t.truncate h).st.seat n = t.st.seat n := rfl

/-- R93. -/
theorem Tx.moves_splitStroke {n : SeatNo} {h : Handle} (hn : inkHandle (t.st.seat n) = some h)
    (hs : t.st.store.holds h .opened) (hr : t.st.cls.state ≠ .resetting) (o : Origins) (tag : Byte) (x y w : Nat)
    (c : Bool) : Tx.Moves t (t.splitStroke o n h tag x y w c).1 := by
  unfold Tx.splitStroke
  split
  · next why hw =>
    exact (Tx.moves_truncate hs).trans (Tx.moves_refuse fun e => quota_of_openRefusal (e ▸ hw))
  · dsimp only
    split
    · exact .refl t
    · next g t₁ e =>
      have h1 := Tx.moves_closeInk_clear (t := t) hn tag .split
      have hr' : (t.closeInk n h tag .split).st.cls.state ≠ .resetting := h1.st.not_resetting hr
      refine ⟨?_, h1.st.trans (Tx.moves_open_cleared e hr' tag false false)⟩
      exact (Tx.keeps_openStroke (a := none) e).base.trans (Tx.closeInk_base t n h tag .split)

/-- R67, R88, R91. -/
theorem Tx.moves_storePoint {n : SeatNo} {h : Handle} (hn : inkHandle (t.st.seat n) = some h)
    (hr : t.st.cls.state ≠ .resetting) (o : Origins) (tag : Byte) (l d : Bool) (x y w : Nat) (c : Bool) :
    Tx.Moves t (t.storePoint o n h tag l d x y w c).1 := by
  unfold Tx.storePoint
  dsimp only
  split
  · exact .refl t
  · next b hb =>
    have hlast : t.st.store.lastBlock h.idx = t.st.store.block b := by simp [Store.lastBlock, hb]
    split
    · exact .refl t
    · next hlive =>
      have hs : t.st.store.holds h .opened := by simpa [Store.holds] using hlive
      rw [hlast]
      split
      · next hfull =>
        have hfull' : (t.st.store.block b).length < Config.blockEntries := by simpa using hfull
        exact Tx.moves_putEntry_grown hn hs hb hfull' _ x y w c d
      · next hfull =>
        have hfull' : Config.blockEntries ≤ (t.st.store.block b).length := by simpa using hfull
        split
        · exact Tx.moves_splitStroke hn hs hr ..
        · next hchain =>
          have hchain' : (t.st.store.stroke h.idx).chain.length < 64 := by simpa [Config.maxChain] using hchain
          split
          · next why hw =>
            exact (Tx.moves_truncate hs).trans (Tx.moves_refuse fun e => quota_of_blockRefusal (e ▸ hw))
          · split
            · exact .refl t
            · next hp =>
              have he : ∀ p, codeEntry p (decide (Config.blockEntries ≤ (t.st.store.block b).length)) (l || d) x y w =
                  .abs x y w (l || d) := fun p => by simp [codeEntry, hfull']
              rw [he]
              exact Tx.moves_putEntry_extended hn hs hb hfull' hchain' hp x y w x y w (l || d) c d

end Sys2Proof.Machine
end

