-- ==== Sys2Proof/Proofs/InkErasing.lean ====
section
/-! The erasing and restoring operations of a transaction as moves of ink (Machine/Erasing.lean). -/

namespace Sys2Proof.Machine

variable {s u w : State} {t t₁ t₂ : Tx}

/-! ### Points -/

/-- A mapped point may grow the clipped-points counter, and leaves store and items. -/
theorem Tx.mapped_spec {n : SeatNo} {tool : PenTool} {r : RawPoint} {m : MapOut} (e : t.mapped n tool r = (m, t₁)) :
    Tx.Moves t t₁ ∧ t₁.st.store = t.st.store ∧ (t₁.st.seat n).item = (t.st.seat n).item := by
  unfold Tx.mapped at e
  dsimp only at e
  obtain ⟨-, rfl⟩ := Prod.mk.inj e
  split
  · exact ⟨⟨rfl, .of_modSeat (.of_eq rfl rfl rfl rfl)⟩, rfl, by simp⟩
  · exact ⟨.refl t, rfl, rfl⟩

theorem Tx.Moves.not_resetting (h : Tx.Moves t t₁) (hr : t.st.cls.state ≠ .resetting) :
    t₁.st.cls.state ≠ .resetting := h.st.not_resetting hr

theorem inkHandle_of_item {a : Seat} {h : Handle} {tag : Byte} {l d p : Bool} {x : Time}
    (e : a.item = some ⟨.ink h tag, l, d, p, x⟩) : inkHandle a = some h := by simp [inkHandle, e]

theorem Tx.moves_mark (n : SeatNo) {f : OpenItem → OpenItem} (h : ∀ i, (f i).kind = i.kind) :
    Tx.Moves t (t.on (modItem · n f)) :=
  Tx.moves_on (f := fun s => modItem s n f) (moves_modItem n fun i => by simp [inkHandle, h])

/-- R60, R63, R66, R88. -/
theorem Tx.moves_inkPoint (o : Origins) (n : SeatNo) (r : RawPoint) (hr : t.st.cls.state ≠ .resetting) :
    Tx.Moves t (t.inkPoint o n r).1 := by
  unfold Tx.inkPoint
  split
  · next h tag lift drop _ _ hi =>
    split
    · next e => exact (Tx.mapped_spec e).1.trans (Tx.moves_mark n fun _ => rfl)
    · next e => exact (Tx.mapped_spec e).1.trans (Tx.moves_mark n fun _ => rfl)
    · next e =>
      obtain ⟨hm, -, hitem⟩ := Tx.mapped_spec e
      dsimp only
      split
      · exact hm
      · exact hm.trans (Tx.moves_storePoint (inkHandle_of_item (hitem.trans hi)) (hm.not_resetting hr) ..)
  · exact .refl t

theorem Tx.moves_inkPoints (o : Origins) (n : SeatNo) (rs : List RawPoint) (t : Tx)
    (hr : t.st.cls.state ≠ .resetting) : Tx.Moves t (Tx.inkPoints o n rs t) := by
  induction rs generalizing t with
  | nil => exact .refl t
  | cons r rs ih =>
    unfold Tx.inkPoints
    have h1 := Tx.moves_inkPoint (t := t) o n r hr
    split
    · next e => rw [e] at h1; exact h1.trans (ih _ (h1.not_resetting hr))
    · next e => rw [e] at h1; exact h1.trans (Tx.moves_lose n _)

/-- R83, R85, R90. -/
theorem Tx.moves_openPoints (o : Origins) (n : SeatNo) (sp : OpenSpec) (rs : List RawPoint) (t : Tx)
    (hn : inkHandle (t.st.seat n) = none) (hr : t.st.cls.state ≠ .resetting) :
    Tx.Moves t (Tx.openPoints o n sp rs t) := by
  induction rs generalizing t with
  | nil => exact .refl t
  | cons r rs ih =>
    unfold Tx.openPoints
    split
    · next x y w c t₁ e =>
      obtain ⟨hm, -, hitem⟩ := Tx.mapped_spec e
      have hn' : inkHandle (t₁.st.seat n) = none := (inkHandle_congr hitem).trans hn
      have hr' := hm.not_resetting hr
      split
      · next hw =>
        exact hm.trans ((Tx.moves_refuse fun e => quota_of_openRefusal (e ▸ hw)).trans (Tx.moves_lose n _))
      · split
        · exact hm
        · next h t₂ eo =>
          have h2 := Tx.moves_openStroke_toInk eo hn' hr' sp.tag false false
          exact hm.trans (h2.trans (Tx.moves_inkPoints o n rs _ (h2.not_resetting hr')))
    · next m t₁ _ e =>
      obtain ⟨hm, -, hitem⟩ := Tx.mapped_spec e
      exact hm.trans (ih _ ((inkHandle_congr hitem).trans hn) (hm.not_resetting hr))

/-! ### Erasing -/

theorem isSome_queuedGroup (s : State) (g : Rev) :
    (queuedGroup s g).isSome = true ↔ ∃ x ∈ s.eraseQueue.map EraseGroup.core, x.1 = g := by
  simp [queuedGroup, EraseGroup.core]

theorem joinGroup_core (s : State) (g : Rev) (h : Handle) (rev : Rev) (o : Origin) (b : Bool) :
    (joinGroup s g h rev o b).eraseQueue.map EraseGroup.core = joinedQueue (s.eraseQueue.map EraseGroup.core) g h := by
  unfold joinGroup joinedQueue
  by_cases hg : (queuedGroup s g).isSome = true
  · rw [if_pos hg, if_pos ((isSome_queuedGroup s g).mp hg)]
    simp only [modGroup, List.map_map]
    refine List.map_congr_left fun x _ => ?_
    by_cases hx : x.id = g <;> simp [EraseGroup.core, hx]
  · rw [if_neg hg, if_neg (fun e => hg ((isSome_queuedGroup s g).mpr e))]
    simp [EraseGroup.core]

/-- What the quota test after a fall of blocks held leaves of a seat (R41). -/
theorem seat_quotaFell (s : State) (n : SeatNo) :
    (∀ m, m ≠ n → (quotaFell s n).seat m = s.seat m) ∧ ∃ q b,
      (quotaFell s n).seat n = { s.seat n with quotaReached := q, notices := b } ∧
      (q = true → (s.seat n).quota ≤ (s.seat n).blocksHeld) := by
  have hn : ∀ (u : State) (k : Notice) m, m ≠ n → (addNotice u n k).seat m = u.seat m := fun u k m hm => by
    by_cases h : portOf n = .tablet
    · exact (addNotice_spec u n k h).2.1 m hm
    · rw [addNotice_other u n k h]
  unfold quotaFell
  split
  · refine ⟨fun m hm => (hn _ _ m hm).trans (seat_modSeat_ne _ _ hm), ?_⟩
    obtain ⟨b, hb⟩ := seat_addNotice (s.modSeat n fun t => { t with quotaReached := false }) n n .quotaCleared
    exact ⟨false, b, by rw [hb, seat_modSeat], fun h => by cases h⟩
  · next h =>
    refine ⟨fun _ _ => rfl, (s.seat n).quotaReached, (s.seat n).notices, rfl, fun hq => ?_⟩
    simpa [hq] using h

/-- R17, R99, R101. -/
theorem Tx.moves_erase (h : Handle) (g : Rev) (o : Origin) (b : Bool) : Tx.Moves t (t.erase h g o b) := by
  unfold Tx.erase
  dsimp only
  split
  · next hs =>
    let n := (t.st.store.stroke h.idx).owner
    let k := (t.st.store.stroke h.idx).chain.length
    let s₁ := (modStroke (joinGroup t.st g h t.rev o b) h.idx fun r =>
      { r with state := .erased, group := some g, eraseRev := some t.rev, lastRev := t.rev }).modSeat n
        fun u => { u with blocksHeld := u.blocksHeld - k }
    have hne : ∀ m, m ≠ n → s₁.seat m = t.st.seat m := fun m hm =>
      (seat_modSeat_ne _ _ hm).trans (seat_congr (by simp [modStroke]; unfold joinGroup; split <;> rfl) m)
    have hself : s₁.seat n = { t.st.seat n with blocksHeld := (t.st.seat n).blocksHeld - k } := by
      rw [seat_modSeat, seat_congr (t := modStroke _ _ _) (s := t.st)
        (by simp [modStroke]; unfold joinGroup; split <;> rfl)]
    obtain ⟨h1, q, nb, h2, h3⟩ := seat_quotaFell s₁ n
    have hjoin : (joinGroup t.st g h t.rev o b).store = t.st.store ∧
        (joinGroup t.st g h t.rev o b).journal = t.st.journal ∧ (joinGroup t.st g h t.rev o b).cls = t.st.cls ∧
        (joinGroup t.st g h t.rev o b).maint = t.st.maint := by
      unfold joinGroup; split <;> exact ⟨rfl, rfl, rfl, rfl⟩
    refine ⟨rfl, ?_⟩
    show Machine.Moves t.st (quotaFell s₁ n)
    refine .of_move (n := n) (.erased (v := viewOf t.st) (g := g) (rev := t.rev) hs) ?_
      (fun m hm => ⟨(h1 m hm).trans (hne m hm), Function.update_of_ne hm _ _, rfl⟩) ?_ ?_ ?_ ?_ ?_ ?_ ?_ ?_
    · simp [s₁, modStroke, hjoin]
    · rw [h2, hself]; exact (Function.update_self n ((t.st.seat n).blocksHeld - k) (viewOf t.st).held).symm
    · rw [h2, hself]; rfl
    · simp [s₁, modStroke, joinGroup_core]
    · simp [s₁, modStroke, hjoin]
    · simp [s₁, modStroke, hjoin]
    · simp [s₁, modStroke, hjoin]
    · intro _ hi; rw [h2, hself]; exact hi
    · rw [h2]; exact fun hq => .inr (h3 hq)
  · exact .refl t

theorem moves_setContextGroup (n : SeatNo) (g : Option Rev) : Moves s (setContextGroup s n g) :=
  moves_modItem n fun i => by
    obtain ⟨k, l, d, p, x⟩ := i
    cases k <;> rfl

/-- R101. -/
theorem Tx.moves_hitStrokes (n : SeatNo) (sc : Scope) (x y w : Nat) (hs : List Handle) (t : Tx) :
    Tx.Moves t (Tx.hitStrokes n sc x y w hs t) := by
  induction hs generalizing t with
  | nil => exact .refl t
  | cons h hs ih =>
    unfold Tx.hitStrokes
    dsimp only
    split
    · split
      · exact ((Tx.moves_erase ..).on (moves_setContextGroup n _)).trans (ih _)
      · split
        · exact Tx.moves_skip.trans (ih _)
        · exact ih t
    · exact .refl t

theorem Tx.moves_eraserPoint (n : SeatNo) (r : RawPoint) : Tx.Moves t (t.eraserPoint n r) := by
  unfold Tx.eraserPoint
  split
  · split
    · next e => exact (Tx.mapped_spec e).1.trans (Tx.moves_hitStrokes ..)
    · next e => exact (Tx.mapped_spec e).1
  · exact .refl t

theorem Tx.moves_eraserPoints (n : SeatNo) (rs : List RawPoint) (t : Tx) : Tx.Moves t (Tx.eraserPoints n rs t) := by
  unfold Tx.eraserPoints
  induction rs generalizing t with
  | nil => exact .refl t
  | cons r rs ih => exact (Tx.moves_eraserPoint n r).trans (ih _)

/-- R102. -/
theorem Tx.moves_closeEraser (n : SeatNo) (g : Option Rev) : Tx.Moves t (t.closeEraser n g) := by
  unfold Tx.closeEraser
  split
  · exact .refl t
  · next g =>
    have h : Tx.Moves t (t.on (modGroup · g fun x => { x with isOpen := false })) :=
      Tx.moves_on (f := fun s => modGroup s g _) (moves_modGroup g fun _ => rfl)
    exact h.on (moves_pushUndo n _)

theorem Tx.moves_eraseAll (keep : Stroke → Bool) (hs : List Handle) (r : Tx × Nat × Nat) :
    Tx.Moves r.1 (Tx.eraseAll keep hs r).1 := by
  induction hs generalizing r with
  | nil => exact .refl _
  | cons h hs ih =>
    obtain ⟨t, e, k⟩ := r
    unfold Tx.eraseAll
    dsimp only
    split
    · exact (Tx.moves_erase h t.rev .console false).trans (ih (t.erase h t.rev .console false, e + 1, k))
    · split
      · exact (Tx.moves_skip (t := t)).trans (ih (t.skip, e, k + 1))
      · exact ih (t, e, k)

theorem Tx.moves_eraseSeat (n : SeatNo) (ps : List PageNo) : Tx.Moves t (t.eraseSeat n ps).1 :=
  Tx.moves_eraseAll _ _ (t, 0, 0)

/-! ### Restoring -/

/-- R18: what restoring one member leaves. -/
theorem Tx.restoreStroke_spec (g : Rev) (t : Tx) (h : Handle) :
    (Tx.restoreStroke g t h).base = t.base ∧ InkFrame t.st (Tx.restoreStroke g t h).st ∧
      viewOf (Tx.restoreStroke g t h).st = (viewOf t.st).restore1 t.rev h := by
  unfold Tx.restoreStroke
  dsimp only
  by_cases hs : t.st.store.live h = true ∧ (t.st.store.stroke h.idx).state = .erased
  · rw [if_pos hs, InkView.restore1_of_holds (v := viewOf t.st) hs]
    refine ⟨rfl, ⟨rfl, .rfl, fun _ m hm => ?_, fun m => ?_⟩, ?_⟩
    · by_cases e : m = (t.st.store.stroke h.idx).owner
      · simp [e, State.seat, State.modSeat, modStroke] at hm ⊢; exact hm
      · simpa [State.seat, State.modSeat, modStroke, updAt_ne _ _ e] using hm
    · by_cases e : m = (t.st.store.stroke h.idx).owner
      · intro hq
        simp [e, State.seat, State.modSeat, modStroke] at hq ⊢
        exact .inl hq
      · simp [QuotaKept, State.seat, State.modSeat, modStroke, updAt_ne _ _ e]
        exact fun hq => .inl hq
    · apply InkView.ext
      · rfl
      · funext m
        by_cases e : m = (t.st.store.stroke h.idx).owner
        · simp [e, State.seat, State.modSeat, modStroke]
        · simp [State.seat, State.modSeat, modStroke, updAt_ne _ _ e, Function.update_of_ne e]
      · funext m
        by_cases e : m = (t.st.store.stroke h.idx).owner
        · simp [e, State.seat, State.modSeat, modStroke, inkHandle]
        · simp [State.seat, State.modSeat, modStroke, updAt_ne _ _ e]
      · rfl
      · rfl
  · rw [if_neg hs, InkView.restore1_of_not_holds (v := viewOf t.st) hs]; exact ⟨rfl, .refl _, rfl⟩

theorem Tx.foldl_restoreStroke_spec (g : Rev) (ms : List Handle) (t : Tx) :
    (ms.foldl (Tx.restoreStroke g) t).base = t.base ∧ InkFrame t.st (ms.foldl (Tx.restoreStroke g) t).st ∧
      viewOf (ms.foldl (Tx.restoreStroke g) t).st = ms.foldl (InkView.restore1 t.rev) (viewOf t.st) := by
  induction ms generalizing t with
  | nil => exact ⟨rfl, .refl _, rfl⟩
  | cons h ms ih =>
    obtain ⟨h1, h2, h3⟩ := Tx.restoreStroke_spec g t h
    obtain ⟨k1, k2, k3⟩ := ih (Tx.restoreStroke g t h)
    have hrev : (Tx.restoreStroke g t h).rev = t.rev := by simp [Tx.rev, h1]
    rw [hrev, h3] at k3
    exact ⟨k1.trans h1, h2.trans k2, k3⟩

theorem moves_dropContexts (g : Rev) : Moves s (dropContexts s g) := by
  unfold dropContexts
  refine .of_map fun u => ?_
  split
  · next i hi =>
    split
    · next hk =>
      split
      · refine ⟨?_, rfl, fun h => by simp [hi] at h, fun h => .inl ⟨h, rfl, le_rfl⟩⟩
        simp [inkHandle, hi, hk]
      · exact .refl u
    · exact .refl u
  · exact .refl u

/-- R109. -/
theorem Tx.moves_restoreGroup {g : Rev} {x : EraseGroup} (hq : queuedGroup t.st g = some x) :
    Tx.Moves t (t.restoreGroup x) := by
  have hid : x.id = g := by simpa using List.find?_some hq
  obtain ⟨h1, h2, h3⟩ := Tx.foldl_restoreStroke_spec x.id x.members t
  have hfind : (viewOf t.st).queue.find? (fun y => decide (y.1 = x.id)) = some (x.id, x.members) := by
    rw [viewOf_queue, List.find?_map]
    rw [← hid] at hq
    exact congrArg (Option.map EraseGroup.core) hq
  have hfilter : ∀ q : List EraseGroup, (q.filter fun y => decide (y.id ≠ x.id)).map EraseGroup.core =
      (q.map EraseGroup.core).filter fun y => decide (y.1 ≠ x.id) := fun q => by
    rw [List.filter_map]; rfl
  refine ⟨h1, Machine.Moves.trans (u := { (x.members.foldl (Tx.restoreStroke x.id) t).st with
    eraseQueue := (x.members.foldl (Tx.restoreStroke x.id) t).st.eraseQueue.filter
      fun y => decide (y.id ≠ x.id) }) ⟨⟨h2.journal, h2.resetting, h2.idle, h2.quota⟩, ?_⟩ (moves_dropContexts x.id)⟩
  have hmove := InkMove.restored (v := viewOf t.st) (rev := t.rev) hfind
  rw [← h3] at hmove
  have hqueue : ∀ ms (v : InkView), (List.foldl (InkView.restore1 t.rev) v ms).queue = v.queue := by
    intro ms
    induction ms with
    | nil => exact fun _ => rfl
    | cons m ms ih =>
      refine fun v => (ih _).trans ?_
      unfold InkView.restore1
      dsimp only
      split <;> rfl
  convert Relation.ReflTransGen.single hmove using 1
  apply InkView.ext <;> try rfl
  exact (hfilter _).trans (congrArg _ (show (viewOf _).queue = _ by rw [h3, hqueue]))

theorem Tx.moves_eraseChain (o : Origin) (n : SeatNo) (k : Nat) (h : Option Handle) (r : Tx × Nat) :
    Tx.Moves r.1 (Tx.eraseChain o n k h r).1 := by
  induction k generalizing h r with
  | zero => exact .refl _
  | succ k ih =>
    obtain ⟨t, c⟩ := r
    cases h with
    | none => exact .refl _
    | some h =>
      unfold Tx.eraseChain
      dsimp only
      split
      · exact (Tx.moves_erase h t.rev o false).trans (ih _ (t.erase h t.rev o false, c + 1))
      · exact .refl _

/-- R106. -/
theorem Tx.moves_retract (n : SeatNo) (o : Origin) (es : List UndoEntry) (t : Tx) :
    Tx.Moves t (Tx.retract n o es t).1 := by
  have hpop : ∀ (t : Tx) (rest : List UndoEntry),
      Tx.Moves t (t.on (·.modSeat n fun u => { u with undo := rest })) := fun t rest =>
    Tx.moves_on (f := fun s => s.modSeat n _) (.of_modSeat (.of_eq rfl rfl rfl rfl))
  induction es generalizing t with
  | nil => exact hpop t []
  | cons e es ih =>
    unfold Tx.retract
    dsimp only
    split
    · next h =>
      split
      · exact (hpop t es).trans (Tx.moves_eraseChain o
          ((t.on (·.modSeat n fun u => { u with undo := es })).st.store.stroke h.idx).owner
          Config.records (some h) (t.on (·.modSeat n fun u => { u with undo := es }), 0))
      · exact (hpop t es).trans (ih _)
    · split
      · next hq => exact (hpop t es).trans (Tx.moves_restoreGroup hq)
      · exact (hpop t es).trans (ih _)

/-- R105, R108. -/
theorem Tx.moves_runRetract (n : SeatNo) (o : Origin) : Tx.Moves t (t.runRetract n o).1 := by
  unfold Tx.runRetract
  have h := Tx.moves_retract n o (t.st.seat n).undo t
  split
  next e =>
  rw [e] at h
  exact h.on (moves_addNotice n _)

end Sys2Proof.Machine
end

