-- ==== Sys2Proof/Proofs/InkDrawing.lean ====
section
/-! The drawing inputs of a transaction as moves of ink (Machine/Drawing.lean). Opening and setting an item
take a class that is not RESETTING, which is what the disposal of an input has tested (R32, R73). -/

namespace Sys2Proof.Machine

variable {s u w : State} {t t₁ t₂ : Tx}

/-- A seat with no open ink stroke. -/
def Tx.NoInk (t : Tx) (n : SeatNo) : Prop := inkHandle (t.st.seat n) = none

theorem Tx.noInk_setItem_none (t : Tx) (n : SeatNo) : (t.on (setItem · n none)).NoInk n := by
  simp [Tx.NoInk, inkHandle]

theorem Tx.noInk_of_item {n : SeatNo} (h : (t.st.seat n).item = none) : t.NoInk n := by simp [Tx.NoInk, inkHandle, h]

/-! ### The end of an open item -/

theorem Tx.closeEraser_item (t : Tx) (n : SeatNo) (g : Option Rev) :
    ((t.closeEraser n g).st.seat n).item = (t.st.seat n).item := by
  cases g with
  | none => rfl
  | some g => simp [Tx.closeEraser, pushUndo]; rfl

/-- R89, R96. -/
theorem Tx.moves_endItem (n : SeatNo) (c : CloseCause) : Tx.Moves t (t.endItem n c) := by
  have hclear : ∀ {t : Tx}, t.NoInk n → Tx.Moves t (t.on (setItem · n none)) := fun h =>
    Tx.moves_on (f := fun s => setItem s n none) (moves_setItem h (by simp [inkHandle]) (.inl rfl))
  unfold Tx.endItem
  split
  · exact .refl t
  · next i hi =>
    obtain ⟨k, l, d, p, x⟩ := i
    cases k with
    | ink h tag => exact Tx.moves_closeInk_clear (inkHandle_of_item hi) tag c
    | eraser a b pg g =>
      refine (Tx.moves_closeEraser n g).trans (hclear ?_)
      simp [Tx.NoInk, inkHandle, Tx.closeEraser_item, hi]
    | armed a b l2 c2 => exact hclear (by simp [Tx.NoInk, inkHandle, hi])
    | held p2 => exact hclear (by simp [Tx.NoInk, inkHandle, hi])

theorem Tx.endItem_item (t : Tx) (n : SeatNo) (c : CloseCause) : ((t.endItem n c).st.seat n).item = none := by
  unfold Tx.endItem
  split
  · assumption
  · simp

theorem Tx.noInk_endItem (t : Tx) (n : SeatNo) (c : CloseCause) : (t.endItem n c).NoInk n :=
  Tx.noInk_of_item (Tx.endItem_item t n c)

theorem Tx.moves_cutSeat (n : SeatNo) : Tx.Moves t (t.cutSeat n) := Tx.moves_endItem n .cut

/-- R73 step 5, R97. -/
theorem Tx.moves_serveCut (n : SeatNo) : Tx.Moves t (t.serveCut n) := by
  unfold Tx.serveCut
  split
  · exact (Tx.moves_cutSeat n).on (.of_modSeat (.of_eq rfl rfl rfl rfl))
  · exact .refl t

theorem Tx.moves_serveCuts (ns : List SeatNo) (t : Tx) : Tx.Moves t (Tx.serveCuts ns t) := by
  unfold Tx.serveCuts
  induction ns generalizing t with
  | nil => exact .refl t
  | cons n ns ih => exact (Tx.moves_serveCut n).trans (ih _)

/-! ### Held points -/

/-- A refusal leaves the open ink stroke of every seat (R90, R91). -/
theorem Tx.inkHandle_refuse (t : Tx) (o : Origins) (n m : SeatNo) (why : Shortage) :
    inkHandle ((t.refuse o n why).st.seat m) = inkHandle (t.st.seat m) := by
  have hpool : inkHandle ((poolRefused t.st o n).seat m) = inkHandle (t.st.seat m) := by
    unfold poolRefused
    split
    · next i hi =>
      split
      · rfl
      · by_cases e : m = n
        · subst e
          rw [modItem, seat_modSeat]
          simp only [seat_congr (captureFault_seats ..), inkHandle, hi, Option.map_some]
        · rw [modItem, seat_modSeat_ne _ _ e]; rfl
    · rfl
  have hquota : inkHandle ((quotaRefused t.st n).seat m) = inkHandle (t.st.seat m) := by
    unfold quotaRefused
    split
    · rfl
    · obtain ⟨b, hb⟩ := seat_addNotice (latch (t.st.modSeat n fun u => { u with quotaReached := true }) Source.quota) n m .quotaReached
      rw [hb]
      refine inkHandle_congr (show ((t.st.modSeat n _).seat m).item = (t.st.seat m).item from ?_)
      by_cases e : m = n
      · subst e; rw [seat_modSeat]
      · rw [seat_modSeat_ne _ _ e]
  cases why with
  | table => rfl
  | quota => exact hquota
  | reserve => rfl
  | pool => exact hpool

/-- R81, R85. -/
theorem Tx.moves_makeDot (o : Origins) (n : SeatNo) (p : HeldPoint) (c : CloseCause) (hn : t.NoInk n)
    (hr : t.st.cls.state ≠ .resetting) : Tx.Moves t (t.makeDot o n p c) := by
  unfold Tx.makeDot
  dsimp only
  split
  · next why hw =>
    refine ((Tx.moves_refuse fun e => quota_of_openRefusal (e ▸ hw)).trans (Tx.moves_lose n 1)).on
      (f := fun s => setItem s n none) ?_
    refine moves_setItem ?_ (by simp [inkHandle]) (.inl rfl)
    refine (inkHandle_congr (a := (t.refuse o n why).st.seat n) ?_).trans ((t.inkHandle_refuse ..).trans hn)
    simp [Tx.lose]
  · split
    · exact .refl t
    · next h t₁ e =>
      have h1 := Tx.moves_openStroke_toInk e hn hr (BitVec.ofNat 8 n.val) false false
      have h2 := Tx.moves_closeInk_clear (t := t₁.toInk n h (BitVec.ofNat 8 n.val) false false) (h := h) (n := n)
        (by simp [Tx.toInk, inkHandle]) (BitVec.ofNat 8 n.val) c
      have h3 := (h1.trans h2).st
      rw [Tx.closeInk_toInk_clear] at h3
      exact ⟨(Tx.closeInk_base t₁ ..).trans h1.base, h3⟩

theorem Tx.noInk_makeDot (o : Origins) (n : SeatNo) (p : HeldPoint) (c : CloseCause) (hn : t.NoInk n) :
    (t.makeDot o n p c).NoInk n := by
  unfold Tx.makeDot
  dsimp only
  split
  · exact Tx.noInk_setItem_none _ n
  · split
    · exact hn
    · exact Tx.noInk_setItem_none _ n

theorem Tx.moves_releaseHeld (o : Origins) (n : SeatNo) (p : HeldPoint) (x : Time) (c : CloseCause)
    (hn : t.NoInk n) (hr : t.st.cls.state ≠ .resetting) : Tx.Moves t (t.releaseHeld o n p x c) := by
  unfold Tx.releaseHeld
  split
  · exact Tx.moves_makeDot o n p c hn hr
  · exact (Tx.moves_on (.of_same rfl rfl rfl rfl rfl rfl)).on (f := fun s => setItem s n none)
      (moves_setItem (s := { t.st with counters := { t.st.counters with glitch := _ } }) hn (by simp [inkHandle])
        (.inl rfl))

theorem Tx.noInk_releaseHeld (o : Origins) (n : SeatNo) (p : HeldPoint) (x : Time) (c : CloseCause)
    (hn : t.NoInk n) : (t.releaseHeld o n p x c).NoInk n := by
  unfold Tx.releaseHeld
  split
  · exact Tx.noInk_makeDot o n p c hn
  · exact Tx.noInk_setItem_none _ n

theorem Tx.noInk_of_held {p : HeldPoint} {l d q : Bool} {x : Time} {n : SeatNo}
    (h : (t.st.seat n).item = some ⟨.held p, l, d, q, x⟩) : t.NoInk n := by simp [Tx.NoInk, inkHandle, h]

/-- R94. -/
theorem Tx.moves_expireSeat (n : SeatNo) (hr : t.st.cls.state ≠ .resetting) : Tx.Moves t (t.expireSeat n) := by
  unfold Tx.expireSeat
  split
  · exact .refl t
  · next i hi =>
    split
    · exact .refl t
    · obtain ⟨k, l, d, p, x⟩ := i
      cases k with
      | held p2 => exact Tx.moves_releaseHeld _ n p2 _ _ (Tx.noInk_of_held hi) hr
      | ink h tag => exact Tx.moves_endItem n _
      | eraser a b pg g => exact Tx.moves_endItem n _
      | armed a b l2 c2 => exact Tx.moves_endItem n _

/-! ### Frames of drawing -/

theorem Tx.moves_setDeadline (n : SeatNo) (x : Time) : Tx.Moves t (t.on (setDeadline · n x)) :=
  Tx.moves_on (f := fun s => setDeadline s n x) (Machine.moves_setDeadline n x)

/-- An item that is no ink stroke takes the place of none or of one that is no ink stroke. -/
theorem Tx.moves_setItem {n : SeatNo} (i : OpenItem) (hn : t.NoInk n)
    (hi : inkHandle { t.st.seat n with item := some i } = none) (hr : t.st.cls.state ≠ .resetting) :
    Tx.Moves t (t.on (Machine.setItem · n (some i))) :=
  Tx.moves_on (f := fun s => setItem s n (some i)) (Machine.moves_setItem hn hi (.inr hr))

/-- R82. -/
theorem Tx.moves_beginInput (o : Origins) (n : SeatNo) (tag tool layer colour : Byte) (x : Time)
    (hr : t.st.cls.state ≠ .resetting) : Tx.Moves t (t.beginInput o n tag tool layer colour x).1 := by
  have hden : Tx.Moves t (t.on (captureFault · .denied o.link (some n) o.frame)) :=
    Tx.moves_on (f := fun s => captureFault s .denied o.link (some n) o.frame) (moves_captureFault ..)
  unfold Tx.beginInput
  dsimp only
  split
  · exact hden
  · split
    · exact hden
    · split
      · exact Tx.moves_on (f := fun s => countDiscard s n) (moves_countDiscard n)
      · have h1 := Tx.moves_endItem (t := t) n .superseded
        refine (h1.trans (Tx.moves_setItem _ (Tx.noInk_endItem t n _) ?_ (h1.not_resetting hr))).trans
          (Tx.moves_setDeadline n x)
        split <;> simp [inkHandle]

/-- R83, R86. -/
theorem Tx.moves_orphanPoints (o : Origins) (n : SeatNo) (tag : Byte) (ps : List RawPoint) (x : Time)
    (hr : t.st.cls.state ≠ .resetting) : Tx.Moves t (t.orphanPoints o n tag ps x).1 := by
  unfold Tx.orphanPoints
  split
  · exact Tx.moves_on (f := fun s => captureFault s .denied o.link (some n) o.frame) (moves_captureFault ..)
  · have h1 := Tx.moves_endItem (t := t) n .superseded
    exact (h1.trans (Tx.moves_openPoints o n _ ps _ (Tx.noInk_endItem t n _) (h1.not_resetting hr))).trans
      (Tx.moves_setDeadline n x)

/-- R83. -/
theorem Tx.moves_pointsInput (o : Origins) (n : SeatNo) (tag : Byte) (ps : List RawPoint) (x : Time)
    (hr : t.st.cls.state ≠ .resetting) : Tx.Moves t (t.pointsInput o n tag ps x).1 := by
  unfold Tx.pointsInput
  split
  · exact Tx.moves_orphanPoints o n tag ps x hr
  · next i hi =>
    split
    · exact Tx.moves_orphanPoints o n tag ps x hr
    · obtain ⟨k, l, d, p, y⟩ := i
      cases k with
      | ink h g => exact (Tx.moves_inkPoints o n ps t hr).trans (Tx.moves_setDeadline n x)
      | armed a b l2 c2 =>
        have hn : t.NoInk n := by simp [Tx.NoInk, inkHandle, hi]
        exact (Tx.moves_openPoints o n _ ps t hn hr).trans (Tx.moves_setDeadline n x)
      | eraser a b pg g => exact (Tx.moves_eraserPoints n ps t).trans (Tx.moves_setDeadline n x)
      | held p2 => exact Tx.moves_orphanPoints o n tag ps x hr

/-- R84. -/
theorem Tx.moves_finishInput (n : SeatNo) (tag : Byte) : Tx.Moves t (t.finishInput n tag).1 := by
  have hcount : Tx.Moves t (t.on (countDiscard · n)) :=
    Tx.moves_on (f := fun s => countDiscard s n) (moves_countDiscard n)
  unfold Tx.finishInput
  split
  · split
    · exact Tx.moves_endItem n .plain
    · exact hcount
  · exact hcount

/-! ### Samples of a board contact -/

theorem Tx.moves_endContact (n : SeatNo) (x : Time) (hr : t.st.cls.state ≠ .resetting) :
    Tx.Moves t (t.endContact n x) := by
  unfold Tx.endContact
  split
  · next hi => exact Tx.moves_releaseHeld _ n _ x _ (Tx.noInk_of_held hi) hr
  · exact Tx.moves_endItem n _

theorem Tx.noInk_endContact (t : Tx) (n : SeatNo) (x : Time) : (t.endContact n x).NoInk n := by
  unfold Tx.endContact
  split
  · next hi => exact Tx.noInk_releaseHeld _ n _ x _ (Tx.noInk_of_held hi)
  · exact Tx.noInk_endItem t n _

/-- The point of a DOWN with an ink tool is held (R78). -/
theorem Tx.moves_hold (n : SeatNo) (it : InkTool) (colour : Fin 64) (layer : LayerNo) (x : Sample) (hn : t.NoInk n)
    (hr : t.st.cls.state ≠ .resetting) :
    Tx.Moves t (match t.mapped n it.pen x.frame.point with
      | (.point px py w clamped, t) =>
        t.on (Machine.setItem · n (some
          { kind := .held ⟨px, py, w, clamped, x.stamp, it, colour, layer⟩ }))
      | (_, t) => t) := by
  split
  · next e =>
    obtain ⟨hm, -, hitem⟩ := Tx.mapped_spec e
    exact hm.trans (Tx.moves_setItem _ ((inkHandle_congr hitem).trans hn) (by simp [inkHandle])
      (hm.not_resetting hr))
  · next e => exact (Tx.mapped_spec e).1

/-- R78. -/
theorem Tx.moves_newContact (n : SeatNo) (tool : PenTool) (x : Sample) (hn : t.NoInk n)
    (hr : t.st.cls.state ≠ .resetting) : Tx.Moves t (t.newContact n tool x) := by
  unfold Tx.newContact
  dsimp only
  refine Tx.Moves.trans ?_ (Tx.moves_setDeadline n x.stamp)
  cases tool with
  | eraser => exact (Tx.moves_setItem _ hn (by simp [inkHandle]) hr).trans (Tx.moves_eraserPoint n _)
  | ink => exact Tx.moves_hold n .ink _ _ x hn hr
  | highlight => exact Tx.moves_hold n .highlight _ _ x hn hr

theorem Tx.moves_downInput (n : SeatNo) (tool : PenTool) (x : Sample) (hr : t.st.cls.state ≠ .resetting) :
    Tx.Moves t (t.downInput n tool x) := by
  unfold Tx.downInput
  split
  · exact Tx.moves_on (f := fun s => captureFault s .denied .board (some n) (some 0x10#8)) (moves_captureFault ..)
  · split
    · exact Tx.moves_on (f := fun s => countDiscard s n) (moves_countDiscard n)
    · have h1 := Tx.moves_endContact (t := t) n x.stamp hr
      exact h1.trans (Tx.moves_newContact n tool x (Tx.noInk_endContact t n _) (h1.not_resetting hr))

/-- R79, R80. -/
theorem Tx.moves_openHeld (n : SeatNo) (p : HeldPoint) (l d : Bool) (x y w : Nat) (c : Bool) (hn : t.NoInk n)
    (hr : t.st.cls.state ≠ .resetting) : Tx.Moves t (t.openHeld n p l d x y w c) := by
  unfold Tx.openHeld
  dsimp only
  split
  · next hw => exact (Tx.moves_refuse fun e => quota_of_openRefusal (e ▸ hw)).trans (Tx.moves_lose n 1)
  · split
    · exact .refl t
    · next h t₁ e =>
      have h1 := Tx.moves_openStroke_toInk e hn hr (BitVec.ofNat 8 n.val) l d
      have h2 := Tx.moves_storePoint (t := t₁.toInk n h (BitVec.ofNat 8 n.val) l d) (h := h) (n := n)
        (by simp [Tx.toInk, inkHandle]) (h1.not_resetting hr) boardOrigin (BitVec.ofNat 8 n.val) l d x y w c
      split
      · next e2 => rw [e2] at h2; exact h1.trans h2
      · next e2 => rw [e2] at h2; exact (h1.trans h2).trans (Tx.moves_lose n 1)

theorem Tx.moves_moveHeld (n : SeatNo) (p : HeldPoint) (l d : Bool) (r : RawPoint) (hn : t.NoInk n)
    (hr : t.st.cls.state ≠ .resetting) : Tx.Moves t (t.moveHeld n p l d r) := by
  unfold Tx.moveHeld
  split
  · next e => exact (Tx.mapped_spec e).1.trans (Tx.moves_mark n fun _ => rfl)
  · next e => exact (Tx.mapped_spec e).1.trans (Tx.moves_mark n fun _ => rfl)
  · next e =>
    obtain ⟨hm, -, hitem⟩ := Tx.mapped_spec e
    split
    · exact hm
    · exact hm.trans (Tx.moves_openHeld n p l d _ _ _ _ ((inkHandle_congr hitem).trans hn) (hm.not_resetting hr))

/-- R79. -/
theorem Tx.moves_moveInput (n : SeatNo) (tool : PenTool) (x : Sample) (hr : t.st.cls.state ≠ .resetting) :
    Tx.Moves t (t.moveInput n tool x) := by
  unfold Tx.moveInput
  split
  · next hi =>
    split
    · exact Tx.moves_downInput n tool x hr
    · exact (Tx.moves_moveHeld n _ _ _ _ (Tx.noInk_of_held hi) hr).trans (Tx.moves_setDeadline n _)
  · split
    · exact Tx.moves_downInput n tool x hr
    · exact (Tx.moves_inkPoints boardOrigin n _ t hr).trans (Tx.moves_setDeadline n _)
  · split
    · exact (Tx.moves_eraserPoint n _).trans (Tx.moves_setDeadline n _)
    · exact Tx.moves_downInput n tool x hr
  · exact Tx.moves_downInput n tool x hr

/-- R81. -/
theorem Tx.moves_upInput (n : SeatNo) (x : Sample) (hr : t.st.cls.state ≠ .resetting) :
    Tx.Moves t (t.upInput n x) := by
  unfold Tx.upInput
  split
  · next hi => exact Tx.moves_releaseHeld _ n _ _ _ (Tx.noInk_of_held hi) hr
  · exact Tx.moves_endItem n _

/-! ### Disposal -/

/-- What disposal leaves of an input it does not let through (R32, R73). -/
theorem moves_dispose {o : Origins} {n : Option SeatNo} {f : Bool} (h : dispose s o n f = some u) : Moves s u := by
  unfold dispose at h
  split at h
  · split at h <;> cases h
    · exact .refl s
    · exact moves_captureFault ..
  · split at h
    · cases h; exact moves_countDiscard _
    · split at h
      · cases h; exact moves_countDiscard _
      · split at h <;> cases h
        · exact moves_captureFault ..
        · exact moves_countDiscard _
        · exact moves_countDiscard _

/-- An input goes on only while the class is not RESETTING (R32). -/
theorem not_resetting_of_dispose {o : Origins} {n : Option SeatNo} {f : Bool} (h : dispose s o n f = none) :
    s.cls.state ≠ .resetting := by
  intro hr
  cases n <;> simp [dispose, hr] at h

end Sys2Proof.Machine
end

