-- ==== Sys2Proof/Proofs/InkSteps.lean ====
section
/-! What a command does to the ink as a whole: moves of ink and one commit, or a grant of a class clearance. -/

namespace Sys2Proof.Machine

variable {s u w : State} {t : Tx}

/-! ### Reclaim -/

theorem InkFrame.of_seats (h1 : u.journal = s.journal) (h2 : u.cls = s.cls) (h3 : u.seats = s.seats) :
    InkFrame s u where
  journal := h1
  resetting := by rw [h2]
  idle _ n hn := by rw [seat_congr h3 n]; exact hn
  quota n := by rw [seat_congr h3 n]; exact .refl _

theorem freeRecord_store (s : State) (i : RecIdx) : (freeRecord s i).store = s.store.freed i := by
  unfold freeRecord Store.freed
  dsimp only
  split <;> rfl

/-- The store after the records of these handles have been freed. -/
def Store.freedAll (st : Store) (hs : List Handle) : Store := hs.foldl (fun st h => st.freed h.idx) st

theorem foldl_freeRecord_spec (hs : List Handle) (s : State) :
    let u := hs.foldl (fun s h => freeRecord s h.idx) s
    u.store = s.store.freedAll hs ∧ u.seats = s.seats ∧ u.cls = s.cls ∧ u.eraseQueue = s.eraseQueue ∧
      u.maint = s.maint ∧ u.journal = s.journal := by
  induction hs generalizing s with
  | nil => exact ⟨rfl, rfl, rfl, rfl, rfl, rfl⟩
  | cons h hs ih =>
    obtain ⟨h1, h2, h3, h4, h5, h6⟩ := ih (freeRecord s h.idx)
    exact ⟨by rw [List.foldl_cons, h1, freeRecord_store]; rfl, by simpa using h2, by simpa using h3,
      by simpa using h4, by simpa using h5, by simpa using h6⟩

/-- R116: the first members of the group under reclaim are freed, one by one. -/
theorem inkMoves_reclaimed (g : Rev) (now left : List Handle) (v : InkView) (h : v.reclaim = some (g, now ++ left)) :
    InkMoves v { v with
      store := v.store.freedAll now, reclaim := if left = [] then none else some (g, left) } := by
  induction now generalizing v with
  | nil =>
    by_cases hl : left = []
    · subst hl; exact .single (.emptied h)
    · have : ({ v with store := v.store.freedAll [], reclaim := if left = [] then none else some (g, left) } :
          InkView) = v := by
        rw [if_neg hl]; exact InkView.ext rfl rfl rfl rfl h.symm
      rw [this]
  | cons m now ih =>
    have h1 := InkMove.reclaimed (v := v) h
    by_cases hr : now ++ left = []
    · obtain ⟨rfl, rfl⟩ := List.append_eq_nil_iff.mp hr
      exact .single h1
    · exact .head h1 (ih _ (if_neg hr))

theorem moves_detachHead : Moves s (detachHead s) := by
  unfold detachHead
  split
  · exact .refl s
  · next hn =>
    split
    · split
      · exact .refl s
      · next g hg =>
        have hq : s.eraseQueue = g :: s.eraseQueue.tail := by
          unfold takeableHead at hg
          split at hg
          · cases hg
          · split at hg <;> cases hg
            simp [*]
        refine ⟨⟨rfl, .rfl, fun _ _ h => h, fun _ => .refl _⟩, .single ?_⟩
        have hv : (viewOf s).queue = g.core :: s.eraseQueue.tail.map EraseGroup.core := by
          rw [viewOf_queue, hq]; rfl
        exact .detached hv (by simp at hn; simp [hn])
    · exact .refl s

theorem moves_freeMembers : Moves s (freeMembers s) := by
  unfold freeMembers
  split
  · exact .refl s
  · next g hg =>
    obtain ⟨h1, h2, h3, h4, h5, h6⟩ := foldl_freeRecord_spec (g.members.take Config.reclaimPerGrant) s
    have hm := inkMoves_reclaimed g.id (g.members.take Config.reclaimPerGrant)
      (g.members.drop Config.reclaimPerGrant) (viewOf s) (by simp [hg, EraseGroup.core])
    refine ⟨.of_seats h6 h3 h2, ?_⟩
    convert hm using 1
    apply InkView.ext
    · exact h1
    · funext n; exact congrArg Seat.blocksHeld (seat_congr h2 n)
    · funext n; exact congrArg inkHandle (seat_congr h2 n)
    · exact congrArg (List.map EraseGroup.core) h4
    · dsimp only [viewOf]
      by_cases hl : g.members.drop Config.reclaimPerGrant = []
      · simp [hl]
      · simp [hl, EraseGroup.core]

/-- R116. -/
theorem moves_reclaimGrant : Moves s (reclaimGrant s) := moves_detachHead.trans moves_freeMembers

/-! ### Commits -/

/-- `u` is `w` after a commit, so far as the ink is concerned: nothing else changed but the revision, which
stands with the journal or is the next one. -/
structure Published (w u : State) : Prop where
  store : u.store = { w.store with rev := u.store.rev }
  seats : u.seats = w.seats
  cls : u.cls = w.cls
  queue : u.eraseQueue = w.eraseQueue
  reclaim : u.maint.underReclaim = w.maint.underReclaim
  rev : (u.store.rev = w.store.rev ∧ u.journal = w.journal) ∨ u.store.rev = nextRev w.store.rev

theorem Published.refl (w : State) : Published w w := ⟨rfl, rfl, rfl, rfl, rfl, .inl ⟨rfl, rfl⟩⟩

/-- Steps behind a commit that leave what it speaks of. -/
theorem Published.congr {u' : State} (h : Published w u) (h1 : u'.store = u.store) (h2 : u'.seats = u.seats)
    (h3 : u'.cls = u.cls) (h4 : u'.eraseQueue = u.eraseQueue)
    (h5 : u'.maint.underReclaim = u.maint.underReclaim) (h6 : u'.journal = u.journal) : Published w u' :=
  ⟨by rw [h1]; exact h.store, h2.trans h.seats, h3.trans h.cls, h4.trans h.queue, h5.trans h.reclaim,
    by rw [h1, h6]; exact h.rev⟩

theorem demandsAfter_underReclaim (b s : State) :
    (demandsAfter b s).maint.underReclaim = s.maint.underReclaim := by
  unfold demandsAfter
  split <;> rfl

theorem publish_maint (x : Rev) (es : List ChangeEntry) (s : State) : (publish x es s).maint = s.maint := by
  unfold publish lapFollow
  simp only [wakeFollow_eq]
  split <;> [rfl; (split <;> rfl)]

theorem fireWatches_maint (es : List ChangeEntry) (s : State) : (fireWatches es s).maint = s.maint := by
  rw [fireWatches_eq]

/-- R5: what a commit leaves of the ink. -/
theorem Tx.published_commit (t : Tx) (hr : t.st.store.rev = t.base.store.rev) : Published t.st t.commit := by
  have hc : t.commit = { t.st with
      store := { t.st.store with rev := t.commit.store.rev }
      maint := t.commit.maint, arbiter := t.commit.arbiter, journal := t.commit.journal
      display := t.commit.display, watches := t.commit.watches, attention := t.commit.attention
      displayOut := t.commit.displayOut } := t.commit_change
  refine ⟨congrArg State.store hc, by rw [hc], by rw [hc], by rw [hc], ?_, ?_⟩
  · unfold Tx.commit
    dsimp only
    rw [demandsAfter_underReclaim]
    split
    · rfl
    · rw [publish_maint, fireWatches_maint]
  · rw [Tx.commit_rev]
    by_cases he : t.calls.isEmpty = true
    · rw [if_pos he]
      refine .inl ⟨rfl, ?_⟩
      unfold Tx.commit
      simp [he]
    · rw [if_neg he]
      exact .inr (by rw [Tx.rev, hr])

/-! ### Clearances -/

/-- A group without the member of this index. -/
def withoutMember (i : RecIdx) (x : Rev × List Handle) : Rev × List Handle :=
  (x.1, x.2.filter fun h => decide (h.idx ≠ i))

/-- One record freed by the class clearance (R30, R54), as a function of the view. -/
def InkView.clear1 (v : InkView) (i : RecIdx) : InkView :=
  if (v.store.stroke i).state = .erased then
    { v with
      store := v.store.freed i
      queue := (v.queue.map (withoutMember i)).filter fun x => !x.2.isEmpty
      reclaim := (v.reclaim.map (withoutMember i)).filter fun x => !x.2.isEmpty }
  else { v with store := v.store.freed i }

theorem InkView.clear1_of_erased {v : InkView} {i : RecIdx} (h : (v.store.stroke i).state = .erased) :
    v.clear1 i = { v with
      store := v.store.freed i
      queue := (v.queue.map (withoutMember i)).filter fun x => !x.2.isEmpty
      reclaim := (v.reclaim.map (withoutMember i)).filter fun x => !x.2.isEmpty } := if_pos h

theorem InkView.clear1_of_not_erased {v : InkView} {i : RecIdx} (h : (v.store.stroke i).state ≠ .erased) :
    v.clear1 i = { v with store := v.store.freed i } := if_neg h

theorem viewOf_clearRecord (s : State) (i : RecIdx) : viewOf (clearRecord s i) = (viewOf s).clear1 i := by
  unfold clearRecord
  dsimp only
  split
  · next he =>
    rw [InkView.clear1_of_erased (v := viewOf s) he]
    apply InkView.ext
    · simp [freeRecord_store]
    · funext n; simp [State.seat]
    · funext n; simp [State.seat]
    · simp only [viewOf_queue, unlinkMember, freeRecord_eraseQueue, List.filter_map, List.map_map]
      rfl
    · simp only [viewOf_reclaim, unlinkMember, freeRecord_maint]
      cases s.maint.underReclaim with
      | none => rfl
      | some g =>
        simp only [Option.map_some, Option.filter_some, EraseGroup.core, withoutMember]
        split <;> simp [EraseGroup.core]
  · next he =>
    rw [InkView.clear1_of_not_erased (v := viewOf s) he]
    apply InkView.ext
    · simp [freeRecord_store]
    · funext n; simp [State.seat]
    · funext n; simp [State.seat]
    · simp
    · simp

/-- Records freed by the class clearance: `w` comes from `s`. -/
structure Clears (s w : State) : Prop where
  seats : w.seats = s.seats
  cls : w.cls = s.cls
  journal : w.journal = s.journal
  ink : ∃ is : List RecIdx, viewOf w = is.foldl InkView.clear1 (viewOf s)

theorem clears_foldl (is : List RecIdx) (s : State) : Clears s (is.foldl clearRecord s) := by
  induction is generalizing s with
  | nil => exact ⟨rfl, rfl, rfl, [], rfl⟩
  | cons i is ih =>
    obtain ⟨h1, h2, h3, js, h4⟩ := ih (clearRecord s i)
    have k : (clearRecord s i).seats = s.seats ∧ (clearRecord s i).cls = s.cls ∧
        (clearRecord s i).journal = s.journal := by
      unfold clearRecord
      dsimp only
      split <;> simp
    exact ⟨h1.trans k.1, h2.trans k.2.1, h3.trans k.2.2, i :: js, by
      rw [List.foldl_cons, h4, List.foldl_cons, viewOf_clearRecord]⟩

theorem clear1_rev (v : InkView) (i : RecIdx) : (v.clear1 i).store.rev = v.store.rev := by
  unfold InkView.clear1
  split <;> simp

theorem Clears.rev (h : Clears s w) : w.store.rev = s.store.rev := by
  obtain ⟨is, hi⟩ := h.ink
  have : ∀ (is : List RecIdx) (v : InkView), (is.foldl InkView.clear1 v).store.rev = v.store.rev := fun is => by
    induction is with
    | nil => exact fun _ => rfl
    | cons i is ih => exact fun v => (ih _).trans (clear1_rev v i)
  exact (congrArg (fun v => v.store.rev) hi).trans (this is _)

/-- The first grant of a clearance, so far as the ink is concerned (R53). -/
structure Begun (s u : State) : Prop where
  store : u.store = s.store
  journal : u.journal = s.journal
  cls : u.cls.state = .resetting
  queue : u.eraseQueue.map EraseGroup.core = s.eraseQueue.map EraseGroup.core
  reclaim : u.maint.underReclaim = s.maint.underReclaim
  item : ∀ n, (u.seat n).item = none
  held : ∀ n, (u.seat n).blocksHeld = (s.seat n).blocksHeld
  quota : ∀ n, QuotaKept (s.seat n) (u.seat n)

/-- The end of a clearance, so far as the ink is concerned: `w` has freed the last records (R55). -/
structure Cleared (w u : State) : Prop where
  store : u.store = { w.store with rev := nextRev w.store.rev }
  free : ∀ i, (w.store.stroke i).state = .free
  queue : u.eraseQueue = []
  reclaim : u.maint.underReclaim = none
  item : ∀ n, (u.seat n).item = (w.seat n).item
  held : ∀ n, (u.seat n).blocksHeld = 0
  quota : ∀ n, (u.seat n).quotaReached = false

/-- What a command does to the ink. -/
inductive InkStep (s u : State) : Prop
  | drawn {w : State} (m : Moves s w) (p : Published w u)
  | begun (b : Begun s u)
  | cleared {w : State} (hr : s.cls.state = .resetting) (c : Clears s w) (p : Published w u)
  | ended {w : State} (hr : s.cls.state = .resetting) (c : Clears s w) (e : Cleared w u)

theorem InkStep.of_moves (m : Moves s u) : InkStep s u := .drawn m (.refl u)

/-- Steps behind a command that leave what it speaks of. -/
theorem InkStep.congr {u' : State} (h : InkStep s u) (h1 : u'.store = u.store) (h2 : u'.seats = u.seats)
    (h3 : u'.cls = u.cls) (h4 : u'.eraseQueue = u.eraseQueue)
    (h5 : u'.maint.underReclaim = u.maint.underReclaim) (h6 : u'.journal = u.journal) : InkStep s u' := by
  have hs : ∀ n, u'.seat n = u.seat n := seat_congr h2
  cases h with
  | drawn m p => exact .drawn m (p.congr h1 h2 h3 h4 h5 h6)
  | begun b =>
    refine .begun ⟨h1.trans b.store, h6.trans b.journal, by rw [h3]; exact b.cls, by rw [h4]; exact b.queue,
      h5.trans b.reclaim, fun n => ?_, fun n => ?_, fun n => ?_⟩
    · rw [hs]; exact b.item n
    · rw [hs]; exact b.held n
    · rw [hs]; exact b.quota n
  | cleared hr c p => exact .cleared hr c (p.congr h1 h2 h3 h4 h5 h6)
  | ended hr c e =>
    refine .ended hr c ⟨h1.trans e.store, e.free, h4.trans e.queue, h5.trans e.reclaim, fun n => ?_, fun n => ?_,
      fun n => ?_⟩
    · rw [hs]; exact e.item n
    · rw [hs]; exact e.held n
    · rw [hs]; exact e.quota n

theorem viewOf_congr {s' : State} (h1 : s.store = s'.store) (h2 : s.seats = s'.seats)
    (h4 : s.eraseQueue = s'.eraseQueue) (h5 : s.maint.underReclaim = s'.maint.underReclaim) :
    viewOf s = viewOf s' := by
  have hs : ∀ n, s.seat n = s'.seat n := seat_congr h2
  apply InkView.ext
  · exact h1
  · funext n; simp [hs]
  · funext n; simp [hs]
  · simp [h4]
  · simp [h5]

/-- Steps before a command's own that leave what is spoken of: the grant decision, a frame taken. -/
theorem InkStep.of_congr {s' : State} (h1 : s.store = s'.store) (h2 : s.seats = s'.seats) (h3 : s.cls = s'.cls)
    (h4 : s.eraseQueue = s'.eraseQueue) (h5 : s.maint.underReclaim = s'.maint.underReclaim)
    (h6 : s.journal = s'.journal) (h : InkStep s u) : InkStep s' u := by
  have hv := viewOf_congr h1 h2 h4 h5
  have hs : ∀ n, s.seat n = s'.seat n := seat_congr h2
  cases h with
  | drawn m p => exact .drawn (.trans (.of_same h1 h2 h6 h3 h4 h5) m) p
  | begun b =>
    refine .begun ⟨b.store.trans h1, b.journal.trans h6, b.cls, b.queue.trans (by rw [h4]), b.reclaim.trans h5,
      b.item, fun n => ?_, fun n => ?_⟩
    · rw [← hs]; exact b.held n
    · rw [← hs]; exact b.quota n
  | cleared hr c p =>
    exact .cleared (h3 ▸ hr) ⟨c.seats.trans h2, c.cls.trans h3, c.journal.trans h6, hv ▸ c.ink⟩ p
  | ended hr c e =>
    exact .ended (h3 ▸ hr) ⟨c.seats.trans h2, c.cls.trans h3, c.journal.trans h6, hv ▸ c.ink⟩ e

end Sys2Proof.Machine
end

