-- ==== Sys2Proof/Proofs/InkExec.lean ====
section
/-! What each command of the dispatch table does to the ink. -/

namespace Sys2Proof.Machine

variable {s u w : State} {t t₁ : Tx}

/-! ### Frames, requests, bursts and time -/

/-- The ink, the seats, the class, the groups and the journal are as they were. -/
structure Untouched (s u : State) : Prop where
  store : u.store = s.store
  seats : u.seats = s.seats
  journal : u.journal = s.journal
  cls : u.cls = s.cls
  queue : u.eraseQueue = s.eraseQueue
  reclaim : u.maint.underReclaim = s.maint.underReclaim

theorem Untouched.refl (s : State) : Untouched s s := ⟨rfl, rfl, rfl, rfl, rfl, rfl⟩

theorem Untouched.trans (h : Untouched s u) (k : Untouched u w) : Untouched s w :=
  ⟨k.store.trans h.store, k.seats.trans h.seats, k.journal.trans h.journal, k.cls.trans h.cls,
    k.queue.trans h.queue, k.reclaim.trans h.reclaim⟩

theorem Untouched.after (k : Untouched u w) (h : Untouched s u) : Untouched s w := h.trans k

theorem Moves.after (k : Moves u w) (h : Untouched s u) : Moves s w :=
  .trans (.of_same h.store h.seats h.journal h.cls h.queue h.reclaim) k

theorem Untouched.moves (h : Untouched s u) : Moves s u :=
  .of_same h.store h.seats h.journal h.cls h.queue h.reclaim

theorem Untouched.inkStep (h : Untouched s u) : InkStep s u := .of_moves h.moves

theorem Untouched.before {s' : State} (h : Untouched s' s) (k : InkStep s u) : InkStep s' u :=
  k.of_congr h.store h.seats h.cls h.queue h.reclaim h.journal

theorem Untouched.behind (h : Untouched u w) (k : InkStep s u) : InkStep s w :=
  k.congr h.store h.seats h.cls h.queue h.reclaim h.journal

theorem untouched_settle (s : State) : Untouched s (settle s) := ⟨rfl, rfl, rfl, rfl, rfl, rfl⟩

theorem Untouched.settle (h : Untouched s u) : Untouched s (Machine.settle u) := h.trans (untouched_settle u)

theorem untouched_decideGrant (s : State) (r : Requester) : Untouched s (decideGrant s r) :=
  ⟨by simp, by simp, by simp, by simp, by simp, by simp⟩

theorem untouched_captureFault (s : State) (k : FaultKind) (l : Link) (n : Option SeatNo) (f : Option Byte) :
    Untouched s (captureFault s k l n f) := ⟨rfl, rfl, rfl, rfl, rfl, rfl⟩

theorem untouched_badFrameEffect (s : State) (l : Link) : Untouched s (badFrameEffect s l) :=
  ⟨rfl, rfl, rfl, rfl, rfl, rfl⟩

theorem untouched_endDisplay (s : State) (e : EndStatus) (r : Reason) : Untouched s (endDisplay s e r) :=
  ⟨rfl, rfl, rfl, rfl, rfl, rfl⟩

theorem untouched_endSnapshot (s : State) (e : EndStatus) : Untouched s (endSnapshot s e) :=
  ⟨rfl, rfl, rfl, rfl, rfl, rfl⟩

theorem untouched_immediateAnswer (s : State) (b : Bool) (r : Reply) : Untouched s (immediateAnswer s b r) := by
  unfold immediateAnswer
  split <;> exact ⟨rfl, rfl, rfl, rfl, rfl, rfl⟩

theorem untouched_takeRequest (s : State) (tag : Byte) (q : DisplayRequest) : Untouched s (takeRequest s tag q) := by
  unfold takeRequest acceptRequest refuseRequest
  split
  · split <;> exact ⟨rfl, rfl, rfl, rfl, rfl, rfl⟩
  · exact ⟨rfl, rfl, rfl, rfl, rfl, rfl⟩

theorem untouched_requestArrives (s : State) (tag : Byte) (q : DisplayRequest) :
    Untouched s (requestArrives s tag q) := by
  unfold requestArrives
  split
  · exact untouched_takeRequest s tag q
  · exact ⟨rfl, rfl, rfl, rfl, rfl, rfl⟩

theorem untouched_readDisplay (s : State) : Untouched s (readDisplay s) := by
  unfold readDisplay
  split
  · exact .refl s
  · dsimp only
    split
    · split
      · exact (untouched_takeRequest _ _ _).after ⟨rfl, rfl, rfl, rfl, rfl, rfl⟩
      · exact ⟨rfl, rfl, rfl, rfl, rfl, rfl⟩
    · exact ⟨rfl, rfl, rfl, rfl, rfl, rfl⟩

theorem untouched_readFront (l : Link) (s : State) : Untouched s (readFront l s) := by
  have h : Untouched s { s with shifted := s.shifted.set l 0 } := ⟨rfl, rfl, rfl, rfl, rfl, rfl⟩
  unfold readFront
  cases l with
  | board => exact h
  | tablet => exact ⟨rfl, rfl, rfl, rfl, rfl, rfl⟩
  | console => exact ⟨rfl, rfl, rfl, rfl, rfl, rfl⟩
  | display => exact h.trans (untouched_readDisplay _)

theorem untouched_shiftOut (l : Link) (k : Nat) (s : State) : Untouched s (shiftOut l k s) := by
  unfold shiftOut
  split
  · exact .refl s
  · split
    · exact ⟨rfl, rfl, rfl, rfl, rfl, rfl⟩
    · exact untouched_readFront l s

theorem untouched_placeAnswer (s : State) (a : Answer) : Untouched s (placeAnswer s a) :=
  ⟨rfl, rfl, rfl, rfl, rfl, rfl⟩

theorem untouched_takeTablet (s : State) (tag : Byte) (f : TabletFrame) : Untouched s (takeTablet s tag f) := by
  unfold takeTablet
  split <;> exact ⟨rfl, rfl, rfl, rfl, rfl, rfl⟩

theorem untouched_contact (s : State) (frame : ContactFrame) :
    ∃ u, execContact frame s = .next u ∧ Untouched s u := by
  refine ⟨_, rfl, .settle ?_⟩
  dsimp only
  split
  · exact ⟨rfl, rfl, rfl, rfl, rfl, rfl⟩
  · split <;> exact ⟨rfl, rfl, rfl, rfl, rfl, rfl⟩

theorem untouched_command (s : State) (tag : AnswerTag) (code : Byte) (ps : Bytes) :
    ∃ u, execCommand tag code ps s = .next u ∧ Untouched s u := by
  refine ⟨_, rfl, .settle ?_⟩
  split
  · exact untouched_badFrameEffect s _
  · split
    · exact untouched_immediateAnswer ..
    · split
      · split <;> exact ⟨rfl, rfl, rfl, rfl, rfl, rfl⟩
      · exact ⟨rfl, rfl, rfl, rfl, rfl, rfl⟩

theorem untouched_afterDisplay (s : State) (w : Walk) : Untouched s (afterDisplay s w) := by
  unfold afterDisplay
  dsimp only
  split <;> exact ⟨rfl, rfl, rfl, rfl, rfl, rfl⟩

theorem untouched_afterSnapshot (s : State) (w : Walk) : Untouched s (afterSnapshot s w) := by
  unfold afterSnapshot
  dsimp only
  split <;> exact ⟨rfl, rfl, rfl, rfl, rfl, rfl⟩

theorem untouched_displayGrant (mine : WalkMode → Bool) (burst : State → Walk) (s : State) :
    Untouched s (displayGrant mine burst s) := by
  unfold displayGrant
  split
  · exact ((untouched_decideGrant s .display).trans (untouched_afterDisplay _ _)).settle
  · exact .refl s

theorem untouched_joinReached (s : State) : Untouched s (joinReached s) := by
  unfold joinReached
  split <;> exact ⟨rfl, rfl, rfl, rfl, rfl, rfl⟩

theorem untouched_followTimer (s : State) : Untouched s (followTimer s) := by
  unfold followTimer
  split
  · split
    · exact untouched_endDisplay ..
    · exact .refl s
  · exact .refl s

theorem untouched_elapse (n : Nat) (s : State) : Untouched s (elapse n s) :=
  (((untouched_settle _).after (untouched_followTimer _)).after (untouched_joinReached _)).after
    ⟨rfl, rfl, rfl, rfl, rfl, rfl⟩

theorem untouched_resetConsole (s : State) : Untouched s (resetConsole s) := ⟨rfl, rfl, rfl, rfl, rfl, rfl⟩

theorem untouched_resetDisplay (s : State) (b : Bool) : Untouched s (resetDisplay s b) := by
  unfold resetDisplay
  dsimp only
  split <;> exact ⟨rfl, rfl, rfl, rfl, rfl, rfl⟩

theorem untouched_resetWalks (s : State) : Untouched s (resetWalks s) := by
  unfold resetWalks
  dsimp only
  split <;> split <;> exact ⟨rfl, rfl, rfl, rfl, rfl, rfl⟩

/-! ### Notices and links -/

theorem seat_setCutDue (s : State) (p : Port) (n : SeatNo) :
    (setCutDue s p).seat n = if portOf n = p then { s.seat n with cutDue := true } else s.seat n := by
  simp [setCutDue, State.seat]

theorem moves_setCutDue (p : Port) : Moves s (setCutDue s p) := by
  refine .of_quiet (by unfold setCutDue; rfl) (by unfold setCutDue; rfl) (by unfold setCutDue; rfl)
    (by unfold setCutDue; rfl) (by unfold setCutDue; rfl) fun n => ?_
  have h := seat_setCutDue s p n
  generalize (setCutDue s p).seat n = u at h ⊢
  subst h
  split
  · exact .of_eq rfl rfl rfl rfl
  · exact .refl _

theorem moves_linkReset (s : State) (l : Link) (tag : AnswerTag) :
    ∃ u, execLinkReset l tag s = .next u ∧ Moves s u := by
  refine ⟨_, rfl, Moves.trans ?_ (untouched_settle _).moves⟩
  have h0 : Untouched s { s with
      counters := { s.counters with linkResets := s.counters.linkResets.bump l }
      shifted := s.shifted.set l 0 } := ⟨rfl, rfl, rfl, rfl, rfl, rfl⟩
  cases l with
  | board => exact (moves_setCutDue .board).after ⟨rfl, rfl, rfl, rfl, rfl, rfl⟩
  | tablet =>
    have h : ∀ v : State, Moves v (placeAnswer (setCutDue v .tablet) (.taken tag.tag Config.tabletQueue)) :=
      fun v => (moves_setCutDue .tablet).trans (untouched_placeAnswer _ _).moves
    exact (h _).after ⟨rfl, rfl, rfl, rfl, rfl, rfl⟩
  | console => exact (h0.trans (untouched_resetConsole _)).moves
  | display => exact (h0.trans (untouched_resetDisplay _ _)).moves

theorem moves_foldl {α : Type} {f : State → α → State} (h : ∀ s a, Moves s (f s a)) (as : List α) (s : State) :
    Moves s (as.foldl f s) := by
  induction as generalizing s with
  | nil => exact .refl s
  | cons a as ih => exact (h s a).trans (ih _)

theorem moves_takeNotices : Moves s (takeNotices s) :=
  (moves_foldl (f := fun s n => s.modSeat n fun u => { u with notices := 0 })
    (fun _ _ => .of_modSeat (.of_eq rfl rfl rfl rfl)) _ _).after ⟨rfl, rfl, rfl, rfl, rfl, rfl⟩

theorem moves_takeNoticesBefore (b : NoticeBasis) : Moves s (takeNoticesBefore b s) := by
  have h : Moves s { s with
      noticeQueue := (b.queue.drop Config.noticeItems).map Prod.fst
      noticeBasis := none
      seats := Vector.ofFn fun n : SeatNo =>
        { s.seats[n.val] with notices := waitingSet (b.queue.drop Config.noticeItems) n } } :=
    .of_quiet rfl rfl .rfl rfl rfl fun n => by
      rw [show State.seat { s with
        noticeQueue := (b.queue.drop Config.noticeItems).map Prod.fst
        noticeBasis := none
        seats := Vector.ofFn fun n : SeatNo =>
          { s.seats[n.val] with notices := waitingSet (b.queue.drop Config.noticeItems) n } } n =
        { s.seat n with notices := waitingSet (b.queue.drop Config.noticeItems) n } by simp [State.seat]]
      exact .of_eq rfl rfl rfl rfl
  exact (h.trans (moves_foldl (fun s (p : SeatNo × Notice) => moves_addNotice p.1 p.2) _ _)).trans
    (Untouched.moves ⟨rfl, rfl, rfl, rfl, rfl, rfl⟩)

theorem moves_noticeRead (s : State) (tag : AnswerTag) (k : Nat) :
    ∃ u, execNoticeRead tag k s = .next u ∧ Moves s u := by
  refine ⟨_, rfl, Moves.trans ?_ (untouched_settle _).moves⟩
  dsimp only
  split
  · exact ((untouched_shiftOut .tablet k s).trans (untouched_placeAnswer _ _)).moves
  · refine (untouched_shiftOut .tablet k s).moves.trans (.trans ?_ (untouched_placeAnswer _ _).moves)
    unfold serveNotices
    split
    · exact moves_takeNoticesBefore _
    · exact moves_takeNotices

/-! ### Grants -/

/-- A transaction's moves and its commit are what a command does to the ink. -/
theorem Tx.Moves.inkStep (h : Tx.Moves (Tx.start s) t) : InkStep s t.commit := by
  have hb : t.base = s := h.base
  exact .drawn h.st (t.published_commit (by rw [hb]; exact h.st.rev))

theorem untouched_finishCommand (s : State) (r : Reply) : Untouched s (finishCommand s r) :=
  ⟨rfl, rfl, rfl, rfl, rfl, rfl⟩

theorem not_resetting_of_consoleGrant {code tag : Byte} {ps : Bytes} (h : consoleGrant s code = some (tag, ps)) :
    s.cls.state ≠ .resetting := by
  unfold consoleGrant at h
  split at h
  · next hw => exact hw.2
  · cases h

/-- R122, R192: a console command whose transaction moves ink. -/
theorem inkStep_serveCommand {α : Type} {code : Byte} {format : Reader α} {body : α → Tx → Served}
    (h : ∀ a t, t.st.cls.state ≠ .resetting → Tx.Moves t (body a t).1) (s : State) :
    InkStep s (serveCommand code format body s) := by
  unfold serveCommand
  split
  · exact .of_moves (.refl s)
  · next hg =>
    have hd := untouched_decideGrant s .console
    have hr : (decideGrant s .console).cls.state ≠ .resetting := by
      simpa using not_resetting_of_consoleGrant hg
    dsimp only
    split
    · exact (hd.trans (untouched_finishCommand _ _)).inkStep
    · next a _ =>
      have h1 := h a (Tx.start (decideGrant s .console)) hr
      exact hd.before ((untouched_finishCommand _ _).behind h1.inkStep)

theorem InkStep.after (k : InkStep u w) (h : Untouched s u) : InkStep s w := h.before k

/-- R118, R122: a Board Intake grant. -/
theorem inkStep_boardGrant {ph : Phase} {body : Sample → State → State} (h : ∀ x s, InkStep s (body x s)) (s : State) :
    InkStep s (boardGrant ph body s) := by
  unfold boardGrant
  split
  · exact .of_moves (.refl s)
  · split
    · exact (untouched_decideGrant s .board).before
        ((untouched_settle _).behind ((h _ _).after ⟨rfl, rfl, rfl, rfl, rfl, rfl⟩))
    · exact .of_moves (.refl s)

/-- R118, R122: a Tablet Intake grant. -/
theorem inkStep_tabletGrant {α : Type} {pick : TabletFrame → Option α} {body : α → State → State}
    (h : ∀ a s, InkStep s (body a s)) (s : State) : InkStep s (tabletGrant pick body s) := by
  unfold tabletGrant
  split
  · exact .of_moves (.refl s)
  · split
    · exact .of_moves (.refl s)
    · split
      · exact (untouched_decideGrant s .tablet).before
          ((untouched_settle _).behind ((h _ _).after ⟨rfl, rfl, rfl, rfl, rfl, rfl⟩))
      · exact .of_moves (.refl s)

/-- R73: a sample of a board contact. -/
theorem inkStep_contactInput {handle : SeatNo → PenTool → Sample → Tx → Tx}
    (h : ∀ n tool x t, t.st.cls.state ≠ .resetting → Tx.Moves t (handle n tool x t)) (x : Sample) (s : State) :
    InkStep s (contactInput handle x s) := by
  unfold contactInput
  split
  · next hd => exact .of_moves (moves_dispose hd)
  · next hd =>
    split
    · exact .of_moves (.refl s)
    · next n _ =>
      have hr := not_resetting_of_dispose hd
      have hc := Tx.moves_serveCut (t := Tx.start s) n
      dsimp only
      split
      · exact hc.inkStep
      · exact (hc.trans (h _ _ _ _ (hc.not_resetting hr))).inkStep

/-- R73: a tablet drawing frame. -/
theorem inkStep_slotInput {kind slot : Byte} {handle : Origins → SeatNo → Tx → Tx}
    (h : ∀ o n t, t.st.cls.state ≠ .resetting → Tx.Moves t (handle o n t)) (s : State) :
    InkStep s (slotInput kind slot handle s) := by
  unfold slotInput
  dsimp only
  split
  · next hd => exact .of_moves (moves_dispose hd)
  · next hd =>
    split
    · exact .of_moves (.refl s)
    · next n _ =>
      have hr := not_resetting_of_dispose hd
      have hc := Tx.moves_serveCut (t := Tx.start s) n
      exact (hc.trans (h _ _ _ (hc.not_resetting hr))).inkStep

theorem inkStep_undoInput (slot : Byte) (s : State) : InkStep s (undoInput slot s) := by
  unfold undoInput
  split
  · next hd => exact .of_moves (moves_dispose hd)
  · split
    · exact .of_moves (.refl s)
    · next n _ => exact (Tx.moves_runRetract (t := Tx.start s) n _).inkStep

theorem moves_raiseHand (n : SeatNo) (up : Bool) : Moves s (raiseHand s n up) := by
  unfold raiseHand
  split
  · split
    · exact .refl s
    · have h : Moves s (s.modSeat n fun u => { u with handUp := true }) := .of_modSeat (.of_eq rfl rfl rfl rfl)
      exact h.trans (Untouched.moves ⟨rfl, rfl, rfl, rfl, rfl, rfl⟩)
  · split
    · exact moves_lowerHand n
    · exact .refl s

theorem moves_handInput (slot : Byte) (up : Bool) : Moves s (handInput slot up s) := by
  unfold handInput
  dsimp only
  split
  · split
    · exact .refl s
    · exact moves_captureFault ..
  · split
    · exact moves_countDiscard _
    · split
      · exact moves_raiseHand ..
      · exact moves_raiseHand ..
      · exact moves_countDiscard _
      · exact moves_captureFault ..

/-! ### Maintenance -/

theorem Tx.moves_foldl {α : Type} {f : Tx → α → Tx} (P : Tx → Prop) (hP : ∀ {t t' : Tx}, Tx.Moves t t' → P t → P t')
    (h : ∀ t a, P t → Tx.Moves t (f t a)) (as : List α) (t : Tx) (ht : P t) : Tx.Moves t (as.foldl f t) := by
  induction as generalizing t with
  | nil => exact .refl t
  | cons a as ih => exact (h t a ht).trans (ih _ (hP (h t a ht) ht))

theorem inkStep_serveDue (s : State) (hr : s.cls.state ≠ .resetting) : InkStep s (serveDue s) := by
  have h1 := Tx.moves_serveCuts (cutDueSeats s) (Tx.start s)
  have h2 := Tx.moves_foldl (f := Tx.expireSeat) (fun t => t.st.cls.state ≠ .resetting)
    (fun h k => h.not_resetting k) (fun t n ht => Tx.moves_expireSeat n ht) (dueSeats s) _ (h1.not_resetting hr)
  have h3 := (h1.trans h2).on (f := fun s => { s with maint := { s.maint with due := 0 } })
    (Untouched.moves ⟨rfl, rfl, rfl, rfl, rfl, rfl⟩)
  exact h3.inkStep

theorem not_resetting_of_maintenance (h : winner s = some .maintenance) : s.cls.state ≠ .resetting := by
  have hreq : requests s .maintenance = true := by
    unfold winner at h
    split at h
    · next r hr => cases h; exact (Bool.and_eq_true _ _ ▸ List.find?_some hr).1
    · exact List.find?_some h
  simp only [requests, Bool.and_eq_true, decide_eq_true_eq] at hreq
  exact hreq.1

theorem inkStep_maintain (s : State) (hr : s.cls.state ≠ .resetting) : InkStep s (maintain s) := by
  unfold maintain
  split
  · exact inkStep_serveDue s hr
  · exact (Tx.moves_on (t := Tx.start s) (f := reclaimGrant) moves_reclaimGrant).inkStep

/-! ### Clearances -/

/-- What the notices of a list of seats leave of the ink (R47). -/
structure NoticesOnly (s u : State) : Prop extends Untouched { s with seats := u.seats } u where
  item : ∀ n, (u.seat n).item = (s.seat n).item
  held : ∀ n, (u.seat n).blocksHeld = (s.seat n).blocksHeld
  reached : ∀ n, (u.seat n).quotaReached = (s.seat n).quotaReached
  quota : ∀ n, (u.seat n).quota = (s.seat n).quota

theorem noticesOnly_addNotice (s : State) (n : SeatNo) (k : Notice) : NoticesOnly s (addNotice s n k) := by
  have h : ∀ m, ∃ b, (addNotice s n k).seat m = { s.seat m with notices := b } := fun m => seat_addNotice s n m k
  refine ⟨⟨by simp, rfl, by simp, by simp, by simp, by simp⟩, fun m => ?_, fun m => ?_, fun m => ?_, fun m => ?_⟩ <;>
    (obtain ⟨b, hb⟩ := h m; rw [hb])

theorem NoticesOnly.trans (h : NoticesOnly s u) (k : NoticesOnly u w) : NoticesOnly s w :=
  ⟨⟨k.store.trans h.store, rfl, k.journal.trans h.journal, k.cls.trans h.cls, k.queue.trans h.queue,
    k.reclaim.trans h.reclaim⟩, fun n => (k.item n).trans (h.item n), fun n => (k.held n).trans (h.held n),
    fun n => (k.reached n).trans (h.reached n), fun n => (k.quota n).trans (h.quota n)⟩

theorem noticesOnly_foldl (ns : List SeatNo) (k : Notice) (s : State) :
    NoticesOnly s (ns.foldl (fun s n => addNotice s n k) s) := by
  induction ns generalizing s with
  | nil => exact ⟨.refl s, fun _ => rfl, fun _ => rfl, fun _ => rfl, fun _ => rfl⟩
  | cons n ns ih => exact (noticesOnly_addNotice s n k).trans (ih _)

/-- The first grant of a clearance before its notices (R53). -/
def clearanceOpened (prior : ClassState) (s : State) : State :=
  let u := resetWalks { s with cls := { s.cls with state := .resetting, prior := prior } }
  { u with
    seats := u.seats.map Seat.cleared
    eraseQueue := u.eraseQueue.map fun g => { g with isOpen := false }
    hands := [] }

theorem firstClearance_eq (prior : ClassState) (s : State) :
    firstClearance prior s =
      let u := tabletSeats.foldl (fun s n => addNotice s n .classReset) (clearanceOpened prior s)
      { u with maint := { u.maint with due := 0 } } := rfl

theorem begun_firstClearance (prior : ClassState) (s : State) : Begun s (firstClearance prior s) := by
  have h1 := untouched_resetWalks { s with cls := { s.cls with state := .resetting, prior := prior } }
  have h2 := noticesOnly_foldl tabletSeats .classReset (clearanceOpened prior s)
  have hseat : ∀ n, (clearanceOpened prior s).seat n = (s.seat n).cleared := fun n => by
    simp [clearanceOpened, State.seat, h1.seats]
  rw [firstClearance_eq]
  generalize tabletSeats.foldl (fun s n => addNotice s n .classReset) (clearanceOpened prior s) = u at h2 ⊢
  refine ⟨h2.store.trans h1.store, h2.journal.trans h1.journal, ?_, ?_, h2.reclaim.trans h1.reclaim, fun n => ?_,
    fun n => ?_, fun n hq => ?_⟩
  · exact congrArg ClassCtl.state (h2.cls.trans h1.cls)
  · rw [h2.queue]
    simp [clearanceOpened, h1.queue, EraseGroup.core, Function.comp_def]
  · exact (h2.item n).trans (by rw [hseat]; rfl)
  · exact (h2.held n).trans (by rw [hseat]; rfl)
  · have k1 := h2.reached n
    have k2 := h2.quota n
    have k3 := h2.held n
    rw [hseat] at k1 k2 k3
    exact .inl ⟨k1.symm.trans hq, k2, k3.ge⟩

end Sys2Proof.Machine
end

