-- ==== Sys2Proof/Proofs/InkCommands.lean ====
section
/-! The later grants of a clearance, the console commands, and the summary over the dispatch table. -/

namespace Sys2Proof.Machine

variable {s u w : State} {t t₁ : Tx}

/-! ### Later grants of a clearance -/

theorem free_of_nonFree_nil {st : Store} (h : nonFree st = []) (i : RecIdx) : (st.stroke i).state = .free := by
  by_contra hi
  have hne : st.stroke i ≠ ({} : Stroke) := fun e => hi (by rw [e])
  have hmem : (i, st.stroke i) ∈ st.strokes := mem_of_lookupAt_ne hne
  simp only [nonFree, List.map_eq_nil_iff, List.filter_eq_nil_iff, decide_eq_true_eq] at h
  exact h _ hmem hi

/-- The quota test of R55 for one seat. -/
theorem endQuota_spec (s : State) (n : SeatNo) :
    Untouched { s with seats := (endQuota s n).seats } (endQuota s n) ∧
      ((endQuota s n).seat n).quotaReached = false ∧
      ∀ m, ((endQuota s n).seat m).item = (s.seat m).item ∧
        ((endQuota s n).seat m).blocksHeld = (s.seat m).blocksHeld ∧
        ((s.seat m).quotaReached = false → ((endQuota s n).seat m).quotaReached = false) := by
  have hmod : ∀ m, let u := s.modSeat n fun u => { u with quotaReached := false }
      (u.seat m).item = (s.seat m).item ∧ (u.seat m).blocksHeld = (s.seat m).blocksHeld ∧
      (m = n ∨ (s.seat m).quotaReached = false → (u.seat m).quotaReached = false) := fun m => by
    dsimp only
    by_cases e : m = n
    · subst e; rw [seat_modSeat]; exact ⟨rfl, rfl, fun _ => rfl⟩
    · rw [seat_modSeat_ne _ _ e]
      exact ⟨rfl, rfl, fun h => h.resolve_left e⟩
  unfold endQuota
  split
  · dsimp only
    split
    · have h := noticesOnly_addNotice (s.modSeat n fun u => { u with quotaReached := false }) n .quotaCleared
      refine ⟨⟨h.store, rfl, h.journal, h.cls, h.queue, h.reclaim⟩, ?_, fun m => ⟨?_, ?_, fun hq => ?_⟩⟩
      · rw [h.reached]; exact (hmod n).2.2 (.inl rfl)
      · rw [h.item]; exact (hmod m).1
      · rw [h.held]; exact (hmod m).2.1
      · rw [h.reached]; exact (hmod m).2.2 (.inr hq)
    · exact ⟨⟨rfl, rfl, rfl, rfl, rfl, rfl⟩, (hmod n).2.2 (.inl rfl), fun m =>
        ⟨(hmod m).1, (hmod m).2.1, fun hq => (hmod m).2.2 (.inr hq)⟩⟩
  · next h =>
    exact ⟨.refl s, by simpa using h, fun m => ⟨rfl, rfl, id⟩⟩

theorem foldl_endQuota_spec (ns : List SeatNo) (s : State) :
    let u := ns.foldl endQuota s
    Untouched { s with seats := u.seats } u ∧ (∀ n ∈ ns, (u.seat n).quotaReached = false) ∧
      ∀ m, (u.seat m).item = (s.seat m).item ∧ (u.seat m).blocksHeld = (s.seat m).blocksHeld ∧
        ((s.seat m).quotaReached = false → (u.seat m).quotaReached = false) := by
  induction ns generalizing s with
  | nil => exact ⟨.refl s, by simp, fun _ => ⟨rfl, rfl, id⟩⟩
  | cons n ns ih =>
    obtain ⟨h1, h2, h3⟩ := endQuota_spec s n
    obtain ⟨k1, k2, k3⟩ := ih (endQuota s n)
    refine ⟨⟨k1.store.trans h1.store, rfl, k1.journal.trans h1.journal, k1.cls.trans h1.cls,
      k1.queue.trans h1.queue, k1.reclaim.trans h1.reclaim⟩, fun m hm => ?_, fun m => ?_⟩
    · rcases List.mem_cons.mp hm with rfl | hm
      · exact (k3 m).2.2 h2
      · exact k2 m hm
    · exact ⟨(k3 m).1.trans (h3 m).1, (k3 m).2.1.trans (h3 m).2.1, fun hq => (k3 m).2.2 ((h3 m).2.2 hq)⟩

/-- The end of a clearance before its quota tests (R55). -/
def clearanceEmptied (s : State) : State :=
  { s with
    eraseQueue := []
    maint := { s.maint with underReclaim := none, tableFull := false }
    seats := s.seats.map fun u => { u with blocksHeld := 0 } }

theorem seat_clearanceEmptied (s : State) (n : SeatNo) :
    (clearanceEmptied s).seat n = { s.seat n with blocksHeld := 0 } := by simp [clearanceEmptied, State.seat]

theorem clearanceEnd_eq (s : State) :
    clearanceEnd s =
      let u := allSeats.foldl endQuota (clearanceEmptied s)
      { u with journal := { entries := [], lost := u.store.rev } } := by
  unfold clearanceEnd clearanceEmptied
  rfl

/-- R55: what the end of a clearance leaves before its commit. -/
theorem clearanceEnd_spec (s : State) :
    (clearanceEnd s).store = s.store ∧ (clearanceEnd s).eraseQueue = [] ∧
      (clearanceEnd s).maint.underReclaim = none ∧
      ∀ n, ((clearanceEnd s).seat n).item = (s.seat n).item ∧ ((clearanceEnd s).seat n).blocksHeld = 0 ∧
        ((clearanceEnd s).seat n).quotaReached = false := by
  obtain ⟨h1, h2, h3⟩ := foldl_endQuota_spec allSeats (clearanceEmptied s)
  rw [clearanceEnd_eq]
  generalize allSeats.foldl endQuota (clearanceEmptied s) = u at h1 h2 h3
  simp only [seat_clearanceEmptied] at h3
  exact ⟨h1.store, h1.queue, h1.reclaim, fun n => ⟨(h3 n).1, (h3 n).2.1, h2 n (List.mem_finRange n)⟩⟩

theorem clears_freeSome (s : State) : Clears s (freeSome s) := clears_foldl _ s

theorem Tx.commit_rev_called (t : Tx) (c : Call) : (t.call c).commit.store.rev = t.rev := by
  rw [Tx.commit_rev]; rfl

/-- R55: the commit of the last grant. -/
theorem cleared_of_published {v : State} (hp : Published v u) (h1 : v.store = w.store)
    (h2 : v.eraseQueue = []) (h3 : v.maint.underReclaim = none)
    (h4 : ∀ n, (v.seat n).item = (w.seat n).item ∧ (v.seat n).blocksHeld = 0 ∧ (v.seat n).quotaReached = false)
    (hf : ∀ i, (w.store.stroke i).state = .free) (hr : u.store.rev = nextRev w.store.rev) : Cleared w u := by
  have hs : ∀ n, u.seat n = v.seat n := seat_congr hp.seats
  refine ⟨by rw [hp.store, hr, h1], hf, hp.queue.trans h2, hp.reclaim.trans h3, fun n => ?_, fun n => ?_, fun n => ?_⟩
  · rw [hs]; exact (h4 n).1
  · rw [hs]; exact (h4 n).2.1
  · rw [hs]; exact (h4 n).2.2

/-- A class state, a queue and a grant behind the last commit of a clearance leave the ink. -/
theorem Cleared.congr {u' : State} (h : Cleared w u) (h1 : u'.store = u.store) (h2 : u'.seats = u.seats)
    (h4 : u'.eraseQueue = u.eraseQueue) (h5 : u'.maint.underReclaim = u.maint.underReclaim) : Cleared w u' := by
  have hs : ∀ n, u'.seat n = u.seat n := seat_congr h2
  refine ⟨h1.trans h.store, h.free, h4.trans h.queue, h5.trans h.reclaim, fun n => ?_, fun n => ?_, fun n => ?_⟩
  · rw [hs]; exact h.item n
  · rw [hs]; exact h.held n
  · rw [hs]; exact h.quota n

theorem published_on_call (f g : State → State) (c : Call) (h : (g (f s)).store.rev = s.store.rev) :
    Published (g (f s)) ((((Tx.start s).on f).on g).call c).commit :=
  Tx.published_commit ((((Tx.start s).on f).on g).call c) h

/-- R54, R55. -/
theorem inkStep_laterClearance (s : State) (hr : s.cls.state = .resetting) : InkStep s (laterClearance s) := by
  have hc := clears_freeSome s
  have hst : ((Tx.start s).on freeSome).st = freeSome s := rfl
  unfold laterClearance
  dsimp only
  split
  · next hn =>
    have hfree := free_of_nonFree_nil (List.isEmpty_iff.mp hn)
    obtain ⟨h1, h2, h3, h4⟩ := clearanceEnd_spec (freeSome s)
    have hrev : (clearanceEnd (freeSome s)).store.rev = s.store.rev := (congrArg Store.rev h1).trans hc.rev
    have hp := published_on_call freeSome clearanceEnd .classReset hrev
    have hrc := Tx.commit_rev_called (((Tx.start s).on freeSome).on clearanceEnd) .classReset
    generalize ((((Tx.start s).on freeSome).on clearanceEnd).call .classReset).commit = v at hp hrc ⊢
    have hcl : Cleared (freeSome s) v :=
      cleared_of_published hp h1 h2 h3 h4 hfree (hrc.trans (congrArg nextRev hc.rev.symm))
    exact .ended hr hc (hcl.congr rfl rfl rfl rfl)
  · refine .cleared hr hc ?_
    have hp := Tx.published_commit ((Tx.start s).on freeSome) hc.rev
    rwa [hst] at hp

theorem inkStep_classClearanceGrant (s : State) :
    ∃ u, execClassClearanceGrant s = .next u ∧ InkStep s u := by
  refine ⟨_, rfl, ?_⟩
  split
  · next h =>
    obtain ⟨-, h2⟩ := h
    have hr : s.cls.state = .resetting := by
      simp only [clearanceRuns, Bool.and_eq_true, decide_eq_true_eq] at h2
      exact h2.1
    exact (untouched_decideGrant s .console).before
      ((untouched_settle _).behind (inkStep_laterClearance _ (by simpa using hr)))
  · exact .of_moves (.refl s)

theorem inkStep_powerOnClearance (s : State) : ∃ u, execPowerOnClearance s = .next u ∧ InkStep s u := by
  refine ⟨_, rfl, ?_⟩
  split
  · split
    · exact (untouched_decideGrant s .console).before ((untouched_settle _).behind
        (InkStep.after (.begun (begun_firstClearance ..)) ⟨rfl, rfl, rfl, rfl, rfl, rfl⟩))
    · exact .of_moves (.refl s)
  · exact .of_moves (.refl s)

theorem inkStep_resetClass (s : State) : ∃ u, execResetClass s = .next u ∧ InkStep s u := by
  refine ⟨_, rfl, ?_⟩
  have hd := untouched_decideGrant s .console
  split
  · exact .of_moves (.refl s)
  · dsimp only
    split
    · have hb := begun_firstClearance (decideGrant s .console).cls.state (decideGrant s .console)
      generalize firstClearance (decideGrant s .console).cls.state (decideGrant s .console) = v at hb ⊢
      exact hd.before ((untouched_settle _).behind
        (Untouched.behind (u := v) ⟨rfl, rfl, rfl, rfl, rfl, rfl⟩ (.begun hb)))
    · exact (hd.trans (untouched_finishCommand _ _)).inkStep

/-! ### Console commands -/

theorem Tx.moves_onSeat {b : Byte} {body : SeatNo → Tx → Served} (h : ∀ n, Tx.Moves t (body n t).1) :
    Tx.Moves t (onSeat b body t).1 := by
  unfold onSeat
  split
  · exact .refl t
  · exact h _

theorem Tx.moves_onWatch {b : Byte} {body : Fin 4 → Tx → Served} (h : ∀ n, Tx.Moves t (body n t).1) :
    Tx.Moves t (onWatch b body t).1 := by
  unfold onWatch
  split
  · exact .refl t
  · exact h _

/-- An operation of a transaction that leaves ink, seats, class, groups and journal. -/
theorem Tx.moves_untouched {f : State → State} (h : Untouched t.st (f t.st)) : Tx.Moves t (t.on f) :=
  Tx.moves_on h.moves

theorem moves_setSeatState (n : SeatNo) (x : SeatState) : Moves s (setSeatState s n x) :=
  .of_modSeat (.of_eq rfl rfl rfl rfl)

theorem Tx.moves_stateAndNotice (n : SeatNo) (x : SeatState) (k : Notice) :
    Tx.Moves t (t.on fun s => addNotice (setSeatState s n x) n k) :=
  Tx.moves_on (f := fun s => addNotice (setSeatState s n x) n k) ((moves_setSeatState n x).trans (moves_addNotice n k))

theorem Tx.moves_admitBody (n : SeatNo) : Tx.Moves t (admitBody n t).1 := by
  unfold admitBody
  split
  · exact Tx.moves_stateAndNotice n _ _
  · exact .refl t
  · exact .refl t
  · exact .refl t

theorem Tx.moves_vacateBody (n : SeatNo) : Tx.Moves t (vacateBody n t).1 := by
  unfold vacateBody
  split
  · exact .refl t
  · exact ((((Tx.moves_cutSeat n).on (f := fun s => s.modSeat n fun u =>
      { u with undo := [], lastClosed := none, cutDue := false }) (.of_modSeat (.of_eq rfl rfl rfl rfl))).on
      (f := fun s => lowerHand s n) (moves_lowerHand n)).on (f := fun s => setSeatState s n .vacant)
      (moves_setSeatState n _)).on (f := fun s => addNotice s n .vacated) (moves_addNotice n _)

theorem Tx.moves_muteBody (n : SeatNo) : Tx.Moves t (muteBody n t).1 := by
  unfold muteBody
  split
  · exact (Tx.moves_cutSeat n).trans (Tx.moves_stateAndNotice n _ _)
  · exact .refl t

theorem Tx.moves_unmuteBody (n : SeatNo) : Tx.Moves t (unmuteBody n t).1 := by
  unfold unmuteBody
  split
  · exact Tx.moves_stateAndNotice n _ _
  · exact .refl t

theorem Tx.moves_unbarBody (n : SeatNo) : Tx.Moves t (unbarBody n t).1 := by
  unfold unbarBody
  split
  · exact Tx.moves_stateAndNotice n _ _
  · exact .refl t

theorem Tx.moves_barBody (n : SeatNo) : Tx.Moves t (barBody n t).1 := by
  unfold barBody
  split
  iterate 2
    · have h := Tx.moves_eraseSeat (t := t) n (List.finRange 16)
      exact ((h.trans (Tx.moves_cutSeat n)).on (f := fun s => lowerHand s n) (moves_lowerHand n)).trans
        (Tx.moves_stateAndNotice n _ _)
  · exact .refl t
  · exact .refl t

/-- R38, R41: a quota group is tested against blocks held. -/
theorem moves_configured (n : SeatNo) (c : SeatSettings) :
    Moves s (if c.quota.isSome then quotaFell (s.modSeat n (·.configured c)) n else s.modSeat n (·.configured c)) := by
  cases hq : c.quota with
  | none =>
    simp only [Option.isSome_none, Bool.false_eq_true, if_false]
    exact .of_modSeat ⟨inkHandle_congr rfl, rfl, id, fun h => .inl ⟨h, by simp [Seat.configured, hq], le_rfl⟩⟩
  | some q =>
    simp only [Option.isSome_some, if_true]
    obtain ⟨h1, x, b, h2, h3⟩ := seat_quotaFell (s.modSeat n (·.configured c)) n
    have hsame := moves_quotaFell (s := s.modSeat n (·.configured c)) n
    refine .of_quiet ?_ ?_ ?_ ?_ ?_ fun m => ?_
    · simp
    · simp
    · simp
    · simp
    · simp
    · by_cases e : m = n
      · subst e
        rw [h2, seat_modSeat] 
        rw [seat_modSeat] at h3
        exact ⟨inkHandle_congr rfl, rfl, id, fun hx => .inr (h3 hx)⟩
      · rw [h1 m e, seat_modSeat_ne _ _ e]
        exact .refl _

theorem Tx.moves_configureBody (items : SeatItems) (n : SeatNo) : Tx.Moves t (configureBody items n t).1 := by
  unfold configureBody
  split
  · exact .refl t
  · next c _ =>
    have h : (configureBody items n t).1 = (configureBody items n t).1 := rfl
    have hm := moves_configured (s := t.st) n c
    dsimp only
    split
    · next hq => rw [if_pos hq] at hm; exact ⟨rfl, hm⟩
    · next hq => rw [if_neg hq] at hm; exact ⟨rfl, hm⟩

theorem Tx.moves_cutTablets (t : Tx) : Tx.Moves t t.cutTablets :=
  Tx.moves_foldl (f := Tx.cutSeat) (fun _ => True) (fun _ _ => trivial) (fun _ n _ => Tx.moves_cutSeat n) _ t trivial

/-- The class changes between states that are not RESETTING. -/
theorem moves_setCls {c : ClassCtl} (h1 : s.cls.state ≠ .resetting) (h2 : c.state ≠ .resetting) :
    Moves s { s with cls := c } :=
  .of_quiet rfl rfl ⟨fun h => absurd h h2, fun h => absurd h h1⟩ rfl rfl fun _ => .refl _

theorem moves_noticePage (n : SeatNo) : Moves s (noticePage s n) := by
  unfold noticePage
  split
  · exact moves_addNotice n _
  · exact moves_addNotice n _
  · exact .refl s
  · exact .refl s

theorem Tx.moves_showPageBody (p : PageNo) : Tx.Moves t (showPageBody p t).1 := by
  have h1 : Tx.Moves t (t.on fun s => { s with cls := { s.cls with shown := p } }) :=
    Tx.moves_on (f := fun s => { s with cls := { s.cls with shown := p } })
      (.of_quiet rfl rfl .rfl rfl rfl fun _ => .refl _)
  exact (h1.trans (Tx.moves_call (.pageShown p))).on (f := fun s => tabletSeats.foldl noticePage s)
    (Machine.moves_foldl (f := noticePage) (fun _ n => moves_noticePage n) _ _)

theorem Tx.moves_consoleInput {b : Byte} {handle : SeatNo → Tx → Served} (hr : t.st.cls.state ≠ .resetting)
    (h : ∀ n t, t.st.cls.state ≠ .resetting → Tx.Moves t (handle n t).1) :
    Tx.Moves t (consoleInput b handle t).1 := by
  unfold consoleInput
  split
  · exact .refl t
  · split
    · have hc := Tx.moves_serveCut (t := t) ‹_›
      exact hc.trans (h _ _ (hc.not_resetting hr))
    · exact .refl t

theorem Tx.moves_startStrokeBody (tag tool layer colour : Byte) (n : SeatNo) (hr : t.st.cls.state ≠ .resetting) :
    Tx.Moves t (startStrokeBody tag tool layer colour n t).1 := by
  unfold startStrokeBody
  split
  · exact Tx.moves_beginInput _ n tag tool layer colour t.time hr
  · exact .refl t

theorem Tx.moves_addPointsBody (tag : Byte) (ps : List RawPoint) (n : SeatNo) (hr : t.st.cls.state ≠ .resetting) :
    Tx.Moves t (addPointsBody tag ps n t).1 := Tx.moves_pointsInput _ n tag ps t.time hr

theorem Tx.moves_endStrokeBody (tag : Byte) (n : SeatNo) : Tx.Moves t (endStrokeBody tag n t).1 := by
  have h1 : Tx.Moves t { t with closed := none } := ⟨rfl, .refl _⟩
  have h := h1.trans (Tx.moves_finishInput (t := { t with closed := none }) n tag)
  unfold endStrokeBody
  split <;> next e => rw [e] at h; exact h

theorem Tx.moves_erasureReply {r : Tx × Nat × Nat} (h : Tx.Moves t r.1) : Tx.Moves t (erasureReply r).1 := by
  unfold erasureReply
  dsimp only
  split <;> exact h

theorem Tx.moves_retractReply {r : Tx × Retracted} (h : Tx.Moves t r.1) : Tx.Moves t (retractReply r).1 := by
  unfold retractReply
  split <;> exact h

theorem moves_clearHands : Moves s (clearHands s) :=
  Moves.trans (.of_map (f := fun u => { u with handUp := false }) fun _ => .of_eq rfl rfl rfl rfl)
    (Untouched.moves ⟨rfl, rfl, rfl, rfl, rfl, rfl⟩)

theorem moves_clearGroups (g : BitVec 3) : Moves s (clearGroups g s) := by
  have h1 : Moves s (if g.getLsbD 0 then
      { s with seats := s.seats.map fun u => { u with clipped := 0, dropped := 0, discarded := 0 } } else s) := by
    split
    · exact .of_map fun _ => .of_eq rfl rfl rfl rfl
    · exact .refl s
  have h2 : ∀ s : State, Untouched s (if g.getLsbD 1 then
      { s with counters := { s.counters with glitch := 0, eraseSkip := 0 } } else s) := fun s => by
    split <;> exact ⟨rfl, rfl, rfl, rfl, rfl, rfl⟩
  have h3 : ∀ s : State, Untouched s (if g.getLsbD 2 then
      { s with counters := { glitch := s.counters.glitch, eraseSkip := s.counters.eraseSkip } } else s) := fun s => by
    split <;> exact ⟨rfl, rfl, rfl, rfl, rfl, rfl⟩
  exact (h1.trans (h2 _).moves).trans (h3 _).moves

end Sys2Proof.Machine
end

