-- ==== Sys2Proof/Proofs/InkDispatch.lean ====
section
/-! Every command but power-on reset is a step of the ink; the revision, the tables and the Z lists over a
step. -/

namespace Sys2Proof.Machine

variable {s t u w : State}

/-! ### The dispatch table -/

/-- An outcome that continues in a state of a property. -/
def NextIs (P : State → Prop) (o : Host.Outcome State Fault Refusal) : Prop := ∃ u, o = .next u ∧ P u

theorem NextIs.mk {P : State → Prop} {u : State} (h : P u) : NextIs P (.next u) := ⟨u, rfl, h⟩

theorem NextIs.untouched {o : Host.Outcome State Fault Refusal} (h : ∃ u, o = .next u ∧ Untouched s u) :
    NextIs (InkStep s) o := by
  obtain ⟨u, hu, h⟩ := h
  exact ⟨u, hu, h.inkStep⟩

theorem NextIs.moves {o : Host.Outcome State Fault Refusal} (h : ∃ u, o = .next u ∧ Moves s u) :
    NextIs (InkStep s) o := by
  obtain ⟨u, hu, h⟩ := h
  exact ⟨u, hu, .of_moves h⟩

/-- A console command whose transaction moves ink. -/
theorem NextIs.serve {α : Type} {code : Byte} {format : Reader α} {body : α → Tx → Served}
    (h : ∀ a t, t.st.cls.state ≠ .resetting → Tx.Moves t (body a t).1) :
    NextIs (InkStep s) (.next (serveCommand code format body s)) := .mk (inkStep_serveCommand h s)

theorem nextIs_unknownKind (l : Link) (k : Byte) (tag : AnswerTag) :
    NextIs (InkStep s) (execUnknownKind l k tag s) := by
  refine .mk ?_
  split
  · exact .of_moves (.refl s)
  · refine ((untouched_captureFault s .unknownKind l none (some k)).trans ?_).settle.inkStep
    cases l with
    | console => exact untouched_immediateAnswer ..
    | board => exact .refl _
    | tablet => exact .refl _
    | display => exact .refl _

theorem nextIs_tabletFrameArrival (tag : Byte) (f : TabletFrame) (k : Nat) :
    NextIs (InkStep s) (execTabletFrameArrival tag f k s) := by
  refine .mk (Untouched.settle ((untouched_shiftOut .tablet k s).trans ?_)).inkStep
  split
  · exact untouched_takeTablet ..
  · exact untouched_badFrameEffect ..

theorem nextIs_stop (tag : Byte) : NextIs (InkStep s) (execStop tag s) := by
  refine .mk (Untouched.settle ?_).inkStep
  dsimp only
  split <;> exact ⟨rfl, rfl, rfl, rfl, rfl, rfl⟩

theorem nextIs_snapshotBurst : NextIs (InkStep s) (execSnapshotBurst s) := by
  refine .mk ?_
  split
  · exact ((untouched_decideGrant s .snapshot).trans (untouched_afterSnapshot _ _)).settle.inkStep
  · exact .of_moves (.refl s)

theorem nextIs_followDeadlineReached : NextIs (InkStep s) (execFollowDeadlineReached s) := by
  refine .mk ?_
  split
  · exact (untouched_elapse _ s).inkStep
  · exact .of_moves (.refl s)

theorem nextIs_deadlineReached (n : SeatNo) : NextIs (InkStep s) (execDeadlineReached n s) := by
  refine .mk ?_
  split
  · exact (untouched_elapse _ s).inkStep
  · exact .of_moves (.refl s)

theorem nextIs_maintenanceGrant : NextIs (InkStep s) (execMaintenanceGrant s) := by
  refine .mk ?_
  split
  · next h =>
    exact (untouched_decideGrant s .maintenance).before ((untouched_settle _).behind
      (inkStep_maintain _ (by simpa using not_resetting_of_maintenance h)))
  · exact .of_moves (.refl s)

/-- What every command but power-on reset does to the ink. -/
theorem nextIs_exec (c : Instr) (hc : c ≠ .powerOnReset) (s : State) : NextIs (InkStep s) (exec c s) := by
  have quiet : ∀ {t : Tx} {r : Result} {b : Bytes}, Tx.Moves t (t.answer r b).1 := .refl _
  cases c with
  | powerOnReset => exact absurd rfl hc
  | powerOnClearance => exact inkStep_powerOnClearance s
  | classClearanceGrant => exact inkStep_classClearanceGrant s
  | badFrame l => exact .mk (untouched_badFrameEffect s l).settle.inkStep
  | unknownKind l k tag => exact nextIs_unknownKind l k tag
  | contact f => exact .untouched (untouched_contact s f)
  | down => exact .mk (inkStep_boardGrant (inkStep_contactInput fun n _ x _ h => Tx.moves_downInput n _ x h) s)
  | move => exact .mk (inkStep_boardGrant (inkStep_contactInput fun n _ x _ h => Tx.moves_moveInput n _ x h) s)
  | up => exact .mk (inkStep_boardGrant (inkStep_contactInput fun n _ x _ h => Tx.moves_upInput n x h) s)
  | tabletFrameArrival tag f k => exact nextIs_tabletFrameArrival tag f k
  | start =>
    exact .mk (inkStep_tabletGrant (fun _ => inkStep_slotInput fun o n t h => Tx.moves_beginInput o n _ _ _ _ t.time h) s)
  | points => exact .mk (inkStep_tabletGrant (fun _ => inkStep_slotInput fun o n t h => Tx.moves_pointsInput o n _ _ t.time h) s)
  | endFrame => exact .mk (inkStep_tabletGrant (fun _ => inkStep_slotInput fun _ n _ _ => Tx.moves_finishInput n _) s)
  | undo => exact .mk (inkStep_tabletGrant inkStep_undoInput s)
  | hand => exact .mk (inkStep_tabletGrant (fun _ _ => .of_moves (moves_handInput _ _)) s)
  | noticeRead tag k => exact .moves (moves_noticeRead s tag k)
  | command tag code ps => exact .untouched (untouched_command s tag code ps)
  | admitSeat => exact .serve fun _ _ _ => Tx.moves_onSeat fun n => Tx.moves_admitBody n
  | vacateSeat => exact .serve fun _ _ _ => Tx.moves_onSeat fun n => Tx.moves_vacateBody n
  | configureSeat => exact .serve fun _ _ _ => Tx.moves_onSeat fun n => Tx.moves_configureBody _ n
  | mute => exact .serve fun _ _ _ => Tx.moves_onSeat fun n => Tx.moves_muteBody n
  | unmute => exact .serve fun _ _ _ => Tx.moves_onSeat fun n => Tx.moves_unmuteBody n
  | bar => exact .serve fun _ _ _ => Tx.moves_onSeat fun n => Tx.moves_barBody n
  | unbar => exact .serve fun _ _ _ => Tx.moves_onSeat fun n => Tx.moves_unbarBody n
  | readSeat => exact .serve fun _ _ _ => Tx.moves_onSeat fun _ => quiet
  | freeze =>
    refine .serve fun _ t hr => ?_
    dsimp only
    split
    · have h := Tx.moves_cutTablets t
      exact h.on (f := fun s => setClassState s .frozen) (moves_setCls (h.not_resetting hr) (by simp))
    · exact quiet
  | thaw =>
    refine .serve fun _ t hr => ?_
    split
    · exact Tx.moves_on (f := fun s => setClassState s .opened) (moves_setCls hr (by simp))
    · exact quiet
  | showPage =>
    refine .serve fun _ t _ => ?_
    split
    · exact quiet
    · exact Tx.moves_showPageBody _
  | resetClass => exact inkStep_resetClass s
  | setClassOptions =>
    refine .serve fun _ t _ => ?_
    dsimp only
    split
    · exact quiet
    · next o _ =>
      exact Tx.moves_on (f := fun s => { s with cls := { s.cls with options := o } })
        (.of_quiet rfl rfl .rfl rfl rfl fun _ => .refl _)
  | readStatus => exact .serve fun _ _ _ => quiet
  | startStroke => exact .serve fun _ _ hr => Tx.moves_consoleInput hr fun n _ h => Tx.moves_startStrokeBody _ _ _ _ n h
  | addPoints =>
    refine .serve fun _ t hr => ?_
    dsimp only
    split
    · exact Tx.moves_consoleInput hr fun n _ h => Tx.moves_addPointsBody _ _ n h
    · exact quiet
  | endStroke => exact .serve fun _ _ hr => Tx.moves_consoleInput hr fun n _ _ => Tx.moves_endStrokeBody _ n
  | clearLayer =>
    refine .serve fun _ t _ => ?_
    dsimp only
    split
    · exact Tx.moves_erasureReply (Tx.moves_eraseAll _ _ (t, 0, 0))
    · exact quiet
  | eraseSeatInk =>
    refine .serve fun _ t _ => ?_
    dsimp only
    split
    · exact Tx.moves_erasureReply (Tx.moves_eraseSeat _ _)
    · exact quiet
  | retract =>
    refine .serve fun _ t _ => ?_
    split
    · exact quiet
    · exact Tx.moves_retractReply (Tx.moves_runRetract _ _)
  | restoreGroup =>
    refine .serve fun _ t _ => ?_
    dsimp only
    split
    · exact quiet
    · next h => exact Tx.moves_restoreGroup h
  | readStroke =>
    refine .serve fun _ t _ => ?_
    split
    · exact quiet
    · split <;> exact quiet
  | handPoll => exact .serve fun _ _ _ => quiet
  | callNext =>
    refine .serve fun _ t _ => ?_
    split
    · exact quiet
    · next n _ _ => exact Tx.moves_on (f := fun s => lowerHand s n) (moves_lowerHand n)
  | clearHands => exact .serve fun _ _ _ => Tx.moves_on (f := clearHands) moves_clearHands
  | startSnapshot =>
    refine .serve fun _ t _ => ?_
    dsimp only [startSnapshotBody]
    split
    · exact quiet
    · split
      · exact quiet
      · exact Tx.moves_untouched (f := fun s => { s with snapshot := sweepCtx s.snapshot _ _ _ _ _ })
          ⟨rfl, rfl, rfl, rfl, rfl, rfl⟩
  | stopSnapshot =>
    refine .serve fun _ t _ => ?_
    split
    · exact Tx.moves_untouched (f := fun s => endSnapshot s .stopped) (untouched_endSnapshot _ _)
    · exact quiet
  | armWatch =>
    refine .serve fun _ t _ => Tx.moves_onWatch fun n => ?_
    unfold armBody
    split
    · exact quiet
    · next w _ => exact Tx.moves_untouched (f := fun s => modWatch s n fun _ => w) ⟨rfl, rfl, rfl, rfl, rfl, rfl⟩
  | disarmWatch =>
    exact .serve fun _ _ _ => Tx.moves_onWatch fun n => Tx.moves_untouched
      (f := fun s => modWatch s n fun w => { w with state := .disarmed }) ⟨rfl, rfl, rfl, rfl, rfl, rfl⟩
  | readWatch => exact .serve fun _ _ _ => Tx.moves_onWatch fun _ => quiet
  | readAttention => exact .serve fun _ _ _ => quiet
  | ackAttention => exact .serve fun _ _ _ => ⟨rfl, Untouched.moves ⟨rfl, rfl, rfl, rfl, rfl, rfl⟩⟩
  | setAttention => exact .serve fun _ _ _ => ⟨rfl, Untouched.moves ⟨rfl, rfl, rfl, rfl, rfl, rfl⟩⟩
  | configureAttention => exact .serve fun _ _ _ => ⟨rfl, Untouched.moves ⟨rfl, rfl, rfl, rfl, rfl, rfl⟩⟩
  | readFault => exact .serve fun _ _ _ => ⟨rfl, Untouched.moves ⟨rfl, rfl, rfl, rfl, rfl, rfl⟩⟩
  | readCounters => exact .serve fun _ _ _ => quiet
  | clearCounters => exact .serve fun _ _ _ => ⟨rfl, moves_clearGroups _⟩
  | readTime => exact .serve fun _ _ _ => quiet
  | setArbiter => exact .serve fun _ _ _ => ⟨rfl, Untouched.moves ⟨rfl, rfl, rfl, rfl, rfl, rfl⟩⟩
  | sweep tag f l => exact .mk (untouched_requestArrives s tag _).settle.inkStep
  | continueWalk tag l => exact .mk (untouched_requestArrives s tag _).settle.inkStep
  | follow tag r x l => exact .mk (untouched_requestArrives s tag _).settle.inkStep
  | fetch tag h => exact .mk (untouched_requestArrives s tag _).settle.inkStep
  | stop tag => exact nextIs_stop tag
  | outboundFrameRead k => exact .mk (untouched_shiftOut k.link k.bytes s).settle.inkStep
  | linkReset l tag => exact .moves (moves_linkReset s l tag)
  | sweepBurst => exact .mk (untouched_displayGrant _ _ s).inkStep
  | followBurst => exact .mk (untouched_displayGrant _ _ s).inkStep
  | fetchBurst => exact .mk (untouched_displayGrant _ _ s).inkStep
  | snapshotBurst => exact nextIs_snapshotBurst
  | followDeadlineReached => exact nextIs_followDeadlineReached
  | deadlineReached n => exact nextIs_deadlineReached n
  | maintenanceGrant => exact nextIs_maintenanceGrant

theorem inkStep_exec {c : Instr} (hc : c ≠ .powerOnReset) (h : exec c s = .next t) : InkStep s t := by
  obtain ⟨u, hu, hs⟩ := nextIs_exec c hc s
  rw [h] at hu
  cases hu
  exact hs

/-- One step is power-on reset or a step of the ink. -/
theorem inkStep_step (h : step s = .next t) :
    (∃ p, t = { State.reset with pending := p }) ∨ InkStep s t := by
  unfold step at h
  split at h
  · cases h
    exact .inr (untouched_elapse 1 s).inkStep
  · next c rest _ =>
    by_cases hc : c = .powerOnReset
    · subst hc
      cases h
      exact .inl ⟨rest, rfl⟩
    · exact .inr ((inkStep_exec hc h).after ⟨rfl, rfl, rfl, rfl, rfl, rfl⟩)

/-! ### The store revision -/

theorem nextRev_ne_zero (r : Rev) : nextRev r ≠ 0 := by
  unfold nextRev maxRev
  split
  · decide
  · bv_omega

theorem revAbove_nextRev (r : Rev) : revAbove (nextRev r) r = true ∧ revAbove r (nextRev r) = false := by
  have hlt := r.isLt
  have hnz := nextRev_ne_zero r
  have hnat : (nextRev r).toNat = if r.toNat = 2 ^ 48 - 1 then 1 else r.toNat + 1 := by
    unfold nextRev maxRev
    by_cases h : r = 0xFFFFFFFFFFFF#48
    · subst h; rfl
    · have h' : r.toNat ≠ 2 ^ 48 - 1 := fun e => h (BitVec.eq_of_toNat_eq e)
      rw [if_neg h, if_neg h', BitVec.toNat_add]
      exact Nat.mod_eq_of_lt (show r.toNat + 1 < 2 ^ 48 by omega)
  unfold revAbove
  by_cases h0 : r = 0
  · subst h0; decide
  · have h0' : r.toNat ≠ 0 := fun e => h0 (BitVec.eq_of_toNat_eq e)
    simp only [if_neg h0, if_neg hnz, hnat, decide_eq_true_eq, decide_eq_false_iff_not]
    split <;> omega

/-- R5: what a step does to the revision and the journal. -/
theorem InkStep.rev (h : InkStep s u) :
    (u.store.rev = s.store.rev ∧ u.journal = s.journal) ∨ u.store.rev = upcoming s := by
  cases h with
  | drawn m p =>
    rcases p.rev with ⟨h1, h2⟩ | h
    · exact .inl ⟨h1.trans m.rev, h2.trans m.journal⟩
    · exact .inr (h.trans (congrArg nextRev m.rev))
  | begun b => exact .inl ⟨congrArg Store.rev b.store, b.journal⟩
  | cleared _ c p =>
    rcases p.rev with ⟨h1, h2⟩ | h
    · exact .inl ⟨h1.trans c.rev, h2.trans c.journal⟩
    · exact .inr (h.trans (congrArg nextRev c.rev))
  | ended _ c e => exact .inr ((congrArg Store.rev e.store).trans (congrArg nextRev c.rev))

/-- Settles O51: a command is moves of ink, which take no revision, and one commit, which takes the next. -/
theorem everyCommandTakesAtMostOneRevision : Obligations.EveryCommandTakesAtMostOneRevision :=
  ⟨fun _ _ _ hc h => (inkStep_exec hc h).rev, fun r => ⟨nextRev_ne_zero r, revAbove_nextRev r⟩⟩

end Sys2Proof.Machine
end

