-- ==== Sys2Proof/Proofs/InkStanding.lean ====
section
/-! The canonical tables and the agreement of the Z lists over a step. -/

namespace Sys2Proof.Machine

variable {s t u w : State}

/-! ### Properties of the store that no operation breaks -/

/-- A property of the store that every move of ink and every free keeps, and that does not see the
revision, is kept by every command. -/
theorem InkStep.store_keeps {P : Store → Prop} (hmove : ∀ {v v' : InkView}, InkMoves v v' → P v.store → P v'.store)
    (hfree : ∀ {st : Store} (i : RecIdx), P st → P (st.freed i)) (hrev : ∀ {st : Store} (r : Rev), P st → P { st with rev := r })
    (h : InkStep s u) (hs : P s.store) : P u.store := by
  have hclear : ∀ {w : State}, Clears s w → P w.store := fun {w} c => by
    obtain ⟨is, hi⟩ := c.ink
    have : ∀ (is : List RecIdx) (v : InkView), P v.store → P (is.foldl InkView.clear1 v).store := fun is => by
      induction is with
      | nil => exact fun _ h => h
      | cons i is ih =>
        refine fun v h => ih _ ?_
        unfold InkView.clear1
        split <;> exact hfree i h
    have h := this is (viewOf s) hs
    rwa [← hi] at h
  cases h with
  | drawn m p => rw [p.store]; exact hrev _ (hmove m.ink hs)
  | begun b => rw [b.store]; exact hs
  | cleared _ c p => rw [p.store]; exact hrev _ (hclear c)
  | ended _ c e => rw [e.store]; exact hrev _ (hclear c)

/-- Settles O55: every move of ink writes the tables through `assignAt`, which keeps their form. -/
theorem everyStepKeepsTheStoreCanonical : Obligations.EveryStepKeepsTheStoreCanonical := by
  intro s t hs h
  rcases inkStep_step h with ⟨p, rfl⟩ | h
  · exact resetMeetsTheInvariants.1
  · rw [storeCanonical_iff] at hs ⊢
    exact h.store_keeps (P := Store.Canonical) InkMoves.canonical (fun i h => h.freed i)
      (fun _ h => h.congr rfl rfl rfl) hs

/-- Settles O58: each move of ink keeps the Z lists, the Stroke Table and the free list in agreement. -/
theorem everyStepKeepsZListsInAgreement : Obligations.EveryStepKeepsZListsInAgreement := by
  intro s t hs h
  rcases inkStep_step h with ⟨p, rfl⟩ | h
  · obtain ⟨-, -, -, -, -, -, -, -, hz, -⟩ := resetMeetsTheInvariants
    exact hz
  · rw [zListsAgree_iff] at hs ⊢
    exact h.store_keeps (P := Store.ZAgree) InkMoves.zAgree (fun i h => h.freed i)
      (fun _ h => h.congr rfl rfl rfl) hs

end Sys2Proof.Machine
end

