-- ==== Sys2Proof/Proofs/InkPool.lean ====
section
/-! The Point Pool under the moves of ink: each block once, chains filled (R22 to R24). -/

namespace Sys2Proof.Machine

variable {st st' : Store} {v v' : InkView}

/-! ### Blocks -/

/-- The blocks in use and the free stack make up the pool, each block once. -/
structure BlocksAgree (used : List BlockNo) (f : FreeStack) : Prop where
  nodup : (used ++ f.released).Nodup
  bound : ∀ b ∈ used ++ f.released, b.val < f.fresh
  size : f.size + used.length = 8192

theorem BlocksAgree.perm {used used' : List BlockNo} {f : FreeStack} (h : BlocksAgree used f)
    (hp : used.Perm used') : BlocksAgree used' f where
  nodup := (hp.append_right f.released).nodup_iff.mp h.nodup
  bound b hb := h.bound b ((hp.append_right f.released).mem_iff.mpr hb)
  size := by rw [← hp.length_eq]; exact h.size

/-- R26: the top block comes into use. -/
theorem BlocksAgree.pop {used : List BlockNo} {f g : FreeStack} {b : BlockNo} (h : BlocksAgree used f)
    (hp : f.pop = some (b, g)) : BlocksAgree (b :: used) g := by
  have hsize := FreeStack.size_pop hp
  have hs := h.size
  unfold FreeStack.pop at hp
  split at hp
  · next c r hr =>
    cases hp
    have hperm : (used ++ f.released).Perm (b :: used ++ r) := by rw [hr]; exact List.perm_middle
    exact ⟨hperm.nodup_iff.mp h.nodup, fun x hx => h.bound x (hperm.mem_iff.mpr hx), by
      rw [List.length_cons]; omega⟩
  · next hr =>
    split at hp
    · next hlt =>
      cases hp
      have hb := h.bound
      have hn := h.nodup
      rw [hr, List.append_nil] at hb hn
      refine ⟨?_, fun x hx => ?_, by rw [List.length_cons]; omega⟩
      · dsimp only
        rw [hr, List.append_nil]
        exact List.nodup_cons.mpr ⟨fun hm => Nat.lt_irrefl _ (hb _ hm), hn⟩
      · dsimp only at hx ⊢
        rw [hr, List.append_nil] at hx
        rcases List.mem_cons.mp hx with rfl | hx
        · exact Nat.lt_succ_self _
        · exact Nat.lt_succ_of_lt (hb x hx)
    · cases hp

/-- R19: the blocks of a chain go back onto the free stack. -/
theorem BlocksAgree.push {used chain : List BlockNo} {f : FreeStack} (h : BlocksAgree (chain ++ used) f) :
    BlocksAgree used (f.push chain) := by
  have hperm : (chain ++ used ++ f.released).Perm (used ++ (f.push chain).released) := by
    show (chain ++ used ++ f.released).Perm (used ++ (chain.reverse ++ f.released))
    rw [← List.append_assoc]
    refine List.Perm.append_right _ (List.perm_append_comm.trans (List.Perm.append_left _ (List.reverse_perm _).symm))
  refine ⟨hperm.nodup_iff.mp h.nodup, fun b hb => h.bound b (hperm.mem_iff.mpr hb), ?_⟩
  have := h.size
  rw [FreeStack.size_push]
  simp only [List.length_append] at this
  omega

/-! ### Chains -/

/-- The blocks of a chain hold the entries of a stroke of this count, each starting with an ABSOLUTE entry. -/
structure Filled (block : BlockNo → List Entry) (chain : List BlockNo) (count : Nat) : Prop where
  pos : 1 ≤ count
  le : count ≤ 1536
  length : chain.length = (count + 23) / 24
  entries : ∀ (k : Nat) (b : BlockNo), chain[k]? = some b →
    (block b).length = min 24 (count - 24 * k) ∧ ∃ x y w l, (block b).head? = some (.abs x y w l) ∧ (k = 0 → l = false)

/-- A record's chain agrees with its state and its count. -/
structure ChainOk (block : BlockNo → List Entry) (r : Stroke) : Prop where
  free : r.state = .free → r.chain = []
  used : r.state ≠ .free → Filled block r.chain r.count

theorem Filled.congr {block block' : BlockNo → List Entry} {chain : List BlockNo} {count : Nat}
    (h : Filled block chain count) (hb : ∀ b ∈ chain, block' b = block b) : Filled block' chain count :=
  ⟨h.pos, h.le, h.length, fun k b hk => by rw [hb b (List.mem_of_getElem? hk)]; exact h.entries k b hk⟩

theorem ChainOk.congr {block block' : BlockNo → List Entry} {r : Stroke} (h : ChainOk block r)
    (hb : ∀ b ∈ r.chain, block' b = block b) : ChainOk block' r := ⟨h.free, fun hr => (h.used hr).congr hb⟩

/-- R14: the chain of a new stroke. -/
theorem filled_one {block : BlockNo → List Entry} {b : BlockNo} {x y w : Nat}
    (h : block b = [.abs x y w false]) : Filled block [b] 1 :=
  ⟨le_rfl, by omega, rfl, fun k c hk => by
    match k with
    | 0 =>
      obtain rfl : b = c := by simpa using hk
      rw [h]
      exact ⟨rfl, x, y, w, false, rfl, fun _ => rfl⟩
    | k + 1 => simp at hk⟩

/-- R15: an entry joins the last block. -/
theorem Filled.grow {block block' : BlockNo → List Entry} {chain : List BlockNo} {count : Nat} {b : BlockNo}
    {e : Entry} (h : Filled block chain count) (hn : chain.Nodup) (hb : chain.getLast? = some b)
    (hl : (block b).length < 24) (h1 : block' b = block b ++ [e]) (h2 : ∀ c, c ≠ b → block' c = block c) :
    Filled block' chain (count + 1) := by
  have hlast : chain[chain.length - 1]? = some b := by rw [← List.getLast?_eq_getElem?]; exact hb
  have hlen := h.length
  have hpos := h.pos
  have hle := h.le
  have hc := (h.entries _ b hlast).1
  have hsmall : count - 24 * (chain.length - 1) < 24 := by omega
  refine ⟨by omega, by omega, by omega, fun k c hk => ?_⟩
  obtain ⟨hk1, x, y, w, l, hk2, hk3⟩ := h.entries k c hk
  have hkl : k < chain.length := (List.getElem?_eq_some_iff.mp hk).1
  by_cases hcb : c = b
  · subst hcb
    obtain rfl : k = chain.length - 1 := by
      obtain ⟨h3, h4⟩ := List.getElem?_eq_some_iff.mp hk
      obtain ⟨h5, h6⟩ := List.getElem?_eq_some_iff.mp hlast
      exact (hn.getElem_inj_iff).mp (h4.trans h6.symm)
    rw [h1, List.length_append, List.length_singleton, List.head?_append]
    refine ⟨by omega, x, y, w, l, by rw [hk2]; rfl, hk3⟩
  · rw [h2 c hcb]
    have hne : k ≠ chain.length - 1 := fun e' => hcb (by
      rw [e', hlast] at hk; exact (Option.some.inj hk).symm)
    exact ⟨by omega, x, y, w, l, hk2, hk3⟩

/-- R15: an entry starts a new block. -/
theorem Filled.extend {block block' : BlockNo → List Entry} {chain : List BlockNo} {count : Nat} {b c : BlockNo}
    {x y w : Nat} {l : Bool} (h : Filled block chain count) (hb : chain.getLast? = some b)
    (hl : 24 ≤ (block b).length) (hc : chain.length < 64) (h1 : block' c = [.abs x y w l])
    (h2 : ∀ d ∈ chain, block' d = block d) : Filled block' (chain ++ [c]) (count + 1) := by
  have hlast : chain[chain.length - 1]? = some b := by rw [← List.getLast?_eq_getElem?]; exact hb
  have hlen := h.length
  have hpos := h.pos
  have hb' := (h.entries _ b hlast).1
  have hcount : count = 24 * chain.length := by omega
  refine ⟨by omega, by omega, by rw [List.length_append, List.length_singleton]; omega, fun k d hk => ?_⟩
  by_cases hkl : k < chain.length
  · rw [List.getElem?_append_left hkl] at hk
    obtain ⟨hk1, hk2⟩ := h.entries k d hk
    rw [h2 d (List.mem_of_getElem? hk)]
    exact ⟨by omega, hk2⟩
  · rw [List.getElem?_append_right (not_lt.mp hkl)] at hk
    obtain ⟨hk0, rfl⟩ : k - chain.length = 0 ∧ c = d := by
      match hj : k - chain.length with
      | 0 => rw [hj] at hk; exact ⟨rfl, by simpa using hk⟩
      | j + 1 => rw [hj] at hk; simp at hk
    rw [h1]
    refine ⟨?_, x, y, w, l, rfl, fun e => by omega⟩
    have : k = chain.length := by omega
    subst this
    simp only [List.length_singleton]
    omega

/-! ### The pool -/

/-- The parts of `PoolAgrees`, by name. -/
structure Store.PoolAgree (st : Store) : Prop where
  blocks : BlocksAgree (chainBlocks st) st.freeBlocks
  chains : ∀ i, ChainOk st.block (st.stroke i)

theorem poolAgrees_iff (s : State) : PoolAgrees s ↔ s.store.PoolAgree :=
  ⟨fun ⟨h1, h2, h3, h4⟩ => ⟨⟨h1, h2, h3⟩, fun i => ⟨(h4 i).1, fun hr =>
      ⟨((h4 i).2 hr).1, ((h4 i).2 hr).2.1, ((h4 i).2 hr).2.2.1, ((h4 i).2 hr).2.2.2⟩⟩⟩,
    fun ⟨⟨h1, h2, h3⟩, h4⟩ => ⟨h1, h2, h3, fun i => ⟨(h4 i).free, fun hr =>
      have f := (h4 i).used hr
      ⟨f.pos, f.le, f.length, f.entries⟩⟩⟩⟩

theorem Store.PoolAgree.congr (h : st.PoolAgree) (h1 : st'.strokes = st.strokes) (h2 : st'.pool = st.pool)
    (h3 : st'.freeBlocks = st.freeBlocks) : st'.PoolAgree where
  blocks := by rw [chainBlocks, h1, h3]; exact h.blocks
  chains i := by
    have hb : st'.block = st.block := by funext b; simp [Store.block, h2]
    have hs : st'.stroke i = st.stroke i := by simp [Store.stroke, h1]
    rw [hb, hs]; exact h.chains i

/-- The blocks in the chains of the records beside one. -/
def restBlocks (st : Store) (i : RecIdx) : List BlockNo := (tableRest st.strokes i).flatMap fun p => p.2.chain

theorem chainBlocks_perm (hc : st.Canonical) (i : RecIdx) :
    (chainBlocks st).Perm ((st.stroke i).chain ++ restBlocks st i) :=
  flatMap_canonical hc.strokes i Stroke.chain rfl

theorem chainBlocks_setStroke (st : Store) (i : RecIdx) (r : Stroke) :
    (chainBlocks (st.setStroke i r)).Perm (r.chain ++ restBlocks st i) :=
  flatMap_assignAt _ st.strokes i r Stroke.chain rfl

theorem mem_restBlocks {i j : RecIdx} (hj : j ≠ i) {b : BlockNo} (hb : b ∈ (st.stroke j).chain) :
    b ∈ restBlocks st i := by
  have hne : st.stroke j ≠ ({} : Stroke) := fun e => by rw [e] at hb; exact absurd hb List.not_mem_nil
  exact List.mem_flatMap.mpr ⟨(j, st.stroke j), List.mem_filter.mpr ⟨mem_of_lookupAt_ne hne, by simpa using hj⟩, hb⟩

theorem Store.PoolAgree.blocksAt (h : st.PoolAgree) (hc : st.Canonical) (i : RecIdx) :
    BlocksAgree ((st.stroke i).chain ++ restBlocks st i) st.freeBlocks := h.blocks.perm (chainBlocks_perm hc i)

/-- One record is written, and blocks of its chain alone. -/
theorem Store.PoolAgree.write (h : st.PoolAgree) {i : RecIdx} {r : Stroke}
    (hs : st'.strokes = (st.setStroke i r).strokes) (hb : BlocksAgree (r.chain ++ restBlocks st i) st'.freeBlocks)
    (hblk : ∀ b, b ∉ r.chain → st'.block b = st.block b) (hr : ChainOk st'.block r) : st'.PoolAgree where
  blocks := by
    have : chainBlocks st' = chainBlocks (st.setStroke i r) := by simp only [chainBlocks, hs]
    rw [this]
    exact hb.perm (chainBlocks_setStroke st i r).symm
  chains j := by
    have hj : st'.stroke j = (st.setStroke i r).stroke j := by simp only [Store.stroke, hs]
    rw [hj]
    by_cases e : j = i
    · subst e; rw [stroke_setStroke]; exact hr
    · rw [stroke_setStroke_ne _ _ e]
      refine (h.chains j).congr fun b hbj => hblk b fun hbr => ?_
      have hn := (List.nodup_append.mp hb.nodup).1
      exact (List.nodup_append.mp hn).2.2 b hbr b (mem_restBlocks e hbj) rfl

/-- A record that keeps its chain and its count. -/
theorem Store.PoolAgree.setStroke (h : st.PoolAgree) (hc : st.Canonical) {i : RecIdx} {r : Stroke}
    (h0 : (st.stroke i).state ≠ .free) (h1 : r.state ≠ .free) (h2 : r.chain = (st.stroke i).chain)
    (h3 : r.count = (st.stroke i).count) : (st.setStroke i r).PoolAgree := by
  refine h.write rfl (by rw [h2]; exact h.blocksAt hc i) (fun _ _ => rfl)
    ⟨fun e => absurd e h1, fun _ => ?_⟩
  rw [h2, h3]
  exact (h.chains i).used h0

theorem Store.PoolAgree.chain_nodup (h : st.PoolAgree) (hc : st.Canonical) (i : RecIdx) : (st.stroke i).chain.Nodup :=
  (List.nodup_append.mp (List.nodup_append.mp (h.blocksAt hc i).nodup).1).1

/-- R14. -/
theorem Store.PoolAgree.added (h : st.PoolAgree) (hc : st.Canonical) {i : RecIdx} {recs : FreeList} {b : BlockNo}
    {blocks : FreeStack} {r : Stroke} {x y w : Nat} (hf : (st.stroke i).state = .free)
    (hb : st.freeBlocks.pop = some (b, blocks)) (h1 : r.state ≠ .free) (h2 : r.chain = [b]) (h3 : r.count = 1) :
    (st.added recs blocks i r b (.abs x y w false)).PoolAgree := by
  have hblocks := h.blocksAt hc i
  rw [(h.chains i).free hf, List.nil_append] at hblocks
  have hblk : ∀ c, (st.added recs blocks i r b (.abs x y w false)).block c =
      if c = b then [.abs x y w false] else st.block c := fun c => by
    unfold Store.added
    rw [block_setZ]
    split
    · next e => rw [e, block_setBlock]
    · next e => rw [block_setBlock_ne _ _ e]; rfl
  refine h.write (i := i) (r := r) rfl ?_ (fun c hcb => ?_) ⟨fun e => absurd e h1, fun _ => ?_⟩
  · rw [h2]; exact hblocks.pop hb
  · rw [hblk, if_neg (by simpa [h2] using hcb)]
  · rw [h2, h3]; exact filled_one (by rw [hblk, if_pos rfl])

/-- R15, within the last block. -/
theorem Store.PoolAgree.grown (h : st.PoolAgree) (hc : st.Canonical) {i : RecIdx} {r : Stroke} {b : BlockNo} {e : Entry}
    (h0 : (st.stroke i).state ≠ .free) (hb : (st.stroke i).chain.getLast? = some b) (hl : (st.block b).length < 24)
    (h1 : r.state ≠ .free) (h2 : r.chain = (st.stroke i).chain) (h3 : r.count = (st.stroke i).count + 1) :
    ((st.setBlock b (st.block b ++ [e])).setStroke i r).PoolAgree := by
  refine h.write (i := i) (r := r) rfl (by rw [h2]; exact h.blocksAt hc i) (fun c hcb => ?_)
    ⟨fun e => absurd e h1, fun _ => ?_⟩
  · rw [block_setStroke, block_setBlock_ne]
    rintro rfl
    exact hcb (h2 ▸ List.mem_of_getLast? hb)
  · rw [h2, h3]
    exact ((h.chains i).used h0).grow (h.chain_nodup hc i) hb hl (by rw [block_setStroke, block_setBlock])
      fun c hcb => by rw [block_setStroke, block_setBlock_ne _ _ hcb]

/-- R15, with a new block. -/
theorem Store.PoolAgree.extended (h : st.PoolAgree) (hc : st.Canonical) {i : RecIdx} {r : Stroke} {b c : BlockNo}
    {blocks : FreeStack} {x y w : Nat} {l : Bool} (h0 : (st.stroke i).state ≠ .free)
    (hb : (st.stroke i).chain.getLast? = some b) (hl : 24 ≤ (st.block b).length)
    (hlen : (st.stroke i).chain.length < 64) (hp : st.freeBlocks.pop = some (c, blocks)) (h1 : r.state ≠ .free)
    (h2 : r.chain = (st.stroke i).chain ++ [c]) (h3 : r.count = (st.stroke i).count + 1) :
    (({ st with freeBlocks := blocks }.setBlock c [.abs x y w l]).setStroke i r).PoolAgree := by
  have hblocks := (h.blocksAt hc i).pop hp
  have hperm : (c :: ((st.stroke i).chain ++ restBlocks st i)).Perm
      ((st.stroke i).chain ++ [c] ++ restBlocks st i) := by
    rw [List.append_assoc]; exact List.perm_middle.symm
  have hnot : c ∉ (st.stroke i).chain := fun hm =>
    (List.nodup_cons.mp (List.nodup_append.mp hblocks.nodup).1).1 (List.mem_append_left _ hm)
  refine h.write (i := i) (r := r) rfl (by rw [h2]; exact hblocks.perm hperm) (fun d hd => ?_)
    ⟨fun e => absurd e h1, fun _ => ?_⟩
  · have hdc : d ≠ c := fun e => hd (by rw [h2, e]; simp)
    rw [block_setStroke, block_setBlock_ne _ _ hdc]
    rfl
  · rw [h2, h3]
    refine ((h.chains i).used h0).extend hb hl hlen (by rw [block_setStroke, block_setBlock]) fun d hd => ?_
    rw [block_setStroke, block_setBlock_ne _ _ (fun e => hnot (by rw [← e]; exact hd))]
    rfl

/-- R19. -/
theorem Store.PoolAgree.freed (h : st.PoolAgree) (hc : st.Canonical) (i : RecIdx) : (st.freed i).PoolAgree := by
  unfold Store.freed
  dsimp only
  split
  · exact h
  · exact h.write (i := i) (r := { gen := (st.stroke i).gen }) rfl ((h.blocksAt hc i).push) (fun _ _ => rfl)
      ⟨fun _ => rfl, fun e => absurd rfl e⟩

end Sys2Proof.Machine
end

