-- ==== Sys2Proof/Proofs/InkAgree.lean ====
section
/-! The agreement of records, pool, blocks held and open items under the moves of ink. -/

namespace Sys2Proof.Machine

variable {st st' : Store} {v v' : InkView} {b : Prop}

/-! ### Fields by state -/

/-- The optional fields of a record are present by its state (R9, R10, R19). -/
structure FieldsOk (r : Stroke) : Prop where
  free : r.state = .free → r = { gen := r.gen }
  opened : r.state = .opened → r.closeTime = none ∧ r.group = none ∧ r.eraseRev = none
  closed : r.state = .closed → r.closeTime.isSome = true ∧ r.group = none ∧ r.eraseRev = none
  erased : r.state = .erased → r.closeTime.isSome = true ∧ r.group.isSome = true ∧ r.eraseRev.isSome = true

section
variable {r : Stroke}

theorem fieldsOk_free (hs : r.state = .free) (h : r = { gen := r.gen }) : FieldsOk r where
  free _ := h
  opened e := by rw [hs] at e; cases e
  closed e := by rw [hs] at e; cases e
  erased e := by rw [hs] at e; cases e

theorem fieldsOk_opened (hs : r.state = .opened) (h : r.closeTime = none ∧ r.group = none ∧ r.eraseRev = none) :
    FieldsOk r where
  free e := by rw [hs] at e; cases e
  opened _ := h
  closed e := by rw [hs] at e; cases e
  erased e := by rw [hs] at e; cases e

theorem fieldsOk_closed (hs : r.state = .closed)
    (h : r.closeTime.isSome = true ∧ r.group = none ∧ r.eraseRev = none) : FieldsOk r where
  free e := by rw [hs] at e; cases e
  opened e := by rw [hs] at e; cases e
  closed _ := h
  erased e := by rw [hs] at e; cases e

theorem fieldsOk_erased (hs : r.state = .erased)
    (h : r.closeTime.isSome = true ∧ r.group.isSome = true ∧ r.eraseRev.isSome = true) : FieldsOk r where
  free e := by rw [hs] at e; cases e
  opened e := by rw [hs] at e; cases e
  closed e := by rw [hs] at e; cases e
  erased _ := h

end

theorem fieldsByState_iff (s : State) : FieldsByState s ↔ ∀ i, FieldsOk (s.store.stroke i) := by
  refine forall_congr' fun i => ?_
  dsimp only
  constructor
  · intro h
    split at h
    · next e => exact fieldsOk_free e h
    · next e => exact fieldsOk_opened e h
    · next e => exact fieldsOk_closed e h
    · next e => exact fieldsOk_erased e h
  · intro h
    split
    · next e => exact h.free e
    · next e => exact h.opened e
    · next e => exact h.closed e
    · next e => exact h.erased e

/-! ### Blocks held -/

/-- The blocks of a record that count for a seat (R41). -/
def heldOf (n : SeatNo) (r : Stroke) : Nat :=
  if r.owner = n ∧ (r.state = .opened ∨ r.state = .closed) then r.chain.length else 0

/-- The blocks a seat holds, by the records. -/
def heldBy (st : Store) (n : SeatNo) : Nat := (st.strokes.map fun p => heldOf n p.2).sum

theorem heldBy_eq (st : Store) (n : SeatNo) :
    ((st.strokes.filter fun p => decide (p.2.owner = n ∧ (p.2.state = .opened ∨ p.2.state = .closed))).map
      fun p => p.2.chain.length).sum = heldBy st n := by
  unfold heldBy
  generalize st.strokes = ps
  induction ps with
  | nil => rfl
  | cons p ps ih =>
    rw [List.filter_cons]
    by_cases h : p.2.owner = n ∧ (p.2.state = .opened ∨ p.2.state = .closed)
    · simp only [h, and_self, decide_true, if_true, List.map_cons, List.sum_cons, heldOf]
      exact congrArg _ ih
    · simp only [h, decide_false, Bool.false_eq_true, if_false, List.map_cons, List.sum_cons, heldOf, Nat.zero_add]
      exact ih

theorem heldOf_default (n : SeatNo) : heldOf n ({} : Stroke) = 0 := by simp [heldOf]

/-- A write to one record moves the blocks held by what that record counts. -/
theorem heldBy_write (hc : st.Canonical) {i : RecIdx} {r : Stroke} (hs : st'.strokes = (st.setStroke i r).strokes)
    (n : SeatNo) : heldBy st' n + heldOf n (st.stroke i) = heldBy st n + heldOf n r := by
  have h1 := sum_canonical hc.strokes i (heldOf n) (heldOf_default n)
  have h2 := sum_assignAt ({} : Stroke) st.strokes i r (heldOf n) (heldOf_default n)
  have h3 : heldBy st' n = ((assignAt {} st.strokes i r).map fun p => heldOf n p.2).sum := by rw [heldBy, hs]; rfl
  rw [h3, h2, heldBy, h1]
  show heldOf n r + _ + heldOf n (lookupAt {} st.strokes i) = _
  omega

theorem heldBy_write_same (hc : st.Canonical) {i : RecIdx} {r : Stroke} (hs : st'.strokes = (st.setStroke i r).strokes)
    {n : SeatNo} (h : heldOf n r = heldOf n (st.stroke i)) : heldBy st' n = heldBy st n := by
  have := heldBy_write hc hs n
  omega

theorem heldOf_same {r r' : Stroke} (h1 : r'.owner = r.owner) (h2 : r'.chain = r.chain)
    (h3 : (r'.state = .opened ∨ r'.state = .closed) ↔ (r.state = .opened ∨ r.state = .closed)) (n : SeatNo) :
    heldOf n r' = heldOf n r := by
  simp only [heldOf, h1, h2, h3]

/-! ### The agreement, but for the groups -/

/-- The agreement of records, pool, blocks held and open items. Where `b` fails, a clearance is under way:
blocks held and OPEN records stand for themselves (R41, R53). -/
structure InkView.Core (v : InkView) (b : Prop) : Prop where
  canonical : v.store.Canonical
  z : v.store.ZAgree
  fields : ∀ i, FieldsOk (v.store.stroke i)
  pool : v.store.PoolAgree
  held : b → ∀ n, v.held n = heldBy v.store n
  owned : ∀ {n h}, v.item n = some h → v.store.holds h .opened ∧ (v.store.stroke h.idx).owner = n
  open' : b → ∀ {i}, (v.store.stroke i).state = .opened →
    v.item (v.store.stroke i).owner = some ⟨i, (v.store.stroke i).gen⟩

/-- What a write to one record keeps of the others. -/
structure Wrote (st st' : Store) (i : RecIdx) (r : Stroke) : Prop where
  strokes : st'.strokes = (st.setStroke i r).strokes

theorem Wrote.stroke {i : RecIdx} {r : Stroke} (h : Wrote st st' i r) (j : RecIdx) :
    st'.stroke j = if j = i then r else st.stroke j := by
  have : st'.stroke j = (st.setStroke i r).stroke j := by simp only [Store.stroke, h.strokes]
  rw [this]
  split
  · next e => rw [e, stroke_setStroke]
  · next e => rw [stroke_setStroke_ne _ _ e]

theorem Wrote.holds {i : RecIdx} {r : Stroke} (h : Wrote st st' i r) {x : Handle} {k : StrokeState} (hx : x.idx ≠ i) :
    st'.holds x k ↔ st.holds x k := by
  simp only [Store.holds, Store.live_iff, h.stroke, if_neg hx]

/-- A record whose state, owner and generation stay, and whose chain stays or grows with the blocks held of its
owner. -/
theorem InkView.Core.write (h : v.Core b) {i : RecIdx} {r : Stroke} (hw : Wrote v.store v'.store i r)
    (hc : v'.store.Canonical) (hz : v'.store.ZAgree) (hp : v'.store.PoolAgree) (hf : FieldsOk r)
    (hitem : v'.item = v.item) (hs : r.state = (v.store.stroke i).state) (ho : r.owner = (v.store.stroke i).owner)
    (hg : r.gen = (v.store.stroke i).gen)
    (hh : b → ∀ n, v'.held n + heldOf n (v.store.stroke i) = v.held n + heldOf n r) : v'.Core b where
  canonical := hc
  z := hz
  fields j := by
    rw [hw.stroke]
    split
    · exact hf
    · exact h.fields j
  pool := hp
  held hb n := by
    have := heldBy_write h.canonical hw.strokes n
    have h1 := hh hb n
    rw [h.held hb n] at h1
    omega
  owned {n x} hx := by
    rw [hitem] at hx
    obtain ⟨⟨h1, h2⟩, h3⟩ := h.owned hx
    rw [Store.live_iff] at h1
    by_cases e : x.idx = i
    · rw [e] at h1 h2 h3
      exact ⟨⟨(Store.live_iff _ _).mpr (by rw [hw.stroke, if_pos e, hs, hg]; exact h1),
        by rw [hw.stroke, if_pos e, hs]; exact h2⟩, by rw [hw.stroke, if_pos e, ho]; exact h3⟩
    · exact ⟨(hw.holds e).mpr ⟨(Store.live_iff _ _).mpr h1, h2⟩, by rw [hw.stroke, if_neg e]; exact h3⟩
  open' hb {j} hj := by
    rw [hw.stroke] at hj ⊢
    rw [hitem]
    split at hj
    · next e =>
      rw [if_pos e, ho, hg, e]
      exact h.open' hb (hs ▸ hj)
    · next e => rw [if_neg e]; exact h.open' hb hj

theorem InkView.Core.owner_open (h : v.Core b) {n : SeatNo} {x : Handle} (hx : v.item n = some x) :
    (v.store.stroke x.idx).gen = x.gen ∧ (v.store.stroke x.idx).state = .opened ∧
      (v.store.stroke x.idx).owner = n := by
  obtain ⟨⟨h1, h2⟩, h3⟩ := h.owned hx
  exact ⟨((Store.live_iff _ _).mp h1).1, h2, h3⟩

/-- A record that leaves or reaches neither OPEN nor the open items. -/
theorem InkView.Core.writeIdle (h : v.Core b) {i : RecIdx} {r : Stroke} (hw : Wrote v.store v'.store i r)
    (hc : v'.store.Canonical) (hz : v'.store.ZAgree) (hp : v'.store.PoolAgree) (hf : FieldsOk r)
    (hitem : v'.item = v.item) (h0 : (v.store.stroke i).state ≠ .opened) (h1 : r.state ≠ .opened)
    (hh : b → ∀ n, v'.held n + heldOf n (v.store.stroke i) = v.held n + heldOf n r) : v'.Core b where
  canonical := hc
  z := hz
  fields j := by
    rw [hw.stroke]
    split
    · exact hf
    · exact h.fields j
  pool := hp
  held hb n := by
    have := heldBy_write h.canonical hw.strokes n
    have h1 := hh hb n
    rw [h.held hb n] at h1
    omega
  owned {n x} hx := by
    rw [hitem] at hx
    obtain ⟨h2, h3⟩ := h.owned hx
    have e : x.idx ≠ i := fun e => h0 (e ▸ h2.2)
    exact ⟨(hw.holds e).mpr h2, by rw [hw.stroke, if_neg e]; exact h3⟩
  open' hb {j} hj := by
    rw [hw.stroke] at hj ⊢
    rw [hitem]
    split at hj
    · exact absurd hj h1
    · next e => rw [if_neg e]; exact h.open' hb hj

/-! ### Each move -/

theorem InkView.Core.opened (h : v.Core b) {n : SeatNo} {i : RecIdx} {recs : FreeList} {c : BlockNo}
    {blocks : FreeStack} {r : Stroke} {x y w : Nat} (hi : v.store.freeRecs.take = some (i, recs))
    (hb : v.store.freeBlocks.pop = some (c, blocks)) (hr : IsNewborn r ((v.store.stroke i).gen + 1) n c)
    (hn : v.item n = none) :
    InkView.Core { v with
      store := v.store.added recs blocks i r c (.abs x y w false)
      held := Function.update v.held n (v.held n + 1)
      item := Function.update v.item n (some ⟨i, r.gen⟩) } b := by
  have hfree := h.z.head_free hi
  have hr1 : r.state ≠ .free := by rw [hr.state]; decide
  have hw : Wrote v.store (v.store.added recs blocks i r c (.abs x y w false)) i r := ⟨rfl⟩
  refine ⟨h.canonical.added .., h.z.added hi hr1, fun j => ?_, h.pool.added h.canonical hfree hb hr1 hr.chain hr.count,
    fun hb' m => ?_, fun {m g} hm => ?_, fun hb' {j} hj => ?_⟩
  · rw [hw.stroke]
    split
    · exact fieldsOk_opened hr.state ⟨hr.closeTime, hr.group, hr.eraseRev⟩
    · exact h.fields j
  · have h1 := heldBy_write h.canonical hw.strokes m
    have h2 : heldOf m (v.store.stroke i) = 0 := by simp [heldOf, hfree]
    have h3 : heldOf m r = if n = m then 1 else 0 := by simp [heldOf, hr.owner, hr.state, hr.chain]
    have h4 := h.held hb' m
    by_cases e : m = n
    · subst e
      simp only [Function.update_self]
      rw [if_pos rfl] at h3
      omega
    · simp only [Function.update_of_ne e]
      rw [if_neg (Ne.symm e)] at h3
      omega
  · by_cases e : m = n
    · subst e
      simp only [Function.update_self, Option.some.injEq] at hm
      subst hm
      exact ⟨⟨(Store.live_iff _ _).mpr (by rw [hw.stroke, if_pos rfl]; exact ⟨rfl, hr1⟩),
        by rw [hw.stroke, if_pos rfl]; exact hr.state⟩, by rw [hw.stroke, if_pos rfl]; exact hr.owner⟩
    · simp only [Function.update_of_ne e] at hm
      obtain ⟨h1, h2⟩ := h.owned hm
      have hne : g.idx ≠ i := fun e' => by have := h1.2; rw [e', hfree] at this; cases this
      exact ⟨(hw.holds hne).mpr h1, by rw [hw.stroke, if_neg hne]; exact h2⟩
  · rw [hw.stroke] at hj ⊢
    by_cases e : j = i
    · rw [if_pos e, hr.owner]
      simp only [Function.update_self, e]
    · rw [if_neg e] at hj ⊢
      have h1 := h.open' hb' hj
      have hne : (v.store.stroke j).owner ≠ n := fun e' => by rw [e', hn] at h1; cases h1
      simp only [Function.update_of_ne hne]
      exact h1

theorem InkView.Core.closed (h : v.Core b) {n : SeatNo} {g : Handle} {time : Time} {flags : StrokeFlags} {rev : Rev}
    (hn : v.item n = some g) (hs : v.store.holds g .opened) :
    InkView.Core { v with
      store := v.store.setStroke g.idx { v.store.stroke g.idx with
        state := .closed, closeTime := some time, flags := flags, lastRev := rev }
      item := Function.update v.item n none } b := by
  have hu := holds_used hs
  obtain ⟨hgen, hst, how⟩ := h.owner_open hn
  have hw : Wrote v.store (v.store.setStroke g.idx { v.store.stroke g.idx with
    state := .closed, closeTime := some time, flags := flags, lastRev := rev }) g.idx _ := ⟨rfl⟩
  refine ⟨h.canonical.setStroke _ _, h.z.setStroke hu (by simp) rfl rfl rfl, fun j => ?_,
    h.pool.setStroke h.canonical hu (by simp) rfl rfl, fun hb' m => ?_, fun {m x} hm => ?_, fun hb' {j} hj => ?_⟩
  · rw [hw.stroke]
    split
    · obtain ⟨-, hgr, her⟩ := (h.fields g.idx).opened hst
      exact fieldsOk_closed rfl ⟨rfl, hgr, her⟩
    · exact h.fields j
  · refine (h.held hb' m).trans (heldBy_write_same h.canonical hw.strokes ?_).symm
    simp [heldOf, hst]
  · by_cases e : m = n
    · subst e; simp at hm
    · simp only [Function.update_of_ne e] at hm
      obtain ⟨h1, h2⟩ := h.owned hm
      have hne : x.idx ≠ g.idx := fun e' => e (by rw [← h2, e', how])
      exact ⟨(hw.holds hne).mpr h1, by rw [hw.stroke, if_neg hne]; exact h2⟩
  · rw [hw.stroke] at hj ⊢
    by_cases e : j = g.idx
    · rw [if_pos e] at hj; cases hj
    · rw [if_neg e] at hj ⊢
      have h1 := h.open' hb' hj
      have hne : (v.store.stroke j).owner ≠ n := fun e' => by
        rw [e', hn] at h1
        exact e (congrArg Handle.idx (Option.some.inj h1)).symm
      simp only [Function.update_of_ne hne]
      exact h1

theorem InkView.Core.grown (h : v.Core b) {g : Handle} {c : BlockNo} {e : Entry} {box : Box}
    {flags : StrokeFlags} {rev : Rev} (hs : v.store.holds g .opened)
    (hb : (v.store.stroke g.idx).chain.getLast? = some c) (hl : (v.store.block c).length < 24) :
    InkView.Core { v with
      store := (v.store.setBlock c (v.store.block c ++ [e])).setStroke g.idx { v.store.stroke g.idx with
        count := (v.store.stroke g.idx).count + 1, box := box, flags := flags, lastRev := rev } } b := by
  have hu := holds_used hs
  refine h.write (i := g.idx) ⟨rfl⟩ ((h.canonical.setBlock _ _).setStroke _ _) ?_ ?_ ?_ rfl rfl rfl rfl
    (fun _ m => congrArg _ (heldOf_same rfl rfl .rfl m).symm)
  · exact (h.z.congr (st' := v.store.setBlock c (v.store.block c ++ [e])) rfl rfl rfl).setStroke
      (i := g.idx) hu hu rfl rfl rfl
  · exact h.pool.grown h.canonical hu hb hl hu rfl rfl
  · exact fieldsOk_opened hs.2 ((h.fields g.idx).opened hs.2)

theorem InkView.Core.extended (h : v.Core b) {n : SeatNo} {g : Handle} {c d : BlockNo} {blocks : FreeStack}
    {x y w : Nat} {l : Bool} {box : Box} {flags : StrokeFlags} {rev : Rev} (hn : v.item n = some g)
    (hs : v.store.holds g .opened) (hb : (v.store.stroke g.idx).chain.getLast? = some c)
    (hl : 24 ≤ (v.store.block c).length) (hc : (v.store.stroke g.idx).chain.length < 64)
    (hp : v.store.freeBlocks.pop = some (d, blocks)) :
    InkView.Core { v with
      store := ({ v.store with freeBlocks := blocks }.setBlock d [.abs x y w l]).setStroke g.idx
        { v.store.stroke g.idx with
          count := (v.store.stroke g.idx).count + 1, chain := (v.store.stroke g.idx).chain ++ [d], box := box
          flags := flags, lastRev := rev }
      held := Function.update v.held n (v.held n + 1) } b := by
  have hu := holds_used hs
  obtain ⟨-, hst, how⟩ := h.owner_open hn
  refine h.write (i := g.idx) ⟨rfl⟩ (((h.canonical.withBlocks _).setBlock _ _).setStroke _ _) ?_ ?_ ?_ rfl rfl rfl rfl
    (fun _ m => ?_)
  · exact (h.z.congr (st' := ({ v.store with freeBlocks := blocks } : Store).setBlock d [.abs x y w l]) rfl rfl
      rfl).setStroke (i := g.idx) hu hu rfl rfl rfl
  · exact h.pool.extended h.canonical hu hb hl hc hp hu rfl rfl
  · exact fieldsOk_opened hs.2 ((h.fields g.idx).opened hs.2)
  · by_cases e : m = n
    · subst e
      simp only [Function.update_self, heldOf, how, hst, true_or, and_self, if_true, List.length_append,
        List.length_singleton]
      omega
    · simp only [Function.update_of_ne e, heldOf, how, Ne.symm e, false_and, if_false]

theorem InkView.Core.flagged (h : v.Core b) {g : Handle} {flags : StrokeFlags} (hs : v.store.holds g .opened) :
    InkView.Core { v with store := v.store.setStroke g.idx { v.store.stroke g.idx with flags := flags } } b := by
  have hu := holds_used hs
  refine h.write (i := g.idx) ⟨rfl⟩ (h.canonical.setStroke _ _) (h.z.setStroke hu hu rfl rfl rfl)
    (h.pool.setStroke h.canonical hu hu rfl rfl) ?_ rfl rfl rfl rfl
    (fun _ m => congrArg _ (heldOf_same rfl rfl .rfl m).symm)
  exact fieldsOk_opened hs.2 ((h.fields g.idx).opened hs.2)

theorem InkView.Core.erased (h : v.Core b) {x : Handle} {g rev : Rev} (q : List (Rev × List Handle))
    (hs : v.store.holds x .closed) :
    InkView.Core { v with
      store := v.store.setStroke x.idx { v.store.stroke x.idx with
        state := .erased, group := some g, eraseRev := some rev, lastRev := rev }
      held := Function.update v.held (v.store.stroke x.idx).owner
        (v.held (v.store.stroke x.idx).owner - (v.store.stroke x.idx).chain.length)
      queue := q } b := by
  have hu := holds_used hs
  refine h.writeIdle (i := x.idx) ⟨rfl⟩ (h.canonical.setStroke _ _) (h.z.setStroke hu (by simp) rfl rfl rfl)
    (h.pool.setStroke h.canonical hu (by simp) rfl rfl) ?_ rfl (by rw [hs.2]; decide) (by simp) (fun hb m => ?_)
  · obtain ⟨hct, -, -⟩ := (h.fields x.idx).closed hs.2
    exact fieldsOk_erased rfl ⟨hct, rfl, rfl⟩
  · have hsum := sum_canonical h.canonical.strokes x.idx (heldOf m) (heldOf_default m)
    have hheld := h.held hb m
    have hle : heldOf m (v.store.stroke x.idx) ≤ heldBy v.store m := by
      rw [heldBy, hsum]; exact Nat.le_add_right _ _
    by_cases e : m = (v.store.stroke x.idx).owner
    · subst e
      simp only [Function.update_self, heldOf, hs.2, or_true, and_self, if_true, reduceCtorEq, or_self, and_false,
        if_false] at hle ⊢
      omega
    · simp only [Function.update_of_ne e, heldOf, Ne.symm e, false_and, if_false]

theorem InkView.Core.restore1 (h : v.Core b) (rev : Rev) (x : Handle) : (v.restore1 rev x).Core b := by
  by_cases hs : v.store.holds x .erased
  · rw [InkView.restore1_of_holds hs]
    have hu := holds_used hs
    refine h.writeIdle (i := x.idx) ⟨rfl⟩ (h.canonical.setStroke _ _) (h.z.setStroke hu (by simp) rfl rfl rfl)
      (h.pool.setStroke h.canonical hu (by simp) rfl rfl) ?_ rfl (by rw [hs.2]; decide) (by simp) (fun hb m => ?_)
    · obtain ⟨hct, -, -⟩ := (h.fields x.idx).erased hs.2
      exact fieldsOk_closed rfl ⟨hct, rfl, rfl⟩
    · by_cases e : m = (v.store.stroke x.idx).owner
      · subst e
        simp [heldOf, hs.2]
      · simp only [Function.update_of_ne e, heldOf, Ne.symm e, false_and, if_false]
  · rw [InkView.restore1_of_not_holds hs]; exact h

theorem InkView.Core.congr (h : v.Core b) (h1 : v'.store = v.store) (h2 : v'.held = v.held) (h3 : v'.item = v.item) :
    v'.Core b := by
  obtain ⟨k1, k2, k3, k4, k5, k6, k7⟩ := h
  exact ⟨h1 ▸ k1, h1 ▸ k2, h1 ▸ k3, h1 ▸ k4, by rw [h1, h2]; exact k5, by rw [h1, h3]; exact k6,
    by rw [h1, h3]; exact k7⟩

theorem InkView.Core.foldl_restore1 (rev : Rev) (ms : List Handle) (h : v.Core b) :
    (ms.foldl (InkView.restore1 rev) v).Core b := by
  induction ms generalizing v with
  | nil => exact h
  | cons m ms ih => exact ih (h.restore1 rev m)

/-- R19: a record that is not OPEN is freed; a CLOSED one only where blocks held does not count. -/
theorem InkView.Core.freed (h : v.Core b) {i : RecIdx} (h0 : (v.store.stroke i).state ≠ .opened)
    (h1 : b → (v.store.stroke i).state ≠ .closed) (q : List (Rev × List Handle))
    (c : Option (Rev × List Handle)) :
    InkView.Core { v with store := v.store.freed i, queue := q, reclaim := c } b := by
  by_cases hf : (v.store.stroke i).state = .free
  · exact h.congr (by unfold Store.freed; dsimp only; rw [if_pos hf]) rfl rfl
  · have hw : Wrote v.store (v.store.freed i) i { gen := (v.store.stroke i).gen } :=
      ⟨by unfold Store.freed; dsimp only; rw [if_neg hf]; rfl⟩
    refine h.writeIdle hw (h.canonical.freed i) (h.z.freed i) (h.pool.freed h.canonical i) ?_ rfl h0 (by simp)
      (fun hb m => ?_)
    · exact fieldsOk_free rfl rfl
    · simp [heldOf, h0, h1 hb]

/-- Where no seat has an open ink stroke and `b` fails, any record is freed. -/
theorem InkView.Core.clear1 (h : v.Core b) (hb : ¬b) (hi : ∀ n, v.item n = none) (i : RecIdx)
    (q : List (Rev × List Handle)) (c : Option (Rev × List Handle)) :
    InkView.Core { v with store := v.store.freed i, queue := q, reclaim := c } b := by
  by_cases hf : (v.store.stroke i).state = .free
  · exact h.congr (by unfold Store.freed; dsimp only; rw [if_pos hf]) rfl rfl
  · have hw : Wrote v.store (v.store.freed i) i { gen := (v.store.stroke i).gen } :=
      ⟨by unfold Store.freed; dsimp only; rw [if_neg hf]; rfl⟩
    refine ⟨h.canonical.freed i, h.z.freed i, fun j => ?_, h.pool.freed h.canonical i, fun e => absurd e hb,
      fun {n x} hx => ?_, fun e => absurd e hb⟩
    · show FieldsOk ((v.store.freed i).stroke j)
      rw [hw.stroke]
      split
      · exact fieldsOk_free rfl rfl
      · exact h.fields j
    · simp [hi n] at hx

end Sys2Proof.Machine
end

