-- ==== Sys2Proof/Proofs/InkGroups.lean ====
section
/-! The erase groups under the moves of ink, and the agreement of records, pool, items and groups over a step. -/

namespace Sys2Proof.Machine

variable {s t u w : State} {st st' : Store} {v v' : InkView} {b : Prop}

/-! ### Groups -/

/-- The groups of a view, queued or under reclaim. -/
def InkView.groups (v : InkView) : List (Rev × List Handle) := v.queue ++ v.reclaim.toList

/-- The parts of `GroupsAgree`, by name. -/
structure GroupsOk (st : Store) (queue gs : List (Rev × List Handle)) : Prop where
  nodup : ((gs.flatMap Prod.snd).map Handle.idx).Nodup
  nonempty : ∀ {x}, x ∈ gs → x.2 ≠ []
  member : ∀ {x h}, x ∈ gs → h ∈ x.2 → st.holds h .erased ∧ (st.stroke h.idx).group = some x.1
  all : ∀ {i}, (st.stroke i).state = .erased → (⟨i, (st.stroke i).gen⟩ : Handle) ∈ gs.flatMap Prod.snd
  ids : (queue.map Prod.fst).Nodup

/-- The agreement of the groups with the store. -/
abbrev InkView.GroupsAgree (v : InkView) : Prop := GroupsOk v.store v.queue v.groups

theorem groups_viewOf (s : State) :
    (viewOf s).groups = (s.eraseQueue ++ s.maint.underReclaim.toList).map EraseGroup.core := by
  simp only [InkView.groups, viewOf_queue, viewOf_reclaim, List.map_append]
  cases s.maint.underReclaim <;> rfl

theorem groupsAgree_iff (s : State) : GroupsAgree s ↔ (viewOf s).GroupsAgree := by
  have hflat : ∀ gs : List EraseGroup, (gs.map EraseGroup.core).flatMap Prod.snd = gs.flatMap EraseGroup.members :=
    fun gs => by rw [List.flatMap_map]; rfl
  have hids : (viewOf s).queue.map Prod.fst = s.eraseQueue.map EraseGroup.id := by
    rw [viewOf_queue, List.map_map]; rfl
  constructor
  · rintro ⟨h1, h2, h3, h4⟩
    refine ⟨by rw [groups_viewOf, hflat]; exact h1, fun {x} hx => ?_, fun {x h} hx hh => ?_,
      fun {i} hi => by rw [groups_viewOf, hflat]; exact h3 i hi, by rw [hids]; exact h4⟩
    · rw [groups_viewOf] at hx
      obtain ⟨g, hg, rfl⟩ := List.mem_map.mp hx
      exact (h2 g hg).1
    · rw [groups_viewOf] at hx
      obtain ⟨g, hg, rfl⟩ := List.mem_map.mp hx
      obtain ⟨k1, k2, k3⟩ := (h2 g hg).2 h hh
      exact ⟨⟨k1, k2⟩, k3⟩
  · rintro ⟨h1, h2, h3, h4, h5⟩
    rw [groups_viewOf, hflat] at h1
    refine ⟨h1, fun g hg => ?_, fun i hi => ?_, by rw [hids] at h5; exact h5⟩
    · have hm : g.core ∈ (viewOf s).groups := by rw [groups_viewOf]; exact List.mem_map_of_mem hg
      refine ⟨h2 hm, fun h hh => ?_⟩
      obtain ⟨⟨k1, k2⟩, k3⟩ := h3 hm hh
      exact ⟨k1, k2, k3⟩
    · have := h4 hi
      rwa [groups_viewOf, hflat] at this

variable {q gs gs' : List (Rev × List Handle)}

/-- The order of the groups does not matter. -/
theorem GroupsOk.perm (h : GroupsOk st q gs) (hp : gs.Perm gs') {q' : List (Rev × List Handle)}
    (hq : (q'.map Prod.fst).Nodup) : GroupsOk st q' gs' where
  nodup := ((hp.flatMap_right _).map _).nodup_iff.mp h.nodup
  nonempty hx := h.nonempty (hp.mem_iff.mpr hx)
  member hx := h.member (hp.mem_iff.mpr hx)
  all hi := (hp.flatMap_right _).mem_iff.mp (h.all hi)
  ids := hq

theorem mem_members {h : Handle} (hh : h ∈ gs.flatMap Prod.snd) : ∃ x ∈ gs, h ∈ x.2 := List.mem_flatMap.mp hh

theorem GroupsOk.erased_of_mem (h : GroupsOk st q gs) {x : Handle} (hx : x ∈ gs.flatMap Prod.snd) :
    st.holds x .erased := by
  obtain ⟨g, hg, hh⟩ := mem_members hx
  exact (h.member hg hh).1

/-- A write to a record that was and is not ERASED. -/
theorem GroupsOk.write (h : GroupsOk st q gs) {i : RecIdx} {r : Stroke} (hw : Wrote st st' i r)
    (h0 : (st.stroke i).state ≠ .erased) (h1 : r.state ≠ .erased) : GroupsOk st' q gs where
  nodup := h.nodup
  nonempty := h.nonempty
  member {x m} hx hm := by
    obtain ⟨k1, k2⟩ := h.member hx hm
    have hne : m.idx ≠ i := fun e => h0 (e ▸ k1.2)
    exact ⟨(hw.holds hne).mpr k1, by rw [hw.stroke, if_neg hne]; exact k2⟩
  all {j} hj := by
    rw [hw.stroke] at hj ⊢
    split at hj
    · exact absurd hj h1
    · next e => rw [if_neg e]; exact h.all hj
  ids := h.ids

theorem GroupsOk.congr (h : GroupsOk st q gs) (hs : st'.strokes = st.strokes) : GroupsOk st' q gs := by
  have h1 : ∀ i, st'.stroke i = st.stroke i := fun i => by simp [Store.stroke, hs]
  have h2 : ∀ x k, st'.holds x k ↔ st.holds x k := fun x k => by simp [Store.holds, Store.live_iff, h1]
  exact ⟨h.nodup, h.nonempty, fun hx hm => by rw [h2, h1]; exact h.member hx hm,
    fun hi => by rw [h1] at hi ⊢; exact h.all hi, h.ids⟩

/-- R99: the members of the groups after a stroke has joined one. -/
theorem joinedQueue_members (q : List (Rev × List Handle)) (hq : (q.map Prod.fst).Nodup) (g : Rev) (h : Handle) :
    ((joinedQueue q g h).flatMap Prod.snd).Perm (h :: q.flatMap Prod.snd) := by
  unfold joinedQueue
  split
  · next hex =>
    induction q with
    | nil => simp at hex
    | cons x q ih =>
      rw [List.map_cons, List.nodup_cons] at hq
      rw [List.map_cons, List.flatMap_cons, List.flatMap_cons]
      by_cases hx : x.1 = g
      · have hrest : (q.map fun x => if x.1 = g then (x.1, x.2 ++ [h]) else x) = q := by
          refine (List.map_congr_left fun y hy => if_neg ?_).trans (List.map_id q)
          rintro rfl
          exact hq.1 (hx ▸ List.mem_map_of_mem hy)
        rw [hrest, if_pos hx]
        simp only [List.append_assoc]
        exact List.perm_middle
      · obtain ⟨y, hy, hyg⟩ := hex
        have hy' : y ∈ q := (List.mem_cons.mp hy).resolve_left (fun e => hx (e ▸ hyg))
        rw [if_neg hx]
        exact ((ih hq.2 ⟨y, hy', hyg⟩).append_left _).trans List.perm_middle
  · rw [List.flatMap_append]
    exact List.perm_append_comm

theorem mem_joinedQueue {q : List (Rev × List Handle)} {g : Rev} {h : Handle} {x : Rev × List Handle}
    (hx : x ∈ joinedQueue q g h) :
    x ∈ q ∨ (x.1 = g ∧ ∃ ms, x.2 = ms ++ [h] ∧ (ms = [] ∨ (g, ms) ∈ q)) := by
  unfold joinedQueue at hx
  split at hx
  · obtain ⟨y, hy, rfl⟩ := List.mem_map.mp hx
    split
    · next e => exact .inr ⟨e, y.2, rfl, .inr (e ▸ hy)⟩
    · exact .inl hy
  · rcases List.mem_append.mp hx with hx | hx
    · exact .inl hx
    · obtain rfl := List.mem_singleton.mp hx
      exact .inr ⟨rfl, [], rfl, .inl rfl⟩

theorem joinedQueue_ids {q : List (Rev × List Handle)} {g : Rev} {h : Handle} (hq : (q.map Prod.fst).Nodup) :
    ((joinedQueue q g h).map Prod.fst).Nodup := by
  unfold joinedQueue
  split
  · rw [List.map_map]
    have : (Prod.fst ∘ fun x : Rev × List Handle => if x.1 = g then (x.1, x.2 ++ [h]) else x) = Prod.fst := by
      funext x
      simp only [Function.comp]
      split <;> rfl
    rw [this]; exact hq
  · next hne =>
    rw [List.map_append, List.nodup_append]
    refine ⟨hq, by simp, fun a ha c hc e => hne ?_⟩
    obtain ⟨x, hx, rfl⟩ := List.mem_map.mp ha
    simp only [List.map_cons, List.map_nil, List.mem_singleton] at hc
    exact ⟨x, hx, e.trans hc⟩

/-- R17, R99: a stroke is erased into a group. -/
theorem GroupsOk.erased {rc : Option (Rev × List Handle)} (h : GroupsOk st q (q ++ rc.toList)) {x : Handle} {g rev : Rev}
    (hs : st.holds x .closed) :
    GroupsOk (st.setStroke x.idx { st.stroke x.idx with
        state := .erased, group := some g, eraseRev := some rev, lastRev := rev })
      (joinedQueue q g x) (joinedQueue q g x ++ rc.toList) := by
  have hw : Wrote st (st.setStroke x.idx { st.stroke x.idx with
    state := .erased, group := some g, eraseRev := some rev, lastRev := rev }) x.idx _ := ⟨rfl⟩
  have hgen := ((Store.live_iff _ _).mp hs.1).1
  have hperm : ((joinedQueue q g x ++ rc.toList).flatMap Prod.snd).Perm (x :: (q ++ rc.toList).flatMap Prod.snd) := by
    rw [List.flatMap_append, List.flatMap_append]
    exact (joinedQueue_members q h.ids g x).append_right _
  have hold : ∀ {m : Handle}, st.holds m .erased → m.idx ≠ x.idx := fun hm e => by
    have h1 := hm.2
    rw [e, hs.2] at h1
    cases h1
  have hkeep : ∀ {y m}, y ∈ q ++ rc.toList → m ∈ y.2 → _ ∧ _ := fun {y m} hy hm => by
    obtain ⟨k1, k2⟩ := h.member hy hm
    exact (⟨(hw.holds (hold k1)).mpr k1, by rw [hw.stroke, if_neg (hold k1)]; exact k2⟩ :
      (st.setStroke x.idx _).holds m .erased ∧ ((st.setStroke x.idx _).stroke m.idx).group = some y.1)
  have hnew : (st.setStroke x.idx { st.stroke x.idx with
      state := .erased, group := some g, eraseRev := some rev, lastRev := rev }).holds x .erased ∧
      ((st.setStroke x.idx { st.stroke x.idx with
        state := .erased, group := some g, eraseRev := some rev, lastRev := rev }).stroke x.idx).group = some g := by
    rw [stroke_setStroke]
    exact ⟨⟨(Store.live_iff _ _).mpr (by rw [stroke_setStroke]; exact ⟨hgen, by simp⟩), by rw [stroke_setStroke]⟩, rfl⟩
  refine ⟨?_, fun {y} hy => ?_, fun {y m} hy hm => ?_, fun {j} hj => ?_, joinedQueue_ids h.ids⟩
  · rw [(hperm.map _).nodup_iff, List.map_cons, List.nodup_cons]
    refine ⟨fun hm => ?_, h.nodup⟩
    obtain ⟨m, hm, hmx⟩ := List.mem_map.mp hm
    exact hold (h.erased_of_mem hm) hmx
  · rcases List.mem_append.mp hy with hy | hy
    · rcases mem_joinedQueue hy with hy | ⟨-, ms, hms, -⟩
      · exact h.nonempty (List.mem_append_left _ hy)
      · rw [hms]; simp
    · exact h.nonempty (List.mem_append_right _ hy)
  · rcases List.mem_append.mp hy with hy | hy
    · rcases mem_joinedQueue hy with hy | ⟨hg, ms, hms, hq⟩
      · exact hkeep (List.mem_append_left _ hy) hm
      · rw [hms] at hm
        rcases List.mem_append.mp hm with hm | hm
        · rcases hq with rfl | hq
          · cases hm
          · rw [hg]; exact hkeep (List.mem_append_left _ hq) hm
        · obtain rfl := List.mem_singleton.mp hm
          rw [hg]; exact hnew
    · exact hkeep (List.mem_append_right _ hy) hm
  · rw [hperm.mem_iff]
    rw [hw.stroke] at hj ⊢
    by_cases e : j = x.idx
    · rw [if_pos e]
      subst e
      exact List.mem_cons.mpr (.inl (by rw [hgen]))
    · rw [if_neg e] at hj ⊢
      exact List.mem_cons_of_mem _ (h.all hj)

/-! ### Records that leave their group -/

/-- What the groups ask of the store when the members of some of them have left the ERASED state: the
strokes of the others stand, and no other is ERASED. -/
theorem GroupsOk.leave {gone : List Handle} (h : GroupsOk st q gs)
    (hperm : (gs.flatMap Prod.snd).Perm (gone ++ gs'.flatMap Prod.snd))
    (hmem : ∀ x ∈ gs', x.2 ≠ [] ∧ ∃ y ∈ gs, y.1 = x.1 ∧ ∀ m ∈ x.2, m ∈ y.2) {q' : List (Rev × List Handle)}
    (hq : (q'.map Prod.fst).Nodup) (hs : ∀ j, j ∉ gone.map Handle.idx → st'.stroke j = st.stroke j)
    (hg : ∀ m ∈ gone, (st'.stroke m.idx).state ≠ .erased) : GroupsOk st' q' gs' := by
  have hn := ((hperm.map Handle.idx).nodup_iff.mp h.nodup)
  rw [List.map_append, List.nodup_append] at hn
  refine ⟨hn.2.1, fun hx => (hmem _ hx).1, fun {x m} hx hm => ?_, fun {j} hj => ?_, hq⟩
  · obtain ⟨-, y, hy, hyx, hsub⟩ := hmem x hx
    obtain ⟨k1, k2⟩ := h.member hy (hsub m hm)
    have hne : m.idx ∉ gone.map Handle.idx := fun hin =>
      hn.2.2 _ hin _ (List.mem_map_of_mem (List.mem_flatMap.mpr ⟨x, hx, hm⟩)) rfl
    have hst := hs _ hne
    refine ⟨?_, by rw [hst, k2, hyx]⟩
    simp only [Store.holds, Store.live_iff, hst] at k1 ⊢
    exact k1
  · by_cases hin : j ∈ gone.map Handle.idx
    · obtain ⟨m, hm, rfl⟩ := List.mem_map.mp hin
      exact absurd hj (hg m hm)
    · have hst := hs j hin
      rw [hst] at hj ⊢
      refine (List.mem_append.mp (hperm.mem_iff.mp (h.all hj))).resolve_left fun hm => hin ?_
      exact List.mem_map.mpr ⟨_, hm, rfl⟩

theorem restore1_stroke_ne (rev : Rev) (v : InkView) (h : Handle) {j : RecIdx} (hj : j ≠ h.idx) :
    (v.restore1 rev h).store.stroke j = v.store.stroke j := by
  unfold InkView.restore1
  dsimp only
  split
  · exact stroke_setStroke_ne _ _ hj
  · rfl

theorem foldl_restore1_stroke_ne (rev : Rev) (ms : List Handle) (v : InkView) {j : RecIdx}
    (hj : j ∉ ms.map Handle.idx) : (ms.foldl (InkView.restore1 rev) v).store.stroke j = v.store.stroke j := by
  induction ms generalizing v with
  | nil => rfl
  | cons m ms ih =>
    rw [List.map_cons, List.mem_cons, not_or] at hj
    exact (ih _ hj.2).trans (restore1_stroke_ne rev v m hj.1)

/-- A record that is not ERASED stays so while others are restored. -/
theorem foldl_restore1_not_erased (rev : Rev) (ms : List Handle) (v : InkView) {j : RecIdx}
    (hj : (v.store.stroke j).state ≠ .erased) :
    ((ms.foldl (InkView.restore1 rev) v).store.stroke j).state ≠ .erased := by
  induction ms generalizing v with
  | nil => exact hj
  | cons m ms ih =>
    refine ih _ ?_
    by_cases hs : v.store.holds m .erased
    · rw [InkView.restore1_of_holds hs]
      by_cases e : j = m.idx
      · subst e; simp
      · rw [stroke_setStroke_ne _ _ e]; exact hj
    · rw [InkView.restore1_of_not_holds hs]; exact hj

/-- A member that is restored is not ERASED afterwards. -/
theorem foldl_restore1_restored (rev : Rev) (ms : List Handle) (v : InkView) (hn : (ms.map Handle.idx).Nodup)
    (hs : ∀ m ∈ ms, v.store.holds m .erased) :
    ∀ m ∈ ms, ((ms.foldl (InkView.restore1 rev) v).store.stroke m.idx).state ≠ .erased := by
  induction ms generalizing v with
  | nil => simp
  | cons m ms ih =>
    rw [List.map_cons, List.nodup_cons] at hn
    have hm := hs m List.mem_cons_self
    intro x hx
    rcases List.mem_cons.mp hx with rfl | hx
    · refine foldl_restore1_not_erased rev ms _ ?_
      rw [InkView.restore1_of_holds hm]
      simp
    · refine ih (v.restore1 rev m) hn.2 (fun y hy => ?_) x hx
      have hne : y.idx ≠ m.idx := fun e => hn.1 (e ▸ List.mem_map_of_mem hy)
      have hst := restore1_stroke_ne rev v m hne
      have := hs y (List.mem_cons_of_mem _ hy)
      simp only [Store.holds, Store.live_iff, hst] at this ⊢
      exact this

theorem foldl_restore1_groups (rev : Rev) (ms : List Handle) (v : InkView) :
    (ms.foldl (InkView.restore1 rev) v).queue = v.queue ∧ (ms.foldl (InkView.restore1 rev) v).reclaim = v.reclaim := by
  induction ms generalizing v with
  | nil => exact ⟨rfl, rfl⟩
  | cons m ms ih =>
    obtain ⟨h1, h2⟩ := ih (v.restore1 rev m)
    have h3 : (v.restore1 rev m).queue = v.queue ∧ (v.restore1 rev m).reclaim = v.reclaim := by
      unfold InkView.restore1
      dsimp only
      split <;> exact ⟨rfl, rfl⟩
    exact ⟨h1.trans h3.1, h2.trans h3.2⟩

/-- The queue is the group of an id and the others. -/
theorem queue_perm_filter {q : List (Rev × List Handle)} (hq : (q.map Prod.fst).Nodup) {x : Rev × List Handle}
    (hx : x ∈ q) : q.Perm (x :: q.filter fun y => decide (y.1 ≠ x.1)) := by
  induction q with
  | nil => cases hx
  | cons y q ih =>
    rw [List.map_cons, List.nodup_cons] at hq
    rcases List.mem_cons.mp hx with rfl | hx
    · have : (q.filter fun y => decide (y.1 ≠ x.1)) = q := List.filter_eq_self.mpr fun y hy => by
        simp only [ne_eq, decide_eq_true_eq]
        exact fun e => hq.1 (e ▸ List.mem_map_of_mem hy)
      rw [List.filter_cons, if_neg (by simp), this]
    · have hne : y.1 ≠ x.1 := fun e => hq.1 (e ▸ List.mem_map_of_mem hx)
      rw [List.filter_cons, if_pos (by simpa using hne)]
      exact ((ih hq.2 hx).cons y).trans (.swap _ _ _)

/-- R109: the group restored leaves the queue. -/
theorem InkView.restored_groups (h : v.GroupsAgree) {g rev : Rev} {ms : List Handle}
    (hq : v.queue.find? (fun x => decide (x.1 = g)) = some (g, ms)) :
    InkView.GroupsAgree { ms.foldl (InkView.restore1 rev) v with
      queue := v.queue.filter fun x => decide (x.1 ≠ g) } := by
  have hmem := List.mem_of_find?_eq_some hq
  have hgs : (g, ms) ∈ v.groups := List.mem_append_left _ hmem
  have hnd : (ms.map Handle.idx).Nodup := by
    have := h.nodup
    obtain ⟨l, r, hlr⟩ := List.append_of_mem hgs
    rw [hlr, List.flatMap_append, List.flatMap_cons, List.map_append, List.map_append] at this
    exact (List.nodup_append.mp (List.nodup_append.mp this).2.1).1
  have hp := queue_perm_filter h.ids hmem
  have hsub : (v.queue.filter fun x => decide (x.1 ≠ g)).Sublist v.queue := List.filter_sublist
  refine GroupsOk.leave (gone := ms) h ?_ (fun x hx => ?_) (h.ids.sublist (hsub.map _))
    (fun j hj => foldl_restore1_stroke_ne rev ms v hj)
    (foldl_restore1_restored rev ms v hnd fun m hm => (h.member hgs hm).1)
  · show ((v.queue ++ v.reclaim.toList).flatMap Prod.snd).Perm _
    rw [InkView.groups, (foldl_restore1_groups rev ms v).2]
    exact (((hp.append_right _).flatMap_right _)).trans (.of_eq (by simp))
  · have hx' : x ∈ v.groups := by
      rw [InkView.groups, (foldl_restore1_groups rev ms v).2] at hx
      exact (List.mem_append.mp hx).elim (fun e => List.mem_append_left _ (hsub.subset e))
        (List.mem_append_right _)
    exact ⟨h.nonempty hx', x, hx', rfl, fun _ hm => hm⟩

/-- R116: a member of the group under reclaim is freed. -/
theorem InkView.reclaimed_groups (h : v.GroupsAgree) {g : Rev} {x : Handle} {ms : List Handle}
    (hr : v.reclaim = some (g, x :: ms)) :
    InkView.GroupsAgree { v with
      store := v.store.freed x.idx, reclaim := if ms = [] then none else some (g, ms) } := by
  have hgs : (g, x :: ms) ∈ v.groups := List.mem_append_right _ (by simp [hr])
  have hx : v.store.holds x .erased := (h.member hgs List.mem_cons_self).1
  refine GroupsOk.leave (gone := [x]) h ?_ (fun y hy => ?_) h.ids (fun j hj => ?_) fun m hm => ?_
  · show ((v.queue ++ v.reclaim.toList).flatMap Prod.snd).Perm
      ([x] ++ (v.queue ++ (if ms = [] then none else some (g, ms)).toList).flatMap Prod.snd)
    rw [hr]
    by_cases hm : ms = []
    · subst hm
      simp only [if_true, Option.toList_some, Option.toList_none, List.append_nil, List.flatMap_append,
        List.flatMap_cons, List.flatMap_nil]
      exact List.perm_append_comm
    · simp only [if_neg hm, Option.toList_some, List.flatMap_append, List.flatMap_cons, List.flatMap_nil,
        List.append_nil]
      exact List.perm_middle
  · rcases List.mem_append.mp hy with hy | hy
    · exact ⟨h.nonempty (List.mem_append_left _ hy), y, List.mem_append_left _ hy, rfl, fun _ hm => hm⟩
    · dsimp only at hy
      by_cases hm : ms = []
      · rw [if_pos hm] at hy; simp at hy
      · rw [if_neg hm] at hy
        obtain rfl : y = (g, ms) := by simpa using hy
        exact ⟨hm, _, hgs, rfl, fun _ hm => List.mem_cons_of_mem _ hm⟩
  · show (v.store.freed x.idx).stroke j = _
    rw [Store.stroke_freed, if_neg]
    rintro ⟨rfl, -⟩
    exact hj (by simp)
  · obtain rfl := List.mem_singleton.mp hm
    show ((v.store.freed m.idx).stroke m.idx).state ≠ _
    rw [Store.stroke_freed, if_pos ⟨rfl, holds_used hx⟩]
    exact nofun

/-- The groups without the members of an index. -/
theorem flatMap_withoutMember (i : RecIdx) (gs : List (Rev × List Handle)) :
    ((gs.map (withoutMember i)).filter fun x => !x.2.isEmpty).flatMap Prod.snd =
      (gs.flatMap Prod.snd).filter fun h => decide (h.idx ≠ i) := by
  induction gs with
  | nil => rfl
  | cons g gs ih =>
    rw [List.map_cons, List.filter_cons, List.flatMap_cons, List.filter_append, ← ih]
    split
    · rfl
    · next hne =>
      have : (withoutMember i g).2 = [] := by simpa using hne
      rw [show (g.2.filter fun h => decide (h.idx ≠ i)) = [] from this]
      rfl

/-- R54: a record freed by the clearance leaves its group. -/
theorem InkView.clear1_groups (h : v.GroupsAgree) (i : RecIdx) : (v.clear1 i).GroupsAgree := by
  by_cases he : (v.store.stroke i).state = .erased
  · rw [InkView.clear1_of_erased he]
    have hgroups : InkView.groups { v with
        store := v.store.freed i
        queue := (v.queue.map (withoutMember i)).filter fun x => !x.2.isEmpty
        reclaim := (v.reclaim.map (withoutMember i)).filter fun x => !x.2.isEmpty } =
        (v.groups.map (withoutMember i)).filter fun x => !x.2.isEmpty := by
      unfold InkView.groups
      dsimp only
      rw [List.map_append, List.filter_append]
      congr 1
      cases v.reclaim with
      | none => rfl
      | some g =>
        simp only [Option.map_some, Option.filter_some, Option.toList_some, List.map_cons, List.map_nil,
          List.filter_cons, List.filter_nil]
        split <;> rfl
    show GroupsOk _ _ (InkView.groups _)
    rw [hgroups]
    refine GroupsOk.leave (gone := (v.groups.flatMap Prod.snd).filter fun h => decide (h.idx = i)) h ?_
      (fun x hx => ?_) ?_ (fun j hj => ?_) fun m hm => ?_
    · rw [flatMap_withoutMember]
      refine (List.filter_append_perm (fun h : Handle => decide (h.idx = i)) _).symm.trans (.of_eq ?_)
      congr 1
      exact List.filter_congr fun x _ => by simp
    · obtain ⟨hx1, hx2⟩ := List.mem_filter.mp hx
      obtain ⟨y, hy, rfl⟩ := List.mem_map.mp hx1
      exact ⟨by simpa using hx2, y, hy, rfl, fun m hm => (List.mem_filter.mp hm).1⟩
    · refine List.Nodup.sublist (List.filter_sublist.map Prod.fst) ?_
      rw [List.map_map]
      exact h.ids
    · show (v.store.freed i).stroke j = _
      rw [Store.stroke_freed, if_neg]
      rintro ⟨rfl, -⟩
      exact hj (List.mem_map.mpr ⟨_, List.mem_filter.mpr ⟨h.all he, by simp⟩, rfl⟩)
    · have hmi : m.idx = i := by simpa using (List.mem_filter.mp hm).2
      show ((v.store.freed i).stroke m.idx).state ≠ _
      rw [hmi, Store.stroke_freed, if_pos ⟨rfl, by rw [he]; decide⟩]
      exact nofun
  · rw [InkView.clear1_of_not_erased he]
    by_cases hf : (v.store.stroke i).state = .free
    · exact h.congr (by unfold Store.freed; dsimp only; rw [if_pos hf])
    · have hw : Wrote v.store (v.store.freed i) i { gen := (v.store.stroke i).gen } :=
        ⟨by unfold Store.freed; dsimp only; rw [if_neg hf]; rfl⟩
      exact GroupsOk.write h hw he (by simp)

end Sys2Proof.Machine
end

