-- ==== Sys2Proof/Proofs/InkInvariants.lean ====
section
/-! The agreement of records, Point Pool, blocks held, open items and erase groups over a step. -/

namespace Sys2Proof.Machine

variable {s t u w : State} {v v' : InkView} {b : Prop}

/-! ### Every move -/

/-- Records, pool, open items and groups agree; `b` as in `InkView.Core`. -/
structure InkView.Agrees (v : InkView) (b : Prop) : Prop extends v.Core b where
  groups : v.GroupsAgree

theorem InkMove.agrees (m : InkMove v v') (h : v.Agrees b) : v'.Agrees b := by
  have hopen : ∀ {x : Handle}, v.store.holds x .opened → (v.store.stroke x.idx).state ≠ .erased := fun hs => by
    rw [hs.2]; decide
  cases m with
  | @opened n i recs c blocks r x y w hi hb hr hn =>
    refine ⟨h.toCore.opened hi hb hr hn, GroupsOk.write h.groups (i := i) (r := r) ⟨rfl⟩ ?_ ?_⟩
    · rw [h.z.head_free hi]; decide
    · rw [hr.state]; decide
  | closed hn hs => exact ⟨h.toCore.closed hn hs, GroupsOk.write h.groups ⟨rfl⟩ (hopen hs) (by simp)⟩
  | @dropped n x hn hs => exact absurd (h.owned hn).1 hs
  | grown hn hs hb hl => exact ⟨h.toCore.grown hs hb hl, GroupsOk.write h.groups ⟨rfl⟩ (hopen hs) (hopen hs)⟩
  | extended hn hs hb hl hc hp =>
    exact ⟨h.toCore.extended hn hs hb hl hc hp, GroupsOk.write h.groups ⟨rfl⟩ (hopen hs) (hopen hs)⟩
  | flagged hs => exact ⟨h.toCore.flagged hs, GroupsOk.write h.groups ⟨rfl⟩ (hopen hs) (hopen hs)⟩
  | erased hs => exact ⟨h.toCore.erased _ hs, GroupsOk.erased h.groups hs⟩
  | restored hq =>
    exact ⟨(h.toCore.foldl_restore1 _ _).congr rfl rfl rfl, InkView.restored_groups h.groups hq⟩
  | @detached g q hq hr =>
    refine ⟨h.toCore.congr rfl rfl rfl, GroupsOk.perm h.groups ?_ ?_⟩
    · simp only [InkView.groups, hq, hr, Option.toList_none, List.append_nil, Option.toList_some]
      exact List.perm_append_comm (l₁ := [g])
    · have := h.groups.ids
      rw [hq, List.map_cons, List.nodup_cons] at this
      exact this.2
  | @reclaimed g x ms hr =>
    have hx : v.store.holds x .erased :=
      (h.groups.member (List.mem_append_right _ (by simp [hr] : (g, x :: ms) ∈ v.reclaim.toList))
        List.mem_cons_self).1
    exact ⟨(h.toCore.freed (by rw [hx.2]; decide) (fun _ => by rw [hx.2]; decide) _ _),
      InkView.reclaimed_groups h.groups hr⟩
  | @emptied g hr =>
    exact absurd rfl (h.groups.nonempty (List.mem_append_right _ (by simp [hr] : (g, []) ∈ v.reclaim.toList)))

theorem InkMoves.agrees (m : InkMoves v v') (h : v.Agrees b) : v'.Agrees b := by
  induction m with
  | refl => exact h
  | tail _ m ih => exact m.agrees ih

/-- The records of a clearance, freed one by one. -/
theorem InkView.Agrees.clears (hb : ¬b) (h : v.Agrees b) (hi : ∀ n, v.item n = none) (is : List RecIdx) :
    (is.foldl InkView.clear1 v).Agrees b := by
  induction is generalizing v with
  | nil => exact h
  | cons i is ih =>
    have hitem : ∀ n, (v.clear1 i).item n = none := fun n => by
      unfold InkView.clear1
      split <;> exact hi n
    refine ih ⟨?_, InkView.clear1_groups h.groups i⟩ hitem
    unfold InkView.clear1
    split
    · exact h.toCore.clear1 hb hi i _ _
    · exact h.toCore.clear1 hb hi i _ _

/-! ### Over a step -/

/-- `InkAgrees` beside the standing properties of the store, by name. -/
structure Standing (s : State) : Prop where
  agrees : (viewOf s).Agrees (s.cls.state ≠ .resetting)
  quota : ∀ n, (s.seat n).quotaReached = true → (s.seat n).quota ≤ (s.seat n).blocksHeld
  idle : s.cls.state = .resetting → ∀ n, (s.seat n).item = none

theorem inkHandle_kind {a : Seat} {h : Handle} {tag : Byte} (e : a.item.map OpenItem.kind = some (.ink h tag)) :
    inkHandle a = some h := inkHandle_eq_some.mpr ⟨tag, e⟩

theorem standing_iff (s : State) : Standing s ↔ StoreCanonical s ∧ ZListsAgree s ∧ InkAgrees s := by
  constructor
  · rintro ⟨⟨⟨h1, h2, h3, h4, h5, h6, h7⟩, h8⟩, h9, h10⟩
    refine ⟨(storeCanonical_iff s).mpr h1, (zListsAgree_iff s).mpr h2, (fieldsByState_iff s).mpr h3,
      (poolAgrees_iff s).mpr h4, ⟨fun hr n => ?_, h9⟩, ⟨fun n h tag e => ?_, h10, fun hr i hi => ?_⟩,
      (groupsAgree_iff s).mpr h8⟩
    · exact (h5 hr n).trans (heldBy_eq s.store n).symm
    · obtain ⟨⟨k1, k2⟩, k3⟩ := h6 (n := n) (h := h) (inkHandle_kind e)
      exact ⟨k1, k2, k3⟩
    · exact inkHandle_eq_some.mp (h7 hr hi)
  · rintro ⟨h1, h2, h3, h4, ⟨h5, h6⟩, ⟨h7, h8, h9⟩, h10⟩
    refine ⟨⟨⟨(storeCanonical_iff s).mp h1, (zListsAgree_iff s).mp h2, (fieldsByState_iff s).mp h3,
      (poolAgrees_iff s).mp h4, fun hr n => (h5 hr n).trans (heldBy_eq s.store n), fun {n h} e => ?_,
      fun hr {i} hi => ?_⟩, (groupsAgree_iff s).mp h10⟩, h6, h8⟩
    · obtain ⟨tag, e⟩ := inkHandle_eq_some.mp e
      obtain ⟨k1, k2, k3⟩ := h7 n h tag e
      exact ⟨⟨k1, k2⟩, k3⟩
    · obtain ⟨tag, e⟩ := h9 hr i hi
      exact inkHandle_kind e

theorem QuotaKept.keeps {a c : Seat} (h : QuotaKept a c) (ha : a.quotaReached = true → a.quota ≤ a.blocksHeld)
    (hc : c.quotaReached = true) : c.quota ≤ c.blocksHeld := by
  rcases h hc with ⟨h1, h2, h3⟩ | h
  · rw [h2]; exact (ha h1).trans h3
  · exact h

theorem InkView.Agrees.imp {c : Prop} (h : v.Agrees b) (hc : c → b) : v.Agrees c :=
  ⟨⟨h.canonical, h.z, h.fields, h.pool, fun e => h.held (hc e), h.owned, fun e => h.open' (hc e)⟩, h.groups⟩

/-- The agreement does not see the revision. -/
theorem InkView.Agrees.withRev (h : v.Agrees b) (r : Rev) :
    InkView.Agrees { v with store := { v.store with rev := r } } b :=
  ⟨⟨h.canonical.congr rfl rfl rfl, h.z.congr rfl rfl rfl, h.fields, h.pool.congr rfl rfl rfl, h.held, h.owned,
    h.open'⟩, h.groups.congr rfl⟩

theorem viewOf_published (p : Published w u) :
    viewOf u = { viewOf w with store := { w.store with rev := u.store.rev } } := by
  have hs : ∀ n, u.seat n = w.seat n := seat_congr p.seats
  apply InkView.ext
  · exact p.store
  · funext n; simp [hs]
  · funext n; simp [hs]
  · simp [p.queue]
  · simp [p.reclaim]

theorem Standing.published (h : Standing w) (p : Published w u) : Standing u := by
  have hs : ∀ n, u.seat n = w.seat n := seat_congr p.seats
  refine ⟨?_, fun n => by rw [hs]; exact h.quota n, fun hr n => by rw [hs]; exact h.idle (p.cls ▸ hr) n⟩
  rw [viewOf_published p, p.cls]
  exact h.agrees.withRev _

theorem Standing.moves (h : Standing s) (m : Moves s u) : Standing u where
  agrees := (m.ink.agrees h.agrees).imp fun e e' => e (m.resetting.mpr e')
  quota n hn := (m.quota n).keeps (h.quota n) hn
  idle hr n := m.idle (m.resetting.mp hr) n (h.idle (m.resetting.mp hr) n)

/-- R53: with every open item ended, the OPEN records and blocks held are the clearance's. -/
theorem Standing.begun (h : Standing s) (k : Begun s u) : Standing u := by
  have hitem : ∀ n, (viewOf u).item n = none := fun n => by simp [inkHandle, k.item n]
  refine ⟨⟨⟨?_, ?_, ?_, ?_, fun e => absurd k.cls e, fun {n x} hx => ?_, fun e => absurd k.cls e⟩, ?_⟩,
    fun n hn => (k.quota n).keeps (h.quota n) hn, fun _ => k.item⟩
  · rw [viewOf_store, k.store]; exact h.agrees.canonical
  · rw [viewOf_store, k.store]; exact h.agrees.z
  · rw [viewOf_store, k.store]; exact h.agrees.fields
  · rw [viewOf_store, k.store]; exact h.agrees.pool
  · rw [hitem] at hx; cases hx
  · have hg := h.agrees.groups
    unfold InkView.GroupsAgree InkView.groups at hg ⊢
    rw [viewOf_store, viewOf_queue, viewOf_reclaim, k.store, k.queue, k.reclaim]
    exact hg

theorem Standing.clears (h : Standing s) (hr : s.cls.state = .resetting) (c : Clears s w) : Standing w := by
  have hs : ∀ n, w.seat n = s.seat n := seat_congr c.seats
  obtain ⟨is, hi⟩ := c.ink
  refine ⟨?_, fun n => by rw [hs]; exact h.quota n, fun _ n => by rw [hs]; exact h.idle hr n⟩
  rw [hi, c.cls]
  exact h.agrees.clears (fun e => e hr) (fun n => by simp [inkHandle, h.idle hr n]) is

/-- R55: with every record FREE, nothing is held and no group stands. -/
theorem Standing.cleared (h : Standing w) (hr : w.cls.state = .resetting) (e : Cleared w u) : Standing u := by
  have hitem : ∀ n, (u.seat n).item = none := fun n => (e.item n).trans (h.idle hr n)
  have hfree : ∀ i, (u.store.stroke i).state = .free := fun i => by rw [e.store]; exact e.free i
  have hold := h.agrees.withRev (nextRev w.store.rev)
  have hst : (viewOf u).store = { w.store with rev := nextRev w.store.rev } := e.store
  have hc : (viewOf u).store.Canonical := by rw [hst]; exact hold.canonical
  refine ⟨⟨⟨hc, by rw [hst]; exact hold.z, by rw [hst]; exact hold.fields, by rw [hst]; exact hold.pool,
    fun _ n => ?_, fun {n x} hx => ?_, fun _ {i} hi => ?_⟩, ?_⟩, fun n hn => ?_, fun _ => hitem⟩
  · rw [viewOf_held, e.held, heldBy, eq_comm]
    refine List.sum_eq_zero fun k hk => ?_
    obtain ⟨p, hp, rfl⟩ := List.mem_map.mp hk
    have hf := hfree p.1
    rw [show u.store.stroke p.1 = p.2 from lookupAt_of_mem hc.strokes hp] at hf
    simp [heldOf, hf]
  · simp [inkHandle, hitem n] at hx
  · rw [viewOf_store, hfree] at hi; cases hi
  · unfold InkView.GroupsAgree InkView.groups
    rw [viewOf_queue, viewOf_reclaim, e.queue, e.reclaim]
    refine ⟨by simp, by simp, by simp, fun {i} hi => ?_, by simp⟩
    rw [viewOf_store, hfree] at hi; cases hi
  · rw [e.quota n] at hn; cases hn

theorem InkStep.standing (h : InkStep s u) (hs : Standing s) : Standing u := by
  cases h with
  | drawn m p => exact (hs.moves m).published p
  | begun k => exact hs.begun k
  | cleared hr c p => exact (hs.clears hr c).published p
  | ended hr c e => exact (hs.clears hr c).cleared (c.cls ▸ hr) e

/-- Settles O59: each move of ink keeps the agreement, a clearance under way with its own terms. -/
theorem everyStepKeepsInkPoolAndGroupsInAgreement : Obligations.EveryStepKeepsInkPoolAndGroupsInAgreement := by
  intro s t hc hz ha h
  rcases inkStep_step h with ⟨p, rfl⟩ | h
  · obtain ⟨-, -, -, -, -, -, -, -, -, -, -, hink⟩ := resetMeetsTheInvariants
    exact hink
  · obtain ⟨-, -, hink⟩ := (standing_iff t).mp (h.standing ((standing_iff s).mpr ⟨hc, hz, ha⟩))
    exact hink

end Sys2Proof.Machine
end

