-- ==== Sys2Proof/Proofs/Reads.lean ====
section
/-! The reading commands (R21, R39, R52, R131, R168, R171, R175 to R177, R180): a command without effect is
answered from the state of its grant, and the model's encoders write what the statements list. -/

namespace Sys2Proof.Machine

variable {s : State}

/-! ### Commands without effect -/

theorem Tx.start_commit (s : State) : (Tx.start s).commit = s :=
  (Tx.commit_quiet rfl).trans (demandsAfter_same rfl rfl rfl)

/-- A served command that leaves its transaction as it started. -/
theorem serveCommand_quiet {α : Type} {code tag : Byte} {ps : Bytes} {format : Reader α} {body : α → Tx → Served}
    {a : α} {r : Result} {data : Bytes} (h : ConsoleTurn s code tag ps) (hp : readAll format ps = some a)
    (hb : body a (Tx.start (decideGrant s .console)) = (Tx.start (decideGrant s .console), r, data)) :
    serveCommand code format body s = settle (replied s ⟨tag, code, r, data⟩) := by
  rw [serveCommand_of_turn h hp, hb, Tx.start_commit, finishCommand_eq]
  rfl

theorem readAll_r8 (b : Byte) : readAll r8 [b] = some b := rfl

theorem readAll_rNone : readAll rNone [] = some () := rfl

theorem r16_w16 (n : Nat) (hn : n < 65536) (bs : Bytes) : r16 (w16 n ++ bs) = some (n, bs) := by
  simp only [w16, List.cons_append, List.nil_append, r16, BitVec.toNat_ofNat]
  congr 2
  omega

theorem readAll_rHandle (w : WireHandle) : readAll rHandle (w16 w.index.toNat ++ [w.gen]) = some w := by
  have h : rHandle (w16 w.index.toNat ++ [w.gen]) = some (w, []) := by
    unfold rHandle
    rw [r16_w16 _ (by have := w.index.isLt; omega)]
    simp [r8]
  simp [readAll, h]

theorem seatOfByte_eq {b : Byte} {n : SeatNo} (h : b.toNat = n.val) : seatOfByte b = some n := by
  have := n.isLt
  simp [seatOfByte, h]

theorem seatOfByte_none {b : Byte} (h : 39 < b.toNat) : seatOfByte b = none := by
  simp only [seatOfByte]
  rw [dif_neg (by omega)]

theorem watchOfByte_eq {b : Byte} {n : Fin 4} (h : b.toNat = n.val) : watchOfByte b = some n := by
  have := n.isLt
  simp [watchOfByte, h]

theorem watchOfByte_none {b : Byte} (h : 3 < b.toNat) : watchOfByte b = none := by
  simp only [watchOfByte]
  rw [dif_neg (by omega)]

theorem handleOf_eq {w : WireHandle} {h : Handle} (h1 : w.index.toNat = h.idx.val) (h2 : w.gen = h.gen) :
    handleOf w = some h := by
  have := h.idx.isLt
  simp only [handleOf, h1, h2]
  rw [dif_pos this]

theorem handleOf_none {w : WireHandle} (h : 4095 < w.index.toNat) : handleOf w = none := by
  simp only [handleOf]
  rw [dif_neg (by omega)]

/-! ### The encoders -/

theorem wFirst_eq (b : Bool) : wFirst b = trueFirst b := by cases b <;> rfl

theorem wHandle_eq : wHandle = handleData := rfl

theorem wBox_eq : wBox = boxData := rfl

theorem wMapping_eq : wMapping = mappingData := rfl

theorem wWindow_eq (w : Window) : wWindow w = windowData w := by
  unfold wWindow windowData
  cases w.policy <;> rfl

theorem wPen_eq (p : Pen) : wPen p = penData p := by
  unfold wPen penData
  cases p.tool <;> rfl

theorem wRights_eq (r : Rights) : wRights r = rightsData r := by
  unfold wRights rightsData
  cases r.scope <;> rfl

theorem wTarget_eq (t : Target) : wTarget t = targetData t := by cases t <;> rfl

theorem wUndo_eq (e : UndoEntry) : wUndo e = undoData e := by cases e <;> rfl

theorem wItem_eq (n : SeatNo) (i : Option OpenItem) :
    w8 (itemCode i) ++ wOpt 1 (fun t : Byte => [t]) (i.map (itemTag n)) ++ wOpt 3 wHandle (itemHandle i) =
      itemData n i := by
  cases i with
  | none => rfl
  | some i =>
    obtain ⟨k, l, d, p, x⟩ := i
    cases k <;> rfl

theorem wSeatMask_eq (m : BitVec 40) : wSeatMask m = seatSetData m := by
  have h : ∀ k, (m >>> k).setWidth 8 = m.extractLsb' k 8 := fun k => by
    apply BitVec.eq_of_getLsbD_eq
    intro i hi
    simp [hi]
  simp [wSeatMask, seatSetData, h]

theorem stroke_flags_eq (f : StrokeFlags) : [f.toByte] = flagData f := by
  obtain ⟨a, b, c, d, e, g, h, i⟩ := f
  revert a b c d e g h i
  decide

theorem watch_enables_eq (a b c : Bool) :
    w8 (a.toNat + 2 * b.toNat + 4 * c.toNat) =
      [BitVec.ofBoolListLE [a, b, c, false, false, false, false, false]] := by
  revert a b c
  decide

theorem wSeat_state_eq (x : SeatState) :
    w8 x.code = [match x with
      | .vacant => 0#8
      | .admitted => 1#8
      | .muted => 2#8
      | .barred => 3#8] := by cases x <;> rfl

theorem portOf_code_eq (n : SeatNo) :
    w8 (portOf n).code = [if n.val < 4 then 0#8 else if n.val < 36 then 1#8 else 2#8] := by
  unfold portOf
  split
  · rfl
  · split <;> rfl

/-- R39. -/
theorem wSeat_eq (n : SeatNo) (u : Seat) : wSeat n u = seatData n u := by
  have h := wItem_eq n u.item
  unfold wSeat seatData seatCounterData
  rw [wSeat_state_eq, portOf_code_eq, ← h]
  simp only [wMapping_eq, wWindow_eq, wPen_eq, wRights_eq, wTarget_eq, wFirst_eq, wList,
    funext wUndo_eq, List.append_assoc, List.cons_append, List.nil_append] <;> rfl

/-- R50. -/
theorem wOptions_eq (o : ClassOptions) : wOptions o = optionData o := by
  have hl : (o.layers.toList.flatMap fun l => w8 l.val) =
      w8 o.layers[0].val ++ w8 o.layers[1].val ++ w8 o.layers[2].val ++ w8 o.layers[3].val := by
    obtain ⟨⟨l⟩, hl⟩ := o.layers
    match l, hl with
    | [a, b, c, d], _ => rfl
  unfold wOptions optionData
  rw [hl]
  cases o.fingerInk <;> simp [w8]

theorem wClass_state_eq (x : ClassState) :
    w8 x.code = [match x with
      | .opened => 0#8
      | .frozen => 1#8
      | .resetting => 2#8] := by cases x <;> rfl

theorem wContext_eq (c : ScanCtx) : w8 c.state.code = contextData c := by
  unfold contextData
  cases c.state <;> rfl

theorem wPresent_eq (b : Bool) : wPresent b = [if b then 1#8 else 0#8] := by cases b <;> rfl

/-- R52. -/
theorem wStatus_eq (s : State) : wStatus s = statusData s := by
  unfold wStatus statusData
  rw [wClass_state_eq, wOptions_eq, wContext_eq, wContext_eq, wPresent_eq] <;> rfl

theorem wStroke_state_eq (x : StrokeState) :
    w8 x.code = [match x with
      | .free => 0#8
      | .opened => 1#8
      | .closed => 2#8
      | .erased => 3#8] := by cases x <;> rfl

theorem wTool_eq (t : InkTool) : w8 t.code = [if t = .ink then 0#8 else 1#8] := by cases t <;> rfl

/-- R21. -/
theorem wStroke_eq (h : Handle) (r : Stroke) : wStroke h r = strokeData h r := by
  unfold wStroke strokeData
  rw [wHandle_eq, wBox_eq, wStroke_state_eq, wTool_eq, stroke_flags_eq] <;> rfl

theorem wKind_eq (k : EntryKind) :
    w8 (k.watchBit.getD 0) = [match k with
      | .extended => 1#8
      | .closed => 2#8
      | .erased => 3#8
      | _ => 0#8] := by cases k <;> rfl

theorem wCapture_eq (c : Capture) : wCapture c = captureData c := by
  unfold wCapture captureData
  rw [wHandle_eq, wBox_eq, wKind_eq] <;> rfl

theorem wWatch_state_eq (x : WatchState) :
    w8 x.code = [match x with
      | .disarmed => 0#8
      | .armed => 1#8
      | .fired => 2#8] := by cases x <;> rfl

theorem wCombine_eq (c : Combine) : w8 c.code = [if c = .all then 0#8 else 1#8] := by cases c <;> rfl

/-- R168. -/
theorem wWatch_eq (w : Watch) : wWatch w = watchData w := by
  unfold wWatch watchData
  rw [wBox_eq, wWatch_state_eq, wSeatMask_eq, watch_enables_eq, wCombine_eq, funext wCapture_eq] <;> rfl

theorem wLinkCounters_eq (c : Counters) : wLinkCounters c = linkCounterData c := by
  simp only [wLinkCounters, linkCounterData, wPerLink, List.append_assoc]

/-! ### The highest source -/

/-- What the fold over the sources looked at keeps (R180): the best one so far, the first among equals. -/
def BestOf (a : Attention) (seen : Fin 11 → Prop) (best : Option (Fin 11 × Fin 4)) : Prop :=
  (best = none → ∀ y, ¬seen y) ∧
    ∀ x l, best = some (x, l) → seen x ∧ l = a.levels[x.val] ∧
      ∀ y, seen y → a.levels[y.val] < l ∨ (a.levels[y.val] = l ∧ x ≤ y)

/-- The choice between the best source so far and the next. -/
def betterSource (a : Attention) (best : Option (Fin 11 × Fin 4)) (x : Fin 11) : Option (Fin 11 × Fin 4) :=
  match best with
  | some (y, l) => if l < a.levels[x.val] then some (x, a.levels[x.val]) else some (y, l)
  | none => some (x, a.levels[x.val])

theorem bestOf_step {a : Attention} {seen : Fin 11 → Prop} {best : Option (Fin 11 × Fin 4)} (h : BestOf a seen best)
    {x : Fin 11} (hx : ∀ y, seen y → y < x) : BestOf a (fun y => seen y ∨ y = x) (betterSource a best x) := by
  obtain ⟨h1, h2⟩ := h
  unfold betterSource
  split
  · next z l =>
    obtain ⟨k1, k2, k3⟩ := h2 z l rfl
    split
    · next hl =>
      refine ⟨by simp, fun w m hw => ?_⟩
      cases hw
      refine ⟨.inr rfl, rfl, fun y hy => ?_⟩
      rcases hy with hy | rfl
      · rcases k3 y hy with h | ⟨h, -⟩
        · exact .inl (h.trans hl)
        · exact .inl (h ▸ hl)
      · exact .inr ⟨rfl, le_rfl⟩
    · next hl =>
      refine ⟨by simp, fun w m hw => ?_⟩
      cases hw
      refine ⟨.inl k1, k2, fun y hy => ?_⟩
      rcases hy with hy | rfl
      · exact k3 y hy
      · rcases lt_or_eq_of_le (not_lt.mp hl) with h | h
        · exact .inl h
        · exact .inr ⟨h, (hx z k1).le⟩
  · refine ⟨by simp, fun w m hw => ?_⟩
    cases hw
    refine ⟨.inr rfl, rfl, fun y hy => ?_⟩
    rcases hy with hy | rfl
    · exact absurd hy (h1 rfl y)
    · exact .inr ⟨rfl, le_rfl⟩

theorem bestOf_foldl {a : Attention} (xs : List (Fin 11)) (seen : Fin 11 → Prop) (best : Option (Fin 11 × Fin 4))
    (h : BestOf a seen best) (hs : xs.Pairwise (· < ·)) (hx : ∀ x ∈ xs, ∀ y, seen y → y < x) :
    BestOf a (fun y => seen y ∨ y ∈ xs) (xs.foldl (betterSource a) best) := by
  induction xs generalizing seen best with
  | nil => simpa using h
  | cons x xs ih =>
    obtain ⟨hx1, hx2⟩ := List.pairwise_cons.mp hs
    have := ih (fun y => seen y ∨ y = x) _ (bestOf_step h (hx x List.mem_cons_self)) hx2 fun z hz y hy => by
      rcases hy with hy | rfl
      · exact hx z (List.mem_cons_of_mem _ hz) y hy
      · exact hx1 z hz
    simpa only [List.mem_cons, or_assoc, List.foldl_cons] using this

/-- R180. -/
theorem bestOf_highestSource (a : Attention) : BestOf a (fun x => isRaised a x = true) (highestSource a) := by
  have h := bestOf_foldl (a := a) (allSources.filter (isRaised a)) (fun _ => False) none
    ⟨fun _ _ h => h, fun _ _ h => nomatch h⟩ ((List.pairwise_lt_finRange 11).filter _) fun _ _ _ h => h.elim
  have he : highestSource a = (allSources.filter (isRaised a)).foldl (betterSource a) none := rfl
  rw [he]
  simpa [allSources, BestOf] using h

/-! ### The reading commands -/

/-- Settles O38. -/
theorem readCommandsAnswerWhatStands : Obligations.ReadCommandsAnswerWhatStands := by
  intro s tag gives
  refine ⟨fun b ht => ⟨fun hb => ?_, fun n hb => ?_⟩, fun ht => ?_, fun w ht => ⟨fun hw => ?_, fun h h1 h2 =>
    ⟨fun hl => ?_, fun hl => ?_⟩⟩, fun b ht => ⟨fun hb => ?_, fun n hb => ?_⟩, fun ht => ?_, fun ht => ?_, fun ht => ?_⟩
  · exact congrArg _ (serveCommand_quiet ht (readAll_r8 b) (by simp [onSeat, seatOfByte_none hb, Tx.answer]))
  · refine congrArg _ (serveCommand_quiet ht (readAll_r8 b) ?_)
    simp [onSeat, seatOfByte_eq hb, Tx.answer, wSeat_eq]
  · refine congrArg _ (serveCommand_quiet ht readAll_rNone ?_)
    simp [Tx.answer, wStatus_eq, statusData]
  · exact congrArg _ (serveCommand_quiet ht (readAll_rHandle w) (by simp [handleOf_none hw, Tx.answer]))
  · refine congrArg _ (serveCommand_quiet ht (readAll_rHandle w) ?_)
    simp [handleOf_eq h1 h2, hl, Tx.answer]
  · refine congrArg _ (serveCommand_quiet ht (readAll_rHandle w) ?_)
    simp [handleOf_eq h1 h2, hl, Tx.answer, wStroke_eq]
  · exact congrArg _ (serveCommand_quiet ht (readAll_r8 b) (by simp [onWatch, watchOfByte_none hb, Tx.answer]))
  · refine congrArg _ (serveCommand_quiet ht (readAll_r8 b) ?_)
    simp [onWatch, watchOfByte_eq hb, Tx.answer, wWatch_eq]
  · obtain ⟨h1, h2⟩ := bestOf_highestSource s.attention
    have hr : ∀ x, isRaised s.attention x = true ↔
        s.attention.pending.getLsbD x.val = true ∧ s.attention.enabled.getLsbD x.val = true := fun x => by
      simp [isRaised]
    simp only [hr] at h1 h2
    refine ⟨highestSource s.attention, ⟨h1, h2⟩, congrArg _ (serveCommand_quiet ht readAll_rNone ?_)⟩
    simp [Tx.answer]
  · refine congrArg _ (serveCommand_quiet ht readAll_rNone ?_)
    simp [Tx.answer, wSeatCounters, wClassCounters, wLinkCounters_eq, seatCounterData, classCounterData, allSeats]
  · refine congrArg _ (serveCommand_quiet ht readAll_rNone ?_)
    simp [Tx.answer, Tx.time]

end Sys2Proof.Machine
end

