-- ==== Sys2Proof/Proofs/Served.lean ====
section
/-! How a grant ends: its commit is the `committed` of the statements up to the withdrawal of a lapped follow, which
the withdrawals at the end of the grant repeat (R126, R152). -/

namespace Sys2Proof.Machine

variable {s : State} {t t₁ : Tx}

/-! ### The commit -/

theorem publish_cases (s : State) (rev : Rev) (written : List ChangeEntry) :
    let j := s.journal.write written
    let c := followWoken s.display written
    let lap := decide (j.lost ≠ s.journal.lost) && isLapped c j.lost
    let p : State := { s with
      store := { s.store with rev := rev }
      journal := j
      display := if lap then doneCtx c .overrun .none else c
      displayOut := if lap then s.displayOut ++ [⟨c.tag, .done (walkDone c .overrun .none)⟩] else s.displayOut }
    publish rev written s = p ∨ (publish rev written s = withdraw p .display ∧ p.display.state = .done) := by
  intro j c lap p
  have hl : ∀ u : State, (u.display.running && decide (u.display.mode = .follow) && lapped u) =
      isLapped u.display u.journal.lost := fun _ => rfl
  have hw : ∀ c : ScanCtx, doneRecord c .overrun .none = walkDone c .overrun .none := fun c => by
    unfold doneRecord walkDone resumeRev resumeOf
    cases c.mode <;> (simp [WalkMode.isSweep]; try rfl)
  simp only [publish, wakeFollow_eq]
  by_cases hj : j.lost = s.journal.lost
  · refine .inl ?_
    rw [if_pos hj]
    simp [p, lap, hj, j, c]
  · rw [if_neg hj]
    unfold lapFollow
    rw [hl]
    cases hc : isLapped c j.lost with
    | false =>
      refine .inl ?_
      rw [if_neg Bool.false_ne_true]
      simp [p, lap, hj, j, c, hc]
    | true =>
      have hlap : lap = true := by simp [lap, hj, hc]
      refine .inr ⟨?_, by simp [p, hlap, doneCtx]⟩
      rw [if_pos rfl]
      simp only [endDisplay, hw, p, hlap, if_true]
      rfl

/-- R5, R114, R135, R151, R152, R169: what a commit leaves. -/
theorem Tx.commit_cases (hr : t.st.store.rev = t.base.store.rev) (ht : t.st.timebase = t.base.timebase) :
    let c := committed t.base ⟨t.st, t.entries⟩
    t.commit = c ∨ (t.commit = withdraw c .display ∧ c.display.state = .done) := by
  intro c
  have hq : ∀ a b : State, a.store.freeBlocks = b.store.freeBlocks → a.store.freeRecs = b.store.freeRecs →
      a.cls = b.cls → a.maint = b.maint → demanded t.base a = demanded t.base b := by
    intro a b h1 h2 h3 h4
    simp [demanded, h1, h2, h3, h4]
  unfold Tx.commit
  rw [demandsAfter_eq]
  cases hc : t.calls with
  | nil =>
    refine .inl ?_
    simp [c, committed, Tx.entries, hc]
  | cons k ks =>
    have he : t.entries ≠ [] := by simp [Tx.entries, hc]
    simp only [List.isEmpty_cons, Bool.false_eq_true, if_false]
    have hp := publish_cases (fireWatches t.entries t.st) t.rev (eightEntryRule t.rev t.time t.entries)
    simp only [c, committed, if_neg he]
    rw [fireWatches_eq, Tx.rev_eq hr] at *
    simp only [Tx.time, ← ht] at *
    obtain e | ⟨e, hd⟩ := hp
    · refine .inl ?_
      rw [e]
      rfl
    · refine .inr ⟨?_, hd⟩
      rw [e]
      rfl

/-! ### Transactions as works -/

/-- A transaction as the statements see one: its state, and the entries it calls for. -/
def Tx.work (t : Tx) : Work := ⟨t.st, t.entries⟩

/-- The state reached still has the revision and the time of the grant decision. -/
structure Tx.Stamped (t : Tx) : Prop where
  rev_eq : t.st.store.rev = t.base.store.rev
  time_eq : t.st.timebase = t.base.timebase

theorem Tx.stamped_start (s : State) : (Tx.start s).Stamped := ⟨rfl, rfl⟩

theorem Tx.work_start (s : State) : (Tx.start s).work = ⟨s, []⟩ := rfl

theorem Tx.Stamped.keeps {a : Option SeatNo} (h : t.Stamped) (k : Tx.Keeps a t t₁) : t₁.Stamped where
  rev_eq := by rw [k.st.rev, k.base]; exact h.rev_eq
  time_eq := by rw [k.st.frame, k.base]; exact h.time_eq

theorem Tx.Stamped.on (h : t.Stamped) {f : State → State} (h1 : (f t.st).store.rev = t.st.store.rev)
    (h2 : (f t.st).timebase = t.st.timebase) : (t.on f).Stamped := ⟨h1.trans h.rev_eq, h2.trans h.time_eq⟩

theorem Tx.Stamped.rev (h : t.Stamped) : t.rev = upcoming t.st := Tx.rev_eq h.rev_eq

theorem Tx.Stamped.time (h : t.Stamped) : t.time = t.st.timebase := h.time_eq.symm

theorem Tx.Stamped.revTaken (h : t.Stamped) : t.revTaken = t.work.rev := Tx.revTaken_eq h.rev_eq

/-- A grant's last effects, which neither read the arbiter nor touch the display walk. -/
theorem settle_after_commit {f : State → State} (h : t.Stamped) (hf : ∀ u, (f u).display = u.display)
    (ha : ∀ u, f (withdraw u .display) = withdraw (f u) .display) :
    settle (f t.commit) = settle (f (committed t.base t.work)) := by
  obtain e | ⟨e, hd⟩ := Tx.commit_cases h.rev_eq h.time_eq
  · rw [e]; rfl
  · rw [e, ha]
    exact settle_withdraw (by simp [requests, hf, hd])

/-- R122, R192: a command's transaction is committed and the command answered. -/
theorem finishCommand_commit (h : t.Stamped) (r : Reply) :
    finishCommand t.commit r = settle (answered r (committed t.base t.work)) := by
  rw [finishCommand_eq]
  exact settle_after_commit (f := answered r) h (fun _ => rfl) fun _ => rfl

/-- R122, R192: a command served, its transaction named. -/
theorem serveCommand_commit {α : Type} {code tag : Byte} {ps data : Bytes} {format : Reader α}
    {body : α → Tx → Served} {a : α} {r : Result} (h : ConsoleTurn s code tag ps)
    (hp : readAll format ps = some a) (hb : body a (Tx.start (decideGrant s .console)) = (t, r, data))
    (hs : t.Stamped) (hd : t.base = decideGrant s .console) :
    serveCommand code format body s =
      settle (answered ⟨tag, code, r, data⟩ (committed (decideGrant s .console) t.work)) := by
  rw [serveCommand_of_turn h hp, hb, finishCommand_commit hs, hd]

end Sys2Proof.Machine
end

