-- ==== Sys2Proof/Proofs/Erasures.lean ====
section
/-! Erasing and restoring a list of strokes (Machine/Erasing.lean): what the transaction's operations leave, as the
statements name it (`erasedInto`, `restored`). -/

namespace Sys2Proof.Machine

variable {s u : State} {t t₁ : Tx}

/-! ### Seats -/

theorem modSeat_modSeat (s : State) (n : SeatNo) (f g : Seat → Seat) :
    (s.modSeat n f).modSeat n g = s.modSeat n fun u => g (f u) := by
  simp only [State.modSeat, updAt_updAt]

theorem modSeat_congr {s : State} {n : SeatNo} {f g : Seat → Seat} (h : f (s.seat n) = g (s.seat n)) :
    s.modSeat n f = s.modSeat n g := by
  have hv : updAt s.seats n f = updAt s.seats n g := by
    simp only [updAt]
    congr 1
  simp only [State.modSeat, hv]

/-! ### What entries report of a stroke -/

/-- The fields of a stroke that the change entries of drawing, erasing and restoring report (R133). -/
def Stroke.reported (r : Stroke) :
    PageNo × LayerNo × SeatNo × Box × InkTool × Fin 64 × Option Handle × StrokeFlags :=
  (r.page, r.layer, r.owner, r.box, r.tool, r.colour, r.pred, r.flags)

/-- The handle of the stroke an entry is called for. -/
def Call.handle : Call → Option Handle
  | .opened h _ | .extended h _ _ _ | .closed h | .erased h _ | .restored h _ => some h
  | .pageShown _ | .classReset => none

/-- An entry is called for about a stroke that keeps what is reported of it. -/
def Call.Stands (a b : Store) (c : Call) : Prop := ∀ rev time, c.entry b rev time = c.entry a rev time

theorem Call.stands_of_reported {a b : Store} {c : Call}
    (e : ∀ h, c.handle = some h → (b.stroke h.idx).reported = (a.stroke h.idx).reported) : c.Stands a b := by
  intro rev time
  cases c <;> simp only [Call.handle, Option.some.injEq, forall_eq', Stroke.reported, Prod.mk.injEq] at e <;>
    simp_all [Call.entry, strokeEntry]

/-- The entries called for so far stay, where the strokes they name keep what is reported of them. -/
theorem Tx.entries_append {cs : List Call} (hc : t₁.calls = cs ++ t.calls) (hb : t₁.base = t.base)
    (e : ∀ c ∈ t.calls, c.Stands t.st.store t₁.st.store) :
    t₁.entries = t.entries ++ cs.reverse.map (Call.entry t₁.st.store t.rev t.time) := by
  simp only [Tx.entries, Tx.rev, Tx.time, hc, hb, List.reverse_append, List.map_append]
  congr 1
  exact List.map_congr_left fun c hm => e c (List.mem_reverse.mp hm) _ _

/-! ### A list of records changed -/

/-- The records of a list of handles changed, in order. -/
def setEach (f : Stroke → Stroke) (hs : List Handle) (st : Store) : Store :=
  hs.foldl (fun st h => st.setStroke h.idx (f (st.stroke h.idx))) st

theorem setEach_concat (f : Stroke → Stroke) (hs : List Handle) (h : Handle) (st : Store) :
    setEach f (hs ++ [h]) st = (setEach f hs st).setStroke h.idx (f ((setEach f hs st).stroke h.idx)) := by
  simp [setEach]

theorem stroke_setEach_ne (f : Stroke → Stroke) {hs : List Handle} {i : RecIdx} (st : Store)
    (h : i ∉ hs.map Handle.idx) : (setEach f hs st).stroke i = st.stroke i := by
  induction hs using List.reverseRecOn with
  | nil => rfl
  | append_singleton hs g ih =>
    simp only [List.map_append, List.mem_append, List.map_cons, List.map_nil, List.mem_singleton, not_or] at h
    rw [setEach_concat, stroke_setStroke_ne _ _ h.2, ih h.1]

theorem reported_setEach {f : Stroke → Stroke} (hf : ∀ r, (f r).reported = r.reported) (hs : List Handle) (st : Store)
    (i : RecIdx) : ((setEach f hs st).stroke i).reported = (st.stroke i).reported := by
  induction hs using List.reverseRecOn with
  | nil => rfl
  | append_singleton hs g ih =>
    rw [setEach_concat]
    by_cases h : i = g.idx
    · rw [h, stroke_setStroke, hf, ← h, ih]
    · rw [stroke_setStroke_ne _ _ h, ih]

theorem rev_setEach (f : Stroke → Stroke) (hs : List Handle) (st : Store) : (setEach f hs st).rev = st.rev := by
  induction hs using List.reverseRecOn with
  | nil => rfl
  | append_singleton hs g ih => rw [setEach_concat]; exact ih

/-! ### Erasing -/

/-- The record of a stroke erased into a group (R17). -/
def erasedRecord (g rev : Rev) (r : Stroke) : Stroke :=
  { r with state := .erased, group := some g, eraseRev := some rev, lastRev := rev }

/-- The Erase Queue when strokes have joined the group of this id: the queued one, or a new one at its tail (R99,
R101). -/
def queueJoined (g rev : Rev) (o : Origin) (b : Bool) (hs : List Handle) (q : List EraseGroup) : List EraseGroup :=
  if hs = [] then q
  else if ∃ x ∈ q, x.id = g then
    q.map fun x => if x.id = g then { x with members := x.members ++ hs, lastRev := rev } else x
  else q ++ [⟨g, o, rev, hs, b⟩]

/-- The owners' blocks held after the strokes of a list are erased (R41). -/
def heldFallen (s : State) (hs : List Handle) : State :=
  hs.foldl (fun u h => blocksFall u (s.store.stroke h.idx).owner (s.store.stroke h.idx).chain.length) s

/-- The state when the strokes of a list are erased. -/
def erasedState (g : Rev) (o : Origin) (b : Bool) (hs : List Handle) (s : State) : State :=
  { heldFallen s hs with
    store := setEach (erasedRecord g (upcoming s)) hs s.store
    eraseQueue := queueJoined g (upcoming s) o b hs s.eraseQueue }

theorem blocksFall_eq (u : State) (n : SeatNo) (k : Nat) :
    quotaFell (u.modSeat n fun v => { v with blocksHeld := v.blocksHeld - k }) n = blocksFall u n k := by
  unfold quotaFell blocksFall
  simp only [seat_modSeat, modSeat_modSeat, Bool.and_eq_true, decide_eq_true_eq]
  split
  · congr 1
  · exact modSeat_congr rfl

theorem addNotice_with (u : State) (n : SeatNo) (k : Notice) (st : Store) (q : List EraseGroup) :
    addNotice { u with store := st, eraseQueue := q } n k =
      { addNotice u n k with store := st, eraseQueue := q } := by
  unfold addNotice
  split <;> rfl

theorem blocksFall_with (u : State) (n : SeatNo) (k : Nat) (st : Store) (q : List EraseGroup) :
    blocksFall { u with store := st, eraseQueue := q } n k =
      { blocksFall u n k with store := st, eraseQueue := q } := by
  have hs : ({ u with store := st, eraseQueue := q } : State).seat n = u.seat n := rfl
  unfold blocksFall
  simp only [hs]
  split
  · exact addNotice_with (u.modSeat n _) n _ st q
  · rfl

/-- A stroke joins a queue that the strokes before it have joined (R101). -/
theorem joinGroup_concat {s : State} (g : Rev) (h : Handle) (rev : Rev) (o : Origin) (b : Bool) (hs : List Handle)
    (q : List EraseGroup) (hq : s.eraseQueue = queueJoined g rev o b hs q) :
    joinGroup s g h rev o b = { s with eraseQueue := queueJoined g rev o b (hs ++ [h]) q } := by
  have hid : ∀ s : State, (queuedGroup s g).isSome = true ↔ ∃ x ∈ s.eraseQueue, x.id = g := fun s => by
    simp [queuedGroup]
  unfold joinGroup modGroup
  simp only [hid, hq]
  by_cases hn : hs = []
  · subst hn
    simp only [queueJoined, if_true, List.nil_append, List.cons_ne_nil, if_false]
    split <;> rfl
  · have hne : hs ++ [h] ≠ [] := by simp
    simp only [queueJoined, if_neg hn, if_neg hne]
    by_cases hg : ∃ x ∈ q, x.id = g
    · simp only [if_pos hg]
      rw [if_pos]
      · congr 1
        rw [List.map_map]
        refine List.map_congr_left fun x _ => ?_
        by_cases hx : x.id = g <;> simp [hx]
      · obtain ⟨x, hx, he⟩ := hg
        exact ⟨_, List.mem_map_of_mem hx, by simp [he]⟩
    · simp only [if_neg hg]
      rw [if_pos ⟨⟨g, o, rev, hs, b⟩, by simp, rfl⟩]
      congr 1
      rw [List.map_append]
      congr 1
      · refine (List.map_congr_left fun x hx => ?_).trans (List.map_id _)
        rw [if_neg fun e => hg ⟨x, hx, e⟩]; rfl
      · simp

theorem erasedInto_eq (g : Rev) (o : Origin) (b : Bool) (hs : List Handle) (w : Work) :
    erasedInto g o b hs w = ⟨erasedState g o b hs w.st, w.entries ++ hs.map (eraseEntry w.st .erased g)⟩ := by
  unfold erasedInto
  dsimp only
  split
  · next h => subst h; simp [erasedState, heldFallen, setEach, queueJoined]
  · next h =>
    simp only [erasedState, queueJoined, if_neg h]
    rfl


theorem eraseQueue_joinGroup (s : State) (g : Rev) (h : Handle) (rev : Rev) (o : Origin) (b : Bool) :
    (joinGroup s g h rev o b).eraseQueue = queueJoined g rev o b [h] s.eraseQueue := by
  rw [joinGroup_concat g h rev o b [] s.eraseQueue (by simp [queueJoined])]
  rfl

/-- R17: what erasing a live CLOSED stroke leaves. -/
theorem Tx.erase_closed {h : Handle} (g : Rev) (o : Origin) (b : Bool) (hl : t.st.store.live h = true)
    (hc : (t.st.store.stroke h.idx).state = .closed) :
    t.erase h g o b = { t with
      st := { blocksFall t.st (t.st.store.stroke h.idx).owner (t.st.store.stroke h.idx).chain.length with
        store := t.st.store.setStroke h.idx (erasedRecord g t.rev (t.st.store.stroke h.idx))
        eraseQueue := (joinGroup t.st g h t.rev o b).eraseQueue }
      calls := .erased h g :: t.calls } := by
  obtain ⟨q, hj⟩ : ∃ q, joinGroup t.st g h t.rev o b = { t.st with eraseQueue := q } := by
    unfold joinGroup
    split <;> exact ⟨_, rfl⟩
  unfold Tx.erase
  dsimp only
  rw [if_pos ⟨hl, hc⟩]
  simp only [Tx.on, Tx.call, Tx.rev, modStroke] at hj ⊢
  rw [blocksFall_eq, hj]
  congr 1
  exact blocksFall_with t.st _ _ _ q

/-- The strokes of a list are erased into a group, in order (R17, R99). -/
def Tx.eraseList (g : Rev) (o : Origin) (b : Bool) (hs : List Handle) (t : Tx) : Tx :=
  hs.foldl (fun t h => t.erase h g o b) t

theorem AllIn.of_concat {st : StrokeState} {hs : List Handle} {h : Handle} (ha : AllIn s st (hs ++ [h])) :
    AllIn s st hs ∧ h.idx ∉ hs.map Handle.idx ∧ s.store.live h = true ∧ (s.store.stroke h.idx).state = st := by
  obtain ⟨hn, hm⟩ := ha
  rw [List.map_append, List.nodup_append] at hn
  obtain ⟨hn, -, hd⟩ := hn
  exact ⟨⟨hn, fun g hg => hm g (by simp [hg])⟩, fun hi => hd _ hi h.idx (by simp) rfl, hm h (by simp)⟩

theorem Tx.eraseList_eq (g : Rev) (o : Origin) (b : Bool) {hs : List Handle} (hr : t.rev = upcoming t.st)
    (ha : AllIn t.st .closed hs) :
    Tx.eraseList g o b hs t = { t with
      st := erasedState g o b hs t.st
      calls := (hs.map fun h => Call.erased h g).reverse ++ t.calls } := by
  induction hs using List.reverseRecOn with
  | nil => simp [Tx.eraseList, erasedState, heldFallen, setEach, queueJoined]
  | append_singleton hs h ih =>
    obtain ⟨ha, hi, hl, hc⟩ := ha.of_concat
    have hk : (erasedState g o b hs t.st).store.stroke h.idx = t.st.store.stroke h.idx :=
      stroke_setEach_ne _ _ hi
    have hstep : Tx.eraseList g o b (hs ++ [h]) t = (Tx.eraseList g o b hs t).erase h g o b := by
      simp [Tx.eraseList]
    rw [hstep, ih ha, Tx.erase_closed g o b ((Store.live_congr hk).trans hl) (hk ▸ hc)]
    have hq : (erasedState g o b hs t.st).eraseQueue = queueJoined g t.rev o b hs t.st.eraseQueue := by
      rw [hr]; rfl
    have hf : heldFallen t.st (hs ++ [h]) = blocksFall (heldFallen t.st hs) (t.st.store.stroke h.idx).owner
        (t.st.store.stroke h.idx).chain.length := by simp [heldFallen]
    have hb := blocksFall_with (heldFallen t.st hs) (t.st.store.stroke h.idx).owner
      (t.st.store.stroke h.idx).chain.length (setEach (erasedRecord g (upcoming t.st)) hs t.st.store)
      (queueJoined g (upcoming t.st) o b hs t.st.eraseQueue)
    have hs₁ : erasedState g o b (hs ++ [h]) t.st =
        { blocksFall (erasedState g o b hs t.st) (t.st.store.stroke h.idx).owner
            (t.st.store.stroke h.idx).chain.length with
          store := (erasedState g o b hs t.st).store.setStroke h.idx
            (erasedRecord g t.rev (t.st.store.stroke h.idx))
          eraseQueue := queueJoined g t.rev o b (hs ++ [h]) t.st.eraseQueue } := by
      rw [erasedState, hf, setEach_concat, stroke_setEach_ne _ _ hi, hr, erasedState, hb]
    have hj := joinGroup_concat g h t.rev o b hs t.st.eraseQueue hq
    simp only [Tx.rev] at hj hs₁ ⊢
    rw [hj, hs₁, hk]
    simp only [List.map_append, List.reverse_append, List.map_cons, List.map_nil, List.reverse_singleton,
      List.singleton_append]
    rfl

theorem eraseEntry_eq {a b : Store} {k : EntryKind} {g : Rev} {h : Handle} (s : State) (ha : s.store = a)
    (e : (b.stroke h.idx).reported = (a.stroke h.idx).reported) :
    eraseEntry s k g h = { strokeEntry b (upcoming s) s.timebase k h with group := some g } := by
  simp only [Stroke.reported, Prod.mk.injEq] at e
  simp [eraseEntry, strokeEntry, ha, e]

theorem reported_erasedState (g : Rev) (o : Origin) (b : Bool) (hs : List Handle) (s : State) (i : RecIdx) :
    ((erasedState g o b hs s).store.stroke i).reported = (s.store.stroke i).reported :=
  reported_setEach (f := erasedRecord g (upcoming s)) (fun _ => rfl) hs s.store i

theorem Tx.work_eraseList (g : Rev) (o : Origin) (b : Bool) {hs : List Handle} (h : t.Stamped)
    (ha : AllIn t.st .closed hs) : (Tx.eraseList g o b hs t).work = erasedInto g o b hs t.work := by
  have he := Tx.eraseList_eq g o b h.rev ha
  have hr := reported_erasedState g o b hs t.st
  have hn := Tx.entries_append (t := t) (t₁ := Tx.eraseList g o b hs t) (by rw [he]) (by rw [he])
    fun c _ => Call.stands_of_reported fun k _ => by rw [he]; exact hr k.idx
  rw [erasedInto_eq, Tx.work, hn, he, Tx.work]
  simp only [List.reverse_reverse, List.map_map, Work.mk.injEq, List.append_cancel_left_eq, true_and]
  refine List.map_congr_left fun k _ => ?_
  rw [eraseEntry_eq t.st rfl (hr k.idx), ← h.rev, ← h.time]
  rfl

/-! ### Console erasure -/

theorem grown_grown (n j k : Nat) : grown (grown n j) k = grown n (j + k) := by
  unfold grown
  by_cases hj : j = 0 <;> by_cases hk : k = 0 <;> simp [hj, hk]
  omega

/-- The erase-skip counter grows by the number of strokes skipped (R100). -/
def Tx.skips (k : Nat) (t : Tx) : Tx :=
  t.on fun s => { s with counters := { s.counters with eraseSkip := grown s.counters.eraseSkip k } }

theorem Tx.skip_eq (t : Tx) : t.skip = t.skips 1 := rfl

theorem Tx.skips_skips (j k : Nat) (t : Tx) : (t.skips j).skips k = t.skips (j + k) := by
  simp [Tx.skips, Tx.on, grown_grown]

theorem Tx.skips_zero (t : Tx) : t.skips 0 = t := rfl

theorem Tx.erase_other {h : Handle} {g : Rev} {o : Origin} {b : Bool}
    (hn : ¬(t.st.store.live h = true ∧ (t.st.store.stroke h.idx).state = .closed)) : t.erase h g o b = t :=
  if_neg hn

theorem blocksFall_counters (u : State) (n : SeatNo) (k : Nat) (c : Counters) :
    blocksFall { u with counters := c } n k = { blocksFall u n k with counters := c } := by
  have hs : ({ u with counters := c } : State).seat n = u.seat n := rfl
  unfold blocksFall
  simp only [hs]
  split
  · unfold addNotice
    split <;> rfl
  · rfl

theorem counters_blocksFall (u : State) (n : SeatNo) (k : Nat) : (blocksFall u n k).counters = u.counters := by
  unfold blocksFall
  dsimp only
  split <;> simp

/-- Counting a stroke skipped and erasing another do not meet. -/
theorem Tx.erase_skips (k : Nat) (t : Tx) (h : Handle) (g : Rev) (o : Origin) (b : Bool) :
    (t.erase h g o b).skips k = (t.skips k).erase h g o b := by
  by_cases hc : t.st.store.live h = true ∧ (t.st.store.stroke h.idx).state = .closed
  · have hj : (joinGroup (t.skips k).st g h (t.skips k).rev o b).eraseQueue =
        (joinGroup t.st g h t.rev o b).eraseQueue := by
      rw [eraseQueue_joinGroup, eraseQueue_joinGroup]; rfl
    rw [Tx.erase_closed g o b hc.1 hc.2, Tx.erase_closed (t := t.skips k) g o b hc.1 hc.2, hj]
    have hb := blocksFall_counters t.st (t.st.store.stroke h.idx).owner (t.st.store.stroke h.idx).chain.length
      { t.st.counters with eraseSkip := grown t.st.counters.eraseSkip k }
    simp only [Tx.skips, Tx.on, Tx.rev]
    rw [hb, counters_blocksFall]
  · rw [Tx.erase_other hc, Tx.erase_other (t := t.skips k) hc]

theorem Tx.stroke_erase_ne {h : Handle} {i : RecIdx} (g : Rev) (o : Origin) (b : Bool) (hi : i ≠ h.idx) :
    (t.erase h g o b).st.store.stroke i = t.st.store.stroke i := by
  by_cases hc : t.st.store.live h = true ∧ (t.st.store.stroke h.idx).state = .closed
  · rw [Tx.erase_closed g o b hc.1 hc.2]
    exact stroke_setStroke_ne _ _ hi
  · rw [Tx.erase_other hc]

theorem Tx.erase_base (h : Handle) (g : Rev) (o : Origin) (b : Bool) : (t.erase h g o b).base = t.base :=
  (Tx.moves_erase h g o b).base

theorem AllIn.of_cons {st : StrokeState} {hs : List Handle} {h : Handle} (ha : AllIn s st (h :: hs)) :
    AllIn s st hs ∧ h.idx ∉ hs.map Handle.idx ∧ s.store.live h = true ∧ (s.store.stroke h.idx).state = st := by
  obtain ⟨hn, hm⟩ := ha
  rw [List.map_cons, List.nodup_cons] at hn
  exact ⟨⟨hn.2, fun g hg => hm g (by simp [hg])⟩, hn.1, hm h (by simp)⟩

theorem AllIn.congr {st : StrokeState} {hs : List Handle} (ha : AllIn s st hs)
    (e : ∀ h ∈ hs, u.store.stroke h.idx = s.store.stroke h.idx) : AllIn u st hs :=
  ⟨ha.1, fun h hh => ⟨(Store.live_congr (e h hh)).trans (ha.2 h hh).1, by rw [e h hh]; exact (ha.2 h hh).2⟩⟩

/-- R100, R111 to R113: the matching CLOSED strokes of a list are erased in order, the matching OPEN ones counted.
`met` says of a stroke whether it matches and in which state it stood at the start; no later stroke of the list has
the record of an erased one, since both would match. -/
theorem Tx.eraseAll_eq (keep : Stroke → Bool) (all : List Handle) (t : Tx) (e k : Nat)
    (met : StrokeState → Handle → Bool)
    (hm : ∀ st, ∀ h ∈ all,
      met st h = (keep (t.st.store.stroke h.idx) && decide ((t.st.store.stroke h.idx).state = st)))
    (ha : AllIn t.st .closed (all.filter (met .closed))) :
    Tx.eraseAll keep all (t, e, k) =
      (Tx.eraseList t.rev .console false (all.filter (met .closed)) (t.skips (all.countP (met .opened))),
        e + (all.filter (met .closed)).length, k + all.countP (met .opened)) := by
  induction all generalizing t e k with
  | nil => rfl
  | cons h all ih =>
    have hm' : ∀ st, ∀ g ∈ all,
        met st g = (keep (t.st.store.stroke g.idx) && decide ((t.st.store.stroke g.idx).state = st)) :=
      fun st g hg => hm st g (List.mem_cons_of_mem _ hg)
    unfold Tx.eraseAll
    simp only [← hm .closed h (by simp), ← hm .opened h (by simp)]
    by_cases hc : met .closed h = true
    · have ho : met .opened h = false := by
        have := hm .closed h (by simp)
        have := hm .opened h (by simp)
        simp_all
      simp only [hc, if_true, List.filter_cons_of_pos, List.countP_cons_of_neg (by simpa using ho),
        List.length_cons] at ha ⊢
      obtain ⟨ha, hi, -, -⟩ := ha.of_cons
      have hne : ∀ g ∈ all, g.idx ≠ h.idx ∨ met .closed g = false := fun g hg => by
        by_contra hx
        simp only [not_or, not_not, Bool.not_eq_false] at hx
        exact hi (hx.1 ▸ List.mem_map_of_mem (List.mem_filter.mpr ⟨hg, hx.2⟩))
      have hidx : ∀ g ∈ all, g.idx ≠ h.idx := fun g hg e => by
        have h1 := hm .closed h (by simp)
        have h2 := hm' .closed g hg
        rw [e, ← h1, hc] at h2
        exact (hne g hg).elim (fun hx => hx e) fun hx => by simp [hx] at h2
      have hst : ∀ g ∈ all, (t.erase h t.rev .console false).st.store.stroke g.idx = t.st.store.stroke g.idx :=
        fun g hg => Tx.stroke_erase_ne _ _ _ (hidx g hg)
      rw [ih (t.erase h t.rev .console false) (e + 1) k (fun st g hg => by rw [hst g hg]; exact hm' st g hg)
        (ha.congr fun g hg => hst g (List.mem_of_mem_filter hg))]
      simp only [Tx.rev, Tx.erase_base, Tx.erase_skips, Tx.eraseList, List.foldl_cons]
      simp only [Prod.mk.injEq, true_and, and_true]
      omega
    · by_cases ho : met .opened h = true
      · simp only [Bool.not_eq_true] at hc
        simp only [hc, ho, Bool.false_eq_true, if_false, if_true, List.countP_cons_of_pos,
          List.filter_cons_of_neg (by simpa using hc : ¬met .closed h = true)] at ha ⊢
        rw [ih t.skip e (k + 1) hm' ha, Tx.skip_eq, Tx.skips_skips]
        simp only [Prod.mk.injEq]
        exact ⟨by rw [Nat.add_comm 1]; rfl, trivial, by omega⟩
      · simp only [hc, ho, if_false, Bool.false_eq_true] at ha ⊢
        rw [List.filter_cons_of_neg hc] at ha ⊢
        rw [List.countP_cons_of_neg ho]
        exact ih t e k hm' ha

end Sys2Proof.Machine
end

