-- ==== Sys2Proof/Proofs/ConsoleErasure.lean ====
section
/-! The console's erasing and restoring commands (R109 to R112). -/

namespace Sys2Proof.Machine

variable {s : State} {t : Tx}

/-! ### CLEAR LAYER and ERASE SEAT INK -/

theorem readAll_rPair (a b : Byte) : readAll rPair [a, b] = some (a, b) := rfl

theorem pageOfByte_eq {b : Byte} {p : PageNo} (h : b.toNat = p.val) : pageOfByte b = some p := by
  have := p.isLt
  simp [pageOfByte, h]

theorem pageOfByte_none {b : Byte} (h : 15 < b.toNat) : pageOfByte b = none := by
  simp only [pageOfByte]
  rw [dif_neg (by omega)]

theorem layerOfByte_eq {b : Byte} {l : LayerNo} (h : b.toNat = l.val) : layerOfByte b = some l := by
  have := l.isLt
  simp [layerOfByte, h]

theorem layerOfByte_none {b : Byte} (h : 3 < b.toNat) : layerOfByte b = none := by
  simp only [layerOfByte]
  rw [dif_neg (by omega)]

theorem pagesNamed_all : pagesNamed 0xFF#8 = some (List.finRange 16) := rfl

theorem pagesNamed_page {b : Byte} {p : PageNo} (h : b.toNat = p.val) : pagesNamed b = some [p] := by
  have hb : b ≠ 0xFF#8 := fun e => by
    have := p.isLt
    rw [e] at h
    simp at h
    omega
  simp [pagesNamed, hb, pageOfByte_eq h]

theorem pagesNamed_none {b : Byte} (h : 15 < b.toNat) (hb : b ≠ 0xFF#8) : pagesNamed b = none := by
  simp [pagesNamed, hb, pageOfByte_none h]

theorem erasureReply_nothing (t : Tx) (k : Nat) : erasureReply (t, 0, k) = (t, .nothing, w16 k) := rfl

theorem erasureReply_ok {n : Nat} (k : Nat) (hn : n ≠ 0) (hc : t.calls ≠ []) :
    erasureReply (t, n, k) = (t, .ok, w48 t.rev ++ w16 n ++ w16 k ++ w48 t.rev) := by
  simp [erasureReply, hn, Tx.answer, Tx.revTaken, hc]

/-- What a console erasure does and answers (R100, R111). -/
theorem erasureReply_eraseAll (keep : Stroke → Bool) (all : List Handle) (h : t.Stamped) (hc : t.calls = []) :
    let met (st : StrokeState) (h : Handle) : Bool :=
      keep (t.st.store.stroke h.idx) && decide ((t.st.store.stroke h.idx).state = st)
    let hs := all.filter (met .closed)
    let k := all.countP (met .opened)
    AllIn t.st .closed hs → ∃ t' : Tx,
      erasureReply (Tx.eraseAll keep all (t, 0, 0)) =
        (t', if hs = [] then (.nothing, w16 k)
          else (.ok, w48 (upcoming t.st) ++ w16 hs.length ++ w16 k ++ w48 (upcoming t.st))) ∧
      Tx.Keeps none t t' ∧ t'.work = erasedInto (upcoming t.st) .console false hs
        ⟨{ t.st with counters := { t.st.counters with eraseSkip := grown t.st.counters.eraseSkip k } }, []⟩ := by
  intro met hs k ha
  have he := Tx.eraseAll_eq keep all t 0 0 met (fun _ _ _ => rfl) ha
  have hk := Tx.keeps_eraseAll (a := none) keep all (t, 0, 0)
  have hw : (Tx.eraseList t.rev .console false hs (t.skips k)).work =
      erasedInto t.rev .console false hs (t.skips k).work :=
    Tx.work_eraseList _ _ _ ⟨h.rev_eq, h.time_eq⟩ ha
  have hn : (t.skips k).entries = [] := by simp [Tx.entries, Tx.skips, Tx.on, hc]
  rw [he] at hk ⊢
  refine ⟨_, ?_, hk, ?_⟩
  · show erasureReply (Tx.eraseList t.rev .console false hs (t.skips k), 0 + hs.length, 0 + k) =
      (Tx.eraseList t.rev .console false hs (t.skips k), _)
    rw [Nat.zero_add, Nat.zero_add]
    by_cases hz : hs = []
    · rw [if_pos hz, hz]
      exact erasureReply_nothing _ k
    · have hc' : (Tx.eraseList t.rev .console false hs (t.skips k)).calls ≠ [] := by
        rw [Tx.eraseList_eq (t := t.skips k) _ _ _ h.rev ha]
        simpa using fun e => absurd e hz
      have hr : (Tx.eraseList t.rev .console false hs (t.skips k)).rev = upcoming t.st := by
        rw [← h.rev, Tx.rev, Tx.rev]
        exact congrArg (fun x : State => nextRev x.store.rev) hk.base
      rw [if_neg hz, erasureReply_ok k (by simpa using hz) hc', hr]
  · rw [hw, h.rev, Tx.work, hn]
    rfl


/-- A console erasure served, its list and its match as the statement gives them. -/
theorem serveCommand_erasure {α : Type} {code tag : Byte} {ps : Bytes} {format : Reader α}
    {body : α → Tx → Served} {a : α} {all : List Handle} {keep : Stroke → Bool} (h : ConsoleTurn s code tag ps)
    (hp : readAll format ps = some a)
    (hb : body a (Tx.start (decideGrant s .console)) =
      erasureReply (Tx.eraseAll keep all (Tx.start (decideGrant s .console), 0, 0))) :
    let d := decideGrant s .console
    let met (st : StrokeState) (h : Handle) : Bool :=
      keep (s.store.stroke h.idx) && decide ((s.store.stroke h.idx).state = st)
    let hs := all.filter (met .closed)
    let k := all.countP (met .opened)
    let w := erasedInto (upcoming s) .console false hs
      ⟨{ d with counters := { s.counters with eraseSkip := grown s.counters.eraseSkip k } }, []⟩
    AllIn s .closed hs →
      serveCommand code format body s = settle (answered
        (if hs = [] then ⟨tag, code, .nothing, w16 k⟩
        else ⟨tag, code, .ok, w48 (upcoming s) ++ w16 hs.length ++ w16 k ++ w48 (upcoming s)⟩) (committed d w)) := by
  intro d met hs k w ha
  have hst : d.store = s.store := by simp [d]
  have hu : upcoming d = upcoming s := by simp [upcoming, hst]
  have hcs : d.counters = s.counters := by simp [d]
  obtain ⟨t', he, hk, hw⟩ := erasureReply_eraseAll keep all (Tx.stamped_start d) rfl
    (by simp only [Tx.start, hst]; exact ha.congr fun _ _ => by simp [hst])
  simp only [Tx.start, hst, hu, hcs] at he hw
  have hw' : t'.work = w := hw.trans (by simp only [w, hs, met, k, hst])
  rw [serveCommand_commit (r := if hs = [] then .nothing else .ok) (data := if hs = [] then w16 k else _) h hp
    (hb.trans (he.trans _)) ((Tx.stamped_start d).keeps hk) hk.base, hw']
  · split <;> rfl
  · split <;> rfl

theorem exec_clearLayer_range {tag a b : Byte} (h : ConsoleTurn s 0x12#8 tag [a, b])
    (hr : 15 < a.toNat ∨ 3 < b.toNat) :
    exec .clearLayer s = .next (settle (replied s ⟨tag, 0x12#8, .range, []⟩)) := by
  refine congrArg Host.Outcome.next (serveCommand_quiet h (readAll_rPair a b) ?_)
  rcases hr with hr | hr
  · simp only [pageOfByte_none hr]; rfl
  · simp only [layerOfByte_none hr]
    cases pageOfByte a <;> rfl

theorem exec_eraseSeatInk_range {tag a b : Byte} (h : ConsoleTurn s 0x13#8 tag [a, b])
    (hr : 39 < a.toNat ∨ (15 < b.toNat ∧ b ≠ 0xFF#8)) :
    exec .eraseSeatInk s = .next (settle (replied s ⟨tag, 0x13#8, .range, []⟩)) := by
  refine congrArg Host.Outcome.next (serveCommand_quiet h (readAll_rPair a b) ?_)
  rcases hr with hr | ⟨hr, hb⟩
  · simp only [seatOfByte_none hr]; rfl
  · simp only [pagesNamed_none hr hb]
    cases seatOfByte a <;> rfl

/-- Settles O36: a page-layer or a seat's strokes are a list and a match, and a console erasure over a list is
`eraseAll`. -/
theorem consoleErasureTakesTheClosedStrokes : Obligations.ConsoleErasureTakesTheClosedStrokes := by
  unfold Obligations.ConsoleErasureTakesTheClosedStrokes
  intro s tag row code a b all keep h d
  constructor
  · rintro (⟨rfl, rfl, hr⟩ | ⟨rfl, rfl, hr⟩)
    · exact exec_clearLayer_range h hr
    · exact exec_eraseSeatInk_range h hr
  · rintro (⟨rfl, rfl, hk, p, l, hp, hl, rfl⟩ | ⟨rfl, rfl, ⟨n, hn, hk⟩, pages, hp, rfl⟩) met hs skipped w ha
    · obtain rfl : keep = fun _ => true := funext hk
      show execClearLayer s = _
      unfold execClearLayer
      rw [serveCommand_erasure (keep := fun _ => true) (all := s.store.zlist p l) h (readAll_rPair a b) ?_ ha]
      simp only [pageOfByte_eq hp, layerOfByte_eq hl, clearLayerBody, Tx.start, decideGrant_store]
    · obtain rfl : keep = fun r => decide (r.owner = n) := funext hk
      have hpages : pagesNamed b = some pages := by
        rcases hp with ⟨rfl, rfl⟩ | ⟨p, hp, rfl⟩
        · exact pagesNamed_all
        · exact pagesNamed_page hp
      show execEraseSeatInk s = _
      unfold execEraseSeatInk
      rw [serveCommand_erasure (keep := fun r => decide (r.owner = n))
        (all := pages.flatMap fun p => (List.finRange 4).flatMap fun l => s.store.zlist p l) h (readAll_rPair a b)
        ?_ ha]
      simp only [seatOfByte_eq hn, hpages, Tx.eraseSeat, strokesOf, Tx.start, decideGrant_store]

end Sys2Proof.Machine
end

