-- ==== Sys2Proof/Proofs/Restoring.lean ====
section
/-! Restoring a queued group (R18, R109), and the command RESTORE GROUP (R110). -/

namespace Sys2Proof.Machine

variable {s : State} {t : Tx}

/-- The record of a stroke restored (R18). -/
def restoredRecord (rev : Rev) (r : Stroke) : Stroke :=
  { r with state := .closed, group := none, eraseRev := none, lastRev := rev }

/-- The owners' blocks held after the strokes of a list are restored (R41). -/
def heldRisen (s : State) (hs : List Handle) : State :=
  hs.foldl (fun u h => u.modSeat (s.store.stroke h.idx).owner fun v =>
    { v with blocksHeld := v.blocksHeld + (s.store.stroke h.idx).chain.length }) s

/-- The state when the strokes of a list are restored. -/
def restoredState (hs : List Handle) (s : State) : State :=
  { heldRisen s hs with store := setEach (restoredRecord (upcoming s)) hs s.store }

/-- R18: what restoring a live ERASED stroke leaves. -/
theorem Tx.restoreStroke_erased {h : Handle} (g : Rev) (hl : t.st.store.live h = true)
    (hc : (t.st.store.stroke h.idx).state = .erased) :
    Tx.restoreStroke g t h = { t with
      st := { t.st.modSeat (t.st.store.stroke h.idx).owner fun v =>
          { v with blocksHeld := v.blocksHeld + (t.st.store.stroke h.idx).chain.length } with
        store := t.st.store.setStroke h.idx (restoredRecord t.rev (t.st.store.stroke h.idx)) }
      calls := .restored h g :: t.calls } := by
  unfold Tx.restoreStroke
  dsimp only
  rw [if_pos ⟨hl, hc⟩]
  rfl

theorem Tx.restoreList_eq (g : Rev) {hs : List Handle} (hr : t.rev = upcoming t.st) (ha : AllIn t.st .erased hs) :
    hs.foldl (Tx.restoreStroke g) t = { t with
      st := restoredState hs t.st
      calls := (hs.map fun h => Call.restored h g).reverse ++ t.calls } := by
  induction hs using List.reverseRecOn with
  | nil => simp [restoredState, heldRisen, setEach]
  | append_singleton hs h ih =>
    obtain ⟨ha, hi, hl, hc⟩ := ha.of_concat
    have hk : (restoredState hs t.st).store.stroke h.idx = t.st.store.stroke h.idx := stroke_setEach_ne _ _ hi
    have hs₁ : restoredState (hs ++ [h]) t.st =
        { (restoredState hs t.st).modSeat (t.st.store.stroke h.idx).owner fun v =>
            { v with blocksHeld := v.blocksHeld + (t.st.store.stroke h.idx).chain.length } with
          store := (restoredState hs t.st).store.setStroke h.idx (restoredRecord t.rev (t.st.store.stroke h.idx)) } := by
      simp only [restoredState, heldRisen, setEach_concat, stroke_setEach_ne _ _ hi, hr, List.foldl_append,
        List.foldl_cons, List.foldl_nil]
      rfl
    rw [List.foldl_append, ih ha, List.foldl_cons, List.foldl_nil,
      Tx.restoreStroke_erased g ((Store.live_congr hk).trans hl) (hk ▸ hc)]
    simp only [Tx.rev] at hs₁ ⊢
    rw [hs₁, hk]
    simp only [List.map_append, List.reverse_append, List.map_cons, List.map_nil, List.reverse_singleton,
      List.singleton_append]
    rfl

/-- A seat's eraser context without the group it held (R102). -/
def droppedGroup (g : Rev) (v : Seat) : Seat :=
  { v with item := v.item.map fun i =>
      match i.kind with
      | .eraser tag l p (some x) => if x = g then { i with kind := .eraser tag l p none } else i
      | _ => i }

theorem dropContexts_eq (s : State) (g : Rev) :
    dropContexts s g = { s with seats := s.seats.map (droppedGroup g) } := by
  unfold dropContexts
  congr 2
  funext v
  unfold droppedGroup
  have hv : ∀ i, v.item = i → v = { v with item := i } := fun i e => by rw [← e]
  cases hi : v.item with
  | none => exact hv _ hi
  | some i =>
    obtain ⟨k, l, d, p, x⟩ := i
    cases k with
    | eraser tag y z o =>
      cases o with
      | none => exact hv _ hi
      | some o =>
        by_cases ho : o = g
        · simp [ho]
        · simpa [ho] using hv _ hi
    | _ => exact hv _ hi

theorem restored_eq (x : EraseGroup) (w : Work) :
    restored x w =
      ⟨dropContexts { restoredState x.members w.st with
          eraseQueue := w.st.eraseQueue.filter fun y => decide (y.id ≠ x.id) } x.id,
        w.entries ++ x.members.map (eraseEntry w.st .restored x.id)⟩ := by
  rw [dropContexts_eq]
  rfl

theorem eraseQueue_restoredState (hs : List Handle) (s : State) :
    (restoredState hs s).eraseQueue = s.eraseQueue := by
  unfold restoredState heldRisen
  induction hs using List.reverseRecOn with
  | nil => rfl
  | append_singleton hs h ih => simpa using ih

theorem Tx.work_restoreGroup (x : EraseGroup) (h : t.Stamped) (ha : AllIn t.st .erased x.members) :
    (t.restoreGroup x).work = restored x t.work := by
  have he := Tx.restoreList_eq x.id h.rev ha
  have hg : t.restoreGroup x = { t with
      st := dropContexts { restoredState x.members t.st with
        eraseQueue := t.st.eraseQueue.filter fun y => decide (y.id ≠ x.id) } x.id
      calls := (x.members.map fun h => Call.restored h x.id).reverse ++ t.calls } := by
    simp only [Tx.restoreGroup, he, Tx.on, eraseQueue_restoredState]
  have hr : ∀ i, ((t.restoreGroup x).st.store.stroke i).reported = (t.st.store.stroke i).reported := fun i => by
    rw [hg]
    exact reported_setEach (f := restoredRecord (upcoming t.st)) (fun _ => rfl) x.members t.st.store i
  have hn := Tx.entries_append (t := t) (t₁ := t.restoreGroup x) (by rw [hg]) (by rw [hg]) fun c _ =>
    Call.stands_of_reported fun k _ => hr k.idx
  rw [restored_eq, Tx.work, hn]
  simp only [Tx.work, Work.mk.injEq, List.append_cancel_left_eq, List.reverse_reverse, List.map_map]
  refine ⟨by rw [hg], List.map_congr_left fun k _ => ?_⟩
  rw [eraseEntry_eq t.st rfl (hr k.idx), ← h.rev, ← h.time]
  rfl

/-! ### RESTORE GROUP -/

theorem r16_w16_mod (n : Nat) (bs : Bytes) : r16 (w16 n ++ bs) = some (n % 65536, bs) := by
  simp only [w16, List.cons_append, List.nil_append, r16, BitVec.toNat_ofNat]
  congr 2
  omega

theorem r32_w32_mod (n : Nat) (bs : Bytes) : r32 (w32 n ++ bs) = some (n % 4294967296, bs) := by
  unfold r32 w32
  simp only [List.append_assoc, r16_w16_mod, Option.bind_eq_bind, Option.bind_some]
  congr 2
  omega

theorem readAll_r48 (g : BitVec 48) : readAll r48 (w48 g) = some g := by
  have h : r48 (w48 g) = some (g, []) := by
    unfold r48 w48
    rw [r16_w16_mod, ← List.append_nil (w32 g.toNat)]
    simp only [r32_w32_mod, Option.bind_eq_bind, Option.bind_some]
    congr 2
    apply BitVec.eq_of_toNat_eq
    have := g.isLt
    simp only [BitVec.toNat_ofNat]
    omega
  simp [readAll, h]

theorem queuedGroup_none {g : Rev} (h : ∀ x ∈ s.eraseQueue, x.id ≠ g) : queuedGroup s g = none := by
  unfold queuedGroup
  exact List.find?_eq_none.mpr fun x hx => by simpa using h x hx

theorem wOrigin_eq (o : Origin) : wOrigin o = match o with
    | .seat n => [1#8, BitVec.ofNat 8 n.val]
    | .console => [0#8, 0#8] := by
  cases o <;> rfl

/-- Settles O37, from what restoring a list of distinct strokes does. -/
theorem restoreGroupRestoresEveryMember : Obligations.RestoreGroupRestoresEveryMember := by
  unfold Obligations.RestoreGroupRestoresEveryMember
  intro s tag g h
  have hq : (decideGrant s .console).eraseQueue = s.eraseQueue := by simp
  constructor
  · intro hx
    refine congrArg Host.Outcome.next (serveCommand_quiet h (readAll_r48 g) ?_)
    simp only [Tx.start, queuedGroup_none (s := decideGrant s .console) (hq ▸ hx)]
    rfl
  · intro x hx ha d w
    have hx' : queuedGroup (Tx.start d).st g = some x := by
      simp only [Tx.start, queuedGroup, d, hq]; exact hx
    have hk : Tx.Keeps none (Tx.start d) ((Tx.start d).restoreGroup x) := Tx.keeps_restoreGroup x
    have hw : ((Tx.start d).restoreGroup x).work = w :=
      Tx.work_restoreGroup x (Tx.stamped_start d) (ha.congr fun _ _ => by simp [Tx.start, d])
    have hs := (Tx.stamped_start d).keeps hk
    have hr := hs.revTaken
    show execRestoreGroup s = _
    unfold execRestoreGroup
    rw [serveCommand_commit (t := (Tx.start d).restoreGroup x) h (readAll_r48 g) (r := .ok) ?_ hs hk.base, hw]
    have hd : decideGrant s .console = d := rfl
    simp only [hd, hx', Tx.answer, hr, hw, wOrigin_eq] <;> rfl

end Sys2Proof.Machine
end

