-- ==== Sys2Proof/Proofs/ItemEnd.lean ====
section
/-! The end of an open item (R82, R84, R89, R96) as the statements name it: `ended` and `cutServed`. -/

namespace Sys2Proof.Machine

variable {s : State} {t t₁ : Tx}

/-- What a call reports does not depend on a stroke's flags. -/
def Call.FlagFree (c : Call) : Prop := ∃ h g, c = .erased h g

theorem Call.FlagFree.stands {a b : Store} {c : Call} (hc : c.FlagFree)
    (e : ∀ i, ∃ f, (b.stroke i).reported = { a.stroke i with flags := f }.reported) : c.Stands a b := by
  obtain ⟨h, g, rfl⟩ := hc
  intro rev time
  obtain ⟨f, hf⟩ := e h.idx
  simp only [Stroke.reported, Prod.mk.injEq] at hf
  simp_all [Call.entry, strokeEntry]

theorem Tx.endItem_none {n : SeatNo} (c : CloseCause) (hi : (t.st.seat n).item = none) : t.endItem n c = t := by
  simp [Tx.endItem, hi]

theorem ended_none {n : SeatNo} (c : CloseCause) {w : Work} (hi : (w.st.seat n).item = none) : ended n c w = w := by
  simp [ended, hi]

/-- An open ink stroke closed for a cause other than SPLIT, and its item gone (R16, R89). -/
theorem Tx.closeInk_itemGone {n : SeatNo} {h : Handle} {tag : Byte} {c : CloseCause} (hs : c ≠ .split)
    (hst : t.Stamped) (hl : t.st.store.live h = true) (ho : (t.st.store.stroke h.idx).state = .opened) :
    (t.closeInk n h tag c).on (setItem · n none) = { t with
      st := { t.st.modSeat n (closedSeat · h tag) with
        store := t.st.store.setStroke h.idx (closedStroke t.st (t.st.store.stroke h.idx) c) }
      calls := .closed h :: t.calls
      closed := some h } := by
  have hr : closedStroke t.st (t.st.store.stroke h.idx) c = { t.st.store.stroke h.idx with
      state := .closed, closeTime := some t.time, flags := (t.st.store.stroke h.idx).flags.closedBy c
      lastRev := t.rev } := by
    rw [hst.time, hst.rev]; rfl
  unfold Tx.closeInk
  rw [if_pos ⟨hl, ho⟩, hr]
  simp only [if_neg hs, Tx.on, Tx.call, modStroke, setItem, pushUndo, modSeat_modSeat]
  rfl

theorem ended_ink {n : SeatNo} {c : CloseCause} {w : Work} {h : Handle} {tag : Byte}
    (hi : (w.st.seat n).item.map OpenItem.kind = some (.ink h tag)) (hl : w.st.store.live h = true)
    (ho : (w.st.store.stroke h.idx).state = .opened) :
    ended n c w =
      ⟨{ w.st.modSeat n (closedSeat · h tag) with
          store := w.st.store.setStroke h.idx (closedStroke w.st (w.st.store.stroke h.idx) c) },
        w.entries ++ [closedEntry w.st h (closedStroke w.st (w.st.store.stroke h.idx) c)]⟩ := by
  unfold ended
  simp only [hi]
  rw [if_pos ⟨hl, ho⟩]

/-- A CLOSED stroke keeps what is reported of it but for its flags. -/
theorem reported_closed (h : Handle) (c : CloseCause) (i : RecIdx) :
    ∃ f, ((s.store.setStroke h.idx (closedStroke s (s.store.stroke h.idx) c)).stroke i).reported =
      { s.store.stroke i with flags := f }.reported := by
  by_cases hx : i = h.idx
  · subst hx
    exact ⟨_, by rw [stroke_setStroke]; rfl⟩
  · exact ⟨_, by rw [stroke_setStroke_ne _ _ hx]⟩

/-- The open ink stroke closed and its item gone is the `ended` of the statements (R89). -/
theorem Tx.work_closeInk {n : SeatNo} {h : Handle} {tag : Byte} {c : CloseCause} (hs : c ≠ .split)
    (hst : t.Stamped) (hc : ∀ k ∈ t.calls, k.FlagFree)
    (hi : (t.st.seat n).item.map OpenItem.kind = some (.ink h tag)) (hl : t.st.store.live h = true)
    (ho : (t.st.store.stroke h.idx).state = .opened) :
    ((t.closeInk n h tag c).on (setItem · n none)).work = ended n c t.work := by
  rw [Tx.closeInk_itemGone hs hst hl ho, ended_ink (w := t.work) hi hl ho]
  have hn := Tx.entries_append (t := t) (cs := [.closed h]) (t₁ := { t with
      st := { t.st.modSeat n (closedSeat · h tag) with
        store := t.st.store.setStroke h.idx (closedStroke t.st (t.st.store.stroke h.idx) c) }
      calls := .closed h :: t.calls
      closed := some h }) rfl rfl fun k hk => (hc k hk).stands (reported_closed h c)
  simp only [Tx.work, hn, Work.mk.injEq, List.append_cancel_left_eq, true_and]
  simp [Call.entry, strokeEntry, closedEntry, hst.rev, hst.time]

theorem Tx.work_endItem (n : SeatNo) {c : CloseCause} (hs : c ≠ .split) (hst : t.Stamped)
    (hc : ∀ k ∈ t.calls, k.FlagFree) : (t.endItem n c).work = ended n c t.work := by
  have hgone : (t.on (setItem · n none)).work = ⟨itemGone t.work.st n, t.work.entries⟩ := rfl
  cases hi : (t.st.seat n).item with
  | none => rw [Tx.endItem_none c hi, ended_none c (w := t.work) hi]
  | some i =>
    obtain ⟨k, l, d, p, x⟩ := i
    have hk : (t.work.st.seat n).item.map OpenItem.kind = some k := by simp [Tx.work, hi]
    cases k with
    | ink h tag =>
      have he : t.endItem n c = (t.closeInk n h tag c).on (setItem · n none) := by simp only [Tx.endItem, hi]
      by_cases ho : t.st.store.live h = true ∧ (t.st.store.stroke h.idx).state = .opened
      · rw [he, Tx.work_closeInk hs hst hc hk ho.1 ho.2]
      · rw [he, ended]
        simp only [hk]
        simp only [Tx.closeInk, if_neg ho]
        exact hgone.trans (if_neg ho).symm
    | eraser tag y z g =>
      cases g with
      | none => simpa [Tx.endItem, ended, hi, hk, Tx.closeEraser] using hgone
      | some g =>
        have he : t.endItem n c = { t with st :=
            { t.st.modSeat n (fun v =>
                { v with item := none, undo := (UndoEntry.erase g :: v.undo).take Config.undoDepth }) with
              eraseQueue := t.st.eraseQueue.map fun x => if x.id = g then { x with isOpen := false } else x } } := by
          simp only [Tx.endItem, hi, Tx.closeEraser, Tx.on, setItem, pushUndo, modGroup, modSeat_modSeat]
          rfl
        rw [he, ended]
        simp only [hk]
        rfl
    | armed _ _ _ _ => simpa [Tx.endItem, ended, hi, hk] using hgone
    | held _ => simpa [Tx.endItem, ended, hi, hk] using hgone

/-- A due cut served first is the `cutServed` of the statements (R73, R97). -/
theorem Tx.work_serveCut (n : SeatNo) (hst : t.Stamped) (hc : ∀ k ∈ t.calls, k.FlagFree) :
    (t.serveCut n).work = cutServed n t.work := by
  have he := Tx.work_endItem n (c := .cut) (by decide) hst hc
  unfold Tx.serveCut cutServed
  by_cases hd : (t.st.seat n).cutDue = true
  · rw [if_pos hd, if_pos (show (t.work.st.seat n).cutDue = true from hd), ← he]
    rfl
  · rw [if_neg hd, if_neg (show ¬(t.work.st.seat n).cutDue = true from hd)]

end Sys2Proof.Machine
end

