-- ==== Sys2Proof/Proofs/Barring.lean ====
section
/-! BAR (R36): the erase step, the cut, the hand and the notice in one transaction. -/

namespace Sys2Proof.Machine

variable {s : State} {t : Tx}

theorem barBody_idle {n : SeatNo} (hv : (t.st.seat n).state = .vacant ∨ (t.st.seat n).state = .barred) :
    barBody n t = (t, .state, []) := by
  unfold barBody
  rcases hv with hv | hv <;> simp only [hv] <;> rfl

/-- The hand lowered, the seat barred, the notice given. -/
def barredSeat (n : SeatNo) (u : State) : State :=
  addNotice { u.modSeat n (fun v => { v with state := .barred, handUp := false }) with
    hands := u.hands.filter fun m => decide (m ≠ n) } n .barred

theorem barredSeat_eq (n : SeatNo) (u : State) :
    addNotice (setSeatState (lowerHand u n) n .barred) n .barred = barredSeat n u := by
  have h : u.modSeat n (fun v => { v with state := .barred, handUp := false }) =
      (u.modSeat n fun v => { v with handUp := false }).modSeat n fun v => { v with state := .barred } := by
    rw [modSeat_modSeat]
  rw [barredSeat, h]
  rfl

theorem store_barredSeat (n : SeatNo) (u : State) : (barredSeat n u).store = u.store := by simp [barredSeat]

theorem timebase_barredSeat (n : SeatNo) (u : State) : (barredSeat n u).timebase = u.timebase := by simp [barredSeat]

/-- An operation that leaves the store leaves the entries. -/
theorem Tx.work_on {f : State → State} (h : (f t.st).store = t.st.store) : (t.on f).work = ⟨f t.st, t.entries⟩ := by
  simp only [Tx.work, Tx.entries, Tx.on, Tx.rev, Tx.time, h]

theorem barBody_seated {n : SeatNo} (hv : (t.st.seat n).state = .admitted ∨ (t.st.seat n).state = .muted) :
    let e := t.eraseSeat n (List.finRange 16)
    let t' := (e.1.cutSeat n).on (barredSeat n)
    barBody n t =
      (t', .ok, w48 t'.revTaken ++ wOpt 6 w48 (if 0 < e.2.1 then some t'.rev else none) ++ w16 e.2.2) := by
  intro e t'
  have ht : ((e.1.cutSeat n).on (lowerHand · n)).on (fun s => addNotice (setSeatState s n .barred) n .barred) = t' := by
    simp only [Tx.on, barredSeat_eq, t']
  unfold barBody
  rcases hv with hv | hv <;> simp only [hv] <;> rw [ht] <;> rfl

/-- The erase step and the cut of a BAR, as the statement names them. -/
theorem Tx.work_eraseSeat_cutSeat (n : SeatNo) (h : t.Stamped) (hc : t.calls = []) :
    let all := strokesOf t.st.store (List.finRange 16)
    let own (st : StrokeState) (h : Handle) : Bool :=
      decide ((t.st.store.stroke h.idx).owner = n ∧ (t.st.store.stroke h.idx).state = st)
    let hs := all.filter (own .closed)
    let k := all.countP (own .opened)
    let e := t.eraseSeat n (List.finRange 16)
    AllIn t.st .closed hs → e.2.1 = hs.length ∧ e.2.2 = k ∧ Tx.Keeps none t (e.1.cutSeat n) ∧
      (e.1.cutSeat n).work = ended n .cut (erasedInto (upcoming t.st) .console false hs
        ⟨{ t.st with counters := { t.st.counters with eraseSkip := grown t.st.counters.eraseSkip k } }, []⟩) := by
  intro all own hs k e ha
  have he : e = (Tx.eraseList t.rev .console false hs (t.skips k), 0 + hs.length, 0 + k) :=
    Tx.eraseAll_eq _ all t 0 0 own (fun st h _ => by simp [own]) ha
  have hke : Tx.Keeps none t e.1 := Tx.keeps_eraseSeat n _
  have hw : (Tx.eraseList t.rev .console false hs (t.skips k)).work =
      erasedInto t.rev .console false hs (t.skips k).work :=
    Tx.work_eraseList _ _ _ ⟨h.rev_eq, h.time_eq⟩ ha
  have hn : (t.skips k).entries = [] := by simp [Tx.entries, Tx.skips, Tx.on, hc]
  have hf : ∀ c ∈ e.1.calls, c.FlagFree := by
    rw [he]
    show ∀ c ∈ (Tx.eraseList t.rev .console false hs (t.skips k)).calls, c.FlagFree
    rw [Tx.eraseList_eq (t := t.skips k) _ _ _ h.rev ha]
    intro c hm
    simp only [Tx.skips, Tx.on, hc, List.append_nil, List.mem_reverse, List.mem_map] at hm
    obtain ⟨g, -, rfl⟩ := hm
    exact ⟨g, t.rev, rfl⟩
  refine ⟨by rw [he]; simp, by rw [he]; simp, hke.trans (Tx.keeps_cutSeat n), ?_⟩
  show (e.1.endItem n .cut).work = _
  rw [Tx.work_endItem n (by decide) (h.keeps hke) hf, he]
  show ended n .cut (Tx.eraseList t.rev .console false hs (t.skips k)).work = _
  rw [hw, h.rev, Tx.work, hn]
  rfl

/-- Settles O31: the erase step over all page-layers, then the cut, then the hand and the notice. -/
theorem barErasesTheSeatsInk : Obligations.BarErasesTheSeatsInk := by
  unfold Obligations.BarErasesTheSeatsInk
  intro s tag b h d
  have hp : readAll rSeat [b] = some b := readAll_r8 b
  have hst : d.store = s.store := by simp [d]
  have hseat : ∀ m, d.seat m = s.seat m := fun m => seat_decideGrant s .console m
  refine ⟨fun hb => congrArg Host.Outcome.next (serveCommand_quiet h hp ?_), fun n hn => ?_⟩
  · simp only [onSeat, seatOfByte_none hb]; rfl
  intro all own hs skipped w group
  refine ⟨fun hv => congrArg Host.Outcome.next (serveCommand_quiet h hp ?_), fun hv ha => ?_⟩
  · simp only [onSeat, hn]
    exact barBody_idle (t := Tx.start d) (by simpa [Tx.start, hseat] using hv)
  · have hup : upcoming d = upcoming s := by simp [upcoming, hst]
    have hcs : d.counters = s.counters := by simp [d]
    obtain ⟨h1, h2, hk, hw⟩ := Tx.work_eraseSeat_cutSeat (t := Tx.start d) n (Tx.stamped_start d) rfl (by
      simp only [Tx.start, hst]
      exact ha.congr fun _ _ => by simp [hst])
    generalize he : (Tx.start d).eraseSeat n (List.finRange 16) = e at h1 h2 hk hw
    have hT : (e.1.cutSeat n).work = w := by
      rw [hw]
      simp only [Tx.start, hup, hcs, hst, w, hs, own, skipped, all, strokesOf]
    have hS : (e.1.cutSeat n).Stamped := (Tx.stamped_start d).keeps hk
    have hS' : ((e.1.cutSeat n).on (barredSeat n)).Stamped :=
      hS.on (by rw [store_barredSeat]) (timebase_barredSeat n _)
    have hhands : w.st.hands = s.hands := by
      rw [← hT, Tx.work, hk.st.frame]
      simp [Tx.start, d]
    have hwork : ((e.1.cutSeat n).on (barredSeat n)).work = ⟨addNotice
        { w.st.modSeat n (fun v => { v with state := .barred, handUp := false }) with
          hands := s.hands.filter fun m => decide (m ≠ n) } n .barred, w.entries⟩ := by
      rw [Tx.work_on (store_barredSeat n _), ← hhands, ← hT]
      rfl
    have hrev : ((e.1.cutSeat n).on (barredSeat n)).revTaken = w.rev := by
      rw [← hT, ← hS.revTaken]
      rfl
    show execBar s = _
    unfold execBar
    rw [serveCommand_commit (t := (e.1.cutSeat n).on (barredSeat n)) (r := .ok)
      (data := w48 w.rev ++ group ++ w16 skipped) h hp ?_ hS' hk.base, hwork]
    simp only [onSeat, hn]
    rw [barBody_seated (t := Tx.start d) (by simpa [Tx.start, hseat] using hv), he, hrev]
    have h1' : e.2.1 = hs.length := by rw [h1]; simp only [Tx.start, hst, hs, own, all, strokesOf]
    have h2' : e.2.2 = skipped := by rw [h2]; simp only [Tx.start, hst, skipped, own, all, strokesOf]
    have hrev' : ((e.1.cutSeat n).on (barredSeat n)).rev = upcoming s := by
      rw [← hup]
      exact congrArg (fun x : State => nextRev x.store.rev) hk.base
    have hgroup : wOpt 6 w48 (if 0 < e.2.1 then some ((e.1.cutSeat n).on (barredSeat n)).rev else none) = group := by
      rw [h1', hrev']
      by_cases hz : hs = []
      · simp only [group, if_pos hz, hz]; rfl
      · have : 0 < hs.length := List.length_pos_iff.mpr hz
        simp only [group, if_neg hz, if_pos this]; rfl
    rw [hgroup, h2']

end Sys2Proof.Machine
end

