-- ==== Sys2Proof/Proofs/Deliveries.lean ====
section
/-! How the points of a POINTS, an ADD POINTS or a MOVE reach the seat (R73, R83, R87), and the deadline they set
(R75). -/

namespace Sys2Proof.Machine

variable {s u : State} {t t' : Tx} {n : SeatNo}

/-! ### The deadline -/

theorem joinDue_resetting (h : s.cls.state = .resetting) : joinDue s n = s := if_pos h

theorem joinDue_running (h : s.cls.state ≠ .resetting) :
    joinDue s n = { s with maint := { s.maint with due := s.maint.due ||| BitVec.twoPow 40 n.val } } := if_neg h

theorem setDeadline_eq (u : State) (n : SeatNo) (sample : Time) : setDeadline u n sample = timed u n sample := by
  have hd : sample + ms (idleOf u n) = deadlineOf u n sample := rfl
  unfold setDeadline timed modItem
  rw [hd]
  have hi : itemDue (u.modSeat n fun v =>
        { v with item := v.item.map fun i => { i with deadline := deadlineOf u n sample } }) n =
      ((u.seat n).item.isSome && reached u.timebase (deadlineOf u n sample)) := by
    simp only [itemDue, seat_modSeat, modSeat_timebase]
    cases (u.seat n).item <;> rfl
  dsimp only
  rw [hi]
  by_cases hc : (u.seat n).item.isSome = true ∧ u.cls.state ≠ .resetting ∧
      reached u.timebase (deadlineOf u n sample) = true
  · rw [if_pos hc, if_pos (by rw [hc.1, hc.2.2]; rfl)]
    exact joinDue_running hc.2.1
  · rw [if_neg hc]
    split
    · next h =>
      have hr : u.cls.state = .resetting := by
        by_contra hr
        exact hc ⟨(Bool.and_eq_true_iff.mp h).1, hr, (Bool.and_eq_true_iff.mp h).2⟩
      exact joinDue_resetting hr
    · rfl

theorem store_timed (u : State) (n : SeatNo) (sample : Time) : (timed u n sample).store = u.store := rfl

/-- The deadline moves last, and leaves the entries. -/
theorem Tx.work_deadline (t : Tx) (n : SeatNo) (sample : Time) :
    (t.on (setDeadline · n sample)).work = ⟨timed t.st n sample, t.entries⟩ := by
  rw [Tx.work_on (f := fun s => setDeadline s n sample) (by rw [setDeadline_eq]; rfl), setDeadline_eq]

theorem item_timed (u : State) (n : SeatNo) (sample : Time) :
    ((timed u n sample).seat n).item = (u.seat n).item.map fun i => { i with deadline := deadlineOf u n sample } := by
  have h : (timed u n sample).seat n = (u.modSeat n fun v =>
      { v with item := v.item.map fun i => { i with deadline := deadlineOf u n sample } }).seat n := rfl
  rw [h, seat_modSeat]

/-! ### A seat without a due cut -/

theorem Tx.serveCut_notDue (h : (t.st.seat n).cutDue = false) : t.serveCut n = t := by
  simp [Tx.serveCut, h]

/-! ### Parameters -/

theorem rPoint_point (p : RawPoint) (bs : Bytes) :
    rPoint (w16 p.ux.toNat ++ w16 p.uy.toNat ++ w16 p.pressure.toNat ++ bs) = some (p, bs) := by
  unfold rPoint
  simp only [List.append_assoc]
  rw [r16_w16 _ p.ux.isLt]
  simp only [Option.bind_eq_bind, Option.bind_some]
  rw [r16_w16 _ p.uy.isLt]
  simp only [Option.bind_some]
  rw [r16_w16 _ p.pressure.isLt]
  simp

theorem rPoints_points (pts : List RawPoint) (bs : Bytes) :
    rPoints pts.length
      (pts.flatMap (fun p => w16 p.ux.toNat ++ w16 p.uy.toNat ++ w16 p.pressure.toNat) ++ bs) = some (pts, bs) := by
  induction pts with
  | nil => rfl
  | cons p pts ih =>
    simp only [List.flatMap_cons, List.length_cons, rPoints, List.append_assoc (w16 _ ++ w16 _ ++ w16 _)]
    rw [rPoint_point]
    simp only [Option.bind_eq_bind, Option.bind_some, ih]

theorem readAll_rAddPoints (n : SeatNo) (tag : Byte) {pts : List RawPoint} (h : pts.length < 65536) :
    readAll rAddPoints (DrawInput.params n (.points tag pts)) = some (BitVec.ofNat 8 n.val, tag, pts) := by
  have hr : rAddPoints (DrawInput.params n (.points tag pts)) = some ((BitVec.ofNat 8 n.val, tag, pts), []) := by
    unfold rAddPoints DrawInput.params
    simp only [w8, List.cons_append, List.nil_append, r8, Option.bind_eq_bind, Option.bind_some]
    rw [r16_w16 _ h]
    simp only [Option.bind_some]
    rw [← List.append_nil (List.flatMap _ pts), rPoints_points]
    rfl
  simp [readAll, hr]

theorem seatOfConsole_eq (h : 36 ≤ n.val) : seatOfConsole (BitVec.ofNat 8 n.val) = some n := by
  have := n.isLt
  have hb : (BitVec.ofNat 8 n.val).toNat = n.val := by
    simp only [BitVec.toNat_ofNat]
    omega
  simp only [seatOfConsole, hb]
  rw [dif_pos ⟨h, n.isLt⟩]

theorem portOf_console (h : 36 ≤ n.val) : portOf n = .console := by
  unfold portOf
  rw [if_neg (by omega), if_neg (by omega)]

/-! ### POINTS and ADD POINTS -/

/-- A POINTS or ADD POINTS of 1 to 24 points: what its transaction comes to, its result and its data (R73, R83,
R87). -/
theorem exec_delivered_points {row : Instr} {tag : Byte} {pts : List RawPoint} {r : Result} {data : Bytes}
    {fin : State → State} {taken : Bool} (hd : Delivered s n (.points tag pts) row r data u fin)
    (h1 : 1 ≤ pts.length) (h24 : pts.length ≤ 24) (hs : (s.seat n).state = .admitted)
    (he : ((Tx.start u).serveCut n).pointsInput (originOf row) n tag pts s.timebase = (t', taken))
    (hr : r = if !taken then .denied else if t'.noRecord then .full else .ok) (hdata : data = addPointsData t' n) :
    exec row s = .next (settle (fin (committed u t'.work))) := by
  have hk : Tx.Keeps (some n) (Tx.start u) t' := by
    have := (Tx.keeps_serveCut (a := some n) (t := Tx.start u) n).trans
      (Tx.keeps_pointsInput (originOf row) n tag pts s.timebase)
    rwa [he] at this
  have hst := (Tx.stamped_start u).keeps hk
  have hbase : t'.base = u := hk.base
  rcases hd with ⟨rfl, ho, hu, rfl, slot, hslot, hturn⟩ | ⟨rfl, h36, hu, tg, rfl, hturn⟩
  · have hopen : u.cls.state = .opened := by simpa [hu, tabletTaken] using ho
    have hadm : (u.seat n).state = .admitted := by
      rw [hu, tabletTaken, ← hs]
      exact congrArg Seat.state (seat_decideGrant s .tablet n)
    show execPoints s = _
    unfold execPoints
    rw [tabletGrant_of_turn hturn (a := (slot, tag, pts)) rfl, ← hu]
    have hdis : dispose u (tabletOrigin 0x21#8) (some n) true = none :=
      dispose_none (by simp [hopen]) (fun _ => by simp [hopen]) hadm
    have hx : ((Tx.start u).serveCut n).time = s.timebase := by
      rw [Tx.time, (Tx.keeps_serveCut (a := none) n).base, Tx.start, hu]
      simp [tabletTaken]
    have he' : ((Tx.start u).serveCut n).pointsInput (tabletOrigin 0x21#8) n tag pts s.timebase = (t', taken) := he
    have hc := settle_after_commit (f := id) hst (fun _ => rfl) fun _ => rfl
    simp only [slotInput, hslot, hdis, hx, he']
    rw [hbase] at hc
    exact congrArg Host.Outcome.next hc
  · have hadm : (u.seat n).state = .admitted := by rw [hu, seat_decideGrant, hs]
    have hx : ((Tx.start u).serveCut n).time = s.timebase := by
      rw [Tx.time, (Tx.keeps_serveCut (a := none) n).base, Tx.start, hu]
      simp
    have he' : ((Tx.start u).serveCut n).pointsInput commandOrigin n tag pts s.timebase = (t', taken) := he
    have hturn' : ConsoleTurn s 0x10#8 tg (DrawInput.params n (.points tag pts)) := hturn
    have hp := readAll_rAddPoints n tag (pts := pts) (by omega)
    have hb : (if 1 ≤ pts.length ∧ pts.length ≤ 24 then
          consoleInput (BitVec.ofNat 8 n.val) (addPointsBody tag pts) (Tx.start u)
        else (Tx.start u).answer .range) = (t', r, data) := by
      rw [if_pos ⟨h1, h24⟩]
      simp only [consoleInput, seatOfConsole_eq h36]
      rw [if_pos (show ((Tx.start u).st.seat n).state = .admitted from hadm)]
      simp only [addPointsBody, hx, he', Tx.answer, hr, hdata]
    show execAddPoints s = _
    unfold execAddPoints
    rw [serveCommand_commit (t := t') (r := r) (data := data) hturn' hp (hu ▸ hb) hst (hbase.trans hu), ← hu]
    rfl

/-! ### MOVE -/

theorem seat_boardTaken (s : State) (n : SeatNo) : (boardTaken s).seat n = s.seat n := seat_decideGrant s .board n

theorem seat_tabletTaken (s : State) (n : SeatNo) : (tabletTaken s).seat n = s.seat n := seat_decideGrant s .tablet n

/-- The tool a sample that draws is resolved to (R77). -/
theorem contactTool_of_boardInput {row : Instr} {x : Sample} {eraser : Bool} (h : BoardInput s n row x eraser)
    (hc : u.cls = s.cls) (v : Seat) :
    ∃ tool, contactTool u v x.frame.tool = some tool ∧ (tool = .eraser ↔ eraser = true) := by
  obtain ⟨-, -, -, -, ht⟩ := h
  cases eraser with
  | true =>
    rw [if_pos rfl] at ht
    exact ⟨.eraser, by simp [contactTool, ht], by simp⟩
  | false =>
    rw [if_neg Bool.false_ne_true] at ht
    rcases ht with ht | ⟨ht, hf⟩
    · exact ⟨v.pen.tool.pen, by simp [contactTool, ht], by cases v.pen.tool <;> simp [InkTool.pen]⟩
    · exact ⟨.ink, by simp [contactTool, ht, hc, hf], by simp⟩

/-- One MOVE sample of a seat that owes no cut (R73, R79). -/
theorem exec_move {x : Sample} {eraser : Bool} (h : BoardInput s n .move x eraser)
    (hs : (s.seat n).state = .admitted) (hcut : (s.seat n).cutDue = false)
    (hm : ∀ tool, (tool = .eraser ↔ eraser = true) → (Tx.start (boardTaken s)).moveInput n tool x = t') :
    exec .move s = .next (settle (committed (boardTaken s) t'.work)) := by
  obtain ⟨tool, htool, hiff⟩ := contactTool_of_boardInput h (u := boardTaken s) (by simp [boardTaken]) (s.seat n)
  obtain ⟨hturn, hres, hcontact, hph, -⟩ := h
  have hphase : x.frame.phase = .move := by simpa using hph
  have hk : Tx.Keeps (some n) (Tx.start (boardTaken s)) t' := hm tool hiff ▸ Tx.keeps_moveInput n tool x
  have hc := settle_after_commit (f := id) ((Tx.stamped_start _).keeps hk) (fun _ => rfl) fun _ => rfl
  have hseat := seat_boardTaken s n
  have hdis : dispose (boardTaken s) boardOrigin (some n) false = none :=
    dispose_none (by simpa [boardTaken] using hres) (fun e => by cases e) (by rw [hseat, hs])
  have hcut' : (Tx.start (boardTaken s)).serveCut n = Tx.start (boardTaken s) :=
    Tx.serveCut_notDue (by rw [Tx.start, hseat, hcut])
  have htool' : contactTool (Tx.start (boardTaken s)).st ((Tx.start (boardTaken s)).st.seat n) x.frame.tool =
      some tool := by
    rw [Tx.start, hseat]; exact htool
  show execMove s = _
  unfold execMove
  rw [← hphase, boardGrant_of_turn hturn]
  simp only [contactInput, hcontact, hdis, hcut', htool', hm tool hiff]
  rw [hk.base] at hc
  exact congrArg Host.Outcome.next hc

/-- Points that reach a seat that owes no cut: what POINTS or ADD POINTS does, and MOVE with its one point, is
handed in. -/
theorem exec_pointsDelivered {row : Instr} {tag : Byte} {pts : List RawPoint} {eraser : Bool} {r : Result}
    {data : Bytes} {fin : State → State} {sample : Time}
    (hd : PointsDelivered s n tag pts eraser row r data u fin sample) (hs : (s.seat n).state = .admitted)
    (hcut : (s.seat n).cutDue = false)
    (hp : (Tx.start u).pointsInput (originOf row) n tag pts sample = (t', true))
    (hm : ∀ tool x, (tool = .eraser ↔ eraser = true) → pts = [x.frame.point] → sample = x.stamp → row = .move →
      (Tx.start u).moveInput n tool x = t')
    (hr : r = if t'.noRecord then .full else .ok) (hdata : data = addPointsData t' n) :
    exec row s = .next (settle (fin (committed u t'.work))) := by
  rcases hd with ⟨hd, h1, h24, rfl⟩ | ⟨rfl, rfl, rfl, x, hb, hpts, hx⟩
  · have hu : (u.seat n).cutDue = false := by
      rcases hd with ⟨-, -, rfl, -⟩ | ⟨-, -, rfl, -⟩
      · rw [seat_tabletTaken, hcut]
      · rw [seat_decideGrant, hcut]
    exact exec_delivered_points hd h1 h24 hs (taken := true) (by rw [Tx.serveCut_notDue hu]; exact hp) hr hdata
  · exact exec_move hb hs hcut fun tool ht => hm tool x ht hpts hx rfl

/-- The state a delivery begins at has the store, the seats, the class and the time of the grant. -/
theorem PointsDelivered.start {row : Instr} {tag : Byte} {pts : List RawPoint} {eraser : Bool} {r : Result}
    {data : Bytes} {fin : State → State} {sample : Time}
    (hd : PointsDelivered s n tag pts eraser row r data u fin sample) :
    u.store = s.store ∧ u.seats = s.seats ∧ u.cls = s.cls := by
  rcases hd with ⟨⟨-, -, rfl, -⟩ | ⟨-, -, rfl, -⟩, -⟩ | ⟨-, rfl, -⟩
  · simp [tabletTaken]
  · simp
  · simp [boardTaken]

theorem inkHandle_eq (v : Seat) : itemHandle v.item = inkHandle v := by
  unfold itemHandle inkHandle
  cases v.item with
  | none => rfl
  | some i =>
    obtain ⟨k, l, d, p, x⟩ := i
    cases k <;> rfl

theorem inkHandle_timed (u : State) (n : SeatNo) (sample : Time) :
    inkHandle ((timed u n sample).seat n) = inkHandle (u.seat n) := by
  unfold inkHandle
  rw [item_timed]
  cases (u.seat n).item <;> rfl

/-- What ADD POINTS reports of a transaction (R87). -/
theorem addPointsData_eq (h : t.Stamped) (n : SeatNo) (why : Option Shortage) :
    addPointsData t n = drawnData n ⟨t.work, t.stored, t.lost, why⟩ := by
  unfold addPointsData drawnData
  rw [inkHandle_eq, h.revTaken]
  simp only [Tx.work]
  cases inkHandle (t.st.seat n) <;> simp [wOpt, w8, wHandle_eq]

/-- The report does not say when the deadline is. -/
theorem addPointsData_deadline (h : t.Stamped) (n : SeatNo) (sample : Time) (why : Option Shortage) :
    addPointsData (t.on (setDeadline · n sample)) n = drawnData n ⟨t.work, t.stored, t.lost, why⟩ := by
  have hst : (t.on (setDeadline · n sample)).Stamped :=
    h.on (by rw [setDeadline_eq, store_timed]) (by rw [setDeadline_eq]; rfl)
  rw [addPointsData_eq hst n why, Tx.work_deadline]
  unfold drawnData
  rw [inkHandle_timed]
  rfl

end Sys2Proof.Machine
end

