-- ==== Sys2Proof/Proofs/Eraser.lean ====
section
/-! The eraser (R71, R72, R101): what its points do to the strokes of their page-layer, as the statements name it. -/

namespace Sys2Proof.Machine

variable {s u : State} {t t₁ : Tx} {n m : SeatNo}

/-! ### Changes of seat records that do not meet -/

theorem modSeat_comm {F G : Seat → Seat} (h : ∀ v, F (G v) = G (F v)) (s : State) (n m : SeatNo) :
    (s.modSeat n F).modSeat m G = (s.modSeat m G).modSeat n F := by
  by_cases hn : n = m
  · subst hn
    rw [modSeat_modSeat, modSeat_modSeat]
    exact congrArg _ (funext fun v => (h v).symm)
  · have hv : updAt (updAt s.seats n F) m G = updAt (updAt s.seats m G) n F := by
      have hne : n.val ≠ m.val := fun e => hn (Fin.ext e)
      simp only [updAt]
      rw [Vector.set_comm _ _ hne]
      simp [Vector.getElem_set_ne _ _ hne, Vector.getElem_set_ne _ _ hne.symm]
    simp only [State.modSeat, hv]

theorem modSeat_self {F : Seat → Seat} (h : F (s.seat n) = s.seat n) : s.modSeat n F = s := by
  have hv : updAt s.seats n F = s.seats := by
    simp only [updAt]
    rw [show F s.seats[n.val] = s.seats[n.val] from h]
    simp
  simp only [State.modSeat, hv]

/-- A seat's open item changed by `f`. -/
def Seat.mapItem (f : OpenItem → OpenItem) (v : Seat) : Seat := { v with item := v.item.map f }

theorem Seat.mapItem_self {f : OpenItem → OpenItem} {v : Seat} (h : ∀ i, v.item = some i → f i = i) :
    v.mapItem f = v := by
  have hi : v.item.map f = v.item := by
    cases hv : v.item with
    | none => rfl
    | some i => rw [Option.map_some, h i hv]
  simp only [Seat.mapItem, hi]

theorem modItem_eq (s : State) (n : SeatNo) (f : OpenItem → OpenItem) : modItem s n f = s.modSeat n (Seat.mapItem f) :=
  rfl

theorem addNotice_modItem (u : State) (n m : SeatNo) (f : OpenItem → OpenItem) (k : Notice) :
    addNotice (u.modSeat n (Seat.mapItem f)) m k = (addNotice u m k).modSeat n (Seat.mapItem f) := by
  have hn : ((u.modSeat n (Seat.mapItem f)).seat m).notices = (u.seat m).notices := by
    by_cases h : m = n
    · subst h; rw [seat_modSeat]; rfl
    · rw [seat_modSeat_ne _ _ h]
  unfold addNotice
  split
  · have hm := modSeat_comm (F := Seat.mapItem f) (G := fun v => { v with notices := noticeSet v.notices k })
      (fun _ => rfl) u n m
    rw [hn, hm]
    rfl
  · rfl

theorem blocksFall_modItem (u : State) (n m : SeatNo) (f : OpenItem → OpenItem) (k : Nat) :
    blocksFall (u.modSeat n (Seat.mapItem f)) m k = (blocksFall u m k).modSeat n (Seat.mapItem f) := by
  have hn : ∃ i, (u.modSeat n (Seat.mapItem f)).seat m = { u.seat m with item := i } := by
    by_cases h : m = n
    · subst h; exact ⟨_, by rw [seat_modSeat]; rfl⟩
    · exact ⟨(u.seat m).item, by rw [seat_modSeat_ne _ _ h]⟩
  obtain ⟨i, hi⟩ := hn
  unfold blocksFall
  simp only [hi]
  split
  · have hm := modSeat_comm (F := Seat.mapItem f)
      (G := fun v => { v with blocksHeld := (u.seat m).blocksHeld - k, quotaReached := false }) (fun _ => rfl) u n m
    rw [hm, addNotice_modItem]
  · exact modSeat_comm (F := Seat.mapItem f)
      (G := fun v => { v with blocksHeld := (u.seat m).blocksHeld - k }) (fun _ => rfl) u n m

/-- Erasing a stroke and changing an open item do not meet. -/
theorem Tx.erase_modItem (t : Tx) (f : OpenItem → OpenItem) (h : Handle) (g : Rev) (o : Origin) (b : Bool) :
    (t.on (modItem · n f)).erase h g o b = (t.erase h g o b).on (modItem · n f) := by
  by_cases hc : t.st.store.live h = true ∧ (t.st.store.stroke h.idx).state = .closed
  · rw [Tx.erase_closed g o b hc.1 hc.2, Tx.erase_closed (t := t.on (modItem · n f)) g o b hc.1 hc.2,
      eraseQueue_joinGroup, eraseQueue_joinGroup]
    have hb := blocksFall_modItem t.st n (t.st.store.stroke h.idx).owner f (t.st.store.stroke h.idx).chain.length
    simp only [Tx.on, modItem_eq, Tx.rev]
    rw [show (t.st.modSeat n (Seat.mapItem f)).store = t.st.store from rfl, hb]
    rfl
  · rw [Tx.erase_other hc, Tx.erase_other (t := t.on (modItem · n f)) hc]

theorem Tx.eraseList_modItem (t : Tx) (f : OpenItem → OpenItem) (hs : List Handle) (g : Rev) (o : Origin) (b : Bool) :
    Tx.eraseList g o b hs (t.on (modItem · n f)) = (Tx.eraseList g o b hs t).on (modItem · n f) := by
  unfold Tx.eraseList
  induction hs generalizing t with
  | nil => rfl
  | cons h hs ih => rw [List.foldl_cons, List.foldl_cons, Tx.erase_modItem, ih]

theorem Tx.eraseList_skips (t : Tx) (k : Nat) (hs : List Handle) (g : Rev) (o : Origin) (b : Bool) :
    Tx.eraseList g o b hs (t.skips k) = (Tx.eraseList g o b hs t).skips k := by
  unfold Tx.eraseList
  induction hs generalizing t with
  | nil => rfl
  | cons h hs ih => rw [List.foldl_cons, List.foldl_cons, ← Tx.erase_skips, ih]

/-! ### What erasing leaves of seats and strokes -/

theorem seat_blocksFall (u : State) (n m : SeatNo) (k : Nat) :
    ∃ a q b, (blocksFall u m k).seat n = { u.seat n with blocksHeld := a, quotaReached := q, notices := b } := by
  have hm : ∀ (f : Seat → Seat), (∀ v, ∃ a q, f v = { v with blocksHeld := a, quotaReached := q }) →
      ∃ a q, (u.modSeat m f).seat n = { u.seat n with blocksHeld := a, quotaReached := q } := fun f hf => by
    by_cases h : n = m
    · subst h
      rw [seat_modSeat]
      exact hf _
    · exact ⟨(u.seat n).blocksHeld, (u.seat n).quotaReached, by rw [seat_modSeat_ne _ _ h]⟩
  unfold blocksFall
  dsimp only
  split
  · obtain ⟨a, q, h1⟩ := hm (fun v => { v with blocksHeld := (u.seat m).blocksHeld - k, quotaReached := false })
      fun _ => ⟨_, _, rfl⟩
    obtain ⟨b, h2⟩ := seat_addNotice (u.modSeat m fun v =>
      { v with blocksHeld := (u.seat m).blocksHeld - k, quotaReached := false }) m n .quotaCleared
    exact ⟨a, q, b, by rw [h2, h1]⟩
  · obtain ⟨a, q, h1⟩ := hm (fun v => { v with blocksHeld := (u.seat m).blocksHeld - k }) fun v => ⟨_, v.quotaReached, rfl⟩
    exact ⟨a, q, (u.seat n).notices, by rw [h1]⟩

/-- An erasure keeps the settings and the open item of every seat. -/
theorem Tx.seat_erase (t : Tx) (n : SeatNo) (h : Handle) (g : Rev) (o : Origin) (b : Bool) :
    ((t.erase h g o b).st.seat n).item = (t.st.seat n).item ∧
      ((t.erase h g o b).st.seat n).rights = (t.st.seat n).rights := by
  by_cases hc : t.st.store.live h = true ∧ (t.st.store.stroke h.idx).state = .closed
  · rw [Tx.erase_closed g o b hc.1 hc.2]
    obtain ⟨a, q, x, hb⟩ := seat_blocksFall t.st n (t.st.store.stroke h.idx).owner
      (t.st.store.stroke h.idx).chain.length
    have h1 := congrArg Seat.item hb
    have h2 := congrArg Seat.rights hb
    exact ⟨h1, h2⟩
  · rw [Tx.erase_other hc]
    exact ⟨rfl, rfl⟩

theorem Tx.seat_eraseList (t : Tx) (n : SeatNo) (hs : List Handle) (g : Rev) (o : Origin) (b : Bool) :
    ((Tx.eraseList g o b hs t).st.seat n).item = (t.st.seat n).item ∧
      ((Tx.eraseList g o b hs t).st.seat n).rights = (t.st.seat n).rights := by
  unfold Tx.eraseList
  induction hs generalizing t with
  | nil => exact ⟨rfl, rfl⟩
  | cons h hs ih =>
    obtain ⟨h1, h2⟩ := ih (t.erase h g o b)
    obtain ⟨h3, h4⟩ := t.seat_erase n h g o b
    exact ⟨h1.trans h3, h2.trans h4⟩

/-- An erasure keeps every block, every Z list, and whether a handle is live. -/
theorem Tx.store_erase (t : Tx) (h : Handle) (g : Rev) (o : Origin) (b : Bool) :
    (∀ c, (t.erase h g o b).st.store.block c = t.st.store.block c) ∧
      (∀ p l, (t.erase h g o b).st.store.zlist p l = t.st.store.zlist p l) ∧
      ∀ k, (t.erase h g o b).st.store.live k = t.st.store.live k := by
  by_cases hc : t.st.store.live h = true ∧ (t.st.store.stroke h.idx).state = .closed
  · rw [Tx.erase_closed g o b hc.1 hc.2]
    refine ⟨fun _ => rfl, fun _ _ => rfl, fun k => ?_⟩
    by_cases hk : k.idx = h.idx
    · simp [Store.live, hk, stroke_setStroke, erasedRecord, hc.2]
    · exact Store.live_congr (stroke_setStroke_ne _ _ hk)
  · rw [Tx.erase_other hc]
    exact ⟨fun _ => rfl, fun _ _ => rfl, fun _ => rfl⟩

theorem Tx.store_eraseList (t : Tx) (hs : List Handle) (g : Rev) (o : Origin) (b : Bool) :
    (∀ c, (Tx.eraseList g o b hs t).st.store.block c = t.st.store.block c) ∧
      (∀ p l, (Tx.eraseList g o b hs t).st.store.zlist p l = t.st.store.zlist p l) ∧
      ∀ k, (Tx.eraseList g o b hs t).st.store.live k = t.st.store.live k := by
  unfold Tx.eraseList
  induction hs generalizing t with
  | nil => exact ⟨fun _ => rfl, fun _ _ => rfl, fun _ => rfl⟩
  | cons h hs ih =>
    obtain ⟨h1, h2, h3⟩ := ih (t.erase h g o b)
    obtain ⟨k1, k2, k3⟩ := t.store_erase h g o b
    exact ⟨fun c => (h1 c).trans (k1 c), fun p l => (h2 p l).trans (k2 p l), fun k => (h3 k).trans (k3 k)⟩

theorem hitTest_congr {a b : Store} {i : RecIdx} (hs : b.stroke i = a.stroke i) (hb : ∀ c, b.block c = a.block c)
    (x y w : Nat) : hitTest b i x y w = hitTest a i x y w := by
  simp only [hitTest, Store.points, hs, hb]

theorem eraserHits_congr {h : Handle} (hs : u.store.stroke h.idx = s.store.stroke h.idx)
    (hb : ∀ c, u.store.block c = s.store.block c) (hr : (u.seat n).rights = (s.seat n).rights) (x y w : Nat)
    (st : StrokeState) : eraserHits u n x y w st h = eraserHits s n x y w st h := by
  simp only [eraserHits, hs, hr, hitTest_congr hs hb]

/-! ### One eraser point -/

/-- The context of an eraser item records the group it feeds (R101). -/
def feeding (g : Option Rev) (i : OpenItem) : OpenItem :=
  match i.kind with
  | .eraser tag layer page _ => { i with kind := .eraser tag layer page g }
  | _ => i

theorem setContextGroup_eq (s : State) (n : SeatNo) (g : Option Rev) :
    setContextGroup s n g = modItem s n (feeding g) := rfl

theorem feeding_feeding (g k : Option Rev) (i : OpenItem) : feeding g (feeding k i) = feeding g i := by
  obtain ⟨x, l, d, p, y⟩ := i
  cases x <;> rfl

theorem Tx.feeding_twice (t : Tx) (n : SeatNo) (g : Option Rev) :
    (t.on (modItem · n (feeding g))).on (modItem · n (feeding g)) = t.on (modItem · n (feeding g)) := by
  have h : (fun v => Seat.mapItem (feeding g) (Seat.mapItem (feeding g) v)) = Seat.mapItem (feeding g) := by
    funext v
    simp only [Seat.mapItem, Option.map_map]
    congr 2
    funext i
    exact feeding_feeding g g i
  simp only [Tx.on, modItem_eq, modSeat_modSeat, h]

theorem Tx.on_skips (t : Tx) (n : SeatNo) (f : OpenItem → OpenItem) (k : Nat) :
    (t.on (modItem · n f)).skips k = (t.skips k).on (modItem · n f) := rfl

/-- What one eraser point does: the strokes hit are erased into group `g` and the context feeds it, `k` OPEN ones are
counted (R101). -/
def Tx.passed (n : SeatNo) (g : Rev) (hs : List Handle) (k : Nat) (t : Tx) : Tx :=
  if hs = [] then t.skips k
  else (Tx.eraseList g (.seat n) true hs (t.skips k)).on (modItem · n (feeding (some g)))

theorem Tx.seat_erase_feeding (t : Tx) (h : Handle) (g : Rev) {tag : Byte} {l : LayerNo} {p : PageNo}
    {o : Option Rev} (hi : (t.st.seat n).item.map OpenItem.kind = some (.eraser tag l p o)) :
    ((((t.erase h g (.seat n) true).on (modItem · n (feeding (some g)))).st.seat n).item.map OpenItem.kind =
        some (.eraser tag l p (some g))) ∧
      (((t.erase h g (.seat n) true).on (modItem · n (feeding (some g)))).st.seat n).rights =
        (t.st.seat n).rights := by
  obtain ⟨h1, h2⟩ := t.seat_erase n h g (.seat n) true
  obtain ⟨⟨_, ld, dr, pr, dl⟩, hitem, rfl⟩ := Option.map_eq_some_iff.mp hi
  simp only [Tx.on, modItem_eq, seat_modSeat, Seat.mapItem, h1, h2, hitem]
  exact ⟨rfl, trivial⟩

theorem Tx.passed_erase (g : Rev) (h : Handle) (hs : List Handle) (k : Nat) (t : Tx) :
    Tx.passed n g hs k ((t.erase h g (.seat n) true).on (modItem · n (feeding (some g)))) =
      Tx.passed n g (h :: hs) k t := by
  have hcons : Tx.eraseList g (.seat n) true (h :: hs) (t.skips k) =
      Tx.eraseList g (.seat n) true hs ((t.erase h g (.seat n) true).skips k) := by
    rw [Tx.erase_skips]; rfl
  unfold Tx.passed
  rw [if_neg (List.cons_ne_nil h hs), hcons]
  split
  · next hz => subst hz; rfl
  · rw [Tx.on_skips, Tx.eraseList_modItem, Tx.feeding_twice]

theorem Tx.passed_skip (g : Rev) (hs : List Handle) (k : Nat) (t : Tx) :
    Tx.passed n g hs k t.skip = Tx.passed n g hs (k + 1) t := by
  unfold Tx.passed
  rw [Tx.skip_eq, Tx.skips_skips, Nat.add_comm 1]

/-- R101: the strokes of a list under one eraser point. `met` says of a stroke in which state it stood and was hit
at the start. -/
theorem Tx.hitStrokes_eq (n : SeatNo) (x y w : Nat) (all : List Handle) (t : Tx) (met : StrokeState → Handle → Bool)
    (g : Rev) {tag : Byte} {l : LayerNo} {p : PageNo} {o : Option Rev}
    (hi : (t.st.seat n).item.map OpenItem.kind = some (.eraser tag l p o)) (hg : o.getD t.rev = g)
    (hm : ∀ st, ∀ h ∈ all, met st h = eraserHits t.st n x y w st h) (hn : (all.map Handle.idx).Nodup) :
    Tx.hitStrokes n (t.st.seat n).rights.scope x y w all t =
      Tx.passed n g (all.filter (met .closed)) (all.countP (met .opened)) t := by
  induction all generalizing t o with
  | nil => rfl
  | cons h all ih =>
    obtain ⟨hh, hn⟩ := List.nodup_cons.mp (List.map_cons ▸ hn)
    have hm' : ∀ st, ∀ k ∈ all, met st k = eraserHits t.st n x y w st k :=
      fun st k hk => hm st k (List.mem_cons_of_mem _ hk)
    have hmet : ∀ st, met st h = (decide ((t.st.store.stroke h.idx).state = st) &&
        (decide ((t.st.seat n).rights.scope = .any ∨ (t.st.store.stroke h.idx).owner = n) &&
          hitTest t.st.store h.idx x y w)) := fun st => by
      rw [hm st h (by simp)]
      simp [eraserHits, Bool.decide_and, Bool.and_assoc]
    obtain ⟨⟨_, ld, dr, pr, dl⟩, hitem, rfl⟩ := Option.map_eq_some_iff.mp hi
    have hstep : Tx.hitStrokes n (t.st.seat n).rights.scope x y w (h :: all) t =
        if met .closed h = true then Tx.hitStrokes n (t.st.seat n).rights.scope x y w all
          ((t.erase h g (.seat n) true).on (modItem · n (feeding (some g))))
        else if met .opened h = true then Tx.hitStrokes n (t.st.seat n).rights.scope x y w all t.skip
        else Tx.hitStrokes n (t.st.seat n).rights.scope x y w all t := by
      rw [Tx.hitStrokes, hmet, hmet]
      simp only [hitem, Tx.contextGroup, hg]
      rfl
    rw [hstep]
    by_cases hc : met .closed h = true
    · have ho : ¬met .opened h = true := fun ho => by
        have h1 := (Bool.and_eq_true_iff.mp (hmet .closed ▸ hc)).1
        have h2 := (Bool.and_eq_true_iff.mp (hmet .opened ▸ ho)).1
        rw [decide_eq_true_eq] at h1 h2
        cases h1.symm.trans h2
      rw [if_pos hc, List.filter_cons_of_pos hc, List.countP_cons_of_neg ho, ← Tx.passed_erase]
      obtain ⟨hi₁, hr₁⟩ := t.seat_erase_feeding h g hi
      have hne : ∀ k ∈ all, k.idx ≠ h.idx := fun k hk e => hh (e ▸ List.mem_map_of_mem hk)
      have hm₁ : ∀ st, ∀ k ∈ all, met st k =
          eraserHits ((t.erase h g (.seat n) true).on (modItem · n (feeding (some g)))).st n x y w st k :=
        fun st k hk => (hm' st k hk).trans (eraserHits_congr (s := t.st)
          (u := ((t.erase h g (.seat n) true).on (modItem · n (feeding (some g)))).st) (Tx.stroke_erase_ne g (.seat n) true (hne k hk)) (t.store_erase h g (.seat n) true).1 hr₁ x y w st).symm
      rw [← ih _ hi₁ rfl hm₁ hn, hr₁]
    · rw [if_neg hc, List.filter_cons_of_neg hc]
      by_cases ho : met .opened h = true
      · rw [if_pos ho, List.countP_cons_of_pos ho, ← Tx.passed_skip]
        exact ih t.skip hi hg hm' hn
      · rw [if_neg ho, List.countP_cons_of_neg ho]
        exact ih t hi hg hm' hn

/-- The strokes of a page-layer are distinct live records (R27). -/
def ListAgrees (s : State) (page : PageNo) (l : LayerNo) : Prop :=
  ((s.store.zlist page l).map Handle.idx).Nodup ∧ ∀ h ∈ s.store.zlist page l, s.store.live h = true

theorem ListAgrees.allIn {page : PageNo} {l : LayerNo} (h : ListAgrees s page l) (x y w : Nat) (st : StrokeState) :
    AllIn s st ((s.store.zlist page l).filter (eraserHits s n x y w st)) := by
  refine ⟨h.1.sublist (List.filter_sublist.map _), fun k hk => ?_⟩
  obtain ⟨hz, hh⟩ := List.mem_filter.mp hk
  refine ⟨h.2 k hz, ?_⟩
  simp only [eraserHits, Bool.and_eq_true, decide_eq_true_eq] at hh
  exact hh.1.1

theorem counters_heldFallen (s : State) (hs : List Handle) : (heldFallen s hs).counters = s.counters := by
  unfold heldFallen
  induction hs using List.reverseRecOn with
  | nil => rfl
  | append_singleton hs h ih =>
    simp only [List.foldl_append, List.foldl_cons, List.foldl_nil, counters_blocksFall]
    exact ih

/-- `eraserPassed` with the strokes hit and the number skipped named. -/
def passedInto (n : SeatNo) (tag : Byte) (l : LayerNo) (page : PageNo) (group : Option Rev) (hs : List Handle)
    (k : Nat) (w : Work) : Work :=
  let w' := erasedInto (group.getD (upcoming w.st)) (.seat n) true hs w
  let u := w'.st.modSeat n fun v => { v with item := v.item.map fun i =>
    { i with kind := .eraser tag l page (if hs = [] then group else some (group.getD (upcoming w.st))) } }
  ⟨{ u with counters := { w.st.counters with eraseSkip := grown w.st.counters.eraseSkip k } }, w'.entries⟩

theorem eraserPassed_eq (n : SeatNo) (tag : Byte) (l : LayerNo) (page : PageNo) (group : Option Rev)
    (x y wd : Nat) (w : Work) :
    eraserPassed n tag l page group x y wd w = passedInto n tag l page group
      ((w.st.store.zlist page l).filter (eraserHits w.st n x y wd .closed))
      ((w.st.store.zlist page l).countP (eraserHits w.st n x y wd .opened)) w := rfl

/-- One eraser point of a transaction is the `eraserPassed` of the statements (R71, R72, R99 to R101). -/
theorem Tx.work_passed {tag : Byte} {l : LayerNo} {page : PageNo} {o : Option Rev} (hst : t.Stamped)
    (hi : (t.st.seat n).item.map OpenItem.kind = some (.eraser tag l page o)) {hs : List Handle}
    (ha : AllIn t.st .closed hs) (k : Nat) :
    (Tx.passed n (o.getD t.rev) hs k t).work = passedInto n tag l page o hs k t.work := by
  have hw := Tx.work_eraseList (o.getD t.rev) (.seat n) true hst ha
  obtain ⟨⟨_, ld, dr, pr, dl⟩, hitem, rfl⟩ := Option.map_eq_some_iff.mp hi
  unfold Tx.passed passedInto
  by_cases hz : hs = []
  · subst hz
    have hself : t.st.modSeat n (Seat.mapItem fun i => { i with kind := .eraser tag l page o }) = t.st :=
      modSeat_self (Seat.mapItem_self (by rw [hitem]; rintro _ ⟨⟩; rfl))
    have hin : erasedInto (o.getD (upcoming t.st)) (.seat n) true [] t.work = t.work := rfl
    rw [if_pos rfl]
    simp only [Tx.work] at hin ⊢
    simp only [hin, if_true]
    show _ = Work.mk { t.st.modSeat n (Seat.mapItem fun i => { i with kind := .eraser tag l page o }) with
      counters := _ } _
    rw [hself]
    rfl
  · have hu : o.getD (upcoming t.st) = o.getD t.rev := by rw [hst.rev]
    have hcnt : (Tx.eraseList (o.getD t.rev) (.seat n) true hs t).st.counters = t.st.counters := by
      rw [Tx.eraseList_eq _ _ _ hst.rev ha]
      exact counters_heldFallen t.st hs
    have hmod : (Tx.eraseList (o.getD t.rev) (.seat n) true hs t).st.modSeat n
          (Seat.mapItem fun i => { i with kind := .eraser tag l page (some (o.getD t.rev)) }) =
        (Tx.eraseList (o.getD t.rev) (.seat n) true hs t).st.modSeat n
          (Seat.mapItem (feeding (some (o.getD t.rev)))) := by
      refine modSeat_congr ?_
      simp only [Seat.mapItem, (t.seat_eraseList n hs _ _ _).1, hitem]
      rfl
    have hst' : (erasedInto (o.getD t.rev) (.seat n) true hs t.work).st =
      (Tx.eraseList (o.getD t.rev) (.seat n) true hs t).st := by rw [← hw]; rfl
    have hen : (erasedInto (o.getD t.rev) (.seat n) true hs t.work).entries =
      (Tx.eraseList (o.getD t.rev) (.seat n) true hs t).entries := by rw [← hw]; rfl
    have hwork : (((Tx.eraseList (o.getD t.rev) (.seat n) true hs t).skips k).on
          (modItem · n (feeding (some (o.getD t.rev))))).work =
        ⟨modItem ((Tx.eraseList (o.getD t.rev) (.seat n) true hs t).skips k).st n (feeding (some (o.getD t.rev))),
          (Tx.eraseList (o.getD t.rev) (.seat n) true hs t).entries⟩ := rfl
    rw [if_neg hz, Tx.eraseList_skips, hwork]
    simp only [if_neg hz]
    rw [show upcoming t.work.st = upcoming t.st from rfl, hu, hst', hen]
    show _ = Work.mk { (Tx.eraseList (o.getD t.rev) (.seat n) true hs t).st.modSeat n
      (Seat.mapItem fun i => { i with kind := .eraser tag l page (some (o.getD t.rev)) }) with counters := _ } _
    rw [hmod]
    simp only [Tx.skips, Tx.on, modItem_eq, hcnt]
    rfl

/-! ### The points of one frame -/

theorem clippedBy_false (u : State) (n : SeatNo) : clippedBy u n false = u := modSeat_self rfl

theorem Tx.mapped_eq (t : Tx) (n : SeatNo) (tool : PenTool) (r : RawPoint) :
    t.mapped n tool r = (mapPoint (t.st.seat n) tool r,
      t.on (clippedBy · n (mapPoint (t.st.seat n) tool r).wasOutside)) := by
  unfold Tx.mapped
  dsimp only
  cases (mapPoint (t.st.seat n) tool r).wasOutside with
  | true => rfl
  | false => simp only [Bool.false_eq_true, if_false, Tx.on, clippedBy_false]

theorem seat_clippedBy (u : State) (n : SeatNo) (out : Bool) :
    ((clippedBy u n out).seat n).item = (u.seat n).item ∧ ((clippedBy u n out).seat n).rights = (u.seat n).rights := by
  simp [clippedBy]

theorem Tx.work_clipped (t : Tx) (n : SeatNo) (out : Bool) :
    (t.on (clippedBy · n out)).work = ⟨clippedBy t.st n out, t.entries⟩ := rfl

/-- A point that reaches the canvas passes over the strokes of the context's page-layer (R101). -/
theorem Tx.eraserPoint_point {tag : Byte} {l : LayerNo} {page : PageNo} {o : Option Rev} {r : RawPoint}
    {x y wd : Nat} {c : Bool} (hi : (t.st.seat n).item.map OpenItem.kind = some (.eraser tag l page o))
    (hl : ListAgrees t.st page l) (hp : mapPoint (t.st.seat n) .eraser r = .point x y wd c) :
    t.eraserPoint n r = Tx.passed n (o.getD t.rev)
      ((t.st.store.zlist page l).filter (eraserHits (clippedBy t.st n c) n x y wd .closed))
      ((t.st.store.zlist page l).countP (eraserHits (clippedBy t.st n c) n x y wd .opened))
      (t.on (clippedBy · n c)) := by
  obtain ⟨⟨_, ld, dr, pr, dl⟩, hitem, rfl⟩ := Option.map_eq_some_iff.mp hi
  unfold Tx.eraserPoint
  simp only [hitem, Tx.mapped_eq, hp, MapOut.wasOutside]
  exact Tx.hitStrokes_eq n x y wd _ (t.on (clippedBy · n c)) (eraserHits (clippedBy t.st n c) n x y wd) _
    (tag := tag) (l := l) (p := page) (o := o)
    (by rw [Tx.on, (seat_clippedBy t.st n c).1, hi]) rfl (fun _ _ _ => rfl) hl.1

theorem Tx.eraserPoint_lifted {r : RawPoint} (hp : mapPoint (t.st.seat n) .eraser r = .lifted) :
    t.eraserPoint n r = t := by
  unfold Tx.eraserPoint
  split
  · simp only [Tx.mapped_eq, hp, MapOut.wasOutside, Tx.on, clippedBy_false]
  · rfl

theorem Tx.eraserPoint_dropped {tag : Byte} {l : LayerNo} {page : PageNo} {o : Option Rev} {r : RawPoint}
    (hi : (t.st.seat n).item.map OpenItem.kind = some (.eraser tag l page o))
    (hp : mapPoint (t.st.seat n) .eraser r = .dropped) : t.eraserPoint n r = t.on (clippedBy · n true) := by
  obtain ⟨⟨_, ld, dr, pr, dl⟩, hitem, rfl⟩ := Option.map_eq_some_iff.mp hi
  unfold Tx.eraserPoint
  simp only [hitem, Tx.mapped_eq, hp, MapOut.wasOutside]

/-- What stays while an eraser context is fed: the context, but for its group, and the list it works on. -/
structure Tx.Feeds (n : SeatNo) (tag : Byte) (l : LayerNo) (page : PageNo) (t : Tx) : Prop where
  stamped : t.Stamped
  item : ∃ o, (t.st.seat n).item.map OpenItem.kind = some (.eraser tag l page o)
  list : ListAgrees t.st page l

theorem Tx.keeps_eraseList (t : Tx) (hs : List Handle) (g : Rev) (o : Origin) (b : Bool) :
    Tx.Keeps none t (Tx.eraseList g o b hs t) := by
  unfold Tx.eraseList
  induction hs generalizing t with
  | nil => exact .refl none t
  | cons h hs ih => exact (Tx.keeps_erase h g o b).trans (ih _)

theorem Tx.Feeds.passed {tag : Byte} {l : LayerNo} {page : PageNo} (h : t.Feeds n tag l page) (g : Rev)
    (hs : List Handle) (k : Nat) : (Tx.passed n g hs k t).Feeds n tag l page := by
  obtain ⟨hst, ⟨o, hi⟩, hl⟩ := h
  have hsk : (t.skips k).Stamped := ⟨hst.rev_eq, hst.time_eq⟩
  unfold Tx.passed
  split
  · exact ⟨hsk, ⟨o, hi⟩, hl⟩
  · obtain ⟨⟨_, ld, dr, pr, dl⟩, hitem, rfl⟩ := Option.map_eq_some_iff.mp hi
    have hst' := hsk.keeps ((t.skips k).keeps_eraseList hs g (.seat n) true)
    obtain ⟨-, hz, hlive⟩ := (t.skips k).store_eraseList hs g (.seat n) true
    refine ⟨⟨hst'.rev_eq, hst'.time_eq⟩, ⟨some g, ?_⟩, ?_⟩
    · have hit := ((t.skips k).seat_eraseList n hs g (.seat n) true).1.trans hitem
      simp only [Tx.on, modItem_eq, seat_modSeat, Seat.mapItem, hit]
      rfl
    · have hz' : (Tx.eraseList g (.seat n) true hs (t.skips k)).st.store.zlist page l = t.st.store.zlist page l :=
        hz page l
      refine ⟨by show (List.map _ ((Tx.eraseList g (.seat n) true hs (t.skips k)).st.store.zlist page l)).Nodup
                 rw [hz']; exact hl.1, fun x hx => ?_⟩
      exact (hlive x).trans (hl.2 x (hz' ▸ hx))

/-- The counts that ADD POINTS and END STROKE report. -/
def Tx.tally (t : Tx) : Nat × Nat × Bool := (t.stored, t.lost, t.noRecord)

theorem Tx.tally_eraseList (t : Tx) (hs : List Handle) (g : Rev) (o : Origin) (b : Bool) :
    (Tx.eraseList g o b hs t).tally = t.tally := by
  unfold Tx.eraseList
  induction hs generalizing t with
  | nil => rfl
  | cons h hs ih =>
    have he : (t.erase h g o b).tally = t.tally := by
      by_cases hc : t.st.store.live h = true ∧ (t.st.store.stroke h.idx).state = .closed
      · rw [Tx.erase_closed g o b hc.1 hc.2]; rfl
      · rw [Tx.erase_other hc]
    exact (ih _).trans he

theorem Tx.tally_passed (g : Rev) (hs : List Handle) (k : Nat) (t : Tx) : (Tx.passed n g hs k t).tally = t.tally := by
  unfold Tx.passed
  split
  · rfl
  · exact Tx.tally_eraseList (t.skips k) hs g (.seat n) true

/-- The eraser points of a transaction are the `pointsErasing` of the statements. -/
theorem Tx.work_eraserPoints {tag : Byte} {l : LayerNo} {page : PageNo} (pts : List RawPoint)
    (h : t.Feeds n tag l page) : (Tx.eraserPoints n pts t).work = pointsErasing n pts t.work ∧
      (Tx.eraserPoints n pts t).tally = t.tally := by
  induction pts generalizing t with
  | nil => exact ⟨rfl, rfl⟩
  | cons p pts ih =>
    obtain ⟨o, hi⟩ := h.item
    have hcons : Tx.eraserPoints n (p :: pts) t = Tx.eraserPoints n pts (t.eraserPoint n p) := rfl
    have hc : ∀ c, (t.on (clippedBy · n c)).Feeds n tag l page := fun c =>
      ⟨⟨h.stamped.rev_eq, h.stamped.time_eq⟩, ⟨o, by rw [Tx.on, (seat_clippedBy t.st n c).1, hi]⟩, h.list⟩
    rw [hcons, pointsErasing]
    simp only [show (t.work.st.seat n).item.map OpenItem.kind = some (.eraser tag l page o) from hi]
    cases hp : mapPoint (t.st.seat n) .eraser p with
    | lifted =>
      obtain ⟨h1, h2⟩ := ih h
      rw [Tx.eraserPoint_lifted hp, h1, h2]
      simp only [show mapPoint (t.work.st.seat n) .eraser p = .lifted from hp, and_self]
    | dropped =>
      obtain ⟨h1, h2⟩ := ih (hc true)
      rw [Tx.eraserPoint_dropped hi hp, h1, h2]
      simp only [show mapPoint (t.work.st.seat n) .eraser p = .dropped from hp]
      exact ⟨rfl, rfl⟩
    | point x y wd c =>
      have hw := Tx.work_passed (hc c).stamped (by rw [Tx.on, (seat_clippedBy t.st n c).1, hi])
        (h.list.allIn (s := clippedBy t.st n c) (n := n) x y wd .closed)
        ((t.st.store.zlist page l).countP (eraserHits (clippedBy t.st n c) n x y wd .opened))
      obtain ⟨h1, h2⟩ := ih ((hc c).passed (o.getD t.rev)
        ((t.st.store.zlist page l).filter (eraserHits (clippedBy t.st n c) n x y wd .closed))
        ((t.st.store.zlist page l).countP (eraserHits (clippedBy t.st n c) n x y wd .opened)))
      rw [Tx.eraserPoint_point hi h.list hp, h1, h2, Tx.tally_passed]
      simp only [show mapPoint (t.work.st.seat n) .eraser p = .point x y wd c from hp]
      rw [eraserPassed_eq]
      exact ⟨congrArg _ hw, rfl⟩

/-! ### The hit test -/

theorem axisDist_eq (a b : Nat) : axisDist a b = ((a : Int) - b).natAbs := by
  unfold axisDist
  omega

/-- R71: the hit test, in whole numbers. -/
theorem hitTest_iff (st : Store) (i : RecIdx) (ex ey ew : Nat) :
    hitTest st i ex ey ew = true ↔
      (((st.stroke i).box.x0 : Int) - ((ew + 1) / 2 : Int) ≤ ex ∧ (ex : Int) ≤ (st.stroke i).box.x1 + ((ew + 1) / 2 : Int) ∧
        ((st.stroke i).box.y0 : Int) - ((ew + 1) / 2 : Int) ≤ ey ∧
        (ey : Int) ≤ (st.stroke i).box.y1 + ((ew + 1) / 2 : Int)) ∧
      ∃ p ∈ st.points i, ((ex : Int) - p.x).natAbs ≤ (ew + 1) / 2 + (p.w + 1) / 2 ∧
        ((ey : Int) - p.y).natAbs ≤ (ew + 1) / 2 + (p.w + 1) / 2 := by
  simp only [hitTest, inExpanded, hitsPoint, Bool.and_eq_true, decide_eq_true_eq, List.any_eq_true, axisDist_eq,
    max_le_iff]
  simp only [half]
  refine and_congr ?_ Iff.rfl
  omega

/-- Settles O25: the eraser points of a transaction are the `pointsErasing` of the statement, and the hit test is
arithmetic. -/
theorem eraserPointErasesTheStrokesHit : Obligations.EraserPointErasesTheStrokesHit := by
  unfold Obligations.EraserPointErasesTheStrokesHit
  refine ⟨?_, fun st i ex ey ew => hitTest_iff st i ex ey ew⟩
  intro s n tag pts row r data u fin sample l page group hs hz hd hcut hi hr w hdata
  obtain ⟨hu1, hu2, -⟩ := hd.start
  have hseat : u.seat n = s.seat n := seat_congr hu2 n
  have hf : (Tx.start u).Feeds n tag l page := by
    refine ⟨Tx.stamped_start u, ⟨group, by rw [Tx.start, hseat, hi]⟩, ?_⟩
    obtain ⟨h1, h2⟩ := hz.1 page l
    unfold ListAgrees
    rw [Tx.start, hu1]
    exact ⟨h1, fun h hh => (h2 h hh).1⟩
  obtain ⟨hw, ht⟩ := Tx.work_eraserPoints pts hf
  have hwork : (Tx.eraserPoints n pts (Tx.start u)).work = w := hw
  have hst : (Tx.eraserPoints n pts (Tx.start u)).Stamped :=
    (Tx.stamped_start u).keeps (Tx.keeps_eraserPoints (a := none) n pts _)
  obtain ⟨⟨_, ld, dr, pr, dl⟩, hitem, rfl⟩ := Option.map_eq_some_iff.mp hi
  have hitem' : ((Tx.start u).st.seat n).item = some ⟨.eraser tag l page group, ld, dr, pr, dl⟩ := by
    rw [Tx.start, hseat, hitem]
  have h1 : (Tx.eraserPoints n pts (Tx.start u)).stored = 0 := congrArg Prod.fst ht
  have h2 : (Tx.eraserPoints n pts (Tx.start u)).lost = 0 := congrArg (fun x => x.2.1) ht
  have h3 : (Tx.eraserPoints n pts (Tx.start u)).noRecord = false := congrArg (fun x => x.2.2) ht
  rw [exec_pointsDelivered (t' := (Tx.eraserPoints n pts (Tx.start u)).on (setDeadline · n sample)) hd hs hcut
    ?_ ?_ ?_ ?_]
  · rw [Tx.work_deadline, ← hwork]
    rfl
  · simp only [Tx.pointsInput, hitem', itemTag, ne_eq, not_true, if_false]
  · rintro tool x htool rfl rfl -
    simp only [Tx.moveInput, hitem', htool.mpr rfl, if_true]
    rfl
  · rw [show ((Tx.eraserPoints n pts (Tx.start u)).on (setDeadline · n sample)).noRecord = false from h3, hr]
    rfl
  · rw [addPointsData_deadline hst n sample none, hwork, h1, h2, hdata]

end Sys2Proof.Machine
end

