-- ==== Sys2Proof/Proofs/DrawCalls.lean ====
section
/-! The entries of a drawing transaction: what the model calls for and reads at commit is what the statements write
down and restate point by point (R85, R88, R133). -/

namespace Sys2Proof.Machine

variable {s u : State} {t t₁ : Tx} {n : SeatNo} {a b : Store} {h : Handle}

/-! ### One entry -/

/-- The fields of a record that no operation on its points changes (R14). -/
def Stroke.fixed (r : Stroke) : PageNo × LayerNo × SeatNo × InkTool × Fin 64 × Option Handle :=
  (r.page, r.layer, r.owner, r.tool, r.colour, r.pred)

/-- One entry restated: `restated` entry by entry. -/
def restatedEntry (h : Handle) (r : Stroke) (e : ChangeEntry) : ChangeEntry :=
  if e.handle = some h then
    { e with
      flags := e.flags.map fun _ => r.flags
      box := if e.kind = .extended then e.box else some r.box }
  else e

theorem restated_eq (h : Handle) (r : Stroke) (es : List ChangeEntry) :
    restated h r es = es.map (restatedEntry h r) := rfl

@[simp] theorem restated_append (h : Handle) (r : Stroke) (es fs : List ChangeEntry) :
    restated h r (es ++ fs) = restated h r es ++ restated h r fs := List.map_append

@[simp] theorem Call.entry_handle (st : Store) (rev : Rev) (time : Time) (c : Call) :
    (c.entry st rev time).handle = c.handle := by
  cases c <;> rfl

/-- An entry reports the record it names and no other. -/
theorem Call.entry_congr {c : Call} {rev : Rev} {time : Time}
    (hb : ∀ k, c.handle = some k → b.stroke k.idx = a.stroke k.idx) : c.entry b rev time = c.entry a rev time := by
  cases c with
  | pageShown p => rfl
  | classReset => rfl
  | opened k m | extended k f m d | closed k | erased k g | restored k g =>
    simp only [Call.entry, strokeEntry, hb k rfl]

/-- An entry called for before a record changes is restated by that change. -/
theorem Call.entry_restated {c : Call} (rev : Rev) (time : Time)
    (hf : (b.stroke h.idx).fixed = (a.stroke h.idx).fixed)
    (hne : ∀ k, c.handle = some k → k ≠ h → b.stroke k.idx = a.stroke k.idx) :
    c.entry b rev time = restatedEntry h (b.stroke h.idx) (c.entry a rev time) := by
  by_cases hc : c.handle = some h
  · simp only [Stroke.fixed, Prod.mk.injEq] at hf
    rw [restatedEntry, if_pos (by simpa using hc)]
    cases c <;> simp only [Call.handle, Option.some.injEq, reduceCtorEq] at hc <;> subst hc <;>
      simp [Call.entry, strokeEntry, hf]
  · rw [restatedEntry, if_neg (by simpa using hc)]
    exact Call.entry_congr fun k hk => hne k hk fun e => hc (e ▸ hk)

theorem entries_restated {cs : List Call} (rev : Rev) (time : Time)
    (hf : (b.stroke h.idx).fixed = (a.stroke h.idx).fixed)
    (hne : ∀ c ∈ cs, ∀ k, c.handle = some k → k ≠ h → b.stroke k.idx = a.stroke k.idx) :
    cs.map (Call.entry b rev time) = restated h (b.stroke h.idx) (cs.map (Call.entry a rev time)) := by
  rw [restated_eq, List.map_map]
  exact List.map_congr_left fun c hc => Call.entry_restated rev time hf (hne c hc)

/-! ### A stored point -/

/-- The EXTENDED entry of one stored point, as the statements write it. -/
def extendedEntry (rev : Rev) (time : Time) (h : Handle) (r : Stroke) (sq : Box) : ChangeEntry :=
  { kind := .extended, rev := rev, time := time, page := some r.page, layer := some r.layer, handle := some h
    seat := some r.owner, first := some (r.count - 1), count := some 1, flags := some r.flags, box := some sq }

theorem noted_nil (e : ChangeEntry) (sq : Box) : noted e sq [] = [e] := rfl

theorem noted_same {e x : ChangeEntry} (sq : Box) (es : List ChangeEntry) (hh : x.handle = e.handle)
    (hk : x.kind = .opened ∨ x.kind = .extended) :
    noted e sq (es ++ [x]) = es ++ [{ x with count := x.count.map (· + 1), box := x.box.map (·.union sq) }] := by
  simp [noted, hh, hk]

theorem noted_other {e x : ChangeEntry} (sq : Box) (es : List ChangeEntry)
    (hx : ¬(x.handle = e.handle ∧ (x.kind = .opened ∨ x.kind = .extended))) :
    noted e sq (es ++ [x]) = es ++ [x] ++ [e] := by
  simp [noted, hx]

/-- A stored point is noted in the calls as it is noted in the entries (R85, R88). -/
theorem entries_noteStored {cs : List Call} (rev : Rev) (time : Time) (sq : Box)
    (hf : (b.stroke h.idx).fixed = (a.stroke h.idx).fixed)
    (hne : ∀ c ∈ cs, ∀ k, c.handle = some k → k ≠ h → b.stroke k.idx = a.stroke k.idx) :
    (noteStored h ((b.stroke h.idx).count - 1) sq cs).reverse.map (Call.entry b rev time) =
      restated h (b.stroke h.idx) (noted (extendedEntry rev time h (b.stroke h.idx) sq) sq
        (cs.reverse.map (Call.entry a rev time))) := by
  have hnew : restated h (b.stroke h.idx) [extendedEntry rev time h (b.stroke h.idx) sq] =
      [Call.entry b rev time (.extended h ((b.stroke h.idx).count - 1) 1 sq)] := by
    simp [restated, extendedEntry, Call.entry, strokeEntry]
  have hrest : ∀ ds : List Call, (∀ d ∈ ds, d ∈ cs) → ds.reverse.map (Call.entry b rev time) =
      restated h (b.stroke h.idx) (ds.reverse.map (Call.entry a rev time)) := fun ds hd =>
    entries_restated rev time hf fun c hc => hne c (hd c (List.mem_reverse.mp hc))
  cases cs with
  | nil => exact hnew.symm
  | cons c cs =>
    have hcs := hrest cs fun d hd => List.mem_cons_of_mem c hd
    have hother : noteStored h ((b.stroke h.idx).count - 1) sq (c :: cs) =
          .extended h ((b.stroke h.idx).count - 1) 1 sq :: c :: cs →
        ¬(c.handle = some h ∧ ((c.entry a rev time).kind = .opened ∨ (c.entry a rev time).kind = .extended)) →
        (noteStored h ((b.stroke h.idx).count - 1) sq (c :: cs)).reverse.map (Call.entry b rev time) =
          restated h (b.stroke h.idx) (noted (extendedEntry rev time h (b.stroke h.idx) sq) sq
            ((c :: cs).reverse.map (Call.entry a rev time))) := fun hn hx => by
      rw [hn, List.reverse_cons (as := cs), List.map_append, List.map_singleton,
        noted_other _ _ (by simpa [extendedEntry] using hx), restated_append, restated_append, hnew,
        List.reverse_cons, List.map_append, List.map_singleton, List.reverse_cons, List.map_append,
        List.map_singleton, hcs]
      congr 2
      exact entries_restated (cs := [c]) rev time hf fun d hd =>
        hne d (List.mem_singleton.mp hd ▸ List.mem_cons_self)
    have hsame : ∀ c' : Call, noteStored h ((b.stroke h.idx).count - 1) sq (c :: cs) = c' :: cs →
        c.handle = some h → ((c.entry a rev time).kind = .opened ∨ (c.entry a rev time).kind = .extended) →
        c'.entry b rev time = restatedEntry h (b.stroke h.idx) { c.entry a rev time with
          count := (c.entry a rev time).count.map (· + 1), box := (c.entry a rev time).box.map (·.union sq) } →
        (noteStored h ((b.stroke h.idx).count - 1) sq (c :: cs)).reverse.map (Call.entry b rev time) =
          restated h (b.stroke h.idx) (noted (extendedEntry rev time h (b.stroke h.idx) sq) sq
            ((c :: cs).reverse.map (Call.entry a rev time))) := fun c' hn hh hk he => by
      rw [hn, List.reverse_cons, List.map_append, List.map_singleton, List.reverse_cons, List.map_append,
        List.map_singleton, noted_same _ _ (by simpa [extendedEntry] using hh) hk, restated_append, hcs, he]
      rfl
    simp only [Stroke.fixed, Prod.mk.injEq] at hf
    cases c with
    | opened k m =>
      by_cases hk : k = h
      · subst hk
        exact hsame (.opened k (m + 1)) (by simp [noteStored]) rfl (.inl rfl)
          (by simp [restatedEntry, Call.entry, strokeEntry, hf])
      · exact hother (by simp [noteStored, hk]) fun e => hk (by simpa [Call.handle] using e.1)
    | extended k f m d =>
      by_cases hk : k = h
      · subst hk
        exact hsame (.extended k f (m + 1) (d.union sq)) (by simp [noteStored]) rfl (.inr rfl)
          (by simp [restatedEntry, Call.entry, strokeEntry, hf])
      · exact hother (by simp [noteStored, hk]) fun e => hk (by simpa [Call.handle] using e.1)
    | closed k | erased k g | restored k g => exact hother rfl (by rintro ⟨-, e | e⟩ <;> cases e)
    | pageShown p => exact hother rfl (by rintro ⟨e, -⟩; cases e)
    | classReset => exact hother rfl (by rintro ⟨e, -⟩; cases e)

end Sys2Proof.Machine
end

