-- ==== Sys2Proof/Proofs/DrawAlloc.lean ====
section
/-! Records and blocks taken and refused (R14, R26, R90, R91): the model's operations as the statements name them. -/

namespace Sys2Proof.Machine

variable {s u : State} {t t₁ : Tx} {n : SeatNo}

/-! ### The free collections -/

theorem FreeList.take_isNone_iff (f : FreeList) : f.take.isNone = true ↔ f.size = 0 := by
  unfold FreeList.take FreeList.size Config.records
  split
  · simp; omega
  · cases hf : f.freed with
    | nil => simp; omega
    | cons i r => simp

theorem FreeStack.pop_eq_none_iff (f : FreeStack) : f.pop = none ↔ f.size = 0 := by
  unfold FreeStack.pop FreeStack.size Config.blocks
  cases f.released with
  | nil =>
    by_cases h : f.fresh < 8192
    · simp [h]; omega
    · simp [h]; omega
  | cons b r => simp

theorem filter_finRange_eq_drop (m k : Nat) :
    (List.finRange m).filter (fun i => decide (k ≤ i.val)) = (List.finRange m).drop k := by
  conv_lhs => rw [← List.take_append_drop k (List.finRange m)]
  rw [List.filter_append]
  have h1 : ((List.finRange m).take k).filter (fun i => decide (k ≤ i.val)) = [] := by
    rw [List.filter_eq_nil_iff]
    intro i hi
    obtain ⟨j, hj, rfl⟩ := List.mem_take_iff_getElem.mp hi
    simp only [List.getElem_finRange, decide_eq_true_eq]
    simp at hj ⊢
    omega
  have h2 : ((List.finRange m).drop k).filter (fun i => decide (k ≤ i.val)) = (List.finRange m).drop k := by
    rw [List.filter_eq_self]
    intro i hi
    obtain ⟨j, hj, rfl⟩ := List.mem_drop_iff_getElem.mp hi
    simp
  rw [h1, h2, List.nil_append]

/-- The places from `k` on, in ascending order, begin with place `k`. -/
theorem filter_finRange_from {m k : Nat} (h : k < m) :
    (List.finRange m).filter (fun i => decide (k ≤ i.val)) =
      ⟨k, h⟩ :: (List.finRange m).filter fun i => decide (k + 1 ≤ i.val) := by
  rw [filter_finRange_eq_drop, filter_finRange_eq_drop, List.drop_eq_getElem_cons (by simpa using h)]
  simp

theorem FreeList.toList_of_take {f g : FreeList} {i : RecIdx} (h : f.take = some (i, g)) :
    f.toList = i :: g.toList := by
  unfold FreeList.toList
  rcases FreeList.take_spec h with ⟨h1, h2, rfl⟩ | ⟨h1, h2, h3⟩
  · rw [filter_finRange_from h2]
    simp [h1]
  · have hnone : ∀ k : Nat, 4096 ≤ k → (List.finRange 4096).filter (fun i => decide (k ≤ i.val)) = [] := fun k hk => by
      rw [List.filter_eq_nil_iff]
      intro i _
      have := i.isLt
      simp; omega
    rw [hnone _ h1, hnone _ (h3 ▸ h1), h2]
    rfl

theorem FreeStack.toList_of_pop {f g : FreeStack} {b : BlockNo} (h : f.pop = some (b, g)) :
    f.toList = b :: g.toList := by
  unfold FreeStack.toList
  rcases FreeStack.pop_spec h with ⟨h1, h2⟩ | ⟨h1, h2, h3, rfl⟩
  · rw [h1, h2]
    rfl
  · rw [h1, filter_finRange_from h3]
    simp [h2]

/-! ### Refusals -/

theorem shortage_block (s : State) (n : SeatNo) : shortage s n false = blockRefusal s n := by
  unfold shortage blockRefusal atQuota
  simp

theorem shortage_open (s : State) (n : SeatNo) : shortage s n true = openRefusal s n := by
  unfold openRefusal
  by_cases h : s.store.freeRecs.size = 0
  · rw [if_pos ((FreeList.take_isNone_iff _).mpr h), shortage, if_pos ⟨rfl, h⟩]
  · rw [if_neg (fun e => h ((FreeList.take_isNone_iff _).mp e)), ← shortage_block]
    unfold shortage
    simp only [h, and_false, if_false]

theorem pop_of_blockRefusal (h : blockRefusal s n = none) :
    s.store.freeBlocks.pop = some (topBlock s) := by
  have hs : s.store.freeBlocks.size ≠ 0 := fun e => by
    unfold blockRefusal at h
    simp only [e] at h
    split at h <;> [cases h; skip]
    split at h <;> cases h
  unfold topBlock
  cases hp : s.store.freeBlocks.pop with
  | none => exact absurd ((FreeStack.pop_eq_none_iff _).mp hp) hs
  | some x => rfl

theorem take_of_openRefusal (h : openRefusal s n = none) :
    s.store.freeRecs.take = some (headRecord s) ∧ blockRefusal s n = none := by
  unfold openRefusal at h
  split at h
  · cases h
  · next hn =>
    refine ⟨?_, h⟩
    unfold headRecord
    cases hp : s.store.freeRecs.take with
    | none => rw [hp] at hn; exact absurd rfl hn
    | some x => rfl

/-! ### A block taken -/

theorem takeBlock_eq (h : s.store.freeBlocks.pop = some (topBlock s)) (n : SeatNo) :
    takeBlock s n = some ((topBlock s).1, blockTaken s n) := by
  unfold takeBlock blockTaken
  simp only [h]
  congr 2
  split
  · next hz => rw [if_pos (show (topBlock s).2.size = s.cls.options.reserve from hz)]; rfl
  · next hz => rw [if_neg (show ¬(topBlock s).2.size = s.cls.options.reserve from hz)]; rfl

/-! ### A stroke opened -/

/-- The transaction with a stroke opened in it (R14). -/
def Tx.withStroke (t : Tx) (n : SeatNo) (sp : OpenSpec) (x y w : Nat) (c : Bool) : Tx :=
  { t with
    st := strokeAdded t.st n (newRecord t.st n sp x y w c) (.abs x y w false)
    calls := .opened (nextHandle t.st) 1 :: t.calls
    stored := t.stored + 1 }

/-- R14: an open that nothing refuses. -/
theorem Tx.openStroke_eq (hst : t.Stamped) (h : openRefusal t.st n = none) (sp : OpenSpec) (x y w : Nat) (c : Bool) :
    t.openStroke n sp x y w c = some (nextHandle t.st, t.withStroke n sp x y w c) := by
  obtain ⟨hr, hb⟩ := take_of_openRefusal h
  have hp := pop_of_blockRefusal hb
  have hb := takeBlock_eq (s := { t.st with store := { t.st.store with freeRecs := (headRecord t.st).2 } }) hp n
  have hrec : openedRecord t n sp (nextHandle t.st).gen (topBlock t.st).1 x y w c = newRecord t.st n sp x y w c := by
    simp only [openedRecord, newRecord, hst.rev, hst.time]
  unfold Tx.openStroke
  simp only [hr, hb]
  rw [Tx.withStroke, strokeAdded, ← hrec]
  rfl

/-! ### A refusal -/

theorem captureFault_eq (s : State) (k : FaultKind) (l : Link) (m : Option SeatNo) (f : Option Byte) :
    captureFault s k l m f = caught s k l m f := rfl

/-- R90, R91: a refusal and the points it loses. -/
theorem Tx.refuse_lose_st (t : Tx) (o : Origins) (n : SeatNo) (why : Shortage) (k : Nat) :
    ((t.refuse o n why).lose n k).st = refusedFor t.st o n why k := by
  unfold Tx.lose
  cases why with
  | table => rfl
  | quota =>
    simp only [Tx.refuse, Tx.on, refusedFor, quotaRefused]
    split <;> rfl
  | reserve => rfl
  | pool =>
    simp only [Tx.refuse, Tx.on, refusedFor, poolRefused]
    cases hi : (t.st.seat n).item with
    | none =>
      have hself : (caught t.st .poolEmpty o.link (some n) o.frame).modSeat n (Seat.mapItem fun i =>
          { i with poolReported := true }) = caught t.st .poolEmpty o.link (some n) o.frame :=
        modSeat_self (Seat.mapItem_self fun i h => by
          have hi' : ((caught t.st .poolEmpty o.link (some n) o.frame).seat n).item = none := hi
          rw [hi'] at h; cases h)
      simp only [Option.any_none, Bool.false_eq_true, if_false]
      exact congrArg (State.modSeat · n fun v => { v with dropped := min (v.dropped + k) 65535 }) hself.symm
    | some i =>
      simp only [Option.any_some]
      split <;> rfl

theorem Tx.refuse_lose_tally (t : Tx) (o : Origins) (n : SeatNo) (why : Shortage) (k : Nat) :
    ((t.refuse o n why).lose n k).tally = (t.stored, t.lost + k, t.noRecord || decide (why = .table)) := by
  cases why <;> simp [Tx.lose, Tx.refuse, Tx.tally, Tx.on]

end Sys2Proof.Machine
end

