-- ==== Sys2Proof/Proofs/DrawPoints.lean ====
section
/-! The points that reach an open ink stroke (R15, R57, R66, R88, R93): the model's `inkPoint` is the `pointDrawn` of
the statements. The deadline of the open item plays no part until the input's end sets it, so the states compared
may differ in it: `dated`. -/

namespace Sys2Proof.Machine

variable {s u : State} {t t₁ : Tx} {n : SeatNo} {h : Handle} {tag : Byte}

/-! ### States up to the deadline of the open item -/

/-- The seat's open item has this deadline. -/
def dated (n : SeatNo) (d : Time) (s : State) : State := s.modSeat n (Seat.mapItem fun i => { i with deadline := d })

/-- A transaction as a statement sees it where the deadline of the seat's open item is not yet set. -/
def Tx.seen (n : SeatNo) (d : Time) (t : Tx) : Work := ⟨dated n d t.st, t.entries⟩

@[simp] theorem dated_store (n : SeatNo) (d : Time) (s : State) : (dated n d s).store = s.store := rfl

theorem dated_seat (n : SeatNo) (d : Time) (s : State) :
    (dated n d s).seat n = (s.seat n).mapItem fun i => { i with deadline := d } := by
  rw [dated, seat_modSeat]

/-- The item a statement writes is the item changed, with the clipped point counted. -/
theorem itemNow_dated {i i' : OpenItem} {f : OpenItem → OpenItem} (hi : (u.seat n).item = some i) (d : Time)
    (hf : i' = { f i with deadline := d }) (out : Bool) :
    itemNow (dated n d u) n (some i') out = dated n d (modItem (clippedBy u n out) n f) := by
  unfold itemNow dated clippedBy
  rw [modItem_eq, modSeat_modSeat, modSeat_modSeat, modSeat_modSeat]
  refine modSeat_congr ?_
  simp only [Seat.mapItem, hi, hf, Option.map_some]

theorem clippedBy_dated (u : State) (n : SeatNo) (d : Time) (c : Bool) :
    clippedBy (dated n d u) n c = dated n d (clippedBy u n c) :=
  modSeat_comm (F := Seat.mapItem fun i => { i with deadline := d })
    (G := fun v => { v with clipped := if c then min (v.clipped + 1) 65535 else v.clipped }) (fun _ => rfl) u n n

/-- A change of the seat that a block taken does not meet. -/
theorem blockTaken_modSeat {F : Seat → Seat}
    (hF : ∀ v, F { v with blocksHeld := v.blocksHeld + 1 } = { F v with blocksHeld := (F v).blocksHeld + 1 })
    (u : State) (n : SeatNo) : blockTaken (u.modSeat n F) n = (blockTaken u n).modSeat n F := by
  have hc := modSeat_comm (F := F) (G := fun v => { v with blocksHeld := v.blocksHeld + 1 }) hF u n n
  unfold blockTaken
  rw [hc]
  rfl

theorem strokeAdded_modSeat {F : Seat → Seat}
    (hF : ∀ v, F { v with blocksHeld := v.blocksHeld + 1 } = { F v with blocksHeld := (F v).blocksHeld + 1 })
    (u : State) (n : SeatNo) (r : Stroke) (e : Entry) :
    strokeAdded (u.modSeat n F) n r e = (strokeAdded u n r e).modSeat n F := by
  unfold strokeAdded
  rw [blockTaken_modSeat hF]
  rfl

theorem Seat.mapItem_mapItem (f g : OpenItem → OpenItem) (v : Seat) :
    (v.mapItem f).mapItem g = v.mapItem fun i => g (f i) := by
  simp [Seat.mapItem, Function.comp_def]

/-- What a refusal leaves before its points are counted as dropped (R41, R90, R91). -/
def refusalShown (u : State) (o : Origins) (n : SeatNo) : Shortage → State
  | .table =>
    { caught u .tableFull o.link (some n) o.frame with
      attention := { (caught u .tableFull o.link (some n) o.frame).attention with
        pending := (caught u .tableFull o.link (some n) o.frame).attention.pending ||| 4#11 }
      maint := { u.maint with tableFull := true } }
  | .quota =>
    if (u.seat n).quotaReached then u
    else
      addNotice { u.modSeat n (fun x => { x with quotaReached := true }) with
        attention := { u.attention with pending := u.attention.pending ||| BitVec.twoPow 11 8 } } n .quotaReached
  | .reserve => u
  | .pool =>
    if (u.seat n).item.any (·.poolReported) then u
    else (caught u .poolEmpty o.link (some n) o.frame).modSeat n (Seat.mapItem fun i => { i with poolReported := true })

theorem refusedFor_eq (u : State) (o : Origins) (n : SeatNo) (why : Shortage) (k : Nat) :
    refusedFor u o n why k = (refusalShown u o n why).modSeat n fun x => { x with dropped := min (x.dropped + k) 65535 } := by
  cases why <;> rfl

theorem refusalShown_dated (u : State) (o : Origins) (n : SeatNo) (why : Shortage) (d : Time) :
    refusalShown (dated n d u) o n why = dated n d (refusalShown u o n why) := by
  have hi := dated_seat n d u
  cases why with
  | table => rfl
  | reserve => rfl
  | quota =>
    have hq : ((dated n d u).seat n).quotaReached = (u.seat n).quotaReached := by rw [hi]; rfl
    have hm := modSeat_comm (F := Seat.mapItem fun i => { i with deadline := d })
      (G := fun x => { x with quotaReached := true }) (fun _ => rfl) u n n
    simp only [refusalShown, hq]
    split
    · rfl
    · rw [show (dated n d u).modSeat n (fun x => { x with quotaReached := true }) = _ from hm]
      exact addNotice_modItem { u.modSeat n (fun x => { x with quotaReached := true }) with
        attention := { u.attention with pending := u.attention.pending ||| BitVec.twoPow 11 8 } } n n _ .quotaReached
  | pool =>
    have hany : ((dated n d u).seat n).item.any (·.poolReported) = (u.seat n).item.any (·.poolReported) := by
      rw [hi, Seat.mapItem]
      cases (u.seat n).item <;> rfl
    simp only [refusalShown, hany]
    split
    · rfl
    · exact modSeat_comm (F := Seat.mapItem fun i => { i with deadline := d })
        (G := Seat.mapItem fun i => { i with poolReported := true })
        (fun v => by rw [Seat.mapItem_mapItem, Seat.mapItem_mapItem])
        (caught u .poolEmpty o.link (some n) o.frame) n n

theorem refusedFor_dated (u : State) (o : Origins) (n : SeatNo) (why : Shortage) (k : Nat) (d : Time) :
    refusedFor (dated n d u) o n why k = dated n d (refusedFor u o n why k) := by
  rw [refusedFor_eq, refusedFor_eq, refusalShown_dated]
  exact modSeat_comm (F := Seat.mapItem fun i => { i with deadline := d })
    (G := fun x => { x with dropped := min (x.dropped + k) 65535 }) (fun _ => rfl) (refusalShown u o n why) n n

theorem store_refusedFor (u : State) (o : Origins) (n : SeatNo) (why : Shortage) (k : Nat) :
    (refusedFor u o n why k).store = u.store := by
  cases why with
  | table => rfl
  | reserve => rfl
  | quota => unfold refusedFor; dsimp only; split <;> simp
  | pool => unfold refusedFor; dsimp only; split <;> rfl

end Sys2Proof.Machine
end

