-- ==== Sys2Proof/Proofs/DrawStroke.lean ====
section
/-! One point for an open ink stroke (R15, R57, R66, R88, R93): the model's `inkPoint` is the `pointDrawn` of the
statements. -/

namespace Sys2Proof.Machine

variable {s u : State} {t t₁ : Tx} {n : SeatNo} {h : Handle} {tag : Byte} {d : Time}

/-! ### A transaction that draws in an open stroke -/

/-- Every entry called for names a live stroke. -/
def Tx.CallsLive (t : Tx) : Prop := ∀ c ∈ t.calls, ∀ k, c.handle = some k → t.st.store.live k = true

/-- The seat's open item is the ink stroke of this handle: it is live and OPEN and holds a block. -/
structure Tx.Inks (n : SeatNo) (h : Handle) (tag : Byte) (t : Tx) : Prop where
  item : ∃ lift drop pr dl, (t.st.seat n).item = some ⟨.ink h tag, lift, drop, pr, dl⟩
  live : t.st.store.live h = true
  opened : (t.st.store.stroke h.idx).state = .opened
  chained : (t.st.store.stroke h.idx).chain ≠ []
  calls : t.CallsLive

/-- The transaction draws in the seat's open ink stroke, on Z lists that agree. -/
structure Tx.Draws (n : SeatNo) (h : Handle) (tag : Byte) (t : Tx) : Prop extends t.Inks n h tag where
  stamped : t.Stamped
  zAgree : t.st.store.ZAgree
  running : t.st.cls.state ≠ .resetting

/-- Two live strokes have different records. -/
theorem Store.idx_ne_of_live {st : Store} {k : Handle} (hh : st.live h = true) (hk : st.live k = true) (hne : k ≠ h) :
    k.idx ≠ h.idx := fun e => by
  have h1 := ((Store.live_iff _ _).mp hh).1
  have h2 := ((Store.live_iff _ _).mp hk).1
  rw [e] at h2
  exact hne (by cases h; cases k; simp_all)

/-- A write to the record of a live stroke leaves the records of the other strokes called for. -/
theorem Tx.CallsLive.others (hc : t.CallsLive) (hl : t.st.store.live h = true) {b : Store}
    (hb : ∀ i, i ≠ h.idx → b.stroke i = t.st.store.stroke i) :
    ∀ c ∈ t.calls, ∀ k, c.handle = some k → k ≠ h → b.stroke k.idx = t.st.store.stroke k.idx :=
  fun c hm k hk hne => hb _ (Store.idx_ne_of_live hl (hc c hm k hk) hne)

theorem Tx.entries_reverse (t : Tx) : t.entries = t.calls.reverse.map (Call.entry t.st.store t.rev t.time) := rfl

/-- The record of a live stroke changes: the entries called for before are restated. -/
theorem Tx.entries_written (hc : t.CallsLive) (hl : t.st.store.live h = true) {b : Store}
    (hf : (b.stroke h.idx).fixed = (t.st.store.stroke h.idx).fixed)
    (hb : ∀ i, i ≠ h.idx → b.stroke i = t.st.store.stroke i) :
    t.calls.reverse.map (Call.entry b t.rev t.time) = restated h (b.stroke h.idx) t.entries :=
  entries_restated _ _ hf fun c hm => hc.others hl hb c (List.mem_reverse.mp hm)

/-- What ink goes on being drawn after a write to the record of the stroke. -/
theorem Tx.Inks.of_written (hd : t.Inks n h tag) {r : Stroke}
    (hi : ∃ lift drop pr dl, (t₁.st.seat n).item = some ⟨.ink h tag, lift, drop, pr, dl⟩)
    (hr : t₁.st.store.stroke h.idx = r) (hg : r.gen = (t.st.store.stroke h.idx).gen) (hs : r.state = .opened)
    (hc : r.chain ≠ []) (hb : ∀ i, i ≠ h.idx → t₁.st.store.stroke i = t.st.store.stroke i)
    (hcs : ∀ c ∈ t₁.calls, c.handle = some h ∨ c ∈ t.calls) : t₁.Inks n h tag := by
  have hl : t₁.st.store.live h = true :=
    (Store.live_iff _ _).mpr ⟨by rw [hr, hg]; exact ((Store.live_iff _ _).mp hd.live).1, by rw [hr, hs]; nofun⟩
  refine ⟨hi, hl, by rw [hr, hs], by rw [hr]; exact hc, fun c hm k hk => ?_⟩
  rcases hcs c hm with e | e
  · cases hk.symm.trans e
    exact hl
  · by_cases hkh : k = h
    · rw [hkh]; exact hl
    · have := hd.calls c e k hk
      rwa [Store.live_congr (hb _ (Store.idx_ne_of_live hd.live this hkh))]

/-- What ink goes on being drawn where neither the records nor the item's kind change. -/
theorem Tx.Inks.of_same (hd : t.Inks n h tag)
    (hi : (t₁.st.seat n).item.map OpenItem.kind = (t.st.seat n).item.map OpenItem.kind)
    (hs : t₁.st.store.stroke = t.st.store.stroke) (hc : t₁.calls = t.calls) : t₁.Inks n h tag := by
  obtain ⟨l, d, p, x, e⟩ := hd.item
  rw [e, Option.map_some, Option.map_eq_some_iff] at hi
  obtain ⟨⟨k, l', d', p', x'⟩, e', rfl⟩ := hi
  exact hd.of_written (r := t.st.store.stroke h.idx) ⟨l', d', p', x', e'⟩ (by rw [hs]) rfl hd.opened hd.chained
    (fun i _ => by rw [hs]) fun c hm => .inr (hc ▸ hm)

/-! ### One point stored in a block -/

/-- A block and the record of its stroke are written. -/
def entryPut (u : State) (h : Handle) (b : BlockNo) (es : List Entry) (r : Stroke) : State :=
  { u with store := (u.store.setBlock b es).setStroke h.idx r }

theorem pointJoined_st (w : Work) (h : Handle) (b : BlockNo) (es : List Entry) (r : Stroke) (x y wd : Nat) :
    (pointJoined w h b es r x y wd).st = entryPut w.st h b es r := rfl

/-- A stored break clears the markers of the item (R58). -/
def OpenItem.unmarked (i : OpenItem) : OpenItem := { i with lift := false, drop := false }

/-- The record after a stored point, with the block the point took, if it took one (R15). -/
def chainGrown (s : State) (r : Stroke) (fresh : Option BlockNo) (x y w : Nat) (c broken : Bool) : Stroke :=
  { grownStroke s r x y w c broken with chain := r.chain ++ fresh.toList }

theorem chainGrown_none (s : State) (r : Stroke) (x y w : Nat) (c broken : Bool) :
    chainGrown s r none x y w c broken = grownStroke s r x y w c broken := by
  simp [chainGrown, grownStroke]

/-- R15, R68, R70: what a stored point leaves. -/
theorem Tx.putEntry_eq (hst : t.Stamped) (b : BlockNo) (es : List Entry) (fresh : Bool) (x y w : Nat)
    (c broken : Bool) :
    t.putEntry n h b es fresh x y w c broken = { t with
      st := modItem (entryPut t.st h b es (chainGrown t.st (t.st.store.stroke h.idx)
        (if fresh then some b else none) x y w c broken)) n OpenItem.unmarked
      calls := noteStored h (t.st.store.stroke h.idx).count (squareOf x y w) t.calls
      stored := t.stored + 1 } := by
  cases fresh with
  | true => simp only [chainGrown, grownStroke, ← hst.rev]; rfl
  | false =>
    simp only [Bool.false_eq_true, if_false, chainGrown_none]
    simp only [grownStroke, ← hst.rev]
    rfl

theorem noteStored_eq_cons (h : Handle) (ix : Nat) (sq : Box) (cs : List Call) :
    ∃ c ds, noteStored h ix sq cs = c :: ds ∧ c.handle = some h ∧ ds ⊆ cs := by
  unfold noteStored
  split
  · next g m cs =>
    split
    · next e => exact ⟨_, _, rfl, congrArg some e, List.subset_cons_self ..⟩
    · exact ⟨_, _, rfl, rfl, List.Subset.refl _⟩
  · next g f m b cs =>
    split
    · next e => exact ⟨_, _, rfl, congrArg some e, List.subset_cons_self ..⟩
    · exact ⟨_, _, rfl, rfl, List.Subset.refl _⟩
  · exact ⟨_, _, rfl, rfl, List.Subset.refl _⟩

theorem noteStored_handle {ix : Nat} {sq : Box} {cs : List Call} {c : Call} (hc : c ∈ noteStored h ix sq cs) :
    c.handle = some h ∨ c ∈ cs := by
  obtain ⟨c', ds, e, hh, hs⟩ := noteStored_eq_cons h ix sq cs
  rw [e] at hc
  rcases List.mem_cons.mp hc with rfl | hm
  · exact .inl hh
  · exact .inr (hs hm)

@[simp] theorem seat_entryPut (u : State) (h : Handle) (b : BlockNo) (es : List Entry) (r : Stroke) (m : SeatNo) :
    (entryPut u h b es r).seat m = u.seat m := rfl

theorem stroke_entryPut_same (u : State) (h : Handle) (b : BlockNo) (es : List Entry) (r : Stroke) :
    (entryPut u h b es r).store.stroke h.idx = r := by
  simp [entryPut]

theorem stroke_entryPut_other {i : RecIdx} (hi : i ≠ h.idx) (u : State) (b : BlockNo) (es : List Entry) (r : Stroke) :
    (entryPut u h b es r).store.stroke i = u.store.stroke i :=
  stroke_setStroke_ne _ _ hi

/-- A point outside the window is counted, and the ink goes on being drawn. -/
theorem Tx.Inks.clipped (hd : t.Inks n h tag) (c : Bool) : (t.on (clippedBy · n c)).Inks n h tag :=
  hd.of_same (congrArg _ (seat_clippedBy t.st n c).1) rfl rfl

theorem Tx.Inks.putEntry (hd : t.Inks n h tag) (hst : t.Stamped) (b : BlockNo) (es : List Entry) (fresh : Bool)
    (x y w : Nat) (c broken : Bool) : (t.putEntry n h b es fresh x y w c broken).Inks n h tag := by
  obtain ⟨l, dr, p, dl, hi⟩ := hd.item
  rw [Tx.putEntry_eq hst]
  refine hd.of_written ⟨false, false, p, dl, ?_⟩ (stroke_entryPut_same ..) rfl hd.opened
    (fun e => hd.chained (List.append_eq_nil_iff.mp e).1) (fun i hi => stroke_entryPut_other hi ..)
    fun c => noteStored_handle
  simp [modItem, hi, OpenItem.unmarked]

/-- R15, R88: a point that joins a block of the stroke, counted where it lay outside the window. -/
theorem Tx.seen_putEntry (hd : t.Inks n h tag) (hst : t.Stamped) {l dr pr : Bool} {dl : Time}
    (hi : (t.st.seat n).item = some ⟨.ink h tag, l, dr, pr, dl⟩) (b : BlockNo) (es : List Entry) (fresh : Bool)
    (x y w : Nat) (c broken : Bool) :
    ((t.on (clippedBy · n c)).putEntry n h b es fresh x y w c broken).seen n d =
      ⟨itemNow (pointJoined (t.seen n d) h b es (chainGrown t.st (t.st.store.stroke h.idx)
          (if fresh then some b else none) x y w c broken) x y w).st n
        (some { kind := .ink h tag, poolReported := pr, deadline := d }) c,
      (pointJoined (t.seen n d) h b es (chainGrown t.st (t.st.store.stroke h.idx)
          (if fresh then some b else none) x y w c broken) x y w).entries⟩ := by
  have hst1 : (t.on (clippedBy · n c)).Stamped := ⟨hst.rev_eq, hst.time_eq⟩
  rw [Tx.putEntry_eq hst1]
  generalize hr : chainGrown t.st (t.st.store.stroke h.idx) (if fresh then some b else none) x y w c broken = r
  have hr' : chainGrown (t.on (clippedBy · n c)).st ((t.on (clippedBy · n c)).st.store.stroke h.idx)
      (if fresh then some b else none) x y w c broken = r := hr
  have hcount : (t.st.store.stroke h.idx).count = r.count - 1 := by rw [← hr]; rfl
  rw [hr']
  refine Work.mk.injEq .. |>.mpr ⟨?_, ?_⟩
  · exact (itemNow_dated (n := n) (u := entryPut t.st h b es r) (f := OpenItem.unmarked) hi d rfl c).symm
  · have hf : ((entryPut t.st h b es r).store.stroke h.idx).fixed = (t.st.store.stroke h.idx).fixed := by
      rw [stroke_entryPut_same, ← hr]; rfl
    have he := entries_noteStored (cs := t.calls) t.rev t.time (squareOf x y w) hf
      (hd.calls.others hd.live fun i hi => stroke_entryPut_other hi t.st b es r)
    rw [stroke_entryPut_same, ← hcount] at he
    exact he.trans (congrArg (fun e => restated h r (noted e (squareOf x y w) t.entries))
      (by rw [hst.rev, hst.time]; rfl))

/-! ### A stroke opened -/

theorem stroke_strokeAdded_same (u : State) (n : SeatNo) (r : Stroke) (e : Entry) :
    (strokeAdded u n r e).store.stroke (nextHandle u).idx = r :=
  stroke_setStroke (blockTaken u n).store _ r

theorem stroke_strokeAdded_other {i : RecIdx} (hi : i ≠ (nextHandle u).idx) (n : SeatNo) (r : Stroke) (e : Entry) :
    (strokeAdded u n r e).store.stroke i = u.store.stroke i :=
  stroke_setStroke_ne (blockTaken u n).store r hi

theorem seat_strokeAdded (u : State) (n : SeatNo) (r : Stroke) (e : Entry) :
    (strokeAdded u n r e).seat n = { u.seat n with blocksHeld := (u.seat n).blocksHeld + 1 } := by
  show (u.modSeat n _).seat n = _
  rw [seat_modSeat]

/-- The record an open takes is no live stroke's (R12, R13). -/
theorem Store.ZAgree.idx_ne_next {k : Handle} (hz : u.store.ZAgree) (hr : openRefusal u n = none)
    (hk : u.store.live k = true) : k.idx ≠ (nextHandle u).idx := fun e => by
  have hf := hz.head_free (take_of_openRefusal hr).1
  exact ((Store.live_iff _ _).mp hk).2 (by rw [e]; exact hf)

/-- The entries called for before a stroke is opened stay as they are. -/
theorem Tx.entries_added (hc : t.CallsLive) (hz : t.st.store.ZAgree) (hr : openRefusal t.st n = none) (r : Stroke)
    (e : Entry) : t.calls.reverse.map (Call.entry (strokeAdded t.st n r e).store t.rev t.time) = t.entries := by
  refine List.map_congr_left fun c hm => Call.entry_congr fun k hk => ?_
  exact stroke_strokeAdded_other (hz.idx_ne_next hr (hc c (List.mem_reverse.mp hm) k hk)) n r e

/-- R14, R85: a stroke is opened and becomes the seat's open item. The state `v` the statements open it in may
differ in the item the seat had. -/
theorem Tx.seen_withStroke (hst : t.Stamped) (hc : t.CallsLive) (hz : t.st.store.ZAgree)
    (hr : openRefusal t.st n = none) (sp : OpenSpec) (x y w : Nat) (c : Bool) (v : Work) (f : OpenItem → OpenItem)
    (hv : v = ⟨t.st.modSeat n (Seat.mapItem f), t.entries⟩) :
    (((t.on (clippedBy · n c)).withStroke n sp x y w c).toInk n (nextHandle t.st) tag false false).seen n d =
      ⟨itemNow (strokeOpened v n sp x y w c).st n (some { kind := .ink (nextHandle t.st) tag, deadline := d }) c,
        (strokeOpened v n sp x y w c).entries⟩ := by
  subst hv
  have hadd := fun (F : Seat → Seat) hF => strokeAdded_modSeat (F := F) hF t.st n (newRecord t.st n sp x y w c)
    (.abs x y w false)
  refine Work.mk.injEq .. |>.mpr ⟨?_, ?_⟩
  · show dated n d (setItem (strokeAdded (t.st.modSeat n _) n (newRecord t.st n sp x y w c) _) n _) =
      (State.modSeat (strokeAdded (t.st.modSeat n (Seat.mapItem f)) n (newRecord t.st n sp x y w c) _) n _).modSeat n _
    rw [hadd _ fun _ => rfl, hadd _ fun _ => rfl, dated, setItem, modSeat_modSeat, modSeat_modSeat, modSeat_modSeat,
      modSeat_modSeat]
    rfl
  · have he : openedEntry t.st (nextHandle t.st) (newRecord t.st n sp x y w c) =
        Call.entry (strokeAdded t.st n (newRecord t.st n sp x y w c) (.abs x y w false)).store t.rev t.time
          (.opened (nextHandle t.st) 1) := by
      rw [Call.entry, strokeEntry, stroke_strokeAdded_same, hst.rev, hst.time]
      rfl
    show (Call.opened (nextHandle t.st) 1 :: t.calls).reverse.map (Call.entry (strokeAdded t.st n
        (newRecord t.st n sp x y w c) (.abs x y w false)).store t.rev t.time) =
      t.entries ++ [openedEntry t.st (nextHandle t.st) (newRecord t.st n sp x y w c)]
    rw [List.reverse_cons, List.map_append, he, Tx.entries_added hc hz hr]
    rfl

theorem Tx.inks_withStroke (hc : t.CallsLive) (hz : t.st.store.ZAgree) (hr : openRefusal t.st n = none)
    (sp : OpenSpec) (x y w : Nat) (c : Bool) (tag : Byte) :
    ((t.withStroke n sp x y w c).toInk n (nextHandle t.st) tag false false).Inks n (nextHandle t.st) tag := by
  have hs := stroke_strokeAdded_same t.st n (newRecord t.st n sp x y w c) (.abs x y w false)
  have hl : (strokeAdded t.st n (newRecord t.st n sp x y w c) (.abs x y w false)).store.live (nextHandle t.st) = true :=
    (Store.live_iff _ _).mpr ⟨by rw [hs]; rfl, by rw [hs]; nofun⟩
  refine ⟨⟨false, false, false, _, congrArg Seat.item (seat_modSeat ..)⟩, hl, congrArg Stroke.state hs, ?_, ?_⟩
  · exact ne_of_eq_of_ne (congrArg Stroke.chain hs) (List.cons_ne_nil _ _)
  · intro k hm g hg
    rcases List.mem_cons.mp hm with rfl | hm
    · cases hg
      exact hl
    · have hk := hc k hm g hg
      exact (Store.live_congr (stroke_strokeAdded_other (hz.idx_ne_next hr hk) ..)).trans hk

/-! ### A stroke split -/

/-- The stroke is closed with SPLIT (R16, R93). -/
def Tx.shut (n : SeatNo) (h : Handle) (tag : Byte) (t : Tx) : Tx :=
  { t with
    st := { t.st.modSeat n (fun v => { v with lastClosed := some (tag, h) }) with
      store := t.st.store.setStroke h.idx (closedStroke t.st (t.st.store.stroke h.idx) .split) }
    calls := .closed h :: t.calls
    closed := some h }

theorem Tx.Inks.closeInk (hd : t.Inks n h tag) (hst : t.Stamped) (tag' : Byte) :
    t.closeInk n h tag' .split = t.shut n h tag' := by
  unfold Tx.closeInk
  rw [if_pos ⟨hd.live, hd.opened⟩, hst.rev, hst.time]
  rfl

theorem Tx.shut_clipped (t : Tx) (n : SeatNo) (h : Handle) (tag : Byte) (c : Bool) :
    (t.on (clippedBy · n c)).shut n h tag = (t.shut n h tag).on (clippedBy · n c) := by
  have hm := modSeat_comm (F := fun v => { v with lastClosed := some (tag, h) })
    (G := fun v => { v with clipped := if c then min (v.clipped + 1) 65535 else v.clipped }) (fun _ => rfl) t.st n n
  unfold Tx.shut Tx.on clippedBy
  rw [← hm]
  rfl

theorem Tx.openRefusal_shut (t : Tx) (n : SeatNo) (h : Handle) (tag : Byte) :
    openRefusal (t.shut n h tag).st n = openRefusal t.st n := by
  have hs : (t.shut n h tag).st.seat n = { t.st.seat n with lastClosed := some (tag, h) } := seat_modSeat ..
  simp only [← shortage_open, shortage, hs]
  rfl

theorem Tx.Inks.callsLive_shut (hd : t.Inks n h tag) : (t.shut n h tag).CallsLive := by
  have hl : ∀ k, t.st.store.live k = true → (t.shut n h tag).st.store.live k = true := fun k hk => by
    rw [Store.live_iff] at hk ⊢
    by_cases e : k.idx = h.idx
    · rw [e] at hk
      rw [e, Tx.shut, stroke_setStroke]
      exact ⟨hk.1, nofun⟩
    · rwa [Tx.shut, stroke_setStroke_ne _ _ e]
  intro c hm k hk
  rcases List.mem_cons.mp hm with rfl | hm
  · cases hk
    exact hl _ hd.live
  · exact hl k (hd.calls c hm k hk)

theorem Tx.Inks.entries_shut (hd : t.Inks n h tag) (hst : t.Stamped) :
    (t.shut n h tag).entries = restated h (closedStroke t.st (t.st.store.stroke h.idx) .split) t.entries ++
      [closedEntry t.st h (closedStroke t.st (t.st.store.stroke h.idx) .split)] := by
  generalize hr : closedStroke t.st (t.st.store.stroke h.idx) .split = r
  have hf : (r.fixed) = (t.st.store.stroke h.idx).fixed := by rw [← hr]; rfl
  have hw := Tx.entries_written (b := t.st.store.setStroke h.idx r) hd.calls hd.live (by rw [stroke_setStroke, hf])
    fun i hi => stroke_setStroke_ne _ _ hi
  have he : Call.entry (t.st.store.setStroke h.idx r) t.rev t.time (.closed h) = closedEntry t.st h r := by
    rw [Call.entry, strokeEntry, stroke_setStroke, hst.rev, hst.time]
    rfl
  rw [stroke_setStroke] at hw
  rw [← hw, ← he, ← hr]
  show (Call.closed h :: t.calls).reverse.map (Call.entry (t.st.store.setStroke h.idx
    (closedStroke t.st (t.st.store.stroke h.idx) .split)) t.rev t.time) = _
  rw [List.reverse_cons, List.map_append]
  rfl

theorem Tx.Inks.zAgree_shut (hd : t.Inks n h tag) (hz : t.st.store.ZAgree) : (t.shut n h tag).st.store.ZAgree :=
  hz.setStroke (by rw [hd.opened]; nofun) nofun rfl rfl rfl

theorem Tx.nextHandle_shut (t : Tx) (n : SeatNo) (h : Handle) (tag : Byte) :
    nextHandle (t.shut n h tag).st = nextHandle t.st := by
  unfold nextHandle
  rw [show headRecord (t.shut n h tag).st = headRecord t.st from rfl]
  by_cases e : (headRecord t.st).1 = h.idx
  · rw [e, Tx.shut, stroke_setStroke]
    rfl
  · rw [Tx.shut, stroke_setStroke_ne _ _ e]

end Sys2Proof.Machine
end

