-- ==== Sys2Proof/Proofs/DrawPoint.lean ====
section
/-! The points of one frame for an open ink stroke (R57, R60, R63, R66, R67, R88, R91, R93): the model's `inkPoints`
is the `pointsDrawn` of the statements. -/

namespace Sys2Proof.Machine

variable {s u : State} {t t₁ : Tx} {n : SeatNo} {h : Handle} {tag : Byte} {d : Time} {o : Origins} {p : RawPoint}
  {more x y w : Nat} {c lift drop pr : Bool} {dl : Time} {b : BlockNo} {why : Shortage}

/-! ### Where the model stores a coded point -/

theorem Tx.storePoint_room (hd : t.Inks n h tag) (hb : (t.st.store.stroke h.idx).chain.getLast? = some b)
    (hl : (t.st.store.lastBlock h.idx).length < 24) :
    t.storePoint o n h tag lift drop x y w c =
      (t.putEntry n h b (t.st.store.lastBlock h.idx ++
        [codeEntry ((t.st.store.lastPoint h.idx).getD ⟨0, 0, 0, false⟩) false (lift || drop) x y w]) false x y w c drop,
        true) := by
  have hf : decide (Config.blockEntries ≤ (t.st.store.lastBlock h.idx).length) = false :=
    decide_eq_false (Nat.not_le.mpr hl)
  unfold Tx.storePoint
  simp [hb, hd.live, hd.opened, hf]

theorem Tx.storePoint_block (hd : t.Inks n h tag) (hl : ¬(t.st.store.lastBlock h.idx).length < 24)
    (hc : (t.st.store.stroke h.idx).chain.length < 64) :
    t.storePoint o n h tag lift drop x y w c =
      match shortage t.st n false with
      | some why => ((t.truncate h).refuse o n why, false)
      | none => (({ t with st := blockTaken t.st n } : Tx).putEntry n h (topBlock t.st).1 [.abs x y w (lift || drop)]
          true x y w c drop, true) := by
  have hf : decide (Config.blockEntries ≤ (t.st.store.lastBlock h.idx).length) = true :=
    decide_eq_true (Nat.not_lt.mp hl)
  have hm : ¬Config.maxChain ≤ (t.st.store.stroke h.idx).chain.length := Nat.not_le.mpr hc
  obtain ⟨b, hb⟩ := Option.isSome_iff_exists.mp (List.getLast?_isSome.mpr hd.chained)
  rw [shortage_block]
  unfold Tx.storePoint
  cases hr : blockRefusal t.st n with
  | some why => simp [hb, hd.live, hd.opened, hf, hm]
  | none =>
    simp only [hb, hd.live, hd.opened, hf, hm, takeBlock_eq (pop_of_blockRefusal hr), codeEntry]
    rfl

/-- The spec of the successor of a stroke that is split (R93). -/
def successorSpec (h : Handle) (r : Stroke) : OpenSpec :=
  ⟨r.page, r.layer, r.tool, r.colour, r.tag, r.flags.orphan, some h⟩

theorem Tx.storePoint_split (hd : t.Inks n h tag) (hst : t.Stamped)
    (hl : ¬(t.st.store.lastBlock h.idx).length < 24) (hc : ¬(t.st.store.stroke h.idx).chain.length < 64) :
    t.storePoint o n h tag lift drop x y w c =
      match shortage t.st n true with
      | some why => ((t.truncate h).refuse o n why, false)
      | none => (((t.shut n h tag).withStroke n (successorSpec h (t.st.store.stroke h.idx)) x y w c).toInk n
          (nextHandle t.st) tag false false, true) := by
  have hf : decide (Config.blockEntries ≤ (t.st.store.lastBlock h.idx).length) = true :=
    decide_eq_true (Nat.not_lt.mp hl)
  have hm : Config.maxChain ≤ (t.st.store.stroke h.idx).chain.length := Nat.not_lt.mp hc
  obtain ⟨b, hb⟩ := Option.isSome_iff_exists.mp (List.getLast?_isSome.mpr hd.chained)
  have hsp : t.storePoint o n h tag lift drop x y w c = t.splitStroke o n h tag x y w c := by
    unfold Tx.storePoint
    simp [hb, hd.live, hd.opened, hf, hm]
  rw [hsp, shortage_open]
  unfold Tx.splitStroke
  cases hr : openRefusal t.st n with
  | some why => rfl
  | none =>
    have ho := Tx.openStroke_eq (t := t.shut n h tag) (n := n) ⟨hst.rev_eq, hst.time_eq⟩
      (by rw [Tx.openRefusal_shut, hr]) (successorSpec h (t.st.store.stroke h.idx)) x y w c
    rw [Tx.nextHandle_shut] at ho
    dsimp only
    rw [hd.closeInk hst]
    simp only [successorSpec] at ho ⊢
    rw [ho]

/-! ### What one point comes to -/

/-- What the model's `inkPoint` returns is what `pointDrawn` says of the point. -/
inductive Tx.PointAgrees (o : Origins) (n : SeatNo) (p : RawPoint) (more : Nat) (d : Time) (tag : Byte) (t : Tx) :
    Tx × Bool → Prop
  | unstored {t' : Tx} {h' : Handle} (hd : t'.Inks n h' tag)
      (he : pointDrawn o n p more (t.seen n d) = (t'.seen n d, .unstored)) (ht : t'.tally = t.tally) :
      t.PointAgrees o n p more d tag (t', true)
  | stored {t' : Tx} {h' : Handle} (hd : t'.Inks n h' tag)
      (he : pointDrawn o n p more (t.seen n d) = (t'.seen n d, .stored))
      (ht : t'.tally = (t.stored + 1, t.lost, t.noRecord)) : t.PointAgrees o n p more d tag (t', true)
  | refused {t' : Tx} {why : Shortage}
      (he : pointDrawn o n p more (t.seen n d) = ((t'.lose n (1 + more)).seen n d, .refused why))
      (ht : (t'.lose n (1 + more)).tally = (t.stored, t.lost + (1 + more), t.noRecord || decide (why = .table))) :
      t.PointAgrees o n p more d tag (t', false)

theorem item_seen {i : OpenItem} (hi : (t.st.seat n).item = some i) :
    ((t.seen n d).st.seat n).item = some { i with deadline := d } := by
  show ((dated n d t.st).seat n).item = _
  rw [dated_seat, Seat.mapItem, hi]
  rfl

theorem mapPoint_seen (t : Tx) (n : SeatNo) (tool : PenTool) (p : RawPoint) :
    mapPoint ((t.seen n d).st.seat n) tool p = mapPoint (t.st.seat n) tool p := by
  show mapPoint ((dated n d t.st).seat n) tool p = _
  rw [dated_seat]
  rfl

/-- A point that stores nothing changes the item alone, and is counted where it lay outside the window. -/
theorem Tx.seen_marked {i : OpenItem} (hi : (t.st.seat n).item = some i) (f : OpenItem → OpenItem) (c : Bool) :
    ((t.on (clippedBy · n c)).on (modItem · n f)).seen n d =
      ⟨itemNow (t.seen n d).st n (some { f i with deadline := d }) c, (t.seen n d).entries⟩ :=
  Work.mk.injEq .. |>.mpr ⟨(itemNow_dated hi d rfl c).symm, rfl⟩

theorem Tx.Inks.marked (hd : t.Inks n h tag) {f : OpenItem → OpenItem} (hf : ∀ i, (f i).kind = i.kind) (c : Bool) :
    ((t.on (clippedBy · n c)).on (modItem · n f)).Inks n h tag := by
  obtain ⟨l, dr, pr, dl, hi⟩ := hd.item
  refine (hd.clipped c).of_same ?_ rfl rfl
  have h1 : ((modItem (clippedBy t.st n c) n f).seat n).item = some (f ⟨.ink h tag, l, dr, pr, dl⟩) := by
    rw [modItem_eq, seat_modSeat, Seat.mapItem, (seat_clippedBy t.st n c).1, hi]
    rfl
  have h2 : ((clippedBy t.st n c).seat n).item = some ⟨.ink h tag, l, dr, pr, dl⟩ := by
    rw [(seat_clippedBy t.st n c).1, hi]
  exact (congrArg (Option.map OpenItem.kind) h1).trans (.trans (by rw [Option.map_some, hf]; rfl)
    (congrArg (Option.map OpenItem.kind) h2).symm)

/-- R60. -/
theorem Tx.pointAgrees_lifted (hd : t.Inks n h tag)
    (hi : (t.st.seat n).item = some ⟨.ink h tag, lift, drop, pr, dl⟩)
    (hp : mapPoint (t.st.seat n) (t.st.store.stroke h.idx).tool.pen p = .lifted) :
    t.PointAgrees o n p more d tag (t.inkPoint o n p) := by
  have hm : t.inkPoint o n p =
      ((t.on (clippedBy · n false)).on (modItem · n fun i => { i with lift := true }), true) := by
    unfold Tx.inkPoint
    simp only [hi, Tx.mapped_eq, hp, MapOut.wasOutside]
  rw [hm]
  refine .unstored (hd.marked (f := fun i => { i with lift := true }) (fun _ => rfl) false) ?_ rfl
  rw [Tx.seen_marked hi]
  unfold pointDrawn
  simp only [item_seen hi, mapPoint_seen]
  rw [show (t.seen n d).st.store = t.st.store from rfl, hp]

/-- R63. -/
theorem Tx.pointAgrees_dropped (hd : t.Inks n h tag)
    (hi : (t.st.seat n).item = some ⟨.ink h tag, lift, drop, pr, dl⟩)
    (hp : mapPoint (t.st.seat n) (t.st.store.stroke h.idx).tool.pen p = .dropped) :
    t.PointAgrees o n p more d tag (t.inkPoint o n p) := by
  have hm : t.inkPoint o n p =
      ((t.on (clippedBy · n true)).on (modItem · n fun i => { i with drop := true }), true) := by
    unfold Tx.inkPoint
    simp only [hi, Tx.mapped_eq, hp, MapOut.wasOutside]
  rw [hm]
  refine .unstored (hd.marked (f := fun i => { i with drop := true }) (fun _ => rfl) true) ?_ rfl
  rw [Tx.seen_marked hi]
  unfold pointDrawn
  simp only [item_seen hi, mapPoint_seen]
  rw [show (t.seen n d).st.store = t.st.store from rfl, hp]

/-- A coded point equals the last one of the stroke, with no break between (R66). -/
def Merged (st : Store) (h : Handle) (lift drop : Bool) (x y w : Nat) : Prop :=
  (((st.lastPoint h.idx).getD ⟨0, 0, 0, false⟩).x, ((st.lastPoint h.idx).getD ⟨0, 0, 0, false⟩).y,
    ((st.lastPoint h.idx).getD ⟨0, 0, 0, false⟩).w) = (x, y, w) ∧ lift = false ∧ drop = false

theorem merges_iff (st : Store) (h : Handle) :
    merges ((st.lastPoint h.idx).getD ⟨0, 0, 0, false⟩) (lift || drop) x y w = true ↔ Merged st h lift drop x y w := by
  simp [merges, Merged]

/-- R66. -/
theorem Tx.pointAgrees_merged (hd : t.Inks n h tag)
    (hi : (t.st.seat n).item = some ⟨.ink h tag, lift, drop, pr, dl⟩)
    (hp : mapPoint (t.st.seat n) (t.st.store.stroke h.idx).tool.pen p = .point x y w c)
    (hg : Merged t.st.store h lift drop x y w) : t.PointAgrees o n p more d tag (t.inkPoint o n p) := by
  have hm : t.inkPoint o n p = (t.on (clippedBy · n c), true) := by
    unfold Tx.inkPoint
    simp only [hi, Tx.mapped_eq, hp, MapOut.wasOutside]
    exact if_pos ((merges_iff _ h).mpr hg)
  have hself : (t.on (clippedBy · n c)).on (modItem · n id) = t.on (clippedBy · n c) :=
    congrArg (fun s => ({ t with st := s } : Tx)) (modSeat_self (Seat.mapItem_self fun _ _ => rfl))
  rw [hm, ← hself]
  refine .unstored (hd.marked (fun _ => rfl) c) ?_ rfl
  rw [Tx.seen_marked hi]
  unfold pointDrawn
  simp only [item_seen hi, mapPoint_seen]
  rw [show (t.seen n d).st.store = t.st.store from rfl, hp]
  obtain ⟨-, rfl, rfl⟩ := id hg
  exact if_pos hg

/-- A coded point that is not merged goes to the store. -/
theorem Tx.inkPoint_coded (hi : (t.st.seat n).item = some ⟨.ink h tag, lift, drop, pr, dl⟩)
    (hp : mapPoint (t.st.seat n) (t.st.store.stroke h.idx).tool.pen p = .point x y w c)
    (hg : ¬Merged t.st.store h lift drop x y w) :
    t.inkPoint o n p = (t.on (clippedBy · n c)).storePoint o n h tag lift drop x y w c := by
  unfold Tx.inkPoint
  simp only [hi, Tx.mapped_eq, hp, MapOut.wasOutside]
  exact if_neg fun e => hg ((merges_iff _ h).mp e)

theorem Tx.truncate_eq (t : Tx) (h : Handle) : t.truncate h = { t with st := truncated t.st h.idx } := rfl

theorem Tx.refuse_lose_calls (t : Tx) (o : Origins) (n : SeatNo) (why : Shortage) (k : Nat) :
    ((t.refuse o n why).lose n k).calls = t.calls ∧ ((t.refuse o n why).lose n k).base = t.base := by
  cases why <;> exact ⟨rfl, rfl⟩

/-- R90, R91: a refused point, and those behind it, with the stroke TRUNCATED. -/
theorem Tx.seen_refused (hd : t.Inks n h tag) (c : Bool) (why : Shortage) (k : Nat) :
    ((((t.on (clippedBy · n c)).truncate h).refuse o n why).lose n k).seen n d =
      ⟨refusedFor (truncated (clippedBy (t.seen n d).st n c) h.idx) o n why k,
        restated h { t.st.store.stroke h.idx with
          flags := { (t.st.store.stroke h.idx).flags with truncated := true } } (t.seen n d).entries⟩ := by
  obtain ⟨hc, hb⟩ := Tx.refuse_lose_calls ((t.on (clippedBy · n c)).truncate h) o n why k
  have hst := Tx.refuse_lose_st ((t.on (clippedBy · n c)).truncate h) o n why k
  refine Work.mk.injEq .. |>.mpr ⟨?_, ?_⟩
  · rw [hst, ← refusedFor_dated]
    show refusedFor (truncated (dated n d (clippedBy t.st n c)) h.idx) o n why k =
      refusedFor (truncated (clippedBy (dated n d t.st) n c) h.idx) o n why k
    rw [clippedBy_dated]
  · have hw := Tx.entries_written (b := (truncated t.st h.idx).store) hd.calls hd.live
      (by rw [truncated, stroke_setStroke]; rfl) fun i hi => stroke_setStroke_ne _ _ hi
    rw [truncated, stroke_setStroke] at hw
    rw [Tx.entries_reverse, Tx.rev, Tx.time, hc, hb, hst, store_refusedFor]
    exact hw

/-- R15, R67, R88. -/
theorem Tx.pointAgrees_room (hd : t.Inks n h tag) (hst : t.Stamped)
    (hi : (t.st.seat n).item = some ⟨.ink h tag, lift, drop, pr, dl⟩)
    (hp : mapPoint (t.st.seat n) (t.st.store.stroke h.idx).tool.pen p = .point x y w c)
    (hg : ¬Merged t.st.store h lift drop x y w) (hl : (t.st.store.lastBlock h.idx).length < 24) :
    t.PointAgrees o n p more d tag (t.inkPoint o n p) := by
  obtain ⟨b, hb⟩ := Option.isSome_iff_exists.mp (List.getLast?_isSome.mpr hd.chained)
  have hst1 : (t.on (clippedBy · n c)).Stamped := ⟨hst.rev_eq, hst.time_eq⟩
  rw [Tx.inkPoint_coded hi hp hg, Tx.storePoint_room (hd.clipped c) hb hl]
  refine .stored ((hd.clipped c).putEntry hst1 ..) ?_ rfl
  rw [Tx.seen_putEntry hd hst hi]
  unfold pointDrawn
  simp only [item_seen hi, mapPoint_seen]
  rw [show (t.seen n d).st.store = t.st.store from rfl, hp]
  dsimp only
  refine (if_neg hg).trans ((if_pos hl).trans ?_)
  rw [hb, if_neg Bool.false_ne_true, chainGrown_none]
  rfl

theorem shortage_seen (t : Tx) (n : SeatNo) (r : Bool) : shortage (t.seen n d).st n r = shortage t.st n r := by
  have hs : (t.seen n d).st.seat n = (t.st.seat n).mapItem fun i => { i with deadline := d } := dated_seat n d t.st
  simp only [shortage, hs]
  rfl

theorem shortage_clipped (t : Tx) (n : SeatNo) (c r : Bool) :
    shortage (t.on (clippedBy · n c)).st n r = shortage t.st n r := by
  simp only [shortage, Tx.on, clippedBy, seat_modSeat]
  rfl

/-- R15, R67, R88, R91: a point that needs a new block. -/
theorem Tx.pointAgrees_block (hd : t.Inks n h tag) (hst : t.Stamped)
    (hi : (t.st.seat n).item = some ⟨.ink h tag, lift, drop, pr, dl⟩)
    (hp : mapPoint (t.st.seat n) (t.st.store.stroke h.idx).tool.pen p = .point x y w c)
    (hg : ¬Merged t.st.store h lift drop x y w) (hl : ¬(t.st.store.lastBlock h.idx).length < 24)
    (hb : (t.st.store.stroke h.idx).chain.length < 64) : t.PointAgrees o n p more d tag (t.inkPoint o n p) := by
  rw [Tx.inkPoint_coded hi hp hg, Tx.storePoint_block (hd.clipped c) hl hb, shortage_clipped]
  have hdrawn : pointDrawn o n p more (t.seen n d) =
      match shortage t.st n false with
      | some why => (⟨refusedFor (truncated (clippedBy (t.seen n d).st n c) h.idx) o n why (1 + more),
          restated h { t.st.store.stroke h.idx with
            flags := { (t.st.store.stroke h.idx).flags with truncated := true } } (t.seen n d).entries⟩, .refused why)
      | none =>
        let j := pointJoined ⟨blockTaken (t.seen n d).st n, t.entries⟩ h (topBlock t.st).1 [.abs x y w (lift || drop)]
          (chainGrown t.st (t.st.store.stroke h.idx) (some (topBlock t.st).1) x y w c drop) x y w
        (⟨itemNow j.st n (some { kind := .ink h tag, poolReported := pr, deadline := d }) c, j.entries⟩, .stored) := by
    unfold pointDrawn
    simp only [item_seen hi, mapPoint_seen, shortage_seen]
    rw [show (t.seen n d).st.store = t.st.store from rfl, hp]
    dsimp only
    refine (if_neg hg).trans ((if_neg hl).trans ((if_pos hb).trans ?_))
    cases shortage t.st n false <;> rfl
  cases hs : shortage t.st n false with
  | some why =>
    rw [hs] at hdrawn
    refine .refused (hdrawn.trans ?_) (Tx.refuse_lose_tally ..)
    rw [Tx.seen_refused hd]
  | none =>
    rw [hs] at hdrawn
    have hblock : blockTaken (clippedBy t.st n c) n = clippedBy (blockTaken t.st n) n c :=
      blockTaken_modSeat (fun _ => rfl) t.st n
    have hdate : blockTaken (dated n d t.st) n = dated n d (blockTaken t.st n) :=
      blockTaken_modSeat (fun _ => rfl) t.st n
    have hseat : (blockTaken t.st n).seat n = { t.st.seat n with blocksHeld := (t.st.seat n).blocksHeld + 1 } :=
      seat_modSeat ..
    have hd' : ({ t with st := blockTaken t.st n } : Tx).Inks n h tag :=
      hd.of_same (by rw [show (({ t with st := blockTaken t.st n } : Tx).st.seat n) = _ from hseat]) rfl rfl
    have hst' : ({ t with st := blockTaken t.st n } : Tx).Stamped := ⟨hst.rev_eq, hst.time_eq⟩
    show t.PointAgrees o n p more d tag ((({ t with st := blockTaken (clippedBy t.st n c) n } : Tx).putEntry n h
      (topBlock t.st).1 [.abs x y w (lift || drop)] true x y w c drop), true)
    rw [hblock]
    refine .stored ((hd'.clipped c).putEntry ⟨hst.rev_eq, hst.time_eq⟩ ..) (hdrawn.trans ?_) rfl
    have hput := Tx.seen_putEntry (d := d) hd' hst' ((congrArg Seat.item hseat).trans hi) (topBlock t.st).1
      [.abs x y w (lift || drop)] true x y w c drop
    refine congrArg (·, PointEnd.stored) (Eq.trans ?_ hput.symm)
    show (⟨itemNow (entryPut (blockTaken (dated n d t.st) n) ..) n _ c, _⟩ : Work) = _
    rw [hdate]
    rfl

/-- R93: a point that needs a 65th block. -/
theorem Tx.pointAgrees_split (hd : t.Draws n h tag)
    (hi : (t.st.seat n).item = some ⟨.ink h tag, lift, drop, pr, dl⟩)
    (hp : mapPoint (t.st.seat n) (t.st.store.stroke h.idx).tool.pen p = .point x y w c)
    (hg : ¬Merged t.st.store h lift drop x y w) (hl : ¬(t.st.store.lastBlock h.idx).length < 24)
    (hb : ¬(t.st.store.stroke h.idx).chain.length < 64) : t.PointAgrees o n p more d tag (t.inkPoint o n p) := by
  have hst1 : (t.on (clippedBy · n c)).Stamped := ⟨hd.stamped.rev_eq, hd.stamped.time_eq⟩
  rw [Tx.inkPoint_coded hi hp hg, Tx.storePoint_split (hd.clipped c) hst1 hl hb, shortage_clipped]
  have hdrawn : pointDrawn o n p more (t.seen n d) =
      match shortage t.st n true with
      | some why => (⟨refusedFor (truncated (clippedBy (t.seen n d).st n c) h.idx) o n why (1 + more),
          restated h { t.st.store.stroke h.idx with
            flags := { (t.st.store.stroke h.idx).flags with truncated := true } } (t.seen n d).entries⟩, .refused why)
      | none =>
        let shut := closedStroke t.st (t.st.store.stroke h.idx) .split
        let j := strokeOpened
          ⟨{ (t.seen n d).st.modSeat n (fun v => { v with lastClosed := some (tag, h) }) with
              store := t.st.store.setStroke h.idx shut },
            restated h shut t.entries ++ [closedEntry t.st h shut]⟩
          n (successorSpec h (t.st.store.stroke h.idx)) x y w c
        (⟨itemNow j.st n (some { kind := .ink (nextHandle t.st) tag, deadline := d }) c, j.entries⟩, .stored) := by
    unfold pointDrawn
    simp only [item_seen hi, mapPoint_seen, shortage_seen]
    rw [show (t.seen n d).st.store = t.st.store from rfl, hp]
    dsimp only
    refine (if_neg hg).trans ((if_neg hl).trans ((if_neg hb).trans ?_))
    cases shortage t.st n true <;> rfl
  cases hs : shortage t.st n true with
  | some why =>
    rw [hs] at hdrawn
    refine .refused (hdrawn.trans ?_) (Tx.refuse_lose_tally ..)
    rw [Tx.seen_refused hd.toInks]
  | none =>
    rw [hs] at hdrawn
    have hr : openRefusal (t.shut n h tag).st n = none := by rw [Tx.openRefusal_shut, ← shortage_open, hs]
    have hr1 : openRefusal ((t.shut n h tag).on (clippedBy · n c)).st n = none := by
      rw [← shortage_open, shortage_clipped, shortage_open, hr]
    have hz := hd.zAgree_shut hd.zAgree
    have hc := hd.callsLive_shut
    show t.PointAgrees o n p more d tag ((((t.on (clippedBy · n c)).shut n h tag).withStroke n
      (successorSpec h (t.st.store.stroke h.idx)) x y w c).toInk n (nextHandle t.st) tag false false, true)
    rw [Tx.shut_clipped]
    have hk := Tx.inks_withStroke (t := (t.shut n h tag).on (clippedBy · n c)) hc hz hr1
      (successorSpec h (t.st.store.stroke h.idx)) x y w c tag
    have hseen := Tx.seen_withStroke (t := t.shut n h tag) (tag := tag) (d := d)
      ⟨hd.stamped.rev_eq, hd.stamped.time_eq⟩ hc hz hr
      (successorSpec h (t.st.store.stroke h.idx)) x y w c ((t.shut n h tag).seen n d) _ rfl
    have hnext : nextHandle ((t.shut n h tag).on (clippedBy · n c)).st = nextHandle t.st :=
      Tx.nextHandle_shut t n h tag
    rw [hnext] at hk
    rw [Tx.nextHandle_shut] at hseen
    refine .stored hk (hdrawn.trans ?_) rfl
    refine congrArg (·, PointEnd.stored) (Eq.trans ?_ hseen.symm)
    have hm := modSeat_comm (F := Seat.mapItem fun i => { i with deadline := d })
      (G := fun v => { v with lastClosed := some (tag, h) }) (fun _ => rfl) t.st n n
    have hw : (t.shut n h tag).seen n d = ⟨{ (t.seen n d).st.modSeat n (fun v => { v with lastClosed := some (tag, h) }) with
          store := t.st.store.setStroke h.idx (closedStroke t.st (t.st.store.stroke h.idx) .split) },
        restated h (closedStroke t.st (t.st.store.stroke h.idx) .split) t.entries ++
          [closedEntry t.st h (closedStroke t.st (t.st.store.stroke h.idx) .split)]⟩ :=
      Work.mk.injEq .. |>.mpr ⟨congrArg (fun s : State => { s with
        store := t.st.store.setStroke h.idx (closedStroke t.st (t.st.store.stroke h.idx) .split) }) hm.symm,
        hd.entries_shut hd.stamped⟩
    rw [hw]

/-- One point for the open ink stroke of a transaction that draws. -/
theorem Tx.Draws.pointAgrees (hd : t.Draws n h tag) (o : Origins) (p : RawPoint) (more : Nat) (d : Time) :
    t.PointAgrees o n p more d tag (t.inkPoint o n p) := by
  obtain ⟨lift, drop, pr, dl, hi⟩ := hd.item
  cases hp : mapPoint (t.st.seat n) (t.st.store.stroke h.idx).tool.pen p with
  | lifted => exact Tx.pointAgrees_lifted hd.toInks hi hp
  | dropped => exact Tx.pointAgrees_dropped hd.toInks hi hp
  | point x y w c =>
    by_cases hg : Merged t.st.store h lift drop x y w
    · exact Tx.pointAgrees_merged hd.toInks hi hp hg
    · by_cases hl : (t.st.store.lastBlock h.idx).length < 24
      · exact Tx.pointAgrees_room hd.toInks hd.stamped hi hp hg hl
      · by_cases hb : (t.st.store.stroke h.idx).chain.length < 64
        · exact Tx.pointAgrees_block hd.toInks hd.stamped hi hp hg hl hb
        · exact Tx.pointAgrees_split hd hi hp hg hl hb

theorem Tx.Draws.next {h' : Handle} (hd : t.Draws n h tag) (he : t.inkPoint o n p = (t₁, true))
    (hi : t₁.Inks n h' tag) : t₁.Draws n h' tag := by
  have hk : Tx.Keeps (some n) t t₁ := by simpa [he] using (Tx.keeps_inkPoint o n p : Tx.Keeps (some n) t (t.inkPoint o n p).1)
  have hm : Tx.Moves t t₁ := by simpa [he] using Tx.moves_inkPoint (t := t) o n p hd.running
  exact { hi with stamped := hd.stamped.keeps hk, zAgree := hm.st.ink.zAgree hd.zAgree
                  running := hm.not_resetting hd.running }

/-! ### The points of one frame -/

/-- The drawn points of a frame are the statement's: the work, the points stored after the `k` before, the points
lost, and whether a record was refused. -/
structure Tx.FrameAgrees (n : SeatNo) (d : Time) (e : Drawn) (k : Nat) (t t' : Tx) : Prop where
  work : e.work = t'.seen n d
  stored : t'.stored + k = t.stored + e.stored
  lost : t'.lost = t.lost + e.lost
  noRecord : t'.noRecord = (t.noRecord || decide (e.refused = some .table))
  stamped : t'.Stamped

theorem Tx.frameAgrees_inkPoints (pts : List RawPoint) (hd : t.Draws n h tag) (o : Origins) (k : Nat) (d : Time) :
    Tx.FrameAgrees n d (pointsDrawn o n pts (t.seen n d) k) k t (Tx.inkPoints o n pts t) := by
  induction pts generalizing t h k with
  | nil => exact ⟨rfl, rfl, rfl, (Bool.or_false _).symm, hd.stamped⟩
  | cons p pts ih =>
    have ha := hd.pointAgrees o p pts.length d
    generalize he : t.inkPoint o n p = q at ha
    cases ha with
    | @unstored t' h' hi hp ht =>
      obtain ⟨hw, h1, h2, h3, h4⟩ := ih (hd.next he hi) k
      simp only [Tx.tally, Prod.mk.injEq] at ht
      rw [Tx.inkPoints, pointsDrawn, he, hp]
      exact ⟨hw, by rw [h1, ht.1], by rw [h2, ht.2.1], by rw [h3, ht.2.2], h4⟩
    | @stored t' h' hi hp ht =>
      obtain ⟨hw, h1, h2, h3, h4⟩ := ih (hd.next he hi) (k + 1)
      simp only [Tx.tally, Prod.mk.injEq] at ht
      rw [Tx.inkPoints, pointsDrawn, he, hp]
      exact ⟨hw, by simp only [ht.1] at h1 ⊢; omega, by rw [h2, ht.2.1], by rw [h3, ht.2.2], h4⟩
    | @refused t' why hp ht =>
      have hk : Tx.Keeps (some n) t t' := by simpa [he] using (Tx.keeps_inkPoint o n p : Tx.Keeps (some n) t (t.inkPoint o n p).1)
      simp only [Tx.tally, Prod.mk.injEq] at ht
      rw [Tx.inkPoints, pointsDrawn, he, hp]
      exact ⟨rfl, by rw [ht.1], ht.2.1, by rw [ht.2.2]; simp, hd.stamped.keeps (hk.trans (Tx.keeps_lose n _))⟩

end Sys2Proof.Machine
end

