-- ==== Sys2Proof/Proofs/Extending.lean ====
section
/-! The points of a frame join the seat's open ink stroke (O21). -/

namespace Sys2Proof.Machine

variable {s u : State} {t t₁ : Tx} {n : SeatNo} {h : Handle} {tag : Byte} {d : Time}

/-! ### The end of an input -/

/-- The deadline an input sets stands for whichever the item had before. -/
theorem timed_dated (u : State) (n : SeatNo) (d sample : Time) : timed (dated n d u) n sample = timed u n sample := by
  have hs := dated_seat n d u
  have hi : ((dated n d u).seat n).item.isSome = (u.seat n).item.isSome := by
    rw [hs, Seat.mapItem, Option.isSome_map]
  have hm : (dated n d u).modSeat n (Seat.mapItem fun i => { i with deadline := deadlineOf u n sample }) =
      u.modSeat n (Seat.mapItem fun i => { i with deadline := deadlineOf u n sample }) := by
    rw [dated, modSeat_modSeat]
    exact modSeat_congr (Seat.mapItem_mapItem ..)
  show ({ (dated n d u).modSeat n (Seat.mapItem fun i => { i with deadline := deadlineOf u n sample }) with
    maint := if ((dated n d u).seat n).item.isSome = true ∧ _ then _ else _ } : State) = _
  rw [hm, hi]
  rfl

theorem inkHandle_dated (u : State) (n : SeatNo) (d : Time) : inkHandle ((dated n d u).seat n) = inkHandle (u.seat n) := by
  rw [dated_seat]
  unfold inkHandle Seat.mapItem
  cases (u.seat n).item <;> rfl

/-- The frame has been drawn and the deadline moves: the work, the report and whether a record was refused. -/
theorem Tx.FrameAgrees.finished {e : Drawn} {k : Nat} (ha : Tx.FrameAgrees n d e k t t₁) (hs : t.stored = k)
    (hl : t.lost = 0) (hr : t.noRecord = false) (sample : Time) :
    (t₁.on (setDeadline · n sample)).work = ⟨timed e.work.st n sample, e.work.entries⟩ ∧
      addPointsData (t₁.on (setDeadline · n sample)) n = drawnData n e ∧
      t₁.noRecord = decide (e.refused = some .table) := by
  obtain ⟨hw, h1, h2, h3, hst⟩ := ha
  obtain ⟨w, st, lost, why⟩ := e
  simp only at hw h1 h2 h3
  subst hw
  refine ⟨?_, ?_, by rw [h3, hr, Bool.false_or]⟩
  · rw [Tx.work_deadline, Tx.seen, timed_dated]
  · rw [addPointsData_deadline hst n sample why]
    unfold drawnData
    rw [show (t₁.seen n d).st = dated n d t₁.st from rfl, inkHandle_dated, show t₁.stored = st by omega, h2, hl,
      Nat.zero_add]
    rfl

/-! ### The open ink stroke -/

theorem PointsDelivered.running {tag : Byte} {pts : List RawPoint} {eraser : Bool} {row : Instr} {r : Result}
    {data : Bytes} {fin : State → State} {sample : Time}
    (hd : PointsDelivered s n tag pts eraser row r data u fin sample) : s.cls.state ≠ .resetting := by
  rcases hd with ⟨⟨-, ho, -⟩ | ⟨-, -, -, tg, -, hturn⟩, -⟩ | ⟨-, -, -, x, hb, -⟩
  · rw [ho]; nofun
  · exact hturn.2.1
  · exact hb.2.1

/-- Settles O21: point by point, the model's `inkPoint` is the `pointDrawn` of the statement. -/
theorem pointExtendsTheOpenStroke : Obligations.PointExtendsTheOpenStroke := by
  unfold Obligations.PointExtendsTheOpenStroke
  intro s n tag pts row r data u fin sample h hs hz hd hcut hopen hchain _ e hr hdata
  obtain ⟨hu1, hu2, hu3⟩ := hd.start
  have hseat : u.seat n = s.seat n := seat_congr hu2 n
  obtain ⟨hitem, hlive, hop⟩ := hopen
  obtain ⟨⟨_, lift, drop, pr, dl⟩, hi, rfl⟩ := Option.map_eq_some_iff.mp hitem
  have hi' : ((Tx.start u).st.seat n).item = some ⟨.ink h tag, lift, drop, pr, dl⟩ := by rw [Tx.start, hseat, hi]
  have hdraw : (Tx.start u).Draws n h tag :=
    { item := ⟨lift, drop, pr, dl, hi'⟩
      live := by rw [Tx.start, hu1]; exact hlive
      opened := by rw [Tx.start, hu1]; exact hop
      chained := by rw [Tx.start, hu1]; exact hchain
      calls := fun c hc => absurd hc List.not_mem_nil
      stamped := Tx.stamped_start u
      zAgree := by rw [Tx.start, hu1]; exact (zListsAgree_iff s).mp hz
      running := by rw [Tx.start, hu3]; exact hd.running }
  have hseen : (Tx.start u).seen n dl = ⟨u, []⟩ :=
    congrArg (Work.mk · []) (modSeat_self (Seat.mapItem_self fun i he => by
      cases hi'.symm.trans he
      rfl))
  have ha := Tx.frameAgrees_inkPoints pts hdraw (originOf row) 0 dl
  rw [hseen] at ha
  obtain ⟨hw, hrep, hno⟩ := ha.finished rfl rfl rfl sample
  rw [exec_pointsDelivered (t' := (Tx.inkPoints (originOf row) n pts (Tx.start u)).on (setDeadline · n sample)) hd hs
    hcut ?_ ?_ ?_ ?_]
  · rw [hw]
  · simp only [Tx.pointsInput, hi', itemTag, ne_eq, not_true, if_false]
  · rintro tool x htool rfl rfl rfl
    have htool' : tool ≠ .eraser := fun e => Bool.false_ne_true (htool.mp e)
    simp only [Tx.moveInput, hi', if_neg htool']
    rfl
  · rw [hr, show ((Tx.inkPoints (originOf row) n pts (Tx.start u)).on (setDeadline · n sample)).noRecord = _ from hno]
    simp only [decide_eq_true_eq]
    rfl
  · rw [hdata, hrep]

end Sys2Proof.Machine
end

