-- ==== Sys2Proof/Proofs/Opening.lean ====
section
/-! A frame of points that opens a stroke, for an armed START or an ORPHAN (O20): the model's `openPoints` is the
`pointsOpening` of the statements. -/

namespace Sys2Proof.Machine

variable {s u : State} {t t₁ : Tx} {n : SeatNo} {h : Handle} {tag : Byte} {d : Time}

/-! ### What a transaction that opens a stroke stands on -/

/-- A transaction in which a stroke may be opened for the seat: the Z lists agree, the class runs, the seat has no
open ink stroke, and every entry called for names a live stroke. -/
structure Tx.Opens (n : SeatNo) (t : Tx) : Prop where
  stamped : t.Stamped
  zAgree : t.st.store.ZAgree
  running : t.st.cls.state ≠ .resetting
  noInk : t.NoInk n
  calls : t.CallsLive

/-- The deadline of the open item seen as it stands. -/
theorem Tx.exists_seen_eq_work (t : Tx) (n : SeatNo) : ∃ d, t.seen n d = t.work := by
  refine ⟨(t.st.seat n).item.elim 0 OpenItem.deadline, congrArg (Work.mk · t.entries) ?_⟩
  refine modSeat_self (Seat.mapItem_self fun i hi => ?_)
  rw [hi]
  rfl

theorem Tx.Opens.clipped (ho : t.Opens n) (c : Bool) : (t.on (clippedBy · n c)).Opens n where
  stamped := ⟨ho.stamped.rev_eq, ho.stamped.time_eq⟩
  zAgree := ho.zAgree
  running := ho.running
  noInk := (inkHandle_congr (seat_clippedBy t.st n c).1).trans ho.noInk
  calls := ho.calls

/-- R14, R85: the opened stroke is drawn in. -/
theorem Tx.Opens.draws (ho : t.Opens n) (hr : openRefusal t.st n = none) (sp : OpenSpec) (x y w : Nat) (c : Bool) :
    ((t.withStroke n sp x y w c).toInk n (nextHandle t.st) sp.tag false false).Draws n (nextHandle t.st) sp.tag := by
  have he := Tx.openStroke_eq ho.stamped hr sp x y w c
  have hm := Tx.moves_openStroke_toInk he ho.noInk ho.running sp.tag false false
  have hk : Tx.Keeps (some n) t _ := (Tx.keeps_openStroke he).trans (Tx.keeps_toInk n (nextHandle t.st) sp.tag false false)
  exact { Tx.inks_withStroke ho.calls ho.zAgree hr sp x y w c sp.tag with
          stamped := ho.stamped.keeps hk, zAgree := hm.st.ink.zAgree ho.zAgree
          running := hm.not_resetting ho.running }

/-! ### The points of the frame -/

/-- R90, R91: the open is refused, with the points behind it lost. -/
theorem Tx.frameAgrees_refused (ho : t.Opens n) (o : Origins) (c : Bool) (why : Shortage) (k : Nat) :
    ∃ d, Tx.FrameAgrees n d ⟨⟨refusedFor (clippedBy t.st n c) o n why k, t.entries⟩, 0, k, some why⟩ 0 t
      (((t.on (clippedBy · n c)).refuse o n why).lose n k) := by
  obtain ⟨d, hd⟩ := Tx.exists_seen_eq_work (((t.on (clippedBy · n c)).refuse o n why).lose n k) n
  have ht := Tx.refuse_lose_tally (t.on (clippedBy · n c)) o n why k
  have hst := Tx.refuse_lose_st (t.on (clippedBy · n c)) o n why k
  obtain ⟨hc, hb⟩ := Tx.refuse_lose_calls (t.on (clippedBy · n c)) o n why k
  simp only [Tx.tally, Prod.mk.injEq] at ht
  have hk : Tx.Keeps (some n) (t.on (clippedBy · n c)) (((t.on (clippedBy · n c)).refuse o n why).lose n k) :=
    (Tx.keeps_refuse o n why).trans (Tx.keeps_lose n k)
  refine ⟨d, ?_, ht.1, ht.2.1, by rw [ht.2.2]; simp [Tx.on], (ho.clipped c).stamped.keeps hk⟩
  have he : (((t.on (clippedBy · n c)).refuse o n why).lose n k).entries = t.entries := by
    rw [Tx.entries_reverse, Tx.rev, Tx.time, hc, hb, hst, store_refusedFor]
    rfl
  rw [hd, Tx.work, hst, he]
  rfl

theorem Tx.openPoints_lifted {p : RawPoint} {o : Origins} {sp : OpenSpec} {pts : List RawPoint}
    (hp : mapPoint (t.st.seat n) sp.tool.pen p = .lifted) :
    Tx.openPoints o n sp (p :: pts) t = Tx.openPoints o n sp pts t := by
  rw [Tx.openPoints]
  simp only [Tx.mapped_eq, hp, MapOut.wasOutside, Tx.on, clippedBy_false]

theorem Tx.openPoints_dropped {p : RawPoint} {o : Origins} {sp : OpenSpec} {pts : List RawPoint}
    (hp : mapPoint (t.st.seat n) sp.tool.pen p = .dropped) :
    Tx.openPoints o n sp (p :: pts) t = Tx.openPoints o n sp pts (t.on (clippedBy · n true)) := by
  rw [Tx.openPoints]
  simp only [Tx.mapped_eq, hp, MapOut.wasOutside]

/-- R85, R90: the first coded point. -/
theorem Tx.openPoints_coded {p : RawPoint} {o : Origins} {sp : OpenSpec} {pts : List RawPoint} {x y w : Nat} {c : Bool}
    (ho : t.Opens n) (hp : mapPoint (t.st.seat n) sp.tool.pen p = .point x y w c) :
    Tx.openPoints o n sp (p :: pts) t =
      match shortage t.st n true with
      | some why => ((t.on (clippedBy · n c)).refuse o n why).lose n (1 + pts.length)
      | none => Tx.inkPoints o n pts (((t.on (clippedBy · n c)).withStroke n sp x y w c).toInk n (nextHandle t.st)
          sp.tag false false) := by
  rw [Tx.openPoints]
  simp only [Tx.mapped_eq, hp, MapOut.wasOutside]
  rw [← shortage_clipped t n c true, shortage_open]
  cases hr : openRefusal (t.on (clippedBy · n c)).st n with
  | some why => rfl
  | none =>
    dsimp only
    rw [Tx.openStroke_eq (ho.clipped c).stamped hr]
    rfl

/-- The opened stroke as the statements write it. -/
theorem Tx.Opens.seen_opened (ho : t.Opens n) (hr : openRefusal t.st n = none) (sp : OpenSpec) (x y w : Nat) (c : Bool) :
    (((t.on (clippedBy · n c)).withStroke n sp x y w c).toInk n (nextHandle t.st) sp.tag false false).seen n 0 =
      ⟨clippedBy (strokeOpened t.work n sp x y w c).st n c, (strokeOpened t.work n sp x y w c).entries⟩ := by
  have hself : t.work = ⟨t.st.modSeat n (Seat.mapItem id), t.entries⟩ :=
    congrArg (Work.mk · t.entries) (modSeat_self (Seat.mapItem_self fun _ _ => rfl)).symm
  rw [Tx.seen_withStroke ho.stamped ho.calls ho.zAgree hr sp x y w c t.work id hself]
  refine congrArg (Work.mk · (strokeOpened t.work n sp x y w c).entries) ?_
  unfold itemNow clippedBy strokeOpened
  rw [modSeat_modSeat, modSeat_modSeat]
  rfl

/-- The frame that opens a stroke, point by point. -/
theorem Tx.frameAgrees_openPoints (pts : List RawPoint) (ho : t.Opens n) (o : Origins) (sp : OpenSpec) :
    ∃ d, Tx.FrameAgrees n d (pointsOpening o n sp pts t.work) 0 t (Tx.openPoints o n sp pts t) := by
  induction pts generalizing t with
  | nil =>
    obtain ⟨d, hd⟩ := t.exists_seen_eq_work n
    exact ⟨d, hd.symm, rfl, rfl, (Bool.or_false _).symm, ho.stamped⟩
  | cons p pts ih =>
    rw [pointsOpening]
    cases hp : mapPoint (t.st.seat n) sp.tool.pen p with
    | lifted =>
      rw [Tx.openPoints_lifted hp]
      simpa only [show mapPoint (t.work.st.seat n) sp.tool.pen p = .lifted from hp] using ih ho
    | dropped =>
      obtain ⟨d, hw, h1, h2, h3, h4⟩ := ih (ho.clipped true)
      rw [Tx.openPoints_dropped hp]
      simp only [show mapPoint (t.work.st.seat n) sp.tool.pen p = .dropped from hp]
      exact ⟨d, hw, h1, h2, h3, h4⟩
    | point x y w c =>
      rw [Tx.openPoints_coded ho hp]
      simp only [show mapPoint (t.work.st.seat n) sp.tool.pen p = .point x y w c from hp]
      rw [show shortage t.work.st n true = shortage t.st n true from rfl]
      cases hs : shortage t.st n true with
      | some why => exact Tx.frameAgrees_refused ho o c why (1 + pts.length)
      | none =>
        have hr : openRefusal t.st n = none := by rw [← shortage_open, hs]
        have hr1 : openRefusal (t.on (clippedBy · n c)).st n = none := by
          rw [← shortage_open, shortage_clipped, hs]
        have ha := Tx.frameAgrees_inkPoints pts ((ho.clipped c).draws hr1 sp x y w c) o 1 0
        rw [show nextHandle (t.on (clippedBy · n c)).st = nextHandle t.st from rfl, ho.seen_opened hr] at ha
        obtain ⟨hw, h1, h2, h3, h4⟩ := ha
        exact ⟨0, hw, Nat.add_right_cancel (m := 1) (h1.trans (Nat.add_right_comm t.stored 1 _)), h2, h3, h4⟩

/-! ### The seat's old item ended -/

theorem Tx.tally_endItem (t : Tx) (n : SeatNo) (c : CloseCause) : (t.endItem n c).tally = t.tally := by
  have hink : ∀ h tag, (t.closeInk n h tag c).tally = t.tally := fun h tag => by
    unfold Tx.closeInk
    split
    · dsimp only
      split <;> rfl
    · rfl
  unfold Tx.endItem
  split
  · rfl
  · next i _ =>
    cases i.kind with
    | ink h tag => exact hink h tag
    | eraser _ _ _ g => cases g <;> rfl
    | armed _ _ _ _ => rfl
    | held _ => rfl

theorem Tx.tally_serveCut (t : Tx) (n : SeatNo) : (t.serveCut n).tally = t.tally := by
  unfold Tx.serveCut
  split
  · exact Tx.tally_endItem t n .cut
  · rfl

/-- A stroke that closes stays live. -/
theorem Tx.CallsLive.endItem (hc : t.CallsLive) (n : SeatNo) (c : CloseCause) : (t.endItem n c).CallsLive := by
  have hink : ∀ h tag, (t.closeInk n h tag c).CallsLive := fun h tag => by
    unfold Tx.closeInk
    split
    · next hl =>
      have hlive : ∀ k r, r.gen = (t.st.store.stroke h.idx).gen → r.state = StrokeState.closed →
          t.st.store.live k = true → (t.st.store.setStroke h.idx r).live k = true := fun k r hg hs hk => by
        rw [Store.live_iff] at hk ⊢
        by_cases e : k.idx = h.idx
        · rw [e, stroke_setStroke, hg, hs, ← hk.1, e]
          exact ⟨rfl, nofun⟩
        · rwa [stroke_setStroke_ne _ _ e]
      intro k hm g hg
      have hm' : k = .closed h ∨ k ∈ t.calls := by
        dsimp only at hm
        split at hm <;> exact List.mem_cons.mp hm
      have hk : t.st.store.live g = true := by
        rcases hm' with rfl | hm'
        · cases hg
          exact hl.1
        · exact hc k hm' g hg
      dsimp only
      split <;> exact hlive g _ rfl rfl hk
    · exact hc
  unfold Tx.endItem
  split
  · exact hc
  · next i _ =>
    cases i.kind with
    | ink h tag => exact hink h tag
    | eraser _ _ _ g => cases g <;> exact hc
    | armed _ _ _ _ => exact hc
    | held _ => exact hc

theorem Tx.CallsLive.serveCut (hc : t.CallsLive) (n : SeatNo) : (t.serveCut n).CallsLive := by
  unfold Tx.serveCut
  split
  · exact hc.endItem n .cut
  · exact hc

/-- A due cut served leaves no open item; else nothing has been called for. -/
theorem Tx.serveCut_start (u : State) (n : SeatNo) :
    (((Tx.start u).serveCut n).st.seat n).item = none ∨ (Tx.start u).serveCut n = Tx.start u := by
  unfold Tx.serveCut
  split
  · left
    rw [Tx.on, seat_modSeat]
    exact Tx.endItem_item (Tx.start u) n .cut
  · exact .inr rfl

/-- What the end of the seat's item does after a due cut is the statements' `ended`. -/
theorem Tx.work_endItem_afterCut (u : State) (n : SeatNo) {c : CloseCause} (hs : c ≠ .split) :
    (((Tx.start u).serveCut n).endItem n c).work = ended n c (cutServed n ⟨u, []⟩) := by
  have hcut : ((Tx.start u).serveCut n).work = cutServed n ⟨u, []⟩ :=
    Tx.work_serveCut n (Tx.stamped_start u) fun k hk => absurd hk List.not_mem_nil
  rw [← hcut]
  rcases Tx.serveCut_start u n with hi | he
  · rw [Tx.endItem_none c hi, ended_none c (w := ((Tx.start u).serveCut n).work) hi]
  · rw [he]
    exact Tx.work_endItem n hs (Tx.stamped_start u) fun k hk => absurd hk List.not_mem_nil

/-! ### The ORPHAN stroke -/

theorem lowestLayer_eq (m : BitVec 4) : (List.finRange 4).find? (fun l => m.getLsbD l.val) = lowestLayer m := rfl

/-- R86. -/
theorem orphanOf_eq (s : State) (n : SeatNo) (tag : Byte) : orphanOf s n tag = orphanSpec s n tag := by
  unfold orphanOf orphanSpec
  simp only [lowestLayer_eq]
  refine congrArg (Option.filter _) ?_
  cases hi : (s.seat n).item with
  | some i =>
    obtain ⟨k, l, d, p, x⟩ := i
    cases k <;> rfl
  | none =>
    simp only [Option.map_none, continues, lastClosedLayer]
    cases hl : (s.seat n).lastClosed with
    | none => rfl
    | some gh =>
      obtain ⟨g, h⟩ := gh
      cases hv : s.store.live h with
      | false => simp [hv]
      | true => by_cases hc : g = tag ∧ (s.store.stroke h.idx).state = .closed ∧
          (s.store.stroke h.idx).flags.expired = true <;> simp [hv, hc]

/-- A frame of points whose tag names no open item but a held point (R83, R86). -/
def OrphanFor (s : State) (n : SeatNo) (tag : Byte) : Prop :=
  ∀ k, (s.seat n).item.map OpenItem.kind = some k → tagOf n k = tag → ∃ q, k = .held q

theorem Tx.pointsInput_orphan (ho : OrphanFor t.st n tag) (o : Origins) (pts : List RawPoint) (sample : Time) :
    t.pointsInput o n tag pts sample = t.orphanPoints o n tag pts sample := by
  unfold Tx.pointsInput
  split
  · rfl
  · next i hi =>
    obtain ⟨k, l, d, p, x⟩ := i
    have hk := ho k (by rw [hi]; rfl)
    split
    · rfl
    · next htag =>
      have htag' : tagOf n k = tag := by
        cases k <;> exact not_not.mp htag
      obtain ⟨q, rfl⟩ := hk htag'
      rfl

/-- A frame of points for an armed START of its tag (R83, R85). -/
theorem Tx.pointsInput_armed {tool : InkTool} {l : LayerNo} {c : Fin 64}
    (hi : (t.st.seat n).item.map OpenItem.kind = some (.armed tag tool l c)) (o : Origins) (pts : List RawPoint)
    (sample : Time) : t.pointsInput o n tag pts sample =
      ((Tx.openPoints o n ⟨targetPage t.st n, l, tool, c, tag, false, none⟩ pts t).on (setDeadline · n sample), true) := by
  obtain ⟨⟨_, ld, dr, pr, dl⟩, hitem, rfl⟩ := Option.map_eq_some_iff.mp hi
  unfold Tx.pointsInput
  simp only [hitem, itemTag, ne_eq, not_true, if_false]

/-! ### The frame -/

/-- What stands when the due cut of the seat has been served and, for an ORPHAN, its old item ended. -/
theorem Tx.opens_of_start (hz : u.store.ZAgree) (hr : u.cls.state ≠ .resetting) (hm : Tx.Moves (Tx.start u) t)
    (hk : Tx.Keeps (some n) (Tx.start u) t) (hn : t.NoInk n) (hc : t.CallsLive) : t.Opens n where
  stamped := (Tx.stamped_start u).keeps hk
  zAgree := hm.st.ink.zAgree hz
  running := hm.not_resetting hr
  noInk := hn
  calls := hc

theorem targetPage_keeps {a : Option SeatNo} (h : Keeps a s u) (n : SeatNo) : targetPage u n = targetPage s n := by
  unfold targetPage
  rw [(h.settings n).target, h.frame]

/-- Settles O20: the cut and the end of the old item are the `cutServed` and `ended` of the statement, the points its
`pointsOpening`. -/
theorem firstPointOpensTheStroke : Obligations.FirstPointOpensTheStroke := by
  unfold Obligations.FirstPointOpensTheStroke
  refine ⟨?_, fun f g i h => FreeList.toList_of_take h, fun f g b h => FreeStack.toList_of_pop h⟩
  intro s n tag pts row r data u fin hs hz h1 h24 hd w item o orphan
  have hpd : PointsDelivered s n tag pts false row r data u fin s.timebase := .inl ⟨hd, h1, h24, rfl⟩
  obtain ⟨hu1, hu2, hu3⟩ := hpd.start
  have hzu : u.store.ZAgree := hu1 ▸ (zListsAgree_iff s).mp hz
  have hru : u.cls.state ≠ .resetting := hu3 ▸ hpd.running
  have hmc : Tx.Moves (Tx.start u) ((Tx.start u).serveCut n) := Tx.moves_serveCut n
  have hkc : Tx.Keeps (some n) (Tx.start u) ((Tx.start u).serveCut n) := Tx.keeps_serveCut n
  have hcc : ((Tx.start u).serveCut n).CallsLive :=
    Tx.CallsLive.serveCut (fun c hc => absurd hc List.not_mem_nil) n
  have htc : ((Tx.start u).serveCut n).tally = (0, 0, false) := Tx.tally_serveCut (Tx.start u) n
  have hw : ((Tx.start u).serveCut n).work = w :=
    Tx.work_serveCut n (Tx.stamped_start u) fun k hk => absurd hk List.not_mem_nil
  have hpage : targetPage ((Tx.start u).serveCut n).st n = targetPage s n := by
    rw [targetPage_keeps hkc.st, targetPage, targetPage, Tx.start, seat_congr hu2 n, hu3]
  have hst : w.st = ((Tx.start u).serveCut n).st := congrArg Work.st hw.symm
  have hrun : ∀ {t : Tx} {sp : OpenSpec}, t.Opens n → t.tally = (0, 0, false) →
      ((Tx.start u).serveCut n).pointsInput o n tag pts s.timebase =
        ((Tx.openPoints o n sp pts t).on (setDeadline · n s.timebase), true) →
      let d := pointsOpening o n sp pts t.work
      r = (if d.refused = some .table then .full else .ok) → data = drawnData n d →
      exec row s = .next (settle (fin (committed u ⟨timed d.work.st n s.timebase, d.work.entries⟩))) := by
    intro t sp ho ht hin d hr hdata
    obtain ⟨_, ha⟩ := Tx.frameAgrees_openPoints pts ho o sp
    simp only [Tx.tally, Prod.mk.injEq] at ht
    obtain ⟨hfin, hrep, hno⟩ := ha.finished ht.1 ht.2.1 ht.2.2 s.timebase
    rw [exec_delivered_points hd h1 h24 hs hin ?_ (hdata.trans hrep.symm), hfin]
    rw [hr, show ((Tx.openPoints o n sp pts t).on (setDeadline · n s.timebase)).noRecord = _ from hno]
    simp only [Bool.not_true, Bool.false_eq_true, if_false, decide_eq_true_eq]
    rfl
  refine ⟨?_, ?_⟩
  · rintro sp w1 (⟨tool, l, c, hi, rfl, rfl⟩ | ⟨horph, hsp, rfl⟩)
    · rw [← hw, ← hpage]
      have hi' : (((Tx.start u).serveCut n).st.seat n).item.map OpenItem.kind = some (.armed tag tool l c) := hst ▸ hi
      obtain ⟨⟨_, ld, dr, pr, dl⟩, hitem, rfl⟩ := Option.map_eq_some_iff.mp hi'
      have hn : ((Tx.start u).serveCut n).NoInk n := by simp [Tx.NoInk, inkHandle, hitem]
      exact hrun (Tx.opens_of_start hzu hru hmc hkc hn hcc) htc (Tx.pointsInput_armed hi' o pts s.timebase)
    · have horph' : OrphanFor ((Tx.start u).serveCut n).st n tag := hst ▸ horph
      have hsp' : orphanSpec ((Tx.start u).serveCut n).st n tag = some sp := by rw [← orphanOf_eq, ← hst]; exact hsp
      have he := Tx.work_endItem_afterCut u n (c := .superseded) (by decide)
      have hopens := Tx.opens_of_start hzu hru (hmc.trans (Tx.moves_endItem n .superseded))
        (hkc.trans (Tx.keeps_endItem n .superseded)) (Tx.noInk_endItem _ n .superseded) (hcc.endItem n .superseded)
      rw [← he]
      refine hrun hopens ((Tx.tally_endItem ..).trans htc) ?_
      rw [Tx.pointsInput_orphan horph', Tx.orphanPoints, hsp']
  · intro horph hsp hr hdata
    have horph' : OrphanFor ((Tx.start u).serveCut n).st n tag := hst ▸ horph
    have hsp' : orphanSpec ((Tx.start u).serveCut n).st n tag = none := by rw [← orphanOf_eq, ← hst]; exact hsp
    have hin : ((Tx.start u).serveCut n).pointsInput o n tag pts s.timebase =
        (((Tx.start u).serveCut n).on (caught · .denied o.link (some n) o.frame), false) := by
      rw [Tx.pointsInput_orphan horph', Tx.orphanPoints, hsp']
      rfl
    have hstc : (((Tx.start u).serveCut n).on (caught · .denied o.link (some n) o.frame)).Stamped :=
      ((Tx.stamped_start u).keeps hkc).on rfl rfl
    simp only [Tx.tally, Prod.mk.injEq] at htc
    rw [exec_delivered_points hd h1 h24 hs hin hr ?_, ← hw]
    · rfl
    · rw [addPointsData_eq hstc n none, hdata, ← hw]
      simp only [Tx.on, htc]
      rfl

end Sys2Proof.Machine
end

