-- ==== Sys2Proof/Proofs/Clearing.lean ====
section
/-! The records a class clearance frees (R30, R54): what a list of records freed one by one leaves of the store, and
of the erase groups. -/

namespace Sys2Proof.Machine

variable {s u d w : State} {st a b : Store} {is : List RecIdx}

/-! ### The records in use -/

theorem mem_nonFree (h : st.Canonical) (i : RecIdx) : i ∈ nonFree st ↔ (st.stroke i).state ≠ .free := by
  constructor
  · intro hi
    obtain ⟨⟨j, r⟩, hp, rfl⟩ := List.mem_map.mp hi
    obtain ⟨hm, hs⟩ := List.mem_filter.mp hp
    rw [Store.stroke, lookupAt_of_mem h.strokes hm]
    exact of_decide_eq_true hs
  · intro hi
    refine List.mem_map.mpr ⟨(i, st.stroke i), List.mem_filter.mpr ⟨mem_of_lookupAt_ne fun e => hi ?_,
      decide_eq_true hi⟩, rfl⟩
    rw [Store.stroke, e]

/-- The non-FREE records are listed in ascending order (R30). -/
theorem pairwise_nonFree (h : st.Canonical) : (nonFree st).Pairwise (· < ·) := by
  have hs := h.strokes
  simp only [tableWf, Bool.and_eq_true, decide_eq_true_eq] at hs
  exact List.pairwise_map.mpr (hs.1.sublist List.filter_sublist)

theorem nodup_nonFree (h : st.Canonical) : (nonFree st).Nodup := (pairwise_nonFree h).imp ne_of_lt

/-- Two lists in ascending order with the same members are one list. -/
theorem ascending_ext {k : Nat} {l m : List (Fin k)} (hl : l.Pairwise (· < ·)) (hm : m.Pairwise (· < ·))
    (h : ∀ i, i ∈ l ↔ i ∈ m) : l = m :=
  ((List.perm_ext_iff_of_nodup (hl.imp ne_of_lt) (hm.imp ne_of_lt)).mpr h).eq_of_pairwise
    (fun _ _ _ _ h1 h2 => absurd h2 h1.asymm) hl hm

/-! ### Records freed one by one -/

/-- The store after the records of this list have been freed, in its order. -/
def Store.freedList (st : Store) (is : List RecIdx) : Store := is.foldl Store.freed st

theorem Store.Canonical.freedList (h : st.Canonical) (is : List RecIdx) : (st.freedList is).Canonical := by
  induction is generalizing st with
  | nil => exact h
  | cons i is ih => exact ih (h.freed i)

/-- The records of this list, none twice and none FREE. -/
structure Store.InUse (st : Store) (is : List RecIdx) : Prop where
  nodup : is.Nodup
  used : ∀ i ∈ is, (st.stroke i).state ≠ .free

theorem Store.freed_of_used {i : RecIdx} (h : (st.stroke i).state ≠ .free) :
    st.freed i = (({ st with freeBlocks := st.freeBlocks.push (st.stroke i).chain
                             freeRecs := st.freeRecs.give i }).setZ (st.stroke i).page (st.stroke i).layer
      ((st.zlist (st.stroke i).page (st.stroke i).layer).filter fun h => decide (h.idx ≠ i))).setStroke i
        { gen := (st.stroke i).gen } := if_neg h

theorem Store.stroke_freed_same {i : RecIdx} (h : (st.stroke i).state ≠ .free) :
    (st.freed i).stroke i = { gen := (st.stroke i).gen } := by
  rw [Store.stroke_freed, if_pos ⟨rfl, h⟩]

theorem Store.stroke_freed_other {i j : RecIdx} (hj : j ≠ i) : (st.freed i).stroke j = st.stroke j := by
  rw [Store.stroke_freed, if_neg fun h => hj h.1]

theorem Store.InUse.tail {i : RecIdx} (h : st.InUse (i :: is)) : (st.freed i).InUse is where
  nodup := (List.nodup_cons.mp h.nodup).2
  used j hj := by
    have hne : j ≠ i := fun e => (List.nodup_cons.mp h.nodup).1 (e ▸ hj)
    rw [Store.stroke_freed_other hne]
    exact h.used j (List.mem_cons_of_mem _ hj)

theorem Store.zlist_freed_used {i : RecIdx} (h : (st.stroke i).state ≠ .free) (p : PageNo) (l : LayerNo) :
    (st.freed i).zlist p l = (st.zlist p l).filter fun x =>
      decide (¬(x.idx = i ∧ (st.stroke i).page = p ∧ (st.stroke i).layer = l)) := by
  rw [Store.zlist_freed]
  split
  · next e => simp [e.2]
  · next e => exact (List.filter_eq_self.mpr fun x _ => by
      rw [decide_eq_true_eq]
      exact fun hx => e ⟨h, hx.2⟩).symm

/-- What the freed records leave of the records and of the Z lists (R19). -/
theorem Store.stroke_freedList (h : st.InUse is) (i : RecIdx) :
    (st.freedList is).stroke i = if i ∈ is then { gen := (st.stroke i).gen } else st.stroke i := by
  induction is generalizing st with
  | nil => rfl
  | cons j is ih =>
    have hj := (List.nodup_cons.mp h.nodup).1
    rw [Store.freedList, List.foldl_cons, ← Store.freedList, ih h.tail]
    by_cases e : i = j
    · subst e
      rw [if_neg hj, if_pos List.mem_cons_self, Store.stroke_freed_same (h.used i List.mem_cons_self)]
    · rw [Store.stroke_freed_other e]
      simp only [List.mem_cons, e, false_or]

theorem Store.zlist_freedList (h : st.InUse is) (p : PageNo) (l : LayerNo) :
    (st.freedList is).zlist p l = (st.zlist p l).filter fun x =>
      decide (¬(x.idx ∈ is ∧ (st.stroke x.idx).page = p ∧ (st.stroke x.idx).layer = l)) := by
  induction is generalizing st with
  | nil => exact (List.filter_eq_self.mpr fun x _ => by simp).symm
  | cons j is ih =>
    have hj := (List.nodup_cons.mp h.nodup).1
    rw [Store.freedList, List.foldl_cons, ← Store.freedList, ih h.tail,
      Store.zlist_freed_used (h.used j List.mem_cons_self), List.filter_filter]
    refine List.filter_congr fun x _ => ?_
    by_cases e : x.idx = j
    · subst e
      simp [hj]
    · simp [e, Store.stroke_freed_other e]

/-- What the freed records leave of the rest of the store: their blocks chain by chain, and their records (R19). -/
theorem Store.freedList_eq (h : st.InUse is) :
    st.freedList is = { st with
      strokes := (st.freedList is).strokes
      z := (st.freedList is).z
      freeBlocks := { st.freeBlocks with
        released := (is.flatMap fun i => (st.stroke i).chain).reverse ++ st.freeBlocks.released }
      freeRecs := { st.freeRecs with freed := st.freeRecs.freed ++ is } } := by
  induction is generalizing st with
  | nil => simp [Store.freedList]
  | cons j is ih =>
    have hne : ∀ i ∈ is, i ≠ j := fun i hi e => (List.nodup_cons.mp h.nodup).1 (e ▸ hi)
    have hchain : (is.flatMap fun i => ((st.freed j).stroke i).chain) = is.flatMap fun i => (st.stroke i).chain :=
      List.flatMap_congr fun i hi => by rw [Store.stroke_freed_other (hne i hi)]
    have hcons : st.freedList (j :: is) = (st.freed j).freedList is := rfl
    rw [hcons, ih h.tail, hchain]
    rw [Store.freed_of_used (h.used j List.mem_cons_self)]
    simp [Store.setStroke, Store.setZ, FreeStack.push, FreeList.give]

theorem nonFree_freedList (hc : st.Canonical) (k : Nat) :
    nonFree (st.freedList ((nonFree st).take k)) = (nonFree st).drop k := by
  have hn := nodup_nonFree hc
  have hu : st.InUse ((nonFree st).take k) :=
    ⟨hn.sublist (List.take_sublist ..), fun i hi => (mem_nonFree hc i).mp (List.mem_of_mem_take hi)⟩
  have hdis := List.disjoint_take_drop hn (Nat.le_refl k)
  refine ascending_ext (pairwise_nonFree (hc.freedList _)) ((pairwise_nonFree hc).sublist (List.drop_sublist ..)) fun i => ?_
  rw [mem_nonFree (hc.freedList _), Store.stroke_freedList hu]
  by_cases hi : i ∈ (nonFree st).take k
  · rw [if_pos hi]
    exact iff_of_false (fun h => h rfl) (hdis hi)
  · rw [if_neg hi, ← mem_nonFree hc]
    refine ⟨fun h => ?_, List.mem_of_mem_drop⟩
    rw [← List.take_append_drop k (nonFree st)] at h
    exact (List.mem_append.mp h).resolve_left hi

end Sys2Proof.Machine
end

