-- ==== Sys2Proof/Proofs/ClearingGroups.lean ====
section
/-! What the records freed by a class clearance leave of the state, and of the erase groups (R30, R54). -/

namespace Sys2Proof.Machine

variable {s u w : State} {st : Store} {is : List RecIdx}

/-! ### Groups -/

/-- A group without the members among these records that are ERASED. -/
def EraseGroup.unlinked (st : Store) (is : List RecIdx) (g : EraseGroup) : EraseGroup :=
  { g with members := g.members.filter fun h => decide (h.idx ∉ is ∨ (st.stroke h.idx).state ≠ .erased) }

/-- Groups changed, those left with no member gone. -/
def occupied (f : EraseGroup → EraseGroup) (gs : List EraseGroup) : List EraseGroup :=
  (gs.map f).filter fun g => !g.members.isEmpty

theorem occupied_occupied (f g : EraseGroup → EraseGroup) (hg : ∀ x, x.members = [] → (g x).members = [])
    (gs : List EraseGroup) : occupied g (occupied f gs) = occupied (fun x => g (f x)) gs := by
  induction gs with
  | nil => rfl
  | cons x gs ih =>
    unfold occupied at ih ⊢
    by_cases e : (f x).members = []
    · simpa [e, hg _ e] using ih
    · by_cases e2 : (g (f x)).members = [] <;> simpa [e, e2] using ih

theorem occupied_id {f : EraseGroup → EraseGroup} {gs : List EraseGroup} (hf : ∀ x ∈ gs, f x = x)
    (h : ∀ x ∈ gs, x.members ≠ []) : occupied f gs = gs := by
  unfold occupied
  rw [List.map_congr_left (g := id) hf, List.map_id]
  exact List.filter_eq_self.mpr fun x hx => by simpa using h x hx

theorem occupied_toList (f : EraseGroup → EraseGroup) (o : Option EraseGroup) :
    occupied f o.toList = ((o.map f).filter fun g => !g.members.isEmpty).toList := by
  cases o with
  | none => rfl
  | some g =>
    unfold occupied
    cases hg : (f g).members <;> simp [hg, Option.filter]

theorem mem_occupied_ne {f : EraseGroup → EraseGroup} {gs : List EraseGroup} : ∀ x ∈ occupied f gs, x.members ≠ [] :=
  fun x hx => by simpa using (List.mem_filter.mp hx).2

theorem EraseGroup.unlinked_unlinked {i : RecIdx} (h : st.InUse (i :: is)) (g : EraseGroup) :
    (g.unlinked st [i]).unlinked (st.freed i) is = g.unlinked st (i :: is) := by
  have hi := (List.nodup_cons.mp h.nodup).1
  unfold EraseGroup.unlinked
  rw [List.filter_filter]
  congr 1
  refine List.filter_congr fun x _ => ?_
  by_cases e : x.idx = i
  · simp [e, hi]
  · simp [e, Store.stroke_freed_other e]

theorem EraseGroup.unlinked_nil {g : EraseGroup} (h : g.members = []) : (g.unlinked st is).members = [] := by
  simp [EraseGroup.unlinked, h]

/-! ### One record -/

theorem clearRecord_store (s : State) (i : RecIdx) : (clearRecord s i).store = s.store.freed i := by
  unfold clearRecord
  dsimp only
  split <;> exact freeRecord_store s i

theorem freeRecord_frame (s : State) (i : RecIdx) : freeRecord s i = { s with
    store := (freeRecord s i).store
    display := { s.display with pos := (freeRecord s i).display.pos }
    snapshot := { s.snapshot with pos := (freeRecord s i).snapshot.pos } } := by
  have hs : ∀ p l z c, shiftPosition p l z c = { c with pos := (shiftPosition p l z c).pos } := fun p l z c => by
    unfold shiftPosition
    split <;> rfl
  unfold freeRecord
  dsimp only
  split
  · rfl
  · rw [hs _ _ _ s.display, hs _ _ _ s.snapshot]

/-- The groups after one record has been freed: where it was ERASED its handle leaves them (R54). -/
theorem clearRecord_groups {i : RecIdx} (h : ∀ g ∈ s.eraseQueue ++ s.maint.underReclaim.toList, g.members ≠ []) :
    (clearRecord s i).eraseQueue = occupied (EraseGroup.unlinked s.store [i]) s.eraseQueue ∧
      (clearRecord s i).maint.underReclaim.toList =
        occupied (EraseGroup.unlinked s.store [i]) s.maint.underReclaim.toList := by
  unfold clearRecord
  dsimp only
  split
  · next he =>
    have hu : ∀ g : EraseGroup, g.unlinked s.store [i] = { g with
        members := g.members.filter fun h => decide (h.idx ≠ i) } := fun g => by
      unfold EraseGroup.unlinked
      congr 1
      refine List.filter_congr fun x _ => ?_
      by_cases e : x.idx = i <;> simp [e, he]
    rw [occupied_toList, funext hu]
    simp only [unlinkMember, freeRecord_eraseQueue, freeRecord_maint]
    exact ⟨rfl, trivial⟩
  · next he =>
    have hu : ∀ g : EraseGroup, g.unlinked s.store [i] = g := fun g => by
      have : g.members.filter (fun h => decide (h.idx ∉ [i] ∨ (s.store.stroke h.idx).state ≠ .erased)) = g.members :=
        List.filter_eq_self.mpr fun x _ => by
          by_cases e : x.idx = i <;> simp [e, he]
      unfold EraseGroup.unlinked
      rw [this]
    rw [freeRecord_eraseQueue, freeRecord_maint, occupied_id (fun g _ => hu g) fun g hg => h g (List.mem_append_left _ hg),
      occupied_id (fun g _ => hu g) fun g hg => h g (List.mem_append_right _ hg)]
    exact ⟨rfl, rfl⟩

/-! ### All of them -/

/-- The state after these records have been freed by a class clearance: the store, the groups without them, and the
positions of the sweeps (R30, R54, R145). -/
structure Cleans (is : List RecIdx) (s u : State) : Prop where
  frame : u = { s with
    store := u.store, eraseQueue := u.eraseQueue
    maint := { s.maint with underReclaim := u.maint.underReclaim }
    display := { s.display with pos := u.display.pos }
    snapshot := { s.snapshot with pos := u.snapshot.pos } }
  store : u.store = s.store.freedList is
  groups : (∀ g ∈ s.eraseQueue ++ s.maint.underReclaim.toList, g.members ≠ []) →
    u.eraseQueue = occupied (EraseGroup.unlinked s.store is) s.eraseQueue ∧
      u.maint.underReclaim.toList = occupied (EraseGroup.unlinked s.store is) s.maint.underReclaim.toList

theorem cleans_clearRecord (s : State) (i : RecIdx) : Cleans [i] s (clearRecord s i) where
  frame := by
    unfold clearRecord
    rw [freeRecord_frame s i]
    dsimp only
    split <;> rfl
  store := clearRecord_store s i
  groups := clearRecord_groups

theorem cleans_nil (s : State) : Cleans [] s s where
  frame := rfl
  store := rfl
  groups h := by
    have hu : ∀ g : EraseGroup, g.unlinked s.store [] = g := fun g => by simp [EraseGroup.unlinked]
    rw [occupied_id (fun g _ => hu g) fun g hg => h g (List.mem_append_left _ hg),
      occupied_id (fun g _ => hu g) fun g hg => h g (List.mem_append_right _ hg)]
    exact ⟨rfl, rfl⟩

theorem Cleans.cons {i : RecIdx} (h1 : Cleans [i] s u) (h2 : Cleans is u w) (hu : s.store.InUse (i :: is)) :
    Cleans (i :: is) s w where
  frame := by
    obtain ⟨hf, -⟩ := h1
    have h := h2.frame
    rw [hf] at h
    exact h
  store := by rw [h2.store, h1.store]; rfl
  groups h := by
    obtain ⟨hq, hr⟩ := h1.groups h
    have hst : u.store = s.store.freed i := h1.store
    have hne : ∀ g ∈ u.eraseQueue ++ u.maint.underReclaim.toList, g.members ≠ [] := fun g hg => by
      rw [hq, hr] at hg
      exact (List.mem_append.mp hg).elim (mem_occupied_ne g) (mem_occupied_ne g)
    obtain ⟨hq2, hr2⟩ := h2.groups hne
    rw [hq2, hr2, hq, hr, hst, occupied_occupied _ _ fun _ => EraseGroup.unlinked_nil,
      occupied_occupied _ _ fun _ => EraseGroup.unlinked_nil]
    simp only [EraseGroup.unlinked_unlinked hu, and_self]

theorem cleans_foldl (is : List RecIdx) (h : s.store.InUse is) : Cleans is s (is.foldl clearRecord s) := by
  induction is generalizing s with
  | nil => exact cleans_nil s
  | cons i is ih =>
    have h1 := cleans_clearRecord s i
    have hst : (clearRecord s i).store = s.store.freed i := h1.store
    exact h1.cons (ih (hst ▸ h.tail)) h

end Sys2Proof.Machine
end

