-- ==== Sys2Proof/Proofs/ClearanceEnd.lean ====
section
/-! The end of a class clearance (R41, R55): the quota flags of all seats, and the CLASS_RESET entry. -/

namespace Sys2Proof.Machine

variable {s u d w : State} {n m : SeatNo}

/-! ### The quota flags -/

/-- A seat that is given QUOTA_CLEARED (R41). -/
def clearedOf (s : State) (n : SeatNo) : Bool :=
  decide (portOf n = .tablet ∧ (s.seat n).quotaReached = true ∧ 0 < (s.seat n).quota)

/-- A seat whose quota flag has been cleared, with its notice (R41, R47). -/
def quotaEnded (s : State) (n : SeatNo) : Seat :=
  { s.seat n with
    quotaReached := false
    notices := if clearedOf s n then ((s.seat n).notices &&& ~~~(0x60#11)) ||| 0x40#11 else (s.seat n).notices }

/-- What the end of the clearance has done to the quota flags of these seats. -/
structure QuotasEnded (ns : List SeatNo) (s u : State) : Prop where
  frame : u = { s with seats := u.seats, noticeQueue := u.noticeQueue, noticeBasis := u.noticeBasis }
  seat : ∀ n, u.seat n = if n ∈ ns then quotaEnded s n else s.seat n
  queue : u.noticeQueue = s.noticeQueue ++ ns.filter fun n => clearedOf s n && decide ((s.seat n).notices = 0)
  basis : u.noticeBasis = s.noticeBasis.map fun b =>
    { b with added := b.added ++ (ns.filter (clearedOf s)).map fun n => (n, .quotaCleared) }

theorem noticeSet_quotaCleared (set : BitVec 11) :
    noticeSet set .quotaCleared = (set &&& ~~~(0x60#11)) ||| 0x40#11 := rfl

theorem clearedOf_congr (h : u.seat n = s.seat n) : clearedOf u n = clearedOf s n := by
  simp only [clearedOf, h]

/-- A seat that is given no QUOTA_CLEARED. -/
theorem quotasEnded_quiet (hc : clearedOf s n = false) (h : u = s.modSeat n fun v => { v with quotaReached := false }) :
    QuotasEnded [n] s u where
  frame := by rw [h]; rfl
  seat k := by
    rw [h]
    by_cases e : k = n
    · subst e
      simp [quotaEnded, hc]
    · simp [seat_modSeat_ne _ _ e, e]
  queue := by rw [h]; simp [hc]
  basis := by
    rw [h]
    cases hb : s.noticeBasis <;> simp [hc, hb]

theorem quotasEnded_endQuota (s : State) (n : SeatNo) : QuotasEnded [n] s (endQuota s n) := by
  have hq : ((s.modSeat n fun v => { v with quotaReached := false }).seat n).quota = (s.seat n).quota := by simp
  unfold endQuota
  by_cases hr : (s.seat n).quotaReached = true
  · rw [if_pos hr]
    dsimp only
    by_cases h0 : 0 < (s.seat n).quota
    · rw [if_pos (hq ▸ h0)]
      by_cases hp : portOf n = .tablet
      · have hc : clearedOf s n = true := decide_eq_true ⟨hp, hr, h0⟩
        unfold addNotice
        rw [if_pos hp]
        dsimp only
        refine ⟨rfl, fun k => ?_, ?_, ?_⟩
        · by_cases e : k = n
          · subst e
            show (State.modSeat _ k _).seat k = _
            simp [quotaEnded, hc, noticeSet_quotaCleared]
          · show (State.modSeat _ n _).seat k = _
            simp [seat_modSeat_ne _ _ e, e]
        · by_cases hz : (s.seat n).notices = 0#11 <;> simp [hc, hz]
        · simp [hc]
      · refine quotasEnded_quiet (decide_eq_false fun h => hp h.1) ?_
        unfold addNotice
        rw [if_neg hp]
    · rw [if_neg (hq ▸ h0)]
      exact quotasEnded_quiet (decide_eq_false fun h => h0 h.2.2) rfl
  · rw [if_neg hr]
    refine quotasEnded_quiet (decide_eq_false fun h => hr h.2.1) (modSeat_self ?_).symm
    have hf : (s.seat n).quotaReached = false := Bool.not_eq_true _ ▸ hr
    rw [← hf]

theorem quotasEnded_nil (s : State) : QuotasEnded [] s s where
  frame := rfl
  seat n := rfl
  queue := (List.append_nil _).symm
  basis := by cases s.noticeBasis <;> simp

theorem QuotasEnded.cons {ns : List SeatNo} (hn : n ∉ ns) (h1 : QuotasEnded [n] s u) (h2 : QuotasEnded ns u w) :
    QuotasEnded (n :: ns) s w := by
  have hseat : ∀ k, k ∈ ns → u.seat k = s.seat k := fun k hk => by
    have hne : k ≠ n := fun e => hn (e ▸ hk)
    rw [h1.seat, if_neg (by simpa using hne)]
  have hcl : ∀ k ∈ ns, clearedOf u k = clearedOf s k := fun k hk => clearedOf_congr (hseat k hk)
  refine ⟨?_, fun k => ?_, ?_, ?_⟩
  · obtain ⟨hf, -⟩ := h1
    have h := h2.frame
    rw [hf] at h
    exact h
  · rw [h2.seat, h1.seat]
    by_cases hk : k ∈ ns
    · rw [if_pos hk, if_pos (List.mem_cons_of_mem _ hk), quotaEnded, hseat k hk, hcl k hk, quotaEnded]
    · simp only [hk, if_false, List.mem_cons, List.not_mem_nil, or_false]
  · rw [h2.queue, h1.queue, List.append_assoc]
    refine congrArg (s.noticeQueue ++ ·) ?_
    have hf : (ns.filter fun k => clearedOf u k && decide ((u.seat k).notices = 0)) =
        ns.filter fun k => clearedOf s k && decide ((s.seat k).notices = 0) :=
      List.filter_congr fun k hk => by rw [hcl k hk, hseat k hk]
    rw [hf, ← List.filter_append]
    rfl
  · rw [h2.basis, h1.basis, Option.map_map]
    refine congrArg (Option.map · s.noticeBasis) (funext fun b => ?_)
    simp only [Function.comp_apply, List.append_assoc, ← List.map_append]
    have hf : ns.filter (clearedOf u) = ns.filter (clearedOf s) := List.filter_congr hcl
    rw [hf, ← List.filter_append]
    rfl

theorem quotasEnded_foldl (ns : List SeatNo) (hn : ns.Nodup) (s : State) : QuotasEnded ns s (ns.foldl endQuota s) := by
  induction ns generalizing s with
  | nil => exact quotasEnded_nil s
  | cons n ns ih =>
    obtain ⟨h1, h2⟩ := List.nodup_cons.mp hn
    exact (quotasEnded_endQuota s n).cons h1 (ih h2 _)

end Sys2Proof.Machine
end

