-- ==== Sys2Proof/Proofs/ClearanceGrant.lean ====
section
/-! A later grant of a class clearance (O6). -/

namespace Sys2Proof.Machine

variable {s u d w : State} {is : List RecIdx}

/-! ### The CLASS_RESET entry -/

/-- The CLASS_RESET entry of a transaction at this state (R55, R133). -/
def resetEntry (u : State) : ChangeEntry := { kind := .classReset, rev := upcoming u, time := u.timebase }

theorem followWoken_pos (c : ScanCtx) (es : List ChangeEntry) : (followWoken c es).pos = c.pos := by
  unfold followWoken
  split
  · split <;> rfl
  · rfl

/-- No watch tests a CLASS_RESET entry (R169). -/
theorem watchMatches_reset (st : Store) (v : Watch) (rev : Rev) (time : Time) :
    watchMatches st v { kind := .classReset, rev := rev, time := time } = false := rfl

/-- A CLASS_RESET entry written to a journal the clearance has emptied (R55, R134, R151). -/
theorem published_reset {L : Rev} (hj : u.journal = ⟨[], L⟩) :
    published ⟨u, [resetEntry u]⟩ = { u with
      store := { u.store with rev := upcoming u }
      journal := ⟨[resetEntry u], L⟩
      display := followWoken u.display [resetEntry u] } := by
  have hwatch : (Vector.ofFn fun n : Fin 4 => watchAfter u.store [resetEntry u] u.watches[n.val]) = u.watches := by
    ext i hi
    simp [watchAfter, resetEntry, watchMatches_reset]
  have hlatch : watchesLatched u [resetEntry u] = u.attention.pending := by
    simp [watchesLatched, resetEntry, watchMatches_reset]
  have hwrite : u.journal.write (eightEntryRule (upcoming u) u.timebase [resetEntry u]) = ⟨[resetEntry u], L⟩ := by
    rw [hj]; rfl
  unfold published
  simp only [hwrite, hwatch, hlatch]
  rw [hj]
  simp only [ne_eq, not_true, decide_false, Bool.false_and, Bool.false_eq_true, if_false]
  rfl

/-! ### The end of the clearance -/

/-- The state once a clearance has ended its transaction (R55). -/
def clearanceDone (u : State) : State :=
  testDemands (latch { u with
    cls := { u.cls with state := u.cls.prior }
    consoleQueue := u.consoleQueue.tail
    commandGrant := some { left := true, replied := false } } .classReady)

theorem quotasEnded_clearance (w : State) :
    QuotasEnded allSeats (clearanceEmptied w) (allSeats.foldl endQuota (clearanceEmptied w)) :=
  quotasEnded_foldl allSeats (List.nodup_finRange 40) _

/-- What the end of a clearance leaves before its commit: the seats and their notices apart (R55). -/
theorem clearanceEnd_of_cleans (hw : Cleans is d w) : clearanceEnd w = { d with
    store := w.store, eraseQueue := []
    maint := { d.maint with underReclaim := none, tableFull := false }
    seats := (clearanceEnd w).seats, noticeQueue := (clearanceEnd w).noticeQueue
    noticeBasis := (clearanceEnd w).noticeBasis
    journal := ⟨[], w.store.rev⟩
    display := { d.display with pos := w.display.pos }
    snapshot := { d.snapshot with pos := w.snapshot.pos } } := by
  have hq := (quotasEnded_clearance w).frame
  rw [clearanceEnd_eq]
  generalize allSeats.foldl endQuota (clearanceEmptied w) = e at hq ⊢
  have hf := hw.frame
  rw [hq, clearanceEmptied]
  generalize w.store = a, w.display.pos = b, w.snapshot.pos = c, w.eraseQueue = q, w.maint.underReclaim = r at hf ⊢
  subst hf
  rfl

/-- The demands after a clearance: tested, whatever the transaction had changed (R114). -/
def demandsTested (u : State) (m : Maintenance) : Maintenance :=
  { m with
    poolDemand := if u.store.freeBlocks.size ≤ u.cls.options.reserve then true
      else if u.cls.options.reserve + 256 ≤ u.store.freeBlocks.size then false else m.poolDemand
    tableDemand := if u.store.freeRecs.size ≤ 64 then true
      else if 128 ≤ u.store.freeRecs.size then false else m.tableDemand }

theorem testDemands_maint (u : State) : (testDemands u).maint = demandsTested u u.maint := rfl

theorem demandsTested_demanded (b u : State) : demandsTested u (demanded b u) = demandsTested u u.maint := by
  unfold demanded demandsTested
  dsimp only
  split
  · rfl
  · congr 1
    · split
      · rfl
      · split <;> rfl
    · split
      · rfl
      · split <;> rfl

theorem clearanceDone_demanded (b u : State) : clearanceDone { u with maint := demanded b u } = { u with
    maint := demandsTested u u.maint
    cls := { u.cls with state := u.cls.prior }
    consoleQueue := u.consoleQueue.tail
    commandGrant := some { left := true, replied := false }
    attention := { u.attention with pending := u.attention.pending ||| BitVec.twoPow 11 10 } } := by
  rw [← demandsTested_demanded b u]
  rfl

/-- What the last grant of a clearance that began at `d` leaves, before the withdrawals, where `w` is the state with
the last records freed, and `e` that with the quota flags ended (R55). -/
def clearanceEnded (d w e : State) : State :=
  { d with
    store := { w.store with rev := nextRev w.store.rev }, eraseQueue := []
    maint := demandsTested { d with store := w.store } { d.maint with underReclaim := none, tableFull := false }
    seats := e.seats, noticeQueue := e.noticeQueue, noticeBasis := e.noticeBasis
    journal := ⟨[resetEntry { d with store := w.store }], w.store.rev⟩
    display := followWoken { d.display with pos := w.display.pos } [resetEntry { d with store := w.store }]
    snapshot := { d.snapshot with pos := w.snapshot.pos }
    cls := { d.cls with state := d.cls.prior }
    consoleQueue := d.consoleQueue.tail
    commandGrant := some { left := true, replied := false }
    attention := { d.attention with pending := d.attention.pending ||| BitVec.twoPow 11 10 } }

theorem clearanceDone_eq (hw : Cleans is d w) :
    clearanceDone (committed d ⟨clearanceEnd w, [resetEntry (clearanceEnd w)]⟩) =
      clearanceEnded d w (clearanceEnd w) := by
  unfold clearanceEnded
  have he := clearanceEnd_of_cleans hw
  generalize clearanceEnd w = e at he ⊢
  have hp := published_reset (u := e) (L := w.store.rev) (by rw [he])
  generalize e.seats = S, e.noticeQueue = Q, e.noticeBasis = B at he ⊢
  subst he
  unfold committed
  rw [if_neg (List.cons_ne_nil _ _), hp]
  exact clearanceDone_demanded d _

/-! ### The grant -/

theorem clearanceGrant_runs (hw : winner s = some .console) (hr : s.cls.state = .resetting)
    (hh : s.consoleQueue.head? ≠ some (.clearance false)) :
    exec .classClearanceGrant s = .next (settle (laterClearance (decideGrant s .console))) := by
  have hu : unstarted s = false := by
    unfold unstarted
    split
    · next h => rw [h] at hh; exact absurd rfl hh
    · rfl
  show execClassClearanceGrant s = _
  unfold execClassClearanceGrant clearanceRuns
  rw [if_pos ⟨hw, by simp [hr, hu]⟩]

theorem inUse_take (hc : d.store.Canonical) : d.store.InUse ((nonFree d.store).take 64) :=
  ⟨(nodup_nonFree hc).sublist (List.take_sublist ..), fun i hi => (mem_nonFree hc i).mp (List.mem_of_mem_take hi)⟩

/-- The records this grant frees (R30, R54). -/
theorem cleans_freeSome (hc : d.store.Canonical) : Cleans ((nonFree d.store).take 64) d (freeSome d) :=
  cleans_foldl _ (inUse_take hc)

theorem Cleans.rev (hw : Cleans is d w) (hu : d.store.InUse is) : w.store.rev = d.store.rev := by
  rw [hw.store, Store.freedList_eq hu]

theorem Cleans.timebase (hw : Cleans is d w) : w.timebase = d.timebase := by rw [hw.frame]

theorem stamped_on_call (f g : State → State) (c : Call) (h1 : (g (f s)).store.rev = s.store.rev)
    (h2 : (g (f s)).timebase = s.timebase) : ((((Tx.start s).on f).on g).call c).Stamped := ⟨h1, h2⟩

theorem work_on_reset (f g : State → State) (h1 : (g (f s)).store.rev = s.store.rev)
    (h2 : (g (f s)).timebase = s.timebase) :
    ((((Tx.start s).on f).on g).call .classReset).work = ⟨g (f s), [resetEntry (g (f s))]⟩ := by
  unfold resetEntry upcoming
  rw [h1, h2]
  rfl

/-- The two ways a later grant ends. -/
theorem laterClearance_eq (d : State) : laterClearance d =
    if (nonFree (freeSome d).store).isEmpty then
      clearanceDone ((((Tx.start d).on freeSome).on clearanceEnd).call .classReset).commit
    else ((Tx.start d).on freeSome).commit := rfl

/-- R54: a grant that leaves records in use. -/
theorem settle_laterClearance_left (hc : d.store.Canonical) (hl : 64 < (nonFree d.store).length) :
    settle (laterClearance d) = settle (committed d ⟨freeSome d, []⟩) := by
  have hw := cleans_freeSome hc
  have hn : (nonFree (freeSome d).store).isEmpty = false := by
    rw [hw.store, nonFree_freedList hc]
    simpa using hl
  have hst : ((Tx.start d).on freeSome).Stamped := ⟨hw.rev (inUse_take hc), hw.timebase⟩
  rw [laterClearance_eq, hn, if_neg Bool.false_ne_true]
  exact settle_after_commit (f := id) hst (fun _ => rfl) fun _ => rfl

/-- R55: the grant that leaves none. -/
theorem settle_laterClearance_last (hc : d.store.Canonical) (hl : (nonFree d.store).length ≤ 64) :
    settle (laterClearance d) = settle (clearanceDone (committed d
      ⟨clearanceEnd (freeSome d), [resetEntry (clearanceEnd (freeSome d))]⟩)) := by
  have hw := cleans_freeSome hc
  have hn : (nonFree (freeSome d).store).isEmpty = true := by
    rw [hw.store, nonFree_freedList hc]
    simpa using hl
  have he := clearanceEnd_of_cleans hw
  have hrev : (clearanceEnd (freeSome d)).store.rev = d.store.rev :=
    (congrArg Store.rev (clearanceEnd_spec (freeSome d)).1).trans (hw.rev (inUse_take hc))
  have htime : (clearanceEnd (freeSome d)).timebase = d.timebase := by rw [he]
  have hst := stamped_on_call freeSome clearanceEnd .classReset hrev htime
  rw [laterClearance_eq, if_pos hn, settle_after_commit (f := clearanceDone) hst (fun _ => rfl) fun _ => rfl,
    work_on_reset freeSome clearanceEnd hrev htime]
  rfl

end Sys2Proof.Machine
end

