-- ==== Sys2Proof/Proofs/ClearanceFreed.lean ====
section
/-! A class clearance grant settled (O6). -/

namespace Sys2Proof.Machine

variable {s u d w : State} {st : Store} {is : List RecIdx}

/-! ### The store without its strokes -/

/-- The chains of the records in use are all the chains (R22). -/
theorem flatMap_nonFree (hc : st.Canonical) (hf : ∀ i, (st.stroke i).state = .free → (st.stroke i).chain = []) :
    ((nonFree st).flatMap fun i => (st.stroke i).chain) = chainBlocks st := by
  unfold nonFree chainBlocks
  have hval : ∀ p ∈ st.strokes, st.stroke p.1 = p.2 := fun p hp => lookupAt_of_mem hc.strokes hp
  rw [List.flatMap_map]
  generalize st.strokes = ps at hval
  induction ps with
  | nil => rfl
  | cons p ps ih =>
    have ihp := ih fun q hq => hval q (List.mem_cons_of_mem _ hq)
    have hp := hval p List.mem_cons_self
    by_cases e : p.2.state = .free
    · rw [List.filter_cons_of_neg (by simpa using e), List.flatMap_cons, ihp, ← hp, hf p.1 (by rw [hp, e]), List.nil_append]
    · rw [List.filter_cons_of_pos (by simpa using e), List.flatMap_cons, List.flatMap_cons, ihp, hp]

/-- With every record freed the free count is the pool (R22, R55). -/
theorem size_allFreed (hc : s.store.Canonical) (hp : PoolAgrees s) :
    FreeStack.size { s.store.freeBlocks with
      released := ((nonFree s.store).flatMap fun i => (s.store.stroke i).chain).reverse ++ s.store.freeBlocks.released }
      = 8192 := by
  obtain ⟨-, -, hsize, hrec⟩ := hp
  rw [flatMap_nonFree hc fun i => (hrec i).1, ← hsize]
  simp only [FreeStack.size, List.length_append, List.length_reverse]
  omega

/-- With every record freed no Z list holds a handle (R27, R55). -/
theorem zlist_allFreed (hz : ZListsAgree s) (p : PageNo) (l : LayerNo) :
    ((s.store.zlist p l).filter fun h => decide ((s.store.stroke h.idx).state = .free ∨
      (s.store.stroke h.idx).page ≠ p ∨ (s.store.stroke h.idx).layer ≠ l)) = [] := by
  rw [List.filter_eq_nil_iff]
  intro h hh
  obtain ⟨hl, hp, hla⟩ := (hz.1 p l).2 h hh
  have hs := ((Store.live_iff _ _).mp hl).2
  simp [hs, hp, hla]

/-! ### The seats -/

/-- The seats after the end of a clearance that began at `d`: blocks held 0, the quota flags cleared, with the notices
(R41, R55). -/
structure QuotaFlagsEnded (d e : State) : Prop where
  seat : ∀ n, e.seat n = { d.seat n with
    blocksHeld := 0, quotaReached := false
    notices := if clearedOf d n then ((d.seat n).notices &&& ~~~(0x60#11)) ||| 0x40#11 else (d.seat n).notices }
  queue : e.noticeQueue = d.noticeQueue ++ allSeats.filter fun n => clearedOf d n && decide ((d.seat n).notices = 0)
  basis : e.noticeBasis = d.noticeBasis.map fun b =>
    { b with added := b.added ++ (allSeats.filter (clearedOf d)).map fun n => (n, .quotaCleared) }

theorem quotaFlagsEnded_clearanceEnd (hw : Cleans is d w) : QuotaFlagsEnded d (clearanceEnd w) := by
  have hs : ∀ n, w.seat n = d.seat n := seat_congr (by rw [hw.frame])
  have hq : (clearanceEmptied w).noticeQueue = d.noticeQueue := by
    show w.noticeQueue = _
    rw [hw.frame]
  have hb : (clearanceEmptied w).noticeBasis = d.noticeBasis := by
    show w.noticeBasis = _
    rw [hw.frame]
  have hc : clearedOf (clearanceEmptied w) = clearedOf d := funext fun n => by
    simp only [clearedOf, seat_clearanceEmptied, hs]
  have he := quotasEnded_clearance w
  rw [clearanceEnd_eq]
  generalize allSeats.foldl endQuota (clearanceEmptied w) = e at he ⊢
  obtain ⟨-, h1, h2, h3⟩ := he
  simp only [hq, hc, seat_clearanceEmptied, hs] at h2
  rw [hb, hc] at h3
  refine ⟨fun n => ?_, h2, h3⟩
  have h := h1 n
  rw [if_pos (show n ∈ allSeats from List.mem_finRange n), quotaEnded, hc, seat_clearanceEmptied, hs] at h
  exact h

/-! ### The obligation -/

/-- The parts of a grant that leaves records in use (R54). -/
theorem clearanceGrant_left (hc : s.store.Canonical) (hw : winner s = some .console) (hr : s.cls.state = .resetting)
    (hh : s.consoleQueue.head? ≠ some (.clearance false)) (hl : 64 < (nonFree s.store).length) :
    ∃ w, exec .classClearanceGrant s = .next (settle (committed (decideGrant s .console) ⟨w, []⟩)) ∧
      Cleans ((nonFree s.store).take 64) (decideGrant s .console) w := by
  have hd : (decideGrant s .console).store = s.store := decideGrant_store s .console
  refine ⟨freeSome (decideGrant s .console), ?_, ?_⟩
  · rw [clearanceGrant_runs hw hr hh, settle_laterClearance_left (hd ▸ hc) (hd ▸ hl)]
  · have h := cleans_freeSome (d := decideGrant s .console) (hd ▸ hc)
    rwa [hd] at h

/-- The parts of the grant that leaves none (R55). -/
theorem clearanceGrant_last (hc : s.store.Canonical) (hw : winner s = some .console) (hr : s.cls.state = .resetting)
    (hh : s.consoleQueue.head? ≠ some (.clearance false)) (hl : (nonFree s.store).length ≤ 64) :
    ∃ w e, exec .classClearanceGrant s = .next (settle (clearanceEnded (decideGrant s .console) w e)) ∧
      Cleans (nonFree s.store) (decideGrant s .console) w ∧ QuotaFlagsEnded (decideGrant s .console) e := by
  have hd : (decideGrant s .console).store = s.store := decideGrant_store s .console
  have h := cleans_freeSome (d := decideGrant s .console) (hd ▸ hc)
  refine ⟨freeSome (decideGrant s .console), _, ?_, ?_, quotaFlagsEnded_clearanceEnd h⟩
  · rw [clearanceGrant_runs hw hr hh, settle_laterClearance_last (hd ▸ hc) (hd ▸ hl), clearanceDone_eq h]
  · rwa [hd, List.take_of_length_le hl] at h

theorem demanded_underReclaim (b u : State) : (demanded b u).underReclaim = u.maint.underReclaim := by
  unfold demanded
  dsimp only
  split <;> rfl

theorem toList_inj {α : Type} {a b : Option α} (h : a.toList = b.toList) : a = b := by
  simpa using congrArg List.head? h

theorem arbiterAfter_settle {r : Requester} (h : u.arbiter = (decideGrant s r).arbiter) : ArbiterAfter s r (settle u) := by
  unfold ArbiterAfter
  rw [← h]
  simp only [settle, requestSet_arbiter]

/-- The state the statement commits: the records freed, the journal emptied. -/
def clearanceShown (d w : State) : State :=
  { d with
    store := w.store, journal := ⟨[], w.store.rev⟩
    display := { d.display with pos := w.display.pos }, snapshot := { d.snapshot with pos := w.snapshot.pos } }

/-- The last grant's end as a commit: the entry, and what the end of the clearance sets beside it (R55). -/
theorem clearanceEnded_eq_committed (d w e : State) : clearanceEnded d w e =
    { committed d ⟨clearanceShown d w, [resetEntry (clearanceShown d w)]⟩ with
      seats := e.seats, noticeQueue := e.noticeQueue, noticeBasis := e.noticeBasis, eraseQueue := []
      maint := (clearanceEnded d w e).maint, cls := (clearanceEnded d w e).cls
      consoleQueue := d.consoleQueue.tail, commandGrant := some { left := true, replied := false }
      attention := (clearanceEnded d w e).attention } := by
  unfold committed
  rw [if_neg (List.cons_ne_nil _ _), published_reset (L := w.store.rev) rfl]
  rfl

/-- Settles O6: the records are freed one by one, and the last grant ends the clearance. -/
theorem clearanceGrantFreesLowestRecords : Obligations.ClearanceGrantFreesLowestRecords := by
  unfold Obligations.ClearanceGrantFreesLowestRecords
  intro s hcan hwin hres hhead d now blocks kept unlinked
  have hc := (storeCanonical_iff s).mp hcan
  have hd : d.store = s.store := decideGrant_store s .console
  have hu : d.store.InUse now := by rw [hd]; exact inUse_take hc
  refine ⟨fun hl => ?_, fun hl => ?_⟩
  · obtain ⟨w, hexec, hw⟩ := clearanceGrant_left hc hwin hres hhead hl
    have hstore : w.store = s.store.freedList now := by rw [hw.store, hd]
    have hgroups := hw.groups
    simp only [d, decideGrant_store, decideGrant_eraseQueue, decideGrant_maint] at hgroups hu
    refine ⟨_, hexec, ?_, fun i => ?_, fun p l => ?_, fun hg => ?_, ?_, ?_⟩
    · show nonFree w.store = _
      rw [hstore, nonFree_freedList hc]
    · show w.store.stroke i = _
      rw [hstore, Store.stroke_freedList hu]
    · show w.store.zlist p l = _
      rw [hstore, Store.zlist_freedList hu]
    · obtain ⟨hq, hrec⟩ := hgroups hg
      refine ⟨hq, (demanded_underReclaim ..).trans (toList_inj (hrec.trans (occupied_toList ..)))⟩
    · have he := Store.freedList_eq hu
      rw [← hstore] at he
      exact he
    · have hf := hw.frame
      rw [decideGrant_maint, decideGrant_display, decideGrant_snapshot] at hf
      refine congrArg (fun u => settle (committed d ⟨u, []⟩)) (hf.trans ?_)
      rw [settle_maint, show (committed (decideGrant s .console) ⟨w, []⟩).maint.underReclaim = _ from
        demanded_underReclaim (decideGrant s .console) w]
      rfl
  · obtain ⟨w, e, hexec, hw, hseats, hqueue, hbasis⟩ := clearanceGrant_last hc hwin hres hhead hl
    have hall : s.store.InUse (nonFree s.store) := ⟨nodup_nonFree hc, fun i => (mem_nonFree hc i).mp⟩
    have hstore : w.store = s.store.freedList (nonFree s.store) := by rw [hw.store]; exact congrArg (Store.freedList · _) hd
    have hrest := Store.freedList_eq hall
    rw [← hstore] at hrest
    have hrev : w.store.rev = s.store.rev := by rw [hrest]
    have hblocks : w.store.freeBlocks = blocks (nonFree s.store) := congrArg Store.freeBlocks hrest
    have hz : ∀ p l, w.store.zlist p l = (s.store.zlist p l).filter fun h =>
        decide ((s.store.stroke h.idx).state = .free ∨ (s.store.stroke h.idx).page ≠ p ∨
          (s.store.stroke h.idx).layer ≠ l) := fun p l => by
      rw [hstore, Store.zlist_freedList hall]
      refine List.filter_congr fun h _ => ?_
      refine decide_eq_decide.mpr ?_
      rw [mem_nonFree hc]
      tauto
    have hentry : resetEntry { d with store := w.store } =
        { kind := .classReset, rev := upcoming s, time := s.timebase } := by
      simp [resetEntry, upcoming, hrev, d]
    have hseat : ∀ n, d.seat n = s.seat n := seat_decideGrant s .console
    have hcleared : clearedOf d = clearedOf s := funext fun n => clearedOf_congr (hseat n)
    refine ⟨_, hexec, fun i => ?_, congrArg Store.freeRecs hrest, hblocks, ?_, hz, fun hza p l => ?_, fun hp => ?_, ?_,
      rfl, ?_, ⟨fun n => ?_, ?_, ?_⟩, ?_, ?_, ?_, ?_, ?_, ?_, ?_, rfl, ?_, ?_, ?_, ?_⟩
    · show w.store.stroke i = _
      rw [hstore, Store.stroke_freedList hall]
      simp only [mem_nonFree hc, ne_eq, ite_not]
    · exact congrArg nextRev hrev
    · exact (hz p l).trans (zlist_allFreed hza p l)
    · exact (congrArg FreeStack.size hblocks).trans (size_allFreed hc hp)
    · show (⟨[resetEntry { d with store := w.store }], w.store.rev⟩ : Journal) = _
      rw [hentry, hrev]
    · show demandsTested { d with store := w.store } { d.maint with underReclaim := none, tableFull := false } = _
      simp only [demandsTested, d, decideGrant_cls, decideGrant_maint]
      rfl
    · refine (hseats n).trans ?_
      rw [show (decideGrant s .console).seat n = _ from hseat n, show clearedOf (decideGrant s .console) = _ from hcleared]
      rfl
    · refine hqueue.trans ?_
      rw [show clearedOf (decideGrant s .console) = _ from hcleared, decideGrant_noticeQueue]
      simp only [seat_decideGrant]
      rfl
    · refine hbasis.trans ?_
      rw [show clearedOf (decideGrant s .console) = _ from hcleared, decideGrant_noticeBasis]
      rfl
    · exact congrArg (fun c : ClassCtl => { c with state := c.prior }) (decideGrant_cls s .console)
    · exact congrArg List.tail (decideGrant_consoleQueue s .console)
    · exact decideGrant_consoleOut s .console
    · exact decideGrant_watches s .console
    · exact decideGrant_hands s .console
    · exact decideGrant_counters s .console
    · exact decideGrant_faults s .console
    · exact decideGrant_burstGrant s .console
    · exact arbiterAfter_settle rfl
    · exact congrArg (fun a : Attention => { a with pending := a.pending ||| BitVec.twoPow 11 10 })
        (decideGrant_attention s .console)
    · have hst : ({ (clearanceEnded d w e).store with rev := s.store.rev } : Store) = w.store := by
        rw [← hrev]; rfl
      have hpos : (clearanceEnded d w e).display.pos = w.display.pos := followWoken_pos ..
      refine congrArg settle ((clearanceEnded_eq_committed d w e).trans ?_)
      show _ = { committed d ⟨{ d with
          store := { (clearanceEnded d w e).store with rev := s.store.rev }, journal := ⟨[], s.store.rev⟩
          display := { s.display with pos := (clearanceEnded d w e).display.pos }
          snapshot := { s.snapshot with pos := w.snapshot.pos } },
        [resetEntry { d with store := w.store }]⟩ with
        seats := e.seats, noticeQueue := e.noticeQueue, noticeBasis := e.noticeBasis, eraseQueue := []
        maint := (clearanceEnded d w e).maint, cls := (clearanceEnded d w e).cls
        consoleQueue := d.consoleQueue.tail, commandGrant := some { left := true, replied := false }
        attention := (clearanceEnded d w e).attention }
      rw [hst, hpos, ← hrev, ← decideGrant_display s .console, ← decideGrant_snapshot s .console]
      rfl

end Sys2Proof.Machine
end

