-- ==== Sys2Proof/Proofs/Masks.lean ====
section
/-! No operation of a transaction writes the enables or the levels of the attention sources (R178, R182): each
operation that latches a source leaves both as they were. -/

namespace Sys2Proof.Machine

variable {s u : State} {t t₁ : Tx}

/-- The enables and the levels of the attention sources (R178). -/
def State.masks (s : State) : BitVec 11 × Vector (Fin 4) 11 := (s.attention.enabled, s.attention.levels)

theorem masks_congr (h : u.attention = s.attention) : u.masks = s.masks := by rw [State.masks, h]; rfl

/-! ### Operations of the state -/

theorem masks_addNotice (s : State) (n : SeatNo) (k : Notice) : (addNotice s n k).masks = s.masks :=
  masks_congr (by simp)

theorem masks_quotaFell (s : State) (n : SeatNo) : (quotaFell s n).masks = s.masks := masks_congr (by simp)

theorem masks_setDeadline (s : State) (n : SeatNo) (x : Time) : (setDeadline s n x).masks = s.masks :=
  masks_congr (by simp)

theorem masks_joinGroup (s : State) (g : Rev) (h : Handle) (r : Rev) (o : Origin) (b : Bool) :
    (joinGroup s g h r o b).masks = s.masks := by
  unfold joinGroup
  split <;> rfl

theorem masks_quotaRefused (s : State) (n : SeatNo) : (quotaRefused s n).masks = s.masks := by
  unfold quotaRefused
  split
  · rfl
  · exact masks_addNotice _ _ _

theorem masks_poolRefused (s : State) (o : Origins) (n : SeatNo) : (poolRefused s o n).masks = s.masks := by
  unfold poolRefused
  split
  · split <;> rfl
  · rfl

theorem masks_takeBlock {n : SeatNo} {b : BlockNo} (h : takeBlock s n = some (b, u)) : u.masks = s.masks := by
  unfold takeBlock at h
  split at h
  · cases h
  · dsimp only at h
    split at h <;> (cases h; rfl)

/-! ### Operations of a transaction -/

/-- The enables and levels of the state a transaction has reached. -/
abbrev Tx.masks (t : Tx) : BitVec 11 × Vector (Fin 4) 11 := t.st.masks

theorem Tx.masks_refuse (t : Tx) (o : Origins) (n : SeatNo) (why : Shortage) : (t.refuse o n why).masks = t.masks := by
  cases why with
  | table => rfl
  | quota => exact masks_quotaRefused _ _
  | reserve => rfl
  | pool => exact masks_poolRefused _ _ _

theorem Tx.masks_openStroke {n : SeatNo} {sp : OpenSpec} {x y w : Nat} {c : Bool} {h : Handle}
    (e : t.openStroke n sp x y w c = some (h, t₁)) : t₁.masks = t.masks := by
  unfold Tx.openStroke at e
  split at e
  · cases e
  · split at e
    · cases e
    · next hb =>
      cases e
      exact (masks_takeBlock hb :)

theorem Tx.masks_closeInk (t : Tx) (n : SeatNo) (h : Handle) (tag : Byte) (c : CloseCause) :
    (t.closeInk n h tag c).masks = t.masks := by
  unfold Tx.closeInk
  split
  · dsimp only
    split <;> rfl
  · rfl

theorem Tx.masks_splitStroke (t : Tx) (o : Origins) (n : SeatNo) (h : Handle) (tag : Byte) (x y w : Nat) (c : Bool) :
    (t.splitStroke o n h tag x y w c).1.masks = t.masks := by
  unfold Tx.splitStroke
  split
  · exact Tx.masks_refuse ..
  · dsimp only
    split
    · rfl
    · next e => exact (Tx.masks_openStroke e).trans (Tx.masks_closeInk ..)

theorem Tx.masks_storePoint (t : Tx) (o : Origins) (n : SeatNo) (h : Handle) (tag : Byte) (l d : Bool) (x y w : Nat)
    (c : Bool) : (t.storePoint o n h tag l d x y w c).1.masks = t.masks := by
  unfold Tx.storePoint
  dsimp only
  split
  · rfl
  · split
    · rfl
    · split
      · rfl
      · split
        · exact Tx.masks_splitStroke ..
        · split
          · exact Tx.masks_refuse ..
          · split
            · rfl
            · next hb => exact (masks_takeBlock hb :)

theorem Tx.masks_of_mapped {n : SeatNo} {tool : PenTool} {r : RawPoint} {m : MapOut}
    (e : t.mapped n tool r = (m, t₁)) : t₁.masks = t.masks := by
  have h : t₁ = (t.mapped n tool r).2 := by rw [e]
  rw [h]
  unfold Tx.mapped
  dsimp only
  split <;> rfl

theorem Tx.masks_inkPoint (t : Tx) (o : Origins) (n : SeatNo) (r : RawPoint) :
    (t.inkPoint o n r).1.masks = t.masks := by
  unfold Tx.inkPoint
  split
  · split
    · next e => exact (Tx.masks_of_mapped e :)
    · next e => exact (Tx.masks_of_mapped e :)
    · next e =>
      dsimp only
      split
      · exact Tx.masks_of_mapped e
      · exact (Tx.masks_storePoint ..).trans (Tx.masks_of_mapped e)
  · rfl

theorem Tx.masks_inkPoints (o : Origins) (n : SeatNo) (rs : List RawPoint) (t : Tx) :
    (Tx.inkPoints o n rs t).masks = t.masks := by
  induction rs generalizing t with
  | nil => rfl
  | cons r rs ih =>
    have h := Tx.masks_inkPoint t o n r
    unfold Tx.inkPoints
    split
    · next e => rw [e] at h; exact (ih _).trans h
    · next e => rw [e] at h; exact h

theorem Tx.masks_openPoints (o : Origins) (n : SeatNo) (sp : OpenSpec) (rs : List RawPoint) (t : Tx) :
    (Tx.openPoints o n sp rs t).masks = t.masks := by
  induction rs generalizing t with
  | nil => rfl
  | cons r rs ih =>
    unfold Tx.openPoints
    split
    · next e =>
      split
      · exact (Tx.masks_refuse ..).trans (Tx.masks_of_mapped e)
      · split
        · exact Tx.masks_of_mapped e
        · next eo =>
          exact (Tx.masks_inkPoints o n rs _).trans ((Tx.masks_openStroke eo).trans (Tx.masks_of_mapped e))
    · next e => exact (ih _).trans (Tx.masks_of_mapped e)

/-! ### Erasing, restoring and retraction -/

theorem Tx.masks_erase (t : Tx) (h : Handle) (g : Rev) (o : Origin) (b : Bool) : (t.erase h g o b).masks = t.masks := by
  unfold Tx.erase
  dsimp only
  split
  · exact (masks_quotaFell _ _).trans (masks_joinGroup t.st g h t.rev o b)
  · rfl

theorem Tx.masks_hitStrokes (n : SeatNo) (sc : Scope) (x y w : Nat) (hs : List Handle) (t : Tx) :
    (Tx.hitStrokes n sc x y w hs t).masks = t.masks := by
  induction hs generalizing t with
  | nil => rfl
  | cons h hs ih =>
    unfold Tx.hitStrokes
    dsimp only
    split
    · split
      · exact (ih _).trans (Tx.masks_erase ..)
      · split <;> exact ih _
    · rfl

theorem Tx.masks_eraserPoint (t : Tx) (n : SeatNo) (r : RawPoint) : (t.eraserPoint n r).masks = t.masks := by
  unfold Tx.eraserPoint
  split
  · split
    · next e => exact (Tx.masks_hitStrokes ..).trans (Tx.masks_of_mapped e)
    · next e => exact Tx.masks_of_mapped e
  · rfl

theorem Tx.masks_foldl {α : Type} {f : Tx → α → Tx} (h : ∀ t a, (f t a).masks = t.masks) (as : List α) (t : Tx) :
    (as.foldl f t).masks = t.masks := by
  induction as generalizing t with
  | nil => rfl
  | cons a as ih => exact (ih _).trans (h t a)

theorem Tx.masks_closeEraser (t : Tx) (n : SeatNo) (g : Option Rev) : (t.closeEraser n g).masks = t.masks := by
  cases g <;> rfl

theorem Tx.masks_eraseAll (keep : Stroke → Bool) (hs : List Handle) (r : Tx × Nat × Nat) :
    (Tx.eraseAll keep hs r).1.masks = r.1.masks := by
  induction hs generalizing r with
  | nil => rfl
  | cons h hs ih =>
    obtain ⟨t, k, l⟩ := r
    unfold Tx.eraseAll
    dsimp only
    split
    · exact (ih _).trans (Tx.masks_erase ..)
    · split <;> exact ih _

theorem Tx.masks_restoreStroke (g : Rev) (t : Tx) (h : Handle) : (Tx.restoreStroke g t h).masks = t.masks := by
  unfold Tx.restoreStroke
  dsimp only
  split <;> rfl

theorem Tx.masks_restoreGroup (t : Tx) (g : EraseGroup) : (t.restoreGroup g).masks = t.masks :=
  Tx.masks_foldl (Tx.masks_restoreStroke g.id) g.members t

theorem Tx.masks_eraseChain (o : Origin) (n : SeatNo) (k : Nat) (h : Option Handle) (r : Tx × Nat) :
    (Tx.eraseChain o n k h r).1.masks = r.1.masks := by
  induction k generalizing h r with
  | zero => rfl
  | succ k ih =>
    cases h with
    | none => rfl
    | some h =>
      unfold Tx.eraseChain
      dsimp only
      split
      · exact (ih _ _).trans (Tx.masks_erase ..)
      · rfl

theorem Tx.masks_retract (n : SeatNo) (o : Origin) (es : List UndoEntry) (t : Tx) :
    (Tx.retract n o es t).1.masks = t.masks := by
  induction es generalizing t with
  | nil => rfl
  | cons e es ih =>
    unfold Tx.retract
    dsimp only
    split
    · split
      · exact Tx.masks_eraseChain o _ Config.records (some _) (t.on (·.modSeat n fun u => { u with undo := es }), 0)
      · exact ih _
    · split
      · exact Tx.masks_restoreGroup ..
      · exact ih _

theorem Tx.masks_runRetract (t : Tx) (n : SeatNo) (o : Origin) : (t.runRetract n o).1.masks = t.masks :=
  (masks_addNotice _ _ _).trans (Tx.masks_retract ..)

/-! ### Open items -/

theorem Tx.masks_endItem (t : Tx) (n : SeatNo) (c : CloseCause) : (t.endItem n c).masks = t.masks := by
  unfold Tx.endItem
  split
  · rfl
  · next i _ =>
    cases i.kind with
    | ink h tag => exact Tx.masks_closeInk ..
    | eraser _ _ _ g => exact Tx.masks_closeEraser ..
    | armed _ _ _ _ => rfl
    | held _ => rfl

theorem Tx.masks_serveCut (t : Tx) (n : SeatNo) : (t.serveCut n).masks = t.masks := by
  unfold Tx.serveCut
  split
  · exact Tx.masks_endItem ..
  · rfl

theorem Tx.masks_makeDot (t : Tx) (o : Origins) (n : SeatNo) (p : HeldPoint) (c : CloseCause) :
    (t.makeDot o n p c).masks = t.masks := by
  unfold Tx.makeDot
  dsimp only
  split
  · exact Tx.masks_refuse ..
  · split
    · rfl
    · next e => exact (Tx.masks_closeInk ..).trans (Tx.masks_openStroke e)

theorem Tx.masks_releaseHeld (t : Tx) (o : Origins) (n : SeatNo) (p : HeldPoint) (x : Time) (c : CloseCause) :
    (t.releaseHeld o n p x c).masks = t.masks := by
  unfold Tx.releaseHeld
  split
  · exact Tx.masks_makeDot ..
  · rfl

theorem Tx.masks_expireSeat (t : Tx) (n : SeatNo) : (t.expireSeat n).masks = t.masks := by
  unfold Tx.expireSeat
  split
  · rfl
  · split
    · rfl
    · split
      · exact Tx.masks_releaseHeld ..
      · exact Tx.masks_endItem ..

theorem Tx.masks_beginInput (t : Tx) (o : Origins) (n : SeatNo) (tag tool layer colour : Byte) (x : Time) :
    (t.beginInput o n tag tool layer colour x).1.masks = t.masks := by
  unfold Tx.beginInput
  dsimp only
  split
  · rfl
  · split
    · rfl
    · split
      · rfl
      · exact (masks_setDeadline _ _ _).trans (Tx.masks_endItem t n .superseded)

theorem Tx.masks_orphanPoints (t : Tx) (o : Origins) (n : SeatNo) (tag : Byte) (pts : List RawPoint) (x : Time) :
    (t.orphanPoints o n tag pts x).1.masks = t.masks := by
  unfold Tx.orphanPoints
  split
  · rfl
  · exact (masks_setDeadline _ _ _).trans ((Tx.masks_openPoints ..).trans (Tx.masks_endItem ..))

theorem Tx.masks_pointsInput (t : Tx) (o : Origins) (n : SeatNo) (tag : Byte) (pts : List RawPoint) (x : Time) :
    (t.pointsInput o n tag pts x).1.masks = t.masks := by
  unfold Tx.pointsInput
  split
  · exact Tx.masks_orphanPoints ..
  · split
    · exact Tx.masks_orphanPoints ..
    · split
      · exact (masks_setDeadline _ _ _).trans (Tx.masks_inkPoints ..)
      · exact (masks_setDeadline _ _ _).trans (Tx.masks_openPoints ..)
      · exact (masks_setDeadline _ _ _).trans (Tx.masks_foldl (fun t r => Tx.masks_eraserPoint t n r) pts t)
      · exact Tx.masks_orphanPoints ..

theorem Tx.masks_finishInput (t : Tx) (n : SeatNo) (tag : Byte) : (t.finishInput n tag).1.masks = t.masks := by
  unfold Tx.finishInput
  split
  · split
    · exact Tx.masks_endItem ..
    · rfl
  · rfl

theorem Tx.masks_endContact (t : Tx) (n : SeatNo) (x : Time) : (t.endContact n x).masks = t.masks := by
  unfold Tx.endContact
  split
  · exact Tx.masks_releaseHeld ..
  · exact Tx.masks_endItem ..

theorem Tx.masks_newContact (t : Tx) (n : SeatNo) (tool : PenTool) (x : Sample) :
    (t.newContact n tool x).masks = t.masks := by
  have hold : ∀ it : InkTool, Tx.masks
      (match t.mapped n it.pen x.frame.point with
        | (.point px py w clamped, t') =>
          t'.on (setItem · n (some
            { kind := .held ⟨px, py, w, clamped, x.stamp, it,
                colourOr (t.st.seat n) x.frame.hint, defaultLayer t.st n⟩ }))
        | (_, t') => t') = t.masks := by
    intro it
    split
    · next e => exact (Tx.masks_of_mapped e :)
    · next e => exact Tx.masks_of_mapped e
  unfold Tx.newContact
  dsimp only
  refine (masks_setDeadline _ _ _).trans ?_
  cases tool with
  | ink => exact hold .ink
  | highlight => exact hold .highlight
  | eraser => exact Tx.masks_eraserPoint ..

theorem Tx.masks_downInput (t : Tx) (n : SeatNo) (tool : PenTool) (x : Sample) :
    (t.downInput n tool x).masks = t.masks := by
  unfold Tx.downInput
  split
  · rfl
  · split
    · rfl
    · exact (Tx.masks_newContact ..).trans (Tx.masks_endContact ..)

theorem Tx.masks_openHeld (t : Tx) (n : SeatNo) (p : HeldPoint) (l d : Bool) (x y w : Nat) (c : Bool) :
    (t.openHeld n p l d x y w c).masks = t.masks := by
  unfold Tx.openHeld
  dsimp only
  split
  · exact Tx.masks_refuse ..
  · split
    · rfl
    · next h t' e =>
      have h2 := (Tx.masks_storePoint (t'.toInk n h (BitVec.ofNat 8 n.val) l d) boardOrigin n h
        (BitVec.ofNat 8 n.val) l d x y w c).trans (Tx.masks_openStroke e :)
      split
      · next e2 => rw [e2] at h2; exact h2
      · next e2 => rw [e2] at h2; exact h2

theorem Tx.masks_moveHeld (t : Tx) (n : SeatNo) (p : HeldPoint) (l d : Bool) (r : RawPoint) :
    (t.moveHeld n p l d r).masks = t.masks := by
  unfold Tx.moveHeld
  split
  · next e => exact (Tx.masks_of_mapped e :)
  · next e => exact (Tx.masks_of_mapped e :)
  · next e =>
    split
    · exact Tx.masks_of_mapped e
    · exact (Tx.masks_openHeld ..).trans (Tx.masks_of_mapped e)

theorem Tx.masks_moveInput (t : Tx) (n : SeatNo) (tool : PenTool) (x : Sample) :
    (t.moveInput n tool x).masks = t.masks := by
  unfold Tx.moveInput
  split
  · split
    · exact Tx.masks_downInput ..
    · exact (masks_setDeadline _ _ _).trans (Tx.masks_moveHeld ..)
  · split
    · exact Tx.masks_downInput ..
    · exact (masks_setDeadline _ _ _).trans (Tx.masks_inkPoints ..)
  · split
    · exact (masks_setDeadline _ _ _).trans (Tx.masks_eraserPoint ..)
    · exact Tx.masks_downInput ..
  · exact Tx.masks_downInput ..

theorem Tx.masks_upInput (t : Tx) (n : SeatNo) (x : Sample) : (t.upInput n x).masks = t.masks := by
  unfold Tx.upInput
  split
  · exact Tx.masks_releaseHeld ..
  · exact Tx.masks_endItem ..

end Sys2Proof.Machine
end

