-- ==== Sys2Proof/Proofs/Effects.lean ====
section
/-! What a step leaves of settings, seat states, options, attention sources and time, and what it keeps of hands,
notices, idle seats and undo stacks: the relation `Effect`, which every operation of the machine is shown to meet. -/

namespace Sys2Proof.Machine

variable {s u w : State} {t t₁ : Tx}

/-- The settings that only commands named by the manual write (R33 to R38, R50, R51, R127, R182), and time. -/
inductive Setting where
  | seat | state | options | page | arbiter | sources | time
  deriving DecidableEq

/-- The settings of a seat that CONFIGURE SEAT writes (R38). -/
def Seat.config (v : Seat) : Mapping × Window × Pen × Rights × Target × Nat :=
  (v.mapping, v.window, v.pen, v.rights, v.target, v.quota)

/-- Every setting but the ones of this kind, and the queue of waiting commands, are as they were. -/
structure Frame (x : Option Setting) (s u : State) : Prop where
  pending : u.pending = s.pending
  config : x ≠ some .seat → ∀ n, (u.seat n).config = (s.seat n).config
  state : x ≠ some .state → ∀ n, (u.seat n).state = (s.seat n).state
  options : x ≠ some .options → u.cls.options = s.cls.options
  page : x ≠ some .page → u.cls.shown = s.cls.shown
  arbiter : x ≠ some .arbiter → u.arbiter.enabled = s.arbiter.enabled ∧ u.arbiter.period = s.arbiter.period
  sources : x ≠ some .sources → u.masks = s.masks
  time : x ≠ some .time → u.timebase = s.timebase

/-- The standing properties of hands, notices, idle seats, undo stacks and settings are kept. -/
structure Upholds (s u : State) : Prop where
  hands : HandsAgree s → HandsAgree u
  notices : NoticesAgree s → NoticesAgree u
  idle : AbsentSeatsIdle s → AbsentSeatsIdle u
  undo : UndoBounded s → UndoBounded u
  ranges : SettingsInRange s → SettingsInRange u

/-- What an operation that writes settings of this kind alone does beside. -/
structure Effect (x : Option Setting) (s u : State) : Prop extends Frame x s u, Upholds s u

variable {x : Option Setting}

theorem Frame.trans (h : Frame x s u) (k : Frame x u w) : Frame x s w where
  pending := k.pending.trans h.pending
  config hx n := (k.config hx n).trans (h.config hx n)
  state hx n := (k.state hx n).trans (h.state hx n)
  options hx := (k.options hx).trans (h.options hx)
  page hx := (k.page hx).trans (h.page hx)
  arbiter hx := ⟨(k.arbiter hx).1.trans (h.arbiter hx).1, (k.arbiter hx).2.trans (h.arbiter hx).2⟩
  sources hx := (k.sources hx).trans (h.sources hx)
  time hx := (k.time hx).trans (h.time hx)

theorem Upholds.trans (h : Upholds s u) (k : Upholds u w) : Upholds s w :=
  ⟨k.hands ∘ h.hands, k.notices ∘ h.notices, k.idle ∘ h.idle, k.undo ∘ h.undo, k.ranges ∘ h.ranges⟩

theorem Effect.trans (h : Effect x s u) (k : Effect x u w) : Effect x s w :=
  ⟨h.toFrame.trans k.toFrame, h.toUpholds.trans k.toUpholds⟩

/-! ### Operations that leave all of it -/

/-- The parts of a state that `Effect` speaks of. -/
structure Guarded where
  pending : List Instr
  seats : Vector Seat 40
  options : ClassOptions
  shown : PageNo
  enabled : Bool
  period : Nat
  masks : BitVec 11 × Vector (Fin 4) 11
  timebase : Time
  hands : List SeatNo
  noticeQueue : List SeatNo
  noticeBasis : Option NoticeBasis

def State.guarded (s : State) : Guarded :=
  ⟨s.pending, s.seats, s.cls.options, s.cls.shown, s.arbiter.enabled, s.arbiter.period, s.masks, s.timebase, s.hands,
    s.noticeQueue, s.noticeBasis⟩

theorem SettingsInRange.congr (h1 : ∀ n, (u.seat n).config = (s.seat n).config)
    (h2 : u.cls.options = s.cls.options) (h3 : u.arbiter.period = s.arbiter.period) (h : SettingsInRange s) :
    SettingsInRange u := by
  have hc : ∀ n, (u.seat n).mapping = (s.seat n).mapping ∧ (u.seat n).window = (s.seat n).window ∧
      (u.seat n).pen = (s.seat n).pen ∧ (u.seat n).quota = (s.seat n).quota := fun n => by
    have := h1 n
    simp only [Seat.config, Prod.mk.injEq] at this
    exact ⟨this.1, this.2.1, this.2.2.1, this.2.2.2.2.2⟩
  obtain ⟨hs, hr⟩ := h
  refine ⟨fun n => ?_, by rw [h2, h3]; exact hr⟩
  obtain ⟨e1, e2, e3, e4⟩ := hc n
  dsimp only
  rw [e1, e2, e3, e4]
  exact hs n

theorem Frame.of_guarded (h : u.guarded = s.guarded) : Frame x s u := by
  have hs : ∀ n, u.seat n = s.seat n := seat_congr (congrArg Guarded.seats h)
  exact
    { pending := congrArg Guarded.pending h
      config := fun _ n => by rw [hs]
      state := fun _ n => by rw [hs]
      options := fun _ => congrArg Guarded.options h
      page := fun _ => congrArg Guarded.shown h
      arbiter := fun _ => ⟨congrArg Guarded.enabled h, congrArg Guarded.period h⟩
      sources := fun _ => congrArg Guarded.masks h
      time := fun _ => congrArg Guarded.timebase h }

theorem Upholds.of_guarded (h : u.guarded = s.guarded) : Upholds s u := by
  have hs : ∀ n, u.seat n = s.seat n := seat_congr (congrArg Guarded.seats h)
  have hh : u.hands = s.hands := congrArg Guarded.hands h
  have hq : u.noticeQueue = s.noticeQueue := congrArg Guarded.noticeQueue h
  have hb : u.noticeBasis = s.noticeBasis := congrArg Guarded.noticeBasis h
  exact
    { hands := fun k => by simpa only [HandsAgree, hs, hh] using k
      notices := fun k => by simpa only [NoticesAgree, hs, hq, hb] using k
      idle := fun k => by simpa only [AbsentSeatsIdle, hs] using k
      undo := fun k => by simpa only [UndoBounded, hs] using k
      ranges := .congr (fun n => by rw [hs]) (congrArg Guarded.options h) (congrArg Guarded.period h) }

theorem Effect.of_guarded (h : u.guarded = s.guarded) : Effect x s u := ⟨.of_guarded h, .of_guarded h⟩

theorem Effect.refl (x : Option Setting) (s : State) : Effect x s s := .of_guarded rfl

/-- Steps behind an operation that leave what it speaks of. -/
theorem Effect.behind (h : Effect x s u) (k : w.guarded = u.guarded) : Effect x s w := h.trans (.of_guarded k)

/-- Steps before an operation that leave what it speaks of. -/
theorem Effect.after (h : Effect x u w) (k : u.guarded = s.guarded) : Effect x s w := .trans (.of_guarded k) h

/-! ### Operations of a transaction -/

theorem SameSettings.config {a b : Seat} (h : SameSettings a b) : b.config = a.config := by
  simp only [Seat.config, h.mapping, h.window, h.pen, h.rights, h.target, h.quota]

theorem Frame.of_keeps {a : Option SeatNo} (h : Keeps a s u) (hm : u.masks = s.masks) : Frame x s u where
  pending := by rw [h.frame]
  config _ n := (h.settings n).config
  state _ n := (h.settings n).state
  options _ := by rw [h.frame]
  page _ := by rw [h.frame]
  arbiter _ := by rw [h.frame]; exact ⟨rfl, rfl⟩
  sources _ := hm
  time _ := by rw [h.frame]

/-- An operation for a seat that is ADMITTED, or for none in particular. -/
theorem Effect.of_keeps {a : Option SeatNo} (h : Keeps a s u) (hm : u.masks = s.masks)
    (ha : ∀ n, a = some n → (s.seat n).state = .admitted) : Effect x s u where
  toFrame := .of_keeps h hm
  toUpholds :=
    { hands := fun k => by
        have hh : u.hands = s.hands := by rw [h.frame]
        simpa only [HandsAgree, fun n => (h.settings n).handUp, hh] using k
      notices := h.notices
      idle := fun k n hn => by
        rw [(h.settings n).state] at hn
        refine h.items n (fun e => ?_) (k n hn)
        rcases hn with hn | hn <;> (rw [ha n e] at hn; cases hn)
      undo := h.undo
      ranges := .congr (fun n => (h.settings n).config) (by rw [h.frame]) (by rw [h.frame]) }

theorem Effect.of_keeps_none (h : Keeps none s u) (hm : u.masks = s.masks) : Effect x s u :=
  .of_keeps h hm fun _ e => nomatch e

/-- A change of one seat record alone, or of each seat's own: all of a state that is not of the seats stays. -/
theorem Upholds.of_seats (hu : u.guarded = { s.guarded with seats := u.seats })
    (h : ∀ n, (u.seat n).config = (s.seat n).config ∧ (u.seat n).handUp = (s.seat n).handUp ∧
      (u.seat n).notices = (s.seat n).notices ∧ ((s.seat n).undo.length ≤ 8 → (u.seat n).undo.length ≤ 8))
    (hi : AbsentSeatsIdle s → AbsentSeatsIdle u) : Upholds s u where
  hands k := by
    have hh : u.hands = s.hands := congrArg Guarded.hands hu
    simpa only [HandsAgree, fun n => (h n).2.1, hh] using k
  notices k := by
    have hq : u.noticeQueue = s.noticeQueue := congrArg Guarded.noticeQueue hu
    have hb : u.noticeBasis = s.noticeBasis := congrArg Guarded.noticeBasis hu
    simpa only [NoticesAgree, fun n => (h n).2.2.1, hq, hb] using k
  idle := hi
  undo k n := (h n).2.2.2 (k n)
  ranges := .congr (fun n => (h n).1) (congrArg Guarded.options hu) (congrArg Guarded.period hu)

theorem Frame.of_seats (hu : u.guarded = { s.guarded with seats := u.seats })
    (h : ∀ n, (u.seat n).config = (s.seat n).config)
    (hs : x ≠ some .state → ∀ n, (u.seat n).state = (s.seat n).state) : Frame x s u where
  pending := congrArg Guarded.pending hu
  config _ := h
  state := hs
  options _ := congrArg Guarded.options hu
  page _ := congrArg Guarded.shown hu
  arbiter _ := ⟨congrArg Guarded.enabled hu, congrArg Guarded.period hu⟩
  sources _ := congrArg Guarded.masks hu
  time _ := congrArg Guarded.timebase hu

theorem effect_addNotice (n : SeatNo) (k : Notice) : Effect x s (addNotice s n k) :=
  .of_keeps_none (keeps_addNotice n k) (masks_addNotice s n k)

theorem effect_foldl {α : Type} {f : State → α → State} (h : ∀ s a, Effect x s (f s a)) (as : List α) (s : State) :
    Effect x s (as.foldl f s) := by
  induction as generalizing s with
  | nil => exact .refl x s
  | cons a as ih => exact (h s a).trans (ih _)

/-! ### The commit, the grant decision -/

theorem guarded_publish (r : Rev) (es : List ChangeEntry) (s : State) : (publish r es s).guarded = s.guarded := by
  rcases publish_cases s r es with h | ⟨h, -⟩ <;> (rw [h]; rfl)

theorem guarded_fireWatches (es : List ChangeEntry) (s : State) : (fireWatches es s).guarded = s.guarded := by
  rw [fireWatches_eq]
  rfl

theorem guarded_demandsAfter (b s : State) : (demandsAfter b s).guarded = s.guarded := by
  rw [demandsAfter_eq]
  rfl

theorem Tx.guarded_commit (t : Tx) : t.commit.guarded = t.st.guarded := by
  unfold Tx.commit
  dsimp only
  rw [guarded_demandsAfter]
  split
  · rfl
  · rw [guarded_publish, guarded_fireWatches]

/-- The notices a grant decision keeps are those that stand (R48). -/
theorem NoticesAgree.decideGrant (h : NoticesAgree s) (r : Requester) : NoticesAgree (decideGrant s r) := by
  obtain ⟨h1, h2, h3, h4, -⟩ := h
  refine ⟨by simpa using h1, fun n => by simpa using h2 n, fun n => by simpa using h3 n, fun n => by simpa using h4 n,
    fun b hb => ?_⟩
  rw [decideGrant_noticeBasis] at hb
  cases hb
  refine ⟨by simpa [Function.comp_def] using h1, fun p hp => ?_⟩
  obtain ⟨n, hn, rfl⟩ := List.mem_map.mp hp
  have hz := (h2 n).mp hn
  exact ⟨h3 n hz, hz, h4 n⟩

theorem effect_decideGrant (s : State) (r : Requester) : Effect x s (decideGrant s r) where
  toFrame :=
    { pending := by simp
      config := fun _ n => by simp
      state := fun _ n => by simp
      options := fun _ => by simp
      page := fun _ => by simp
      arbiter := fun _ => decideGrant_enabled s r
      sources := fun _ => masks_congr (by simp)
      time := fun _ => by simp }
  toUpholds :=
    { hands := fun h => by simpa [HandsAgree] using h
      notices := fun h => h.decideGrant r
      idle := fun h => by simpa [AbsentSeatsIdle] using h
      undo := fun h => by simpa [UndoBounded] using h
      ranges := .congr (fun n => by simp) (by simp) (decideGrant_enabled s r).2 }

/-! ### Grants -/

theorem guarded_settle (s : State) : (settle s).guarded = s.guarded := rfl

theorem guarded_finishCommand (s : State) (r : Reply) : (finishCommand s r).guarded = s.guarded := rfl

/-- R122, R192: a console command, by what its transaction does. -/
theorem effect_serveCommand {α : Type} {code : Byte} {format : Reader α} {body : α → Tx → Served}
    (h : ∀ a t, Effect x t.st (body a t).1.st) (s : State) : Effect x s (serveCommand code format body s) := by
  unfold serveCommand
  split
  · exact .refl x s
  · next hg =>
    have hd : Effect x s (decideGrant s .console) := effect_decideGrant s .console
    dsimp only
    split
    · exact hd.behind (guarded_finishCommand _ _)
    · next a _ =>
      exact (hd.trans (h a (Tx.start (decideGrant s .console)))).behind
        ((guarded_finishCommand _ _).trans (Tx.guarded_commit _))

/-- R118, R122: a Board Intake grant. -/
theorem effect_boardGrant {ph : Phase} {body : Sample → State → State} (h : ∀ a s, Effect x s (body a s)) (s : State) :
    Effect x s (boardGrant ph body s) := by
  unfold boardGrant
  split
  · exact .refl x s
  · split
    · refine (effect_decideGrant s .board).trans (.behind ?_ (guarded_settle _))
      exact (h _ _).after rfl
    · exact .refl x s

/-- R118, R122: a Tablet Intake grant. -/
theorem effect_tabletGrant {α : Type} {pick : TabletFrame → Option α} {body : α → State → State}
    (h : ∀ a s, Effect x s (body a s)) (s : State) : Effect x s (tabletGrant pick body s) := by
  unfold tabletGrant
  split
  · exact .refl x s
  · split
    · exact .refl x s
    · split
      · refine (effect_decideGrant s .tablet).trans (.behind ?_ (guarded_settle _))
        exact (h _ _).after rfl
      · exact .refl x s

theorem effect_captureFault (k : FaultKind) (l : Link) (n : Option SeatNo) (f : Option Byte) :
    Effect x s (captureFault s k l n f) := .of_guarded rfl

theorem effect_countDiscard (n : SeatNo) : Effect x s (countDiscard s n) :=
  .of_keeps_none (keeps_countDiscard n) rfl

theorem effect_dispose {o : Origins} {n : Option SeatNo} {f : Bool} (h : dispose s o n f = some u) : Effect x s u := by
  unfold dispose at h
  split at h
  · split at h <;> cases h
    · exact .refl x s
    · exact effect_captureFault ..
  · split at h
    · cases h
      exact effect_countDiscard _
    · split at h
      · cases h
        exact effect_countDiscard _
      · split at h <;> cases h
        · exact effect_captureFault ..
        · exact effect_countDiscard _
        · exact effect_countDiscard _

/-- R73: what is not disposed of is for a seat that is ADMITTED. -/
theorem admitted_of_dispose {o : Origins} {n : SeatNo} {f : Bool} (h : dispose s o (some n) f = none) :
    (s.seat n).state = .admitted := by
  unfold dispose at h
  dsimp only at h
  split at h
  · cases h
  · split at h
    · cases h
    · split at h
      · assumption
      · cases h
      · cases h
      · cases h

theorem Tx.Keeps.effect {n : SeatNo} (h : Tx.Keeps (some n) t t₁) (hm : t₁.masks = t.masks)
    (hs : (t.st.seat n).state = .admitted) : Effect x t.st t₁.st :=
  .of_keeps h.st hm fun _ e => by cases e; exact hs

theorem Tx.Keeps.effect_none (h : Tx.Keeps none t t₁) (hm : t₁.masks = t.masks) : Effect x t.st t₁.st :=
  .of_keeps_none h.st hm

/-- R73: a sample of a board contact. -/
theorem effect_contactInput {handle : SeatNo → PenTool → Sample → Tx → Tx}
    (hk : ∀ n tool a t, Tx.Keeps (some n) t (handle n tool a t)) (hm : ∀ n tool a t, (handle n tool a t).masks = t.masks)
    (a : Sample) (s : State) : Effect x s (contactInput handle a s) := by
  unfold contactInput
  split
  · next hd => exact effect_dispose hd
  · next hd =>
    split
    · exact .refl x s
    · next n hn =>
      have hc : Tx.Keeps (some n) (Tx.start s) ((Tx.start s).serveCut n) := Tx.keeps_serveCut n
      have hs : (s.seat n).state = .admitted := admitted_of_dispose (hn ▸ hd)
      dsimp only
      split
      · exact (hc.effect (Tx.masks_serveCut ..) hs).behind (Tx.guarded_commit _)
      · exact ((hc.trans (hk ..)).effect ((hm ..).trans (Tx.masks_serveCut ..)) hs).behind (Tx.guarded_commit _)

/-- R73: a tablet drawing frame. -/
theorem effect_slotInput {kind slot : Byte} {handle : Origins → SeatNo → Tx → Tx}
    (hk : ∀ o n t, Tx.Keeps (some n) t (handle o n t)) (hm : ∀ o n t, (handle o n t).masks = t.masks) (s : State) :
    Effect x s (slotInput kind slot handle s) := by
  unfold slotInput
  dsimp only
  split
  · next hd => exact effect_dispose hd
  · next hd =>
    split
    · exact .refl x s
    · next n hn =>
      have hc : Tx.Keeps (some n) (Tx.start s) ((Tx.start s).serveCut n) := Tx.keeps_serveCut n
      exact ((hc.trans (hk ..)).effect ((hm ..).trans (Tx.masks_serveCut ..)) (admitted_of_dispose (hn ▸ hd))).behind
        (Tx.guarded_commit _)

theorem effect_undoInput (slot : Byte) (s : State) : Effect x s (undoInput slot s) := by
  unfold undoInput
  split
  · next hd => exact effect_dispose hd
  · split
    · exact .refl x s
    · next n _ =>
      exact (Tx.Keeps.effect_none (t := Tx.start s) (Tx.keeps_runRetract n (.seat n)) (Tx.masks_runRetract ..)).behind
        (Tx.guarded_commit _)

end Sys2Proof.Machine
end

