-- ==== Sys2Proof/Proofs/EffectsOps.lean ====
section
/-! The effect of arrivals, requests, bursts and time, of the notices read, the hands and the clearances. -/

namespace Sys2Proof.Machine

variable {s u w : State} {t t₁ : Tx} {x : Option Setting}

/-! ### Frames, requests, bursts -/

theorem guarded_immediateAnswer (s : State) (b : Bool) (r : Reply) : (immediateAnswer s b r).guarded = s.guarded := by
  unfold immediateAnswer
  split <;> rfl

theorem guarded_takeRequest (s : State) (tag : Byte) (q : DisplayRequest) :
    (takeRequest s tag q).guarded = s.guarded := by
  unfold takeRequest acceptRequest
  split
  · split <;> rfl
  · rfl

theorem guarded_requestArrives (s : State) (tag : Byte) (q : DisplayRequest) :
    (requestArrives s tag q).guarded = s.guarded := by
  unfold requestArrives
  split
  · exact guarded_takeRequest s tag q
  · rfl

theorem guarded_readDisplay (s : State) : (readDisplay s).guarded = s.guarded := by
  unfold readDisplay
  split
  · rfl
  · dsimp only
    split
    · split
      · exact guarded_takeRequest _ _ _
      · rfl
    · rfl

theorem guarded_readFront (l : Link) (s : State) : (readFront l s).guarded = s.guarded := by
  unfold readFront
  cases l with
  | board => rfl
  | tablet => rfl
  | console => rfl
  | display => exact guarded_readDisplay _

theorem guarded_shiftOut (l : Link) (k : Nat) (s : State) : (shiftOut l k s).guarded = s.guarded := by
  unfold shiftOut
  split
  · rfl
  · split
    · rfl
    · exact guarded_readFront l s

theorem guarded_takeTablet (s : State) (tag : Byte) (f : TabletFrame) : (takeTablet s tag f).guarded = s.guarded := by
  unfold takeTablet
  split <;> rfl

theorem guarded_afterDisplay (s : State) (w : Walk) : (afterDisplay s w).guarded = s.guarded := by
  unfold afterDisplay
  dsimp only
  split <;> rfl

theorem guarded_afterSnapshot (s : State) (w : Walk) : (afterSnapshot s w).guarded = s.guarded := by
  unfold afterSnapshot
  dsimp only
  split <;> rfl

theorem guarded_resetDisplay (s : State) (b : Bool) : (resetDisplay s b).guarded = s.guarded := by
  unfold resetDisplay
  dsimp only
  split <;> rfl

theorem guarded_resetWalks (s : State) : (resetWalks s).guarded = s.guarded := by
  unfold resetWalks
  dsimp only
  split <;> split <;> rfl

theorem guarded_joinReached (s : State) : (joinReached s).guarded = s.guarded := by
  unfold joinReached
  split <;> rfl

theorem guarded_followTimer (s : State) : (followTimer s).guarded = s.guarded := by
  unfold followTimer
  split
  · split <;> rfl
  · rfl

theorem effect_displayGrant (mine : WalkMode → Bool) (burst : State → Walk) (s : State) :
    Effect x s (displayGrant mine burst s) := by
  unfold displayGrant
  split
  · exact (effect_decideGrant s .display).behind (guarded_afterDisplay _ _)
  · exact .refl x s

/-- R128: time passes. -/
theorem effect_elapse (n : Nat) (s : State) : Effect (some .time) s (elapse n s) := by
  have h : Effect (some .time) s { s with timebase := s.timebase + BitVec.ofNat 48 n } :=
    ⟨⟨rfl, fun _ _ => rfl, fun _ _ => rfl, fun _ => rfl, fun _ => rfl, fun _ => ⟨rfl, rfl⟩, fun _ => rfl,
      fun e => absurd rfl e⟩, ⟨id, id, id, id, id⟩⟩
  exact h.behind ((guarded_followTimer _).trans (guarded_joinReached _))

theorem effect_setCutDue (p : Port) : Effect x s (setCutDue s p) := by
  have h : ∀ n, ∃ b, (setCutDue s p).seat n = { s.seat n with cutDue := b } := fun n => by
    rw [seat_setCutDue]
    split
    · exact ⟨true, rfl⟩
    · exact ⟨(s.seat n).cutDue, rfl⟩
  refine ⟨.of_seats rfl (fun n => ?_) fun _ n => ?_, .of_seats rfl (fun n => ?_) fun k n hn => ?_⟩
  all_goals obtain ⟨b, hb⟩ := h n
  · rw [hb]; rfl
  · rw [hb]
  · rw [hb]; exact ⟨rfl, rfl, rfl, id⟩
  · rw [hb] at hn ⊢; exact k n hn

theorem effect_resetBoard (s : State) : Effect x s (resetBoard s) := by
  have h : ∀ u : State, u.guarded = s.guarded → Effect x s (setCutDue u .board) := fun u hu =>
    (effect_setCutDue .board).after hu
  exact h _ rfl

theorem effect_resetTablet (s : State) (tag : Byte) : Effect x s (resetTablet s tag) := by
  have h : ∀ u : State, u.guarded = s.guarded → Effect x s (placeAnswer (setCutDue u .tablet) (.taken tag 48)) :=
    fun u hu => ((effect_setCutDue .tablet).after hu).behind (by
      generalize setCutDue u .tablet = v
      rfl)
  exact h _ rfl

theorem effect_linkReset (s : State) (l : Link) (tag : AnswerTag) :
    NextIs (Effect x s) (execLinkReset l tag s) := by
  refine .mk (.behind ?_ (guarded_settle _))
  cases l with
  | board => exact Effect.after (effect_resetBoard _) rfl
  | tablet => exact Effect.after (effect_resetTablet _ _) rfl
  | console => exact .of_guarded rfl
  | display => exact .of_guarded (guarded_resetDisplay _ _)

/-! ### Notices -/

/-- Nothing changed but notices: the pending sets, the Notice Queue and the record of what a read meets. -/
structure Noticed (s u : State) : Prop where
  frame : u.guarded = { s.guarded with
    seats := u.seats, noticeQueue := u.noticeQueue, noticeBasis := u.noticeBasis }
  seat : ∀ n, ∃ b, u.seat n = { s.seat n with notices := b }

theorem Noticed.refl (s : State) : Noticed s s := ⟨rfl, fun n => ⟨(s.seat n).notices, rfl⟩⟩

theorem Noticed.trans (h : Noticed s u) (k : Noticed u w) : Noticed s w where
  frame := by rw [k.frame, h.frame]
  seat n := by
    obtain ⟨b, hb⟩ := h.seat n
    obtain ⟨c, hc⟩ := k.seat n
    exact ⟨c, by rw [hc, hb]⟩

theorem noticed_addNotice (s : State) (n : SeatNo) (k : Notice) : Noticed s (addNotice s n k) where
  frame := by unfold addNotice; split <;> rfl
  seat m := seat_addNotice s n m k

theorem noticed_foldl {α : Type} {f : State → α → State} (h : ∀ s a, Noticed s (f s a)) (as : List α) (s : State) :
    Noticed s (as.foldl f s) := by
  induction as generalizing s with
  | nil => exact .refl s
  | cons a as ih => exact (h s a).trans (ih _)

theorem Effect.of_noticed (h : Noticed s u) (hn : NoticesAgree s → NoticesAgree u) : Effect x s u := by
  obtain ⟨hf, h⟩ := h
  have hc : ∀ n, (u.seat n).config = (s.seat n).config := fun n => by
    obtain ⟨b, hb⟩ := h n
    rw [hb]
    rfl
  have hs : ∀ n, (u.seat n).state = (s.seat n).state ∧ (u.seat n).handUp = (s.seat n).handUp ∧
      (u.seat n).undo = (s.seat n).undo ∧ (u.seat n).item = (s.seat n).item := fun n => by
    obtain ⟨b, hb⟩ := h n
    rw [hb]
    exact ⟨rfl, rfl, rfl, rfl⟩
  have hh : u.hands = s.hands := congrArg Guarded.hands hf
  have hp : u.arbiter.period = s.arbiter.period := congrArg Guarded.period hf
  have ho : u.cls.options = s.cls.options := congrArg Guarded.options hf
  exact
    { pending := congrArg Guarded.pending hf
      config := fun _ => hc
      state := fun _ n => (hs n).1
      options := fun _ => ho
      page := fun _ => congrArg Guarded.shown hf
      arbiter := fun _ => ⟨congrArg Guarded.enabled hf, hp⟩
      sources := fun _ => congrArg Guarded.masks hf
      time := fun _ => congrArg Guarded.timebase hf
      hands := fun k => by simpa only [HandsAgree, hs, hh] using k
      notices := hn
      idle := fun k => by simpa only [AbsentSeatsIdle, hs] using k
      undo := fun k => by simpa only [UndoBounded, hs] using k
      ranges := .congr hc ho hp }

/-- The same change of the seats of a list, which a second time changes nothing. -/
theorem seat_foldl_modSeat {f : Seat → Seat} (hf : ∀ v, f (f v) = f v) (ns : List SeatNo) (s : State) (m : SeatNo) :
    (ns.foldl (fun s n => s.modSeat n f) s).seat m = if m ∈ ns then f (s.seat m) else s.seat m := by
  induction ns generalizing s with
  | nil => rfl
  | cons n ns ih =>
    rw [List.foldl_cons, ih]
    by_cases e : m = n
    · subst e
      simp [hf]
    · simp [seat_modSeat_ne s f e, e]

theorem foldl_modSeat_frame (f : Seat → Seat) (ns : List SeatNo) (s : State) :
    ns.foldl (fun s n => s.modSeat n f) s = { s with seats := (ns.foldl (fun s n => s.modSeat n f) s).seats } := by
  induction ns generalizing s with
  | nil => rfl
  | cons n ns ih => exact ih _

/-- R48: the seats listed lose their notices. -/
theorem seat_takeNotices (s : State) (n : SeatNo) : (takeNotices s).seat n =
    if n ∈ s.noticeQueue.take 8 then { s.seat n with notices := 0 } else s.seat n := by
  unfold takeNotices
  exact seat_foldl_modSeat (f := fun v => { v with notices := 0 }) (fun _ => rfl) _ _ n

/-- R48: nothing else changes but the Notice Queue. -/
theorem takeNotices_frame (s : State) : takeNotices s = { s with
    seats := (takeNotices s).seats, noticeQueue := s.noticeQueue.drop 8, noticeBasis := none } :=
  foldl_modSeat_frame ..

theorem noticed_takeNotices (s : State) : Noticed s (takeNotices s) where
  frame := by rw [takeNotices_frame]; rfl
  seat n := by
    rw [seat_takeNotices]
    split
    · exact ⟨0, rfl⟩
    · exact ⟨(s.seat n).notices, rfl⟩

theorem NoticesAgree.takeNotices (h : NoticesAgree s) : NoticesAgree (takeNotices s) := by
  obtain ⟨hd, hq, hp, ho, -⟩ := h
  have hn : ∀ n, ((Machine.takeNotices s).seat n).notices = if n ∈ s.noticeQueue.take 8 then 0 else (s.seat n).notices :=
    fun n => by
      rw [seat_takeNotices]
      split <;> rfl
  have hnb : (Machine.takeNotices s).noticeBasis = none := by rw [takeNotices_frame]
  have hnq : (Machine.takeNotices s).noticeQueue = s.noticeQueue.drop 8 := by rw [takeNotices_frame]
  refine ⟨?_, fun n => ?_, fun n => ?_, fun n => ?_, fun b hb => ?_⟩
  · rw [hnq]
    exact hd.sublist (List.drop_sublist ..)
  · have hmem : n ∈ s.noticeQueue ↔ n ∈ s.noticeQueue.take 8 ∨ n ∈ s.noticeQueue.drop 8 := by
      rw [← List.mem_append, List.take_append_drop]
    have hdis : n ∈ s.noticeQueue.take 8 → n ∉ s.noticeQueue.drop 8 := fun h =>
      List.disjoint_take_drop hd (Nat.le_refl 8) h
    rw [hnq, hn]
    split
    · next ht => simp [hdis ht]
    · next ht => rw [← hq, hmem]; simp [ht]
  · rw [hn]
    split
    · exact fun h => absurd rfl h
    · exact hp n
  · rw [hn]
    split
    · intro j k _ hj
      simp at hj
    · exact ho n
  · rw [hnb] at hb
    cases hb

theorem noticed_takeNoticesBefore (b : NoticeBasis) (s : State) : Noticed s (takeNoticesBefore b s) := by
  have h1 : Noticed s { s with
      noticeQueue := (b.queue.drop Config.noticeItems).map Prod.fst
      noticeBasis := none
      seats := Vector.ofFn fun n : SeatNo =>
        { s.seats[n.val] with notices := waitingSet (b.queue.drop Config.noticeItems) n } } :=
    ⟨rfl, fun n => ⟨waitingSet (b.queue.drop Config.noticeItems) n, by simp [State.seat]⟩⟩
  have h2 := noticed_foldl (f := fun s (p : SeatNo × Notice) => addNotice s p.1 p.2)
    (fun s p => noticed_addNotice s p.1 p.2) b.added { s with
      noticeQueue := (b.queue.drop Config.noticeItems).map Prod.fst
      noticeBasis := none
      seats := Vector.ofFn fun n : SeatNo =>
        { s.seats[n.val] with notices := waitingSet (b.queue.drop Config.noticeItems) n } }
  have h3 : ∀ v : State, Noticed v { v with noticeBasis := some { b with queue := b.queue.drop Config.noticeItems } } :=
    fun v => ⟨rfl, fun n => ⟨(v.seat n).notices, rfl⟩⟩
  exact (h1.trans h2).trans (h3 _)

theorem effect_serveNotices (s : State) (running : Bool) : Effect x s (serveNotices s running).2 := by
  unfold serveNotices
  split
  · next b hb =>
    have hb' : s.noticeBasis = some b := by
      split at hb
      · exact hb
      · cases hb
    exact .of_noticed (noticed_takeNoticesBefore b s) fun h => h.takeNoticesBefore hb'
  · exact .of_noticed (noticed_takeNotices s) NoticesAgree.takeNotices

theorem effect_noticeRead (tag : AnswerTag) (k : Nat) (s : State) : NextIs (Effect x s) (execNoticeRead tag k s) := by
  refine .mk (.behind ?_ (guarded_settle _))
  dsimp only
  split
  · exact .of_guarded (guarded_shiftOut .tablet k s)
  · exact ((effect_serveNotices _ tag.running).after (guarded_shiftOut .tablet k s)).behind rfl

/-! ### Hands -/

/-- A change of hands and of what is latched, and nothing else. -/
theorem Effect.of_hands (hf : u.guarded = { s.guarded with seats := u.seats, hands := u.hands })
    (h : ∀ n, ∃ b, u.seat n = { s.seat n with handUp := b }) (hh : HandsAgree s → HandsAgree u) : Effect x s u := by
  have hs : ∀ n, (u.seat n).config = (s.seat n).config ∧ (u.seat n).state = (s.seat n).state ∧
      (u.seat n).notices = (s.seat n).notices ∧ (u.seat n).undo = (s.seat n).undo ∧
      (u.seat n).item = (s.seat n).item := fun n => by
    obtain ⟨b, hb⟩ := h n
    rw [hb]
    exact ⟨rfl, rfl, rfl, rfl, rfl⟩
  have hq : u.noticeQueue = s.noticeQueue := congrArg Guarded.noticeQueue hf
  have hb : u.noticeBasis = s.noticeBasis := congrArg Guarded.noticeBasis hf
  have hp : u.arbiter.period = s.arbiter.period := congrArg Guarded.period hf
  have ho : u.cls.options = s.cls.options := congrArg Guarded.options hf
  exact
    { pending := congrArg Guarded.pending hf
      config := fun _ n => (hs n).1
      state := fun _ n => (hs n).2.1
      options := fun _ => ho
      page := fun _ => congrArg Guarded.shown hf
      arbiter := fun _ => ⟨congrArg Guarded.enabled hf, hp⟩
      sources := fun _ => congrArg Guarded.masks hf
      time := fun _ => congrArg Guarded.timebase hf
      hands := hh
      notices := fun k => by simpa only [NoticesAgree, hs, hq, hb] using k
      idle := fun k => by simpa only [AbsentSeatsIdle, hs] using k
      undo := fun k => by simpa only [UndoBounded, hs] using k
      ranges := .congr (fun n => (hs n).1) ho hp }

/-- R44: a hand comes down, and its seat leaves the Hand Queue. -/
theorem effect_lowerHand (n : SeatNo) : Effect x s (lowerHand s n) := by
  obtain ⟨h1, h2, h3⟩ := lowerHand_spec s n
  refine .of_hands rfl (fun m => ?_) fun ⟨hd, hq, hp⟩ => ⟨?_, fun m => ?_, fun m hm => ?_⟩
  · by_cases e : m = n
    · exact ⟨false, by rw [e, h1]⟩
    · exact ⟨(s.seat m).handUp, by rw [h2 m e]⟩
  · rw [h3]
    exact hd.filter _
  · by_cases e : m = n
    · simp [h3, e, h1]
    · simp [h3, e, h2 m e, hq m]
  · by_cases e : m = n
    · rw [e, h1] at hm
      cases hm
    · rw [h2 m e] at hm
      exact hp m hm

/-- R45: the hand of a tablet seat goes up, and its seat joins the Hand Queue. -/
theorem effect_raiseHand {n : SeatNo} (hn : portOf n = .tablet) (up : Bool) : Effect x s (raiseHand s n up) := by
  unfold raiseHand
  split
  · split
    · exact .refl x s
    · next hu =>
      have hseat : ∀ m, m ≠ n → (s.modSeat n fun v => { v with handUp := true }).seat m = s.seat m :=
        fun m => seat_modSeat_ne s _
      refine .behind (u := { s.modSeat n (fun v => { v with handUp := true }) with hands := s.hands ++ [n] })
        (.of_hands rfl (fun m => ?_) fun ⟨hd, hq, hp⟩ => ⟨?_, fun m => ?_, fun m hm => ?_⟩) rfl
      · by_cases e : m = n
        · exact ⟨true, by rw [e]; exact seat_modSeat s n _⟩
        · exact ⟨(s.seat m).handUp, hseat m e⟩
      · have : n ∉ s.hands := fun h => hu ((hq n).mp h)
        exact List.nodup_append.mpr ⟨hd, List.nodup_singleton n, by
          rintro a ha b hb rfl
          exact this (List.mem_singleton.mp hb ▸ ha)⟩
      · show m ∈ s.hands ++ [n] ↔ ((s.modSeat n fun v => { v with handUp := true }).seat m).handUp = true
        by_cases e : m = n
        · simp [e]
        · simp [hseat m e, hq m, e]
      · change ((s.modSeat n fun v => { v with handUp := true }).seat m).handUp = true at hm
        by_cases e : m = n
        · exact e ▸ hn
        · rw [hseat m e] at hm
          exact hp m hm
  · split
    · exact effect_lowerHand n
    · exact .refl x s

theorem portOf_slot {b : Byte} {n : SeatNo} (h : seatOfSlot b = some n) : portOf n = .tablet := by
  unfold seatOfSlot at h
  split at h
  · cases h
    unfold portOf
    dsimp only
    rw [if_neg (by omega), if_pos (by omega)]
  · cases h

theorem effect_handInput (slot : Byte) (up : Bool) (s : State) : Effect x s (handInput slot up s) := by
  unfold handInput
  dsimp only
  split
  · split
    · exact .refl x s
    · exact effect_captureFault ..
  · next hn =>
    split
    · exact effect_countDiscard _
    · split
      · exact effect_raiseHand (portOf_slot hn) up
      · exact effect_raiseHand (portOf_slot hn) up
      · exact effect_countDiscard _
      · exact effect_captureFault ..

theorem seat_clearHands (s : State) (n : SeatNo) : (clearHands s).seat n = { s.seat n with handUp := false } := by
  simp [clearHands, State.seat]

/-- R46: every hand comes down. -/
theorem effect_clearHands : Effect x s (clearHands s) := by
  refine .of_hands rfl (fun n => ⟨false, seat_clearHands s n⟩) fun _ => ⟨List.nodup_nil, fun n => ?_, fun n hn => ?_⟩
  · rw [seat_clearHands]
    exact ⟨fun h => absurd h List.not_mem_nil, fun h => nomatch h⟩
  · rw [seat_clearHands] at hn
    cases hn

/-! ### Maintenance and clearances -/

theorem guarded_foldl {α : Type} {f : State → α → State} (h : ∀ s a, (f s a).guarded = s.guarded) (as : List α)
    (s : State) : (as.foldl f s).guarded = s.guarded := by
  induction as generalizing s with
  | nil => rfl
  | cons a as ih => exact (ih _).trans (h s a)

theorem guarded_freeRecord (s : State) (i : RecIdx) : (freeRecord s i).guarded = s.guarded := by
  rw [freeRecord_frame]
  rfl

theorem guarded_reclaimGrant (s : State) : (reclaimGrant s).guarded = s.guarded := by
  have hd : (detachHead s).guarded = s.guarded := by
    unfold detachHead
    split
    · rfl
    · split
      · split <;> rfl
      · rfl
  unfold reclaimGrant freeMembers
  split
  · exact hd
  · exact (guarded_foldl (fun (s : State) (h : Handle) => guarded_freeRecord s h.idx) _ _).trans hd

theorem Tx.keeps_foldl {a : Option SeatNo} {α : Type} {f : Tx → α → Tx} (h : ∀ t b, Tx.Keeps a t (f t b))
    (bs : List α) (t : Tx) : Tx.Keeps a t (bs.foldl f t) := by
  induction bs generalizing t with
  | nil => exact .refl a t
  | cons b bs ih => exact (h t b).trans (ih _)

theorem Tx.masks_serveCuts (ns : List SeatNo) (t : Tx) : (Tx.serveCuts ns t).masks = t.masks :=
  Tx.masks_foldl Tx.masks_serveCut ns t

/-- R94: one Maintenance grant. -/
theorem effect_maintain (s : State) : Effect x s (maintain s) := by
  unfold maintain
  split
  · have hk : Tx.Keeps none (Tx.start s) ((dueSeats s).foldl Tx.expireSeat (Tx.serveCuts (cutDueSeats s) (Tx.start s))) :=
      (Tx.keeps_serveCuts _ _).trans (Tx.keeps_foldl (fun t n => Tx.keeps_expireSeat (t := t) n) _ _)
    have hm := (Tx.masks_foldl Tx.masks_expireSeat (dueSeats s) _).trans
      (Tx.masks_serveCuts (cutDueSeats s) (Tx.start s))
    exact (hk.effect_none hm).behind (Tx.guarded_commit _)
  · exact .of_guarded ((Tx.guarded_commit _).trans (guarded_reclaimGrant s))

/-- A seat at the first grant of a clearance, but for its hand (R53). -/
def Seat.idled (v : Seat) : Seat := { v with item := none, undo := [], lastClosed := none, cutDue := false }

theorem effect_idled : Effect x s { s with seats := s.seats.map Seat.idled } := by
  have h : ∀ n, State.seat { s with seats := s.seats.map Seat.idled } n = (s.seat n).idled := fun n => by
    simp [State.seat]
  refine ⟨.of_seats rfl (fun n => ?_) fun _ n => ?_, .of_seats rfl (fun n => ?_) fun _ n _ => ?_⟩
  all_goals rw [h]
  · rfl
  · rfl
  · exact ⟨rfl, rfl, rfl, fun _ => Nat.zero_le 8⟩
  · rfl

/-- R53: the first grant of a clearance. -/
theorem effect_firstClearance (prior : ClassState) (s : State) : Effect x s (firstClearance prior s) := by
  have hseats : ∀ v : Vector Seat 40, v.map Seat.cleared = (v.map Seat.idled).map fun u => { u with handUp := false } :=
    fun v => by rw [Vector.map_map]; rfl
  have h1 : ∀ v : State, Effect x v { v with seats := v.seats.map Seat.cleared, hands := [] } := fun v => by
    rw [hseats]
    exact effect_idled.trans effect_clearHands
  have h2 : Effect x s (clearanceOpened prior s) := by
    have hw : (resetWalks { s with cls := { s.cls with state := .resetting, prior := prior } }).guarded = s.guarded :=
      guarded_resetWalks _
    unfold clearanceOpened
    generalize resetWalks { s with cls := { s.cls with state := .resetting, prior := prior } } = u at hw ⊢
    exact ((h1 u).after hw).behind rfl
  have h3 := h2.trans (effect_foldl (fun s n => effect_addNotice n .classReset) tabletSeats _)
  rw [firstClearance_eq]
  generalize tabletSeats.foldl (fun s n => addNotice s n .classReset) (clearanceOpened prior s) = u at h3 ⊢
  exact h3.behind rfl

theorem guarded_testDemands (s : State) : (testDemands s).guarded = s.guarded := rfl

theorem guarded_clearRecord (s : State) (i : RecIdx) : (clearRecord s i).guarded = s.guarded := by
  unfold clearRecord
  dsimp only
  split
  · exact guarded_freeRecord s i
  · exact guarded_freeRecord s i

theorem effect_endQuota (s : State) (n : SeatNo) : Effect x s (endQuota s n) := by
  have h : Effect x s (s.modSeat n fun u => { u with quotaReached := false }) :=
    .of_keeps_none (.of_modSeat ⟨rfl, rfl, rfl, rfl, rfl, rfl, rfl, rfl⟩ rfl id fun _ => id) rfl
  unfold endQuota
  split
  · dsimp only
    split
    · exact h.trans (effect_addNotice n _)
    · exact h
  · exact .refl x s

theorem effect_clearanceEnd (s : State) : Effect x s (clearanceEnd s) := by
  have h : Effect x s { s with seats := s.seats.map fun u => { u with blocksHeld := 0 } } :=
    .of_keeps_none (.of_map (fun _ => ⟨rfl, rfl, rfl, rfl, rfl, rfl, rfl, rfl⟩) (fun _ => rfl) (fun _ => rfl)
      fun _ => id) rfl
  have h1 : Effect x s (clearanceEmptied s) := h.behind rfl
  have h2 := h1.trans (effect_foldl effect_endQuota allSeats _)
  rw [clearanceEnd_eq]
  generalize allSeats.foldl endQuota (clearanceEmptied s) = u at h2 ⊢
  exact h2.behind rfl

/-- R54, R55: a later grant of a clearance. -/
theorem effect_laterClearance (s : State) : Effect x s (laterClearance s) := by
  have hf : (freeSome s).guarded = s.guarded := guarded_foldl guarded_clearRecord _ _
  unfold laterClearance
  dsimp only
  split
  · have h := (effect_clearanceEnd (x := x) (freeSome s)).after hf
    have hc := Tx.guarded_commit ((((Tx.start s).on freeSome).on clearanceEnd).call .classReset)
    rw [Tx.call_st, Tx.on_st, Tx.on_st, Tx.start_st] at hc
    generalize ((((Tx.start s).on freeSome).on clearanceEnd).call .classReset).commit = u at hc ⊢
    refine (h.behind hc).behind ((guarded_testDemands _).trans ?_)
    rfl
  · exact .of_guarded ((Tx.guarded_commit _).trans hf)

end Sys2Proof.Machine
end

