-- ==== Sys2Proof/Proofs/EffectsCommands.lean ====
section
/-! The effect of every command: which of the settings it may write, and what it keeps. -/

namespace Sys2Proof.Machine

variable {s u w : State} {t t₁ : Tx} {x : Option Setting} {n : SeatNo}

/-! ### Seat states -/

/-- R33 to R37: the state of a seat changes; one that becomes VACANT or BARRED holds no item. -/
theorem effect_setSeatState (st : SeatState) (h : st = .vacant ∨ st = .barred → (s.seat n).item = none) :
    Effect (some .state) s (setSeatState s n st) := by
  have hne : ∀ m, m ≠ n → (setSeatState s n st).seat m = s.seat m := fun m => seat_modSeat_ne s _
  have heq : (setSeatState s n st).seat n = { s.seat n with state := st } := seat_modSeat s n _
  have hc : ∀ m, ((setSeatState s n st).seat m).config = (s.seat m).config := fun m => by
    by_cases e : m = n
    · rw [e, heq]; rfl
    · rw [hne m e]
  refine ⟨.of_seats rfl hc fun e => absurd rfl e, .of_seats rfl (fun m => ⟨hc m, ?_⟩) fun k m hm => ?_⟩
  · by_cases e : m = n
    · rw [e, heq]; exact ⟨rfl, rfl, id⟩
    · rw [hne m e]; exact ⟨rfl, rfl, id⟩
  · by_cases e : m = n
    · rw [e, heq] at hm ⊢; exact h hm
    · rw [hne m e] at hm ⊢; exact k m hm

/-- R33, R35, R37: a seat takes a state in which items stay, with the notice of it. -/
theorem effect_stateAndNotice (st : SeatState) (k : Notice) (h1 : st ≠ .vacant) (h2 : st ≠ .barred) :
    Effect (some .state) s (addNotice (setSeatState s n st) n k) :=
  (effect_setSeatState st fun e => (e.elim h1 h2).elim).trans (effect_addNotice n k)

theorem Tx.effect_cutSeat (n : SeatNo) : Effect x t.st (t.cutSeat n).st :=
  Tx.Keeps.effect_none (Tx.keeps_cutSeat n) (Tx.masks_endItem t n .cut)

theorem effect_admitBody (n : SeatNo) : Effect (some .state) t.st (admitBody n t).1.st := by
  unfold admitBody
  split
  · exact effect_stateAndNotice .admitted _ (by decide) (by decide)
  all_goals exact .refl _ _

theorem effect_vacateBody (n : SeatNo) : Effect (some .state) t.st (vacateBody n t).1.st := by
  unfold vacateBody
  split
  · exact .refl _ _
  · have hclear : Effect (some .state) (t.cutSeat n).st ((t.cutSeat n).st.modSeat n fun u =>
        { u with undo := [], lastClosed := none, cutDue := false }) :=
      .of_keeps_none (.of_modSeat ⟨rfl, rfl, rfl, rfl, rfl, rfl, rfl, rfl⟩ rfl (fun _ => Nat.zero_le 8) fun _ => id) rfl
    have hitem : ((lowerHand ((t.cutSeat n).st.modSeat n fun u =>
        { u with undo := [], lastClosed := none, cutDue := false }) n).seat n).item = none := by
      rw [(lowerHand_spec _ n).1, seat_modSeat]
      exact Tx.endItem_item t n .cut
    exact ((((Tx.effect_cutSeat n).trans hclear).trans (effect_lowerHand n)).trans
      (effect_setSeatState .vacant fun _ => hitem)).trans (effect_addNotice n _)

theorem effect_muteBody (n : SeatNo) : Effect (some .state) t.st (muteBody n t).1.st := by
  unfold muteBody
  split
  · exact (Tx.effect_cutSeat n).trans (effect_stateAndNotice .muted _ (by decide) (by decide))
  · exact .refl _ _

theorem effect_unmuteBody (n : SeatNo) : Effect (some .state) t.st (unmuteBody n t).1.st := by
  unfold unmuteBody
  split
  · exact effect_stateAndNotice .admitted _ (by decide) (by decide)
  · exact .refl _ _

theorem effect_unbarBody (n : SeatNo) : Effect (some .state) t.st (unbarBody n t).1.st := by
  unfold unbarBody
  split
  · exact effect_stateAndNotice .admitted _ (by decide) (by decide)
  · exact .refl _ _

/-- R36: a barred seat holds no item, as its cut has ended it. -/
theorem effect_barBody (n : SeatNo) : Effect (some .state) t.st (barBody n t).1.st := by
  have hbar : Effect (some .state) t.st (addNotice (setSeatState
      (lowerHand ((t.eraseSeat n (List.finRange 16)).1.cutSeat n).st n) n .barred) n .barred) := by
    have he : Effect (some .state) t.st (t.eraseSeat n (List.finRange 16)).1.st :=
      Tx.Keeps.effect_none (Tx.keeps_eraseSeat n _) (Tx.masks_eraseAll _ _ (t, 0, 0))
    have hitem : ((lowerHand ((t.eraseSeat n (List.finRange 16)).1.cutSeat n).st n).seat n).item = none := by
      rw [(lowerHand_spec _ n).1]
      exact Tx.endItem_item _ n .cut
    exact (((he.trans (Tx.effect_cutSeat n)).trans (effect_lowerHand n)).trans
      (effect_setSeatState .barred fun _ => hitem)).trans (effect_addNotice n _)
  unfold barBody
  split
  · exact hbar
  · exact hbar
  all_goals exact .refl _ _

/-! ### Settings -/

/-- The settings of a seat in range (R38). -/
def Seat.InRange (v : Seat) : Prop :=
  v.mapping.sx ≤ 131071 ∧ v.mapping.sy ≤ 131071 ∧
    (-16384) ≤ v.mapping.ox ∧ v.mapping.ox ≤ 16383 ∧
    (-16384) ≤ v.mapping.oy ∧ v.mapping.oy ≤ 16383 ∧
    v.window.wx0 ≤ v.window.wx1 ∧ v.window.wx1 ≤ 16383 ∧
    v.window.wy0 ≤ v.window.wy1 ∧ v.window.wy1 ≤ 9215 ∧
    1 ≤ v.pen.wmin ∧ v.pen.wmin ≤ v.pen.wmax ∧ v.pen.wmax ≤ 255 ∧
    8 ≤ v.pen.ew ∧ v.pen.ew ≤ 255 ∧ v.quota ≤ 8192

/-- The class options in range (R50). -/
def ClassOptions.InRange (o : ClassOptions) : Prop :=
  o.glitch ≤ 255 ∧ 50 ≤ o.boardIdle ∧ o.boardIdle ≤ 5000 ∧ 100 ≤ o.tabletIdle ∧ o.tabletIdle ≤ 10000 ∧
    100 ≤ o.consoleIdle ∧ o.consoleIdle ≤ 10000 ∧ o.reserve ≤ 2048

theorem settingsInRange_iff : SettingsInRange s ↔
    (∀ n, (s.seat n).InRange) ∧ s.cls.options.InRange ∧ 8 ≤ s.arbiter.period ∧ s.arbiter.period ≤ 255 := by
  unfold SettingsInRange Seat.InRange ClassOptions.InRange
  simp only [and_assoc]

theorem checkMapping_bounds {m : Nat × Nat × Int × Int} {a : Mapping} (h : checkMapping m = some a) :
    a.sx ≤ 131071 ∧ a.sy ≤ 131071 ∧ (-16384) ≤ a.ox ∧ a.ox ≤ 16383 ∧ (-16384) ≤ a.oy ∧ a.oy ≤ 16383 := by
  unfold checkMapping at h
  split at h
  split at h
  · cases h
    assumption
  · cases h

theorem checkWindow_bounds {m : Nat × Nat × Nat × Nat × Policy} {a : Window} (h : checkWindow m = some a) :
    a.wx0 ≤ a.wx1 ∧ a.wx1 ≤ 16383 ∧ a.wy0 ≤ a.wy1 ∧ a.wy1 ≤ 9215 := by
  unfold checkWindow at h
  split at h
  split at h
  · next hb =>
    cases h
    exact ⟨hb.1, hb.2.2.1, hb.2.1, hb.2.2.2⟩
  · cases h

theorem checkPen_bounds {m : Byte × InkTool × Byte × Byte × Byte} {a : Pen} (h : checkPen m = some a) :
    1 ≤ a.wmin ∧ a.wmin ≤ a.wmax ∧ a.wmax ≤ 255 ∧ 8 ≤ a.ew ∧ a.ew ≤ 255 := by
  obtain ⟨c, tool, lo, hi, ew⟩ := m
  have hhi := hi.isLt
  have hew := ew.isLt
  unfold checkPen at h
  dsimp only at h
  split at h
  · split at h
    · next hb =>
      cases h
      dsimp only
      omega
    · cases h
  · cases h

/-- A checked group is absent or has passed its check. -/
theorem checkGroup_some {α β : Type} {f : α → Option β} {g : Option α} {c : Option β} (h : checkGroup f g = some c) :
    c = none ∨ ∃ a b, f a = some b ∧ c = some b := by
  cases g with
  | none => cases h; exact .inl rfl
  | some a =>
    obtain ⟨b, hb, rfl⟩ := Option.map_eq_some_iff.mp h
    exact .inr ⟨a, b, hb, rfl⟩

/-- R38: what CONFIGURE SEAT writes is in range. -/
theorem Seat.InRange.configured {v : Seat} {i : SeatItems} {c : SeatSettings} (h : v.InRange)
    (hc : checkItems i = some c) : (v.configured c).InRange := by
  obtain ⟨h1, h2, h3, h4, h5, h6, h7, h8, h9, h10, h11, h12, h13, h14, h15, h16⟩ := h
  unfold checkItems at hc
  simp only [bind, Option.bind_eq_some_iff] at hc
  obtain ⟨m, hm, wd, hw, p, hp, tg, -, e⟩ := hc
  cases e
  have km : let a := m.getD v.mapping
      a.sx ≤ 131071 ∧ a.sy ≤ 131071 ∧ (-16384) ≤ a.ox ∧ a.ox ≤ 16383 ∧ (-16384) ≤ a.oy ∧ a.oy ≤ 16383 := by
    obtain rfl | ⟨_, b, hb, rfl⟩ := checkGroup_some hm
    · exact ⟨h1, h2, h3, h4, h5, h6⟩
    · exact checkMapping_bounds hb
  have kw : let a := wd.getD v.window
      a.wx0 ≤ a.wx1 ∧ a.wx1 ≤ 16383 ∧ a.wy0 ≤ a.wy1 ∧ a.wy1 ≤ 9215 := by
    obtain rfl | ⟨_, b, hb, rfl⟩ := checkGroup_some hw
    · exact ⟨h7, h8, h9, h10⟩
    · exact checkWindow_bounds hb
  have kp : let a := p.getD v.pen
      1 ≤ a.wmin ∧ a.wmin ≤ a.wmax ∧ a.wmax ≤ 255 ∧ 8 ≤ a.ew ∧ a.ew ≤ 255 := by
    obtain rfl | ⟨_, b, hb, rfl⟩ := checkGroup_some hp
    · exact ⟨h11, h12, h13, h14, h15⟩
    · exact checkPen_bounds hb
  have kq : (i.quota.map (min · 8192)).getD v.quota ≤ 8192 := by
    cases i.quota with
    | none => exact h16
    | some q => exact Nat.min_le_right q 8192
  obtain ⟨m1, m2, m3, m4, m5, m6⟩ := km
  obtain ⟨w1, w2, w3, w4⟩ := kw
  obtain ⟨p1, p2, p3, p4, p5⟩ := kp
  exact ⟨m1, m2, m3, m4, m5, m6, w1, w2, w3, w4, p1, p2, p3, p4, p5, kq⟩

/-- R38: the present groups are written. -/
theorem effect_configured {i : SeatItems} {c : SeatSettings} (hc : checkItems i = some c) :
    Effect (some .seat) s (s.modSeat n (·.configured c)) := by
  have hne : ∀ m, m ≠ n → (s.modSeat n (·.configured c)).seat m = s.seat m := fun m => seat_modSeat_ne s _
  have heq : (s.modSeat n (·.configured c)).seat n = (s.seat n).configured c := seat_modSeat s n _
  have hs : ∀ m, ((s.modSeat n (·.configured c)).seat m).state = (s.seat m).state ∧
      ((s.modSeat n (·.configured c)).seat m).handUp = (s.seat m).handUp ∧
      ((s.modSeat n (·.configured c)).seat m).notices = (s.seat m).notices ∧
      ((s.modSeat n (·.configured c)).seat m).item = (s.seat m).item ∧
      ((s.modSeat n (·.configured c)).seat m).undo = (s.seat m).undo := fun m => by
    by_cases e : m = n
    · rw [e, heq]; exact ⟨rfl, rfl, rfl, rfl, rfl⟩
    · rw [hne m e]; exact ⟨rfl, rfl, rfl, rfl, rfl⟩
  exact
    { pending := rfl
      config := fun e => absurd rfl e
      state := fun _ m => (hs m).1
      options := fun _ => rfl
      page := fun _ => rfl
      arbiter := fun _ => ⟨rfl, rfl⟩
      sources := fun _ => rfl
      time := fun _ => rfl
      hands := fun k => by
        simp only [HandsAgree, fun m => (hs m).2.1]
        exact k
      notices := fun k => by
        simp only [NoticesAgree, fun m => (hs m).2.2.1]
        exact k
      idle := fun k m hm => by
        rw [(hs m).1] at hm
        rw [(hs m).2.2.2.1]
        exact k m hm
      undo := fun k m => by rw [(hs m).2.2.2.2]; exact k m
      ranges := fun k => by
        obtain ⟨k1, k2⟩ := settingsInRange_iff.mp k
        refine settingsInRange_iff.mpr ⟨fun m => ?_, k2⟩
        by_cases e : m = n
        · rw [e, heq]; exact (k1 n).configured hc
        · rw [hne m e]; exact k1 m }

theorem effect_configureBody (i : SeatItems) (n : SeatNo) : Effect (some .seat) t.st (configureBody i n t).1.st := by
  unfold configureBody
  split
  · exact .refl _ _
  · next c hc =>
    have h := effect_configured (s := t.st) (n := n) hc
    dsimp only
    split
    · exact h.trans (.of_keeps_none (keeps_quotaFell n) (masks_quotaFell _ n))
    · exact h

theorem clampTo_bounds {lo hi : Nat} (h : lo ≤ hi) (k : Nat) : lo ≤ clampTo lo hi k ∧ clampTo lo hi k ≤ hi := by
  unfold clampTo
  omega

/-- A present item is clamped, an absent one keeps the old value. -/
theorem clampedItem_bounds {lo hi old : Nat} (h : lo ≤ old ∧ old ≤ hi) (i : Option Nat) :
    lo ≤ (i.map (clampTo lo hi)).getD old ∧ (i.map (clampTo lo hi)).getD old ≤ hi := by
  cases i with
  | none => exact h
  | some k => exact clampTo_bounds (h.1.trans h.2) k

theorem ClassOptions.InRange.applied {o o' : ClassOptions} {i : OptionItems} (h : o.InRange)
    (ha : applyOptions o i = some o') : o'.InRange := by
  obtain ⟨h1, h2, h3, h4, h5, h6, h7, h8⟩ := h
  unfold applyOptions at ha
  simp only [bind, Option.bind_eq_some_iff] at ha
  obtain ⟨_, -, _, -, _, -, _, -, e⟩ := ha
  cases e
  have kg := clampedItem_bounds ⟨Nat.zero_le _, h1⟩ i.glitch
  have kb := clampedItem_bounds ⟨h2, h3⟩ i.boardIdle
  have kt := clampedItem_bounds ⟨h4, h5⟩ i.tabletIdle
  have kc := clampedItem_bounds ⟨h6, h7⟩ i.consoleIdle
  have kr := clampedItem_bounds ⟨Nat.zero_le _, h8⟩ i.reserve
  exact ⟨kg.2, kb.1, kb.2, kt.1, kt.2, kc.1, kc.2, kr.2⟩

/-- R50: the class options are written. -/
theorem effect_options {o : ClassOptions} {i : OptionItems} (ha : applyOptions s.cls.options i = some o) :
    Effect (some .options) s { s with cls := { s.cls with options := o } } :=
  ⟨⟨rfl, fun _ _ => rfl, fun _ _ => rfl, fun e => absurd rfl e, fun _ => rfl, fun _ => ⟨rfl, rfl⟩, fun _ => rfl, fun _ => rfl⟩,
    ⟨id, id, id, id, fun k => by
      obtain ⟨k1, k2, k3⟩ := settingsInRange_iff.mp k
      exact settingsInRange_iff.mpr ⟨k1, k2.applied ha, k3⟩⟩⟩

theorem effect_noticePage (s : State) (n : SeatNo) : Effect x s (noticePage s n) := by
  unfold noticePage
  split
  · exact effect_addNotice n _
  · exact effect_addNotice n _
  · exact .refl x s
  · exact .refl x s

/-- R51: a page is shown. -/
theorem effect_showPageBody (p : PageNo) : Effect (some .page) t.st (showPageBody p t).1.st := by
  have h : Effect (some .page) t.st { t.st with cls := { t.st.cls with shown := p } } :=
    ⟨⟨rfl, fun _ _ => rfl, fun _ _ => rfl, fun _ => rfl, fun e => absurd rfl e, fun _ => ⟨rfl, rfl⟩, fun _ => rfl,
      fun _ => rfl⟩, ⟨id, id, id, id, id⟩⟩
  unfold showPageBody
  generalize tabletSeats = ns
  exact h.trans (effect_foldl effect_noticePage ns _)

/-- R127: the arbiter is set. -/
theorem effect_setArbiter (i : Option Bool × Option Nat) :
    Effect (some .arbiter) s { s with arbiter := s.arbiter.configured i } :=
  ⟨⟨rfl, fun _ _ => rfl, fun _ _ => rfl, fun _ => rfl, fun _ => rfl, fun e => absurd rfl e, fun _ => rfl, fun _ => rfl⟩,
    ⟨id, id, id, id, fun k => by
      obtain ⟨k1, k2, k3⟩ := settingsInRange_iff.mp k
      refine settingsInRange_iff.mpr ⟨k1, k2, ?_⟩
      obtain ⟨b, p⟩ := i
      cases p with
      | none => exact k3
      | some p =>
        show 8 ≤ periodOf p ∧ periodOf p ≤ 255
        unfold periodOf
        omega⟩⟩

/-- R182: the attention sources are set. -/
theorem effect_setSources (a : Attention) : Effect (some .sources) s { s with attention := a } :=
  ⟨⟨rfl, fun _ _ => rfl, fun _ _ => rfl, fun _ => rfl, fun _ => rfl, fun _ => ⟨rfl, rfl⟩, fun e => absurd rfl e,
    fun _ => rfl⟩, ⟨id, id, id, id, id⟩⟩

/-! ### Commands of the console -/

theorem effect_onSeat {b : Byte} {body : SeatNo → Tx → Served} (h : ∀ n, Effect x t.st (body n t).1.st) :
    Effect x t.st (onSeat b body t).1.st := by
  unfold onSeat
  split
  · exact .refl x _
  · exact h _

theorem effect_onWatch {b : Byte} {body : Fin 4 → Tx → Served} (h : ∀ n, Effect x t.st (body n t).1.st) :
    Effect x t.st (onWatch b body t).1.st := by
  unfold onWatch
  split
  · exact .refl x _
  · exact h _

/-- R87: drawing input is for a seat that is ADMITTED. -/
theorem effect_consoleInput {b : Byte} {handle : SeatNo → Tx → Served}
    (hk : ∀ n t, Tx.Keeps (some n) t (handle n t).1) (hm : ∀ n t, (handle n t).1.masks = t.masks) :
    Effect x t.st (consoleInput b handle t).1.st := by
  unfold consoleInput
  split
  · exact .refl x _
  · next n _ =>
    split
    · next hs =>
      have hc : Tx.Keeps (some n) t (t.serveCut n) := Tx.keeps_serveCut n
      exact (hc.trans (hk n _)).effect ((hm n _).trans (Tx.masks_serveCut t n)) hs
    · exact .refl x _

theorem Tx.keeps_startStrokeBody (tag tool layer colour : Byte) (n : SeatNo) (t : Tx) :
    Tx.Keeps (some n) t (startStrokeBody tag tool layer colour n t).1 := by
  unfold startStrokeBody
  split
  · exact Tx.keeps_beginInput _ n tag tool layer colour t.time
  · exact .refl _ t

theorem Tx.masks_startStrokeBody (tag tool layer colour : Byte) (n : SeatNo) (t : Tx) :
    (startStrokeBody tag tool layer colour n t).1.masks = t.masks := by
  unfold startStrokeBody
  split
  · exact Tx.masks_beginInput t _ n tag tool layer colour t.time
  · rfl

theorem Tx.keeps_endStrokeBody (tag : Byte) (n : SeatNo) (t : Tx) : Tx.Keeps (some n) t (endStrokeBody tag n t).1 := by
  have h1 : Tx.Keeps (some n) t { t with closed := none } := ⟨rfl, .refl _ _⟩
  have h := h1.trans (Tx.keeps_finishInput (t := { t with closed := none }) n tag)
  unfold endStrokeBody
  split <;> next e => rw [e] at h; exact h

theorem Tx.masks_endStrokeBody (tag : Byte) (n : SeatNo) (t : Tx) : (endStrokeBody tag n t).1.masks = t.masks := by
  have h : (({ t with closed := none }).finishInput n tag).1.masks = t.masks :=
    Tx.masks_finishInput { t with closed := none } n tag
  unfold endStrokeBody
  split <;> next e => rw [e] at h; exact h

theorem effect_erasureReply {r : Tx × Nat × Nat} (h : Effect x s r.1.st) : Effect x s (erasureReply r).1.st := by
  unfold erasureReply
  dsimp only
  split <;> exact h

theorem effect_retractReply {r : Tx × Retracted} (h : Effect x s r.1.st) : Effect x s (retractReply r).1.st := by
  unfold retractReply
  split <;> exact h

theorem Tx.effect_eraseAll (keep : Stroke → Bool) (hs : List Handle) :
    Effect x t.st (Tx.eraseAll keep hs (t, 0, 0)).1.st :=
  Tx.Keeps.effect_none (Tx.keeps_eraseAll keep hs (t, 0, 0)) (Tx.masks_eraseAll keep hs (t, 0, 0))

theorem effect_clearGroups (g : BitVec 3) : Effect x s (clearGroups g s) := by
  have h1 : Effect x s { s with seats := s.seats.map fun u => { u with clipped := 0, dropped := 0, discarded := 0 } } :=
    .of_keeps_none (.of_map (fun _ => ⟨rfl, rfl, rfl, rfl, rfl, rfl, rfl, rfl⟩) (fun _ => rfl) (fun _ => rfl)
      fun _ => id) rfl
  have h2 : Effect x s (if g.getLsbD 0 then
      { s with seats := s.seats.map fun u => { u with clipped := 0, dropped := 0, discarded := 0 } } else s) := by
    split
    · exact h1
    · exact .refl x s
  refine h2.behind ?_
  unfold clearGroups
  dsimp only
  generalize (if g.getLsbD 0 then
    { s with seats := s.seats.map fun u => { u with clipped := 0, dropped := 0, discarded := 0 } } else s) = v
  split <;> split <;> rfl

/-- R49: FREEZE cuts the tablet seats. -/
theorem Tx.effect_cutTablets : Effect x t.st t.cutTablets.st :=
  Tx.Keeps.effect_none (Tx.keeps_foldl (fun _ n => Tx.keeps_cutSeat n) tabletSeats t)
    (Tx.masks_foldl (fun t n => Tx.masks_endItem t n .cut) tabletSeats t)

/-! ### Every command -/

/-- The settings a command may write. -/
def writer : Instr → Option Setting
  | .configureSeat => some .seat
  | .admitSeat | .vacateSeat | .mute | .unmute | .bar | .unbar => some .state
  | .setClassOptions => some .options
  | .showPage => some .page
  | .setArbiter => some .arbiter
  | .configureAttention => some .sources
  | .deadlineReached _ | .followDeadlineReached => some .time
  | _ => none

/-- A console command, by what its transaction does. -/
theorem NextIs.served {α : Type} {code : Byte} {format : Reader α} {body : α → Tx → Served}
    (h : ∀ a t, Effect x t.st (body a t).1.st) :
    NextIs (Effect x s) (.next (serveCommand code format body s)) := .mk (effect_serveCommand h s)

theorem effect_unknownKind (l : Link) (k : Byte) (tag : AnswerTag) :
    NextIs (Effect x s) (execUnknownKind l k tag s) := by
  refine .mk ?_
  split
  · exact .refl x s
  · refine .of_guarded ((guarded_settle _).trans ?_)
    cases l with
    | console => exact guarded_immediateAnswer ..
    | board => rfl
    | tablet => rfl
    | display => rfl

theorem effect_contact (f : ContactFrame) : NextIs (Effect x s) (execContact f s) := by
  refine .mk (.of_guarded ((guarded_settle _).trans ?_))
  dsimp only
  split
  · rfl
  · split <;> rfl

theorem effect_tabletFrameArrival (tag : Byte) (f : TabletFrame) (k : Nat) :
    NextIs (Effect x s) (execTabletFrameArrival tag f k s) := by
  refine .mk (.of_guarded ((guarded_settle _).trans ?_))
  dsimp only
  split
  · exact (guarded_takeTablet ..).trans (guarded_shiftOut ..)
  · exact guarded_shiftOut .tablet k s

theorem effect_command (tag : AnswerTag) (code : Byte) (ps : Bytes) :
    NextIs (Effect x s) (execCommand tag code ps s) := by
  refine .mk (.of_guarded ((guarded_settle _).trans ?_))
  split
  · rfl
  · split
    · exact guarded_immediateAnswer ..
    · split
      · split <;> rfl
      · rfl

theorem effect_stop (tag : Byte) : NextIs (Effect x s) (execStop tag s) := by
  refine .mk (.of_guarded ((guarded_settle _).trans ?_))
  dsimp only
  split <;> rfl

theorem effect_snapshotBurst : NextIs (Effect x s) (execSnapshotBurst s) := by
  refine .mk ?_
  split
  · exact (effect_decideGrant s .snapshot).behind ((guarded_settle _).trans (guarded_afterSnapshot _ _))
  · exact .refl x s

theorem effect_maintenanceGrant : NextIs (Effect x s) (execMaintenanceGrant s) := by
  refine .mk ?_
  split
  · exact ((effect_decideGrant s .maintenance).trans (effect_maintain _)).behind (guarded_settle _)
  · exact .refl x s

theorem effect_followDeadlineReached : NextIs (Effect (some .time) s) (execFollowDeadlineReached s) := by
  refine .mk ?_
  split
  · exact effect_elapse _ s
  · exact .refl _ s

theorem effect_deadlineReached (n : SeatNo) : NextIs (Effect (some .time) s) (execDeadlineReached n s) := by
  refine .mk ?_
  split
  · exact effect_elapse _ s
  · exact .refl _ s

theorem effect_powerOnClearance : NextIs (Effect x s) (execPowerOnClearance s) := by
  refine .mk ?_
  split
  · split
    · have h : ∀ u : State, u.guarded = (decideGrant s .console).guarded →
          Effect x s (settle (firstClearance .opened u)) := fun u hu =>
        (((effect_decideGrant s .console).behind hu).trans (effect_firstClearance .opened u)).behind (guarded_settle _)
      exact h _ rfl
    · exact .refl x s
  · exact .refl x s

theorem effect_classClearanceGrant : NextIs (Effect x s) (execClassClearanceGrant s) := by
  refine .mk ?_
  split
  · exact ((effect_decideGrant s .console).trans (effect_laterClearance _)).behind (guarded_settle _)
  · exact .refl x s

theorem effect_resetClass : NextIs (Effect x s) (execResetClass s) := by
  refine .mk ?_
  split
  · exact .refl x s
  · dsimp only
    have hd : Effect x s (decideGrant s .console) := effect_decideGrant s .console
    split
    · have hf := hd.trans (effect_firstClearance (decideGrant s .console).cls.state (decideGrant s .console))
      generalize firstClearance (decideGrant s .console).cls.state (decideGrant s .console) = v at hf ⊢
      exact hf.behind rfl
    · exact hd.behind (guarded_finishCommand _ _)

/-- What every command but power-on reset writes of the settings, and what it keeps. -/
theorem effect_exec (c : Instr) (hc : c ≠ .powerOnReset) (s : State) : NextIs (Effect (writer c) s) (exec c s) := by
  have quiet : ∀ {x : Option Setting} {t : Tx} {r : Result} {b : Bytes}, Effect x t.st (t.answer r b).1.st := .refl _ _
  cases c with
  | powerOnReset => exact absurd rfl hc
  | powerOnClearance => exact effect_powerOnClearance
  | classClearanceGrant => exact effect_classClearanceGrant
  | badFrame l => exact .mk (.of_guarded rfl)
  | unknownKind l k tag => exact effect_unknownKind l k tag
  | contact f => exact effect_contact f
  | down => exact .mk (effect_boardGrant (effect_contactInput (fun n _ a t => Tx.keeps_downInput n _ a) fun n tool a t => Tx.masks_downInput t n tool a) s)
  | move => exact .mk (effect_boardGrant (effect_contactInput (fun n _ a t => Tx.keeps_moveInput n _ a) fun n tool a t => Tx.masks_moveInput t n tool a) s)
  | up => exact .mk (effect_boardGrant (effect_contactInput (fun n _ a t => Tx.keeps_upInput n a) fun n _ a t => Tx.masks_upInput t n a) s)
  | tabletFrameArrival tag f k => exact effect_tabletFrameArrival tag f k
  | start =>
    exact .mk (effect_tabletGrant (fun _ => effect_slotInput (fun o n t => Tx.keeps_beginInput o n _ _ _ _ t.time)
      fun o n t => Tx.masks_beginInput t o n _ _ _ _ t.time) s)
  | points =>
    exact .mk (effect_tabletGrant (fun _ => effect_slotInput (fun o n t => Tx.keeps_pointsInput o n _ _ t.time)
      fun o n t => Tx.masks_pointsInput t o n _ _ t.time) s)
  | endFrame =>
    exact .mk (effect_tabletGrant (fun _ => effect_slotInput (fun _ n _ => Tx.keeps_finishInput n _)
      fun _ n t => Tx.masks_finishInput t n _) s)
  | undo => exact .mk (effect_tabletGrant effect_undoInput s)
  | hand => exact .mk (effect_tabletGrant (fun _ => effect_handInput _ _) s)
  | noticeRead tag k => exact effect_noticeRead tag k s
  | command tag code ps => exact effect_command tag code ps
  | admitSeat => exact .served fun _ _ => effect_onSeat fun n => effect_admitBody n
  | vacateSeat => exact .served fun _ _ => effect_onSeat fun n => effect_vacateBody n
  | configureSeat => exact .served fun _ _ => effect_onSeat fun n => effect_configureBody _ n
  | mute => exact .served fun _ _ => effect_onSeat fun n => effect_muteBody n
  | unmute => exact .served fun _ _ => effect_onSeat fun n => effect_unmuteBody n
  | bar => exact .served fun _ _ => effect_onSeat fun n => effect_barBody n
  | unbar => exact .served fun _ _ => effect_onSeat fun n => effect_unbarBody n
  | readSeat => exact .served fun _ _ => effect_onSeat fun _ => quiet
  | freeze =>
    refine .served fun _ t => ?_
    dsimp only
    split
    · have h := Tx.effect_cutTablets (x := none) (t := t)
      generalize t.cutTablets = v at h ⊢
      exact h.behind rfl
    · exact quiet
  | thaw =>
    refine .served fun _ t => ?_
    split
    · exact .of_guarded rfl
    · exact quiet
  | showPage =>
    refine .served fun _ t => ?_
    split
    · exact quiet
    · exact effect_showPageBody _
  | resetClass => exact effect_resetClass
  | setClassOptions =>
    refine .served fun _ t => ?_
    dsimp only
    split
    · exact quiet
    · next ho => exact effect_options ho
  | readStatus => exact .served fun _ _ => quiet
  | startStroke =>
    exact .served fun _ _ => effect_consoleInput (Tx.keeps_startStrokeBody _ _ _ _) (Tx.masks_startStrokeBody _ _ _ _)
  | addPoints =>
    refine .served fun _ t => ?_
    dsimp only
    split
    · exact effect_consoleInput (fun n t => Tx.keeps_pointsInput _ n _ _ t.time)
        fun n t => Tx.masks_pointsInput t _ n _ _ t.time
    · exact quiet
  | endStroke => exact .served fun _ _ => effect_consoleInput (Tx.keeps_endStrokeBody _) (Tx.masks_endStrokeBody _)
  | clearLayer =>
    refine .served fun _ t => ?_
    dsimp only
    split
    · exact effect_erasureReply (Tx.effect_eraseAll _ _)
    · exact quiet
  | eraseSeatInk =>
    refine .served fun _ t => ?_
    dsimp only
    split
    · exact effect_erasureReply (Tx.effect_eraseAll _ _)
    · exact quiet
  | retract =>
    refine .served fun _ t => ?_
    split
    · exact quiet
    · next n _ => exact effect_retractReply (Tx.Keeps.effect_none (Tx.keeps_runRetract n .console) (Tx.masks_runRetract t n _))
  | restoreGroup =>
    refine .served fun _ t => ?_
    dsimp only
    split
    · exact quiet
    · next g _ => exact Tx.Keeps.effect_none (Tx.keeps_restoreGroup g) (Tx.masks_restoreGroup t g)
  | readStroke =>
    refine .served fun _ t => ?_
    split
    · exact quiet
    · split <;> exact quiet
  | handPoll => exact .served fun _ _ => quiet
  | callNext =>
    refine .served fun _ t => ?_
    split
    · exact quiet
    · exact effect_lowerHand _
  | clearHands => exact .served fun _ _ => effect_clearHands
  | startSnapshot =>
    refine .served fun _ t => ?_
    dsimp only [startSnapshotBody]
    split
    · exact quiet
    · split
      · exact quiet
      · exact .of_guarded rfl
  | stopSnapshot =>
    refine .served fun _ t => ?_
    split
    · exact .of_guarded rfl
    · exact quiet
  | armWatch =>
    refine .served fun _ t => effect_onWatch fun n => ?_
    unfold armBody
    split
    · exact quiet
    · exact .of_guarded rfl
  | disarmWatch => exact .served fun _ _ => effect_onWatch fun n => .of_guarded rfl
  | readWatch => exact .served fun _ _ => effect_onWatch fun _ => quiet
  | readAttention => exact .served fun _ _ => quiet
  | ackAttention => exact .served fun _ _ => .of_guarded rfl
  | setAttention => exact .served fun _ _ => .of_guarded rfl
  | configureAttention => exact .served fun _ _ => effect_setSources _
  | readFault => exact .served fun _ _ => .of_guarded rfl
  | readCounters => exact .served fun _ _ => quiet
  | clearCounters => exact .served fun _ _ => effect_clearGroups _
  | readTime => exact .served fun _ _ => quiet
  | setArbiter => exact .served fun i _ => effect_setArbiter i
  | sweep tag f l => exact .mk (.of_guarded (guarded_requestArrives s tag _))
  | continueWalk tag l => exact .mk (.of_guarded (guarded_requestArrives s tag _))
  | follow tag r k l => exact .mk (.of_guarded (guarded_requestArrives s tag _))
  | fetch tag h => exact .mk (.of_guarded (guarded_requestArrives s tag _))
  | stop tag => exact effect_stop tag
  | outboundFrameRead k => exact .mk (.of_guarded (guarded_shiftOut k.link k.bytes s))
  | linkReset l tag => exact effect_linkReset s l tag
  | sweepBurst => exact .mk (effect_displayGrant _ _ s)
  | followBurst => exact .mk (effect_displayGrant _ _ s)
  | fetchBurst => exact .mk (effect_displayGrant _ _ s)
  | snapshotBurst => exact effect_snapshotBurst
  | followDeadlineReached => exact effect_followDeadlineReached
  | deadlineReached n => exact effect_deadlineReached n
  | maintenanceGrant => exact effect_maintenanceGrant

theorem effect_of_exec {c : Instr} (hc : c ≠ .powerOnReset) (h : exec c s = .next u) : Effect (writer c) s u := by
  obtain ⟨w, hw, he⟩ := effect_exec c hc s
  rw [h] at hw
  cases hw
  exact he

/-! ### Which commands write -/

section
variable {c : Instr}

theorem writer_seat : writer c = some .seat → c = .configureSeat := by cases c <;> simp [writer]

theorem writer_state : writer c = some .state → c ∈ [.admitSeat, .vacateSeat, .mute, .unmute, .bar, .unbar] := by
  cases c <;> simp [writer]

theorem writer_options : writer c = some .options → c = .setClassOptions := by cases c <;> simp [writer]

theorem writer_page : writer c = some .page → c = .showPage := by cases c <;> simp [writer]

theorem writer_arbiter : writer c = some .arbiter → c = .setArbiter := by cases c <;> simp [writer]

theorem writer_sources : writer c = some .sources → c = .configureAttention := by cases c <;> simp [writer]

theorem writer_time : writer c = some .time → (∃ n, c = .deadlineReached n) ∨ c = .followDeadlineReached := by
  cases c <;> simp [writer]

end

/-- Settles O52: every command keeps the frame of the settings that `writer` does not name for it. -/
theorem onlyTheNamedCommandsWriteSettings : Obligations.OnlyTheNamedCommandsWriteSettings := by
  intro c s u hc h
  have hf := (effect_of_exec hc h).toFrame
  refine ⟨hf.pending, fun e n => ?config, fun e => hf.state fun k => e (writer_state k),
    fun e => hf.options fun k => e (writer_options k), fun e => hf.page fun k => e (writer_page k),
    fun e => hf.arbiter fun k => e (writer_arbiter k), fun e => ?sources, fun e1 e2 => hf.time fun k => ?time⟩
  case config =>
    have := hf.config (fun k => e (writer_seat k)) n
    simpa only [Seat.config, Prod.mk.injEq] using this
  case sources =>
    have := hf.sources fun k => e (writer_sources k)
    simpa only [State.masks, Prod.mk.injEq] using this
  case time =>
    obtain ⟨n, k⟩ | k := writer_time k
    · exact e1 n k
    · exact e2 k

end Sys2Proof.Machine
end

