-- ==== Sys2Proof/Proofs/StepKeeps.lean ====
section
/-! What every step keeps of hands, notices, idle seats, undo stacks, request flags and settings. -/

namespace Sys2Proof.Machine

variable {s t u : State}

/-! ### The request flags

Every command that does anything but power-on reset ends with the withdrawals of R126. -/

/-- Nothing has happened, or the withdrawals of R126 came last. -/
def Settled (s u : State) : Prop := u = s ∨ ∃ v, u = settle v

theorem settled_settle (s v : State) : Settled s (settle v) := .inr ⟨v, rfl⟩

theorem settled_self (s : State) : Settled s s := .inl rfl

theorem settled_serveCommand {α : Type} (code : Byte) (format : Reader α) (body : α → Tx → Served) (s : State) :
    Settled s (serveCommand code format body s) := by
  unfold serveCommand
  split
  · exact settled_self s
  · dsimp only
    split <;> exact settled_settle s _

theorem settled_boardGrant (ph : Phase) (body : Sample → State → State) (s : State) :
    Settled s (boardGrant ph body s) := by
  unfold boardGrant
  split
  · exact settled_self s
  · split
    · exact settled_settle s _
    · exact settled_self s

theorem settled_tabletGrant {α : Type} (pick : TabletFrame → Option α) (body : α → State → State) (s : State) :
    Settled s (tabletGrant pick body s) := by
  unfold tabletGrant
  split
  · exact settled_self s
  · split
    · exact settled_self s
    · split
      · exact settled_settle s _
      · exact settled_self s

theorem settled_displayGrant (mine : WalkMode → Bool) (burst : State → Walk) (s : State) :
    Settled s (displayGrant mine burst s) := by
  unfold displayGrant
  split
  · exact settled_settle s _
  · exact settled_self s

theorem settled_powerOnClearance : NextIs (Settled s) (execPowerOnClearance s) := by
  refine .mk ?_
  split
  · split
    · exact settled_settle s _
    · exact settled_self s
  · exact settled_self s

theorem settled_resetClass : NextIs (Settled s) (execResetClass s) := by
  refine .mk ?_
  split
  · exact settled_self s
  · dsimp only
    split <;> exact settled_settle s _

theorem settled_ite {p : Prop} [Decidable p] {v : State} : Settled s (if p then settle v else s) := by
  split
  · exact settled_settle s _
  · exact settled_self s

theorem settled_unknownKind (l : Link) (k : Byte) (tag : AnswerTag) :
    NextIs (Settled s) (execUnknownKind l k tag s) := by
  refine .mk ?_
  split
  · exact settled_self s
  · exact settled_settle s _

theorem settled_followDeadlineReached : NextIs (Settled s) (execFollowDeadlineReached s) := by
  refine .mk ?_
  split
  · exact settled_settle s _
  · exact settled_self s

theorem settled_deadlineReached (n : SeatNo) : NextIs (Settled s) (execDeadlineReached n s) := by
  refine .mk ?_
  split
  · exact settled_settle s _
  · exact settled_self s

/-- R126: the withdrawals end every command but power-on reset. -/
theorem settled_exec (c : Instr) (hc : c ≠ .powerOnReset) (s : State) : NextIs (Settled s) (exec c s) := by
  cases c with
  | powerOnReset => exact absurd rfl hc
  | powerOnClearance => exact settled_powerOnClearance
  | resetClass => exact settled_resetClass
  | classClearanceGrant => exact .mk settled_ite
  | snapshotBurst => exact .mk settled_ite
  | maintenanceGrant => exact .mk settled_ite
  | unknownKind l k tag => exact settled_unknownKind l k tag
  | followDeadlineReached => exact settled_followDeadlineReached
  | deadlineReached n => exact settled_deadlineReached n
  | down | move | up => exact .mk (settled_boardGrant _ _ s)
  | start | points | endFrame | undo | hand => exact .mk (settled_tabletGrant _ _ s)
  | sweepBurst | followBurst | fetchBurst => exact .mk (settled_displayGrant _ _ s)
  | badFrame | contact | tabletFrameArrival | noticeRead | command | sweep | continueWalk | follow | fetch | stop
  | outboundFrameRead | linkReset => exact .mk (settled_settle s _)
  | _ => exact .mk (settled_serveCommand _ _ _ s)

theorem flagsStand_settle (v : State) : FlagsStand (settle v) := by
  have h : ∀ a q : BitVec 6, a &&& q &&& ~~~q = 0 := fun a q => by
    rw [BitVec.and_assoc, BitVec.and_not_self]
    exact BitVec.and_zero
  exact ⟨h _ _, h _ _⟩

theorem Settled.flagsStand (h : Settled s u) (k : FlagsStand s) : FlagsStand u := by
  obtain rfl | ⟨v, rfl⟩ := h
  · exact k
  · exact flagsStand_settle v

/-! ### One step -/

/-- All that a step keeps: what `Effect` upholds, and the flags. -/
structure StepKeeps (s t : State) : Prop extends Upholds s t where
  flags : FlagsStand s → FlagsStand t

/-- The invariants hold after power-on reset, whatever commands wait. -/
theorem stepKeeps_reset (p : List Instr) : StepKeeps s { State.reset with pending := p } := by
  obtain ⟨-, h1, h2, h3, h4, -, -, -, -, h5, h6, -⟩ := resetMeetsTheInvariants
  exact { hands := fun _ => h1, notices := fun _ => h2, idle := fun _ => h3, undo := fun _ => h4, ranges := fun _ => h6,
          flags := fun _ => h5 }

theorem stepKeeps_tick (s : State) : StepKeeps s (tick s) where
  toUpholds := (effect_elapse 1 s).toUpholds
  flags _ := flagsStand_settle _

theorem stepKeeps_exec {c : Instr} (hc : c ≠ .powerOnReset) (h : exec c s = .next t) : StepKeeps s t where
  toUpholds := (effect_of_exec hc h).toUpholds
  flags := by
    obtain ⟨u, hu, hs⟩ := settled_exec c hc s
    rw [h] at hu
    cases hu
    exact hs.flagsStand

/-- A command leaves the queue before it takes its effect; no invariant here speaks of that queue. -/
theorem StepKeeps.of_pending {p : List Instr} (h : StepKeeps { s with pending := p } t) : StepKeeps s t :=
  ⟨⟨h.hands, h.notices, h.idle, h.undo, h.ranges⟩, h.flags⟩

theorem stepKeeps_step (h : step s = .next t) : StepKeeps s t := by
  unfold step at h
  split at h
  · cases h
    exact stepKeeps_tick s
  · next c rest _ =>
    by_cases hc : c = .powerOnReset
    · subst hc
      cases h
      exact stepKeeps_reset rest
    · exact (stepKeeps_exec hc h).of_pending

/-- Settles O56: each invariant is a field of what a step keeps. -/
theorem everyStepKeepsSeatsQueuesFlagsAndSettings : Obligations.EveryStepKeepsSeatsQueuesFlagsAndSettings :=
  ⟨fun _ _ k h => (stepKeeps_step h).hands k, fun _ _ k h => (stepKeeps_step h).notices k,
    fun _ _ k h => (stepKeeps_step h).idle k, fun _ _ k h => (stepKeeps_step h).undo k,
    fun _ _ k h => (stepKeeps_step h).flags k, fun _ _ k h => (stepKeeps_step h).ranges k⟩

end Sys2Proof.Machine
end

