-- ==== Sys2Proof/Proofs/Disposal.lean ====
section
/-! Input that is disposed of before it is handled (R32, R49, R54, R73, R77, R87). -/

namespace Sys2Proof.Machine

variable {s u v : State} {t : Tx} {n : SeatNo}

/-! ### What disposes of an input -/

/-- R32, R49, R54: a class or a seat that does not draw has the input counted. -/
theorem dispose_discards {o : Origins} {frozen : Bool}
    (h : s.cls.state = .resetting ∨ (frozen = true ∧ s.cls.state = .frozen) ∨ (s.seat n).state = .muted ∨
      (s.seat n).state = .barred) : dispose s o (some n) frozen = some (discarded s n) := by
  unfold dispose
  dsimp only
  split
  · rfl
  · next h1 =>
    split
    · rfl
    · next h2 =>
      obtain h | ⟨rfl, h⟩ | h | h := h
      · exact absurd h h1
      · simp [h] at h2
      · rw [h]; rfl
      · rw [h]; rfl

/-- R32: input for a VACANT seat is a fault. -/
theorem dispose_vacant {o : Origins} {frozen : Bool} (h1 : s.cls.state ≠ .resetting)
    (h2 : frozen = true → s.cls.state ≠ .frozen) (h3 : (s.seat n).state = .vacant) :
    dispose s o (some n) frozen = some (caught s .notAdmitted o.link (some n) o.frame) := by
  unfold dispose
  dsimp only
  rw [if_neg h1, if_neg (by cases frozen <;> simp_all), h3, ← captureFault_eq]

theorem dispose_nobody_resetting {o : Origins} {frozen : Bool} (h : s.cls.state = .resetting) :
    dispose s o none frozen = some s := if_pos h

/-- R73: input that names no seat is a fault. -/
theorem dispose_nobody {o : Origins} {frozen : Bool} (h : s.cls.state ≠ .resetting) :
    dispose s o none frozen = some (caught s .badSeat o.link none o.frame) :=
  (if_neg h).trans (by rw [captureFault_eq])

/-! ### The grants -/

/-- R77 to R81: the row of a sample handles it as a board contact's. -/
theorem exec_boardRow {row : Instr} {ph : Phase} (h : (row, ph) ∈ [(Instr.down, Phase.down), (.move, .move), (.up, .up)])
    (s : State) :
    ∃ handle : SeatNo → PenTool → Sample → Tx → Tx, exec row s = .next (boardGrant ph (contactInput handle) s) := by
  simp only [List.mem_cons, Prod.mk.injEq, List.not_mem_nil, or_false] at h
  obtain ⟨rfl, rfl⟩ | ⟨rfl, rfl⟩ | ⟨rfl, rfl⟩ := h
  · exact ⟨fun n tool x t => t.downInput n tool x, rfl⟩
  · exact ⟨fun n tool x t => t.moveInput n tool x, rfl⟩
  · exact ⟨fun n _ x t => t.upInput n x, rfl⟩

/-- R73: a sample that is disposed of. -/
theorem exec_board_disposed {x : Sample} {row : Instr} (hx : BoardTurn s x)
    (hrow : (row, x.frame.phase) ∈ [(Instr.down, Phase.down), (.move, .move), (.up, .up)])
    (hd : dispose (boardTaken s) boardOrigin (seatOfContact x.frame.contact) false = some v) :
    exec row s = .next (settle v) := by
  obtain ⟨handle, he⟩ := exec_boardRow hrow s
  rw [he, boardGrant_of_turn hx]
  simp only [contactInput, hd]

/-- R77: a FINGER sample while finger ink is off has a due cut served, and no more. -/
theorem exec_board_finger {x : Sample} {row : Instr} (hx : BoardTurn s x)
    (hrow : (row, x.frame.phase) ∈ [(Instr.down, Phase.down), (.move, .move), (.up, .up)])
    (hn : seatOfContact x.frame.contact = some n) (h1 : s.cls.state ≠ .resetting) (h2 : (s.seat n).state = .admitted)
    (h3 : x.frame.tool = .finger) (h4 : s.cls.options.fingerInk = false) :
    exec row s = .next (settle (committed (boardTaken s) (cutServed n ⟨boardTaken s, []⟩))) := by
  obtain ⟨handle, he⟩ := exec_boardRow hrow s
  have hcls : (boardTaken s).cls = s.cls := by simp [boardTaken]
  have hd : dispose (boardTaken s) boardOrigin (some n) false = none :=
    dispose_none (by rw [hcls]; exact h1) (fun e => by cases e) (by rw [seat_boardTaken]; exact h2)
  have hk : Tx.Keeps none (Tx.start (boardTaken s)) ((Tx.start (boardTaken s)).serveCut n) := Tx.keeps_serveCut n
  have htool : contactTool ((Tx.start (boardTaken s)).serveCut n).st (((Tx.start (boardTaken s)).serveCut n).st.seat n)
      x.frame.tool = none := by
    have hc : ((Tx.start (boardTaken s)).serveCut n).st.cls = s.cls := by rw [hk.st.frame]; exact hcls
    simp [h3, contactTool, hc, h4]
  have hc := settle_after_commit (f := id) ((Tx.stamped_start _).keeps hk) (fun _ => rfl) fun _ => rfl
  rw [Tx.work_serveCut n (Tx.stamped_start _) (by simp [Tx.start]), hk.base] at hc
  rw [he, boardGrant_of_turn hx]
  simp only [contactInput, hn, hd, htool]
  exact congrArg Host.Outcome.next hc

/-- The row, the frame kind and the slot of a tablet frame. -/
def FrameRow (f : TabletFrame) (row : Instr) (kind slot : Byte) : Prop :=
  match f with
  | .begin a _ _ _ _ => row = .start ∧ kind = 0x20#8 ∧ slot = a
  | .points a _ _ => row = .points ∧ kind = 0x21#8 ∧ slot = a
  | .finish a _ => row = .endFrame ∧ kind = 0x22#8 ∧ slot = a
  | .undo a => row = .undo ∧ kind = 0x23#8 ∧ slot = a
  | .hand a _ => row = .hand ∧ kind = 0x24#8 ∧ slot = a

/-- R73: a tablet frame other than HAND that is disposed of. -/
theorem exec_tablet_disposed {f : TabletFrame} {row : Instr} {kind slot : Byte} (hf : TabletTurn s f)
    (hrow : FrameRow f row kind slot) (hne : row ≠ .hand)
    (hd : dispose (tabletTaken s) (tabletOrigin kind) (seatOfSlot slot) true = some v) :
    exec row s = .next (settle v) := by
  cases f with
  | begin a tag tool layer colour =>
    obtain ⟨rfl, rfl, rfl⟩ := hrow
    show execStart s = _
    unfold execStart
    rw [tabletGrant_of_turn hf (a := (slot, tag, tool, layer, colour)) rfl]
    simp only [slotInput, hd]
  | points a tag pts =>
    obtain ⟨rfl, rfl, rfl⟩ := hrow
    show execPoints s = _
    unfold execPoints
    rw [tabletGrant_of_turn hf (a := (slot, tag, pts)) rfl]
    simp only [slotInput, hd]
  | finish a tag =>
    obtain ⟨rfl, rfl, rfl⟩ := hrow
    show execEndFrame s = _
    unfold execEndFrame
    rw [tabletGrant_of_turn hf (a := (slot, tag)) rfl]
    simp only [slotInput, hd]
  | undo a =>
    obtain ⟨rfl, rfl, rfl⟩ := hrow
    show execUndo s = _
    unfold execUndo
    rw [tabletGrant_of_turn hf (a := slot) rfl]
    simp only [undoInput, hd]
  | hand a up => exact absurd hrow.1 hne

/-- R45: a HAND is disposed of as drawing is, but not by a FROZEN class nor for a MUTED seat. -/
theorem handInput_disposed {slot : Byte} {up : Bool}
    (hm : ∀ n, seatOfSlot slot = some n → s.cls.state = .resetting ∨ (s.seat n).state ≠ .muted)
    (hd : dispose s (tabletOrigin 0x24#8) (seatOfSlot slot) false = some v) : handInput slot up s = v := by
  unfold handInput
  dsimp only
  cases hn : seatOfSlot slot with
  | none =>
    rw [hn] at hd
    unfold dispose at hd
    dsimp only at hd ⊢
    split <;> simp_all
  | some n =>
    rw [hn] at hd
    unfold dispose at hd
    dsimp only at hd ⊢
    split
    · simp_all
    · next hr =>
      have := (hm n hn).resolve_left hr
      cases hs : (s.seat n).state <;> simp_all

theorem exec_hand_disposed {f : TabletFrame} {kind slot : Byte} (hf : TabletTurn s f) (hrow : FrameRow f .hand kind slot)
    (hm : ∀ n, seatOfSlot slot = some n → s.cls.state = .resetting ∨ (s.seat n).state ≠ .muted)
    (hd : dispose (tabletTaken s) (tabletOrigin kind) (seatOfSlot slot) false = some v) :
    exec .hand s = .next (settle v) := by
  cases f with
  | hand a up =>
    obtain ⟨-, rfl, rfl⟩ := hrow
    have hcls : (tabletTaken s).cls = s.cls := by simp [tabletTaken]
    have h := handInput_disposed (up := up) (fun n hn => by rw [hcls, seat_tabletTaken]; exact hm n hn) hd
    show execHand s = _
    unfold execHand
    rw [tabletGrant_of_turn hf (a := (slot, up)) rfl]
    exact congrArg (fun w => Host.Outcome.next (settle w)) h
  | begin | points | finish | undo => cases hrow.1

/-- R45, R73: a tablet frame that is disposed of; a HAND is not by a FROZEN class nor for a MUTED seat. -/
theorem exec_frame_disposed {f : TabletFrame} {row : Instr} {kind slot : Byte} (hf : TabletTurn s f)
    (hrow : FrameRow f row kind slot)
    (hm : row = .hand → ∀ n, seatOfSlot slot = some n → s.cls.state = .resetting ∨ (s.seat n).state ≠ .muted)
    (hd : dispose (tabletTaken s) (tabletOrigin kind) (seatOfSlot slot) (decide (row ≠ .hand)) = some v) :
    exec row s = .next (settle v) := by
  by_cases hh : row = .hand
  · subst hh
    exact exec_hand_disposed hf hrow (hm rfl) (by simpa using hd)
  · exact exec_tablet_disposed hf hrow hh (by simpa [hh] using hd)

/-! ### Console drawing commands -/

theorem readAll_rStartStroke (b tag tool layer colour : Byte) :
    readAll rStartStroke [b, tag, tool, layer, colour] = some (b, tag, tool, layer, colour) := rfl

theorem readAll_rEndStroke (b tag : Byte) : readAll rEndStroke [b, tag] = some (b, tag) := rfl

/-- The parameters of ADD POINTS, whatever seat they name. -/
theorem readAll_rAddPoints_any (b tag : Byte) {pts : List RawPoint} (h : pts.length < 65536) :
    readAll rAddPoints (b :: (DrawInput.params 0 (.points tag pts)).tail) = some (b, tag, pts) := by
  have hr : rAddPoints (b :: (DrawInput.params 0 (.points tag pts)).tail) = some ((b, tag, pts), []) := by
    unfold rAddPoints DrawInput.params
    simp only [w8, List.cons_append, List.nil_append, List.tail_cons, r8, Option.bind_eq_bind, Option.bind_some]
    rw [r16_w16 _ h]
    simp only [Option.bind_some]
    rw [← List.append_nil (List.flatMap _ pts), rPoints_points]
    rfl
  simp [readAll, hr]

/-- The transaction of a console drawing command whose seat parameter is this (R87). -/
def DrawInput.body (b : Byte) : DrawInput → Tx → Served
  | .begin tag tool layer colour => consoleInput b (startStrokeBody tag tool layer colour)
  | .points tag pts => fun t =>
    if 1 ≤ pts.length ∧ pts.length ≤ 24 then consoleInput b (addPointsBody tag pts) t else t.answer .range
  | .finish tag => consoleInput b (endStrokeBody tag)

/-- R122, R192: a console drawing command, its transaction named. -/
theorem exec_consoleRow {i : DrawInput} {tag b : Byte} {data : Bytes} {r : Result}
    (h : ConsoleTurn s i.code tag (b :: (i.params 0).tail)) (hl : ∀ g pts, i = .points g pts → pts.length < 65536)
    (hb : i.body b (Tx.start (decideGrant s .console)) = (t, r, data)) :
    exec i.consoleRow s = .next (finishCommand t.commit ⟨tag, i.code, r, data⟩) := by
  cases i with
  | begin g tool layer colour =>
    have hp := readAll_rStartStroke b g tool layer colour
    show execStartStroke s = _
    unfold execStartStroke
    rw [serveCommand_of_turn (code := 0x0F#8) h hp]
    exact congrArg (fun x : Served => Host.Outcome.next (finishCommand x.1.commit ⟨tag, 0x0F#8, x.2.1, x.2.2⟩)) hb
  | points g pts =>
    have hp := readAll_rAddPoints_any b g (hl g pts rfl)
    show execAddPoints s = _
    unfold execAddPoints
    rw [serveCommand_of_turn (code := 0x10#8) h hp]
    exact congrArg (fun x : Served => Host.Outcome.next (finishCommand x.1.commit ⟨tag, 0x10#8, x.2.1, x.2.2⟩)) hb
  | finish g =>
    have hp := readAll_rEndStroke b g
    show execEndStroke s = _
    unfold execEndStroke
    rw [serveCommand_of_turn (code := 0x11#8) h hp]
    exact congrArg (fun x : Served => Host.Outcome.next (finishCommand x.1.commit ⟨tag, 0x11#8, x.2.1, x.2.2⟩)) hb

/-- R87: a console drawing command that is refused leaves nothing but its reply. -/
theorem exec_consoleRow_refused {i : DrawInput} {tag b : Byte} {r : Result}
    (h : ConsoleTurn s i.code tag (b :: (i.params 0).tail)) (hl : ∀ g pts, i = .points g pts → pts.length < 65536)
    (hb : i.body b (Tx.start (decideGrant s .console)) = (Tx.start (decideGrant s .console)).answer r) :
    exec i.consoleRow s = .next (settle (replied s ⟨tag, i.code, r, []⟩)) := by
  rw [exec_consoleRow h hl hb, Tx.start_commit, finishCommand_eq]
  rfl

/-- R87: a number of points outside 1..24 is answered RANGE, and so is a seat that is no console seat. -/
theorem DrawInput.body_range {i : DrawInput} {b : Byte}
    (h : seatOfConsole b = none ∨ ¬∀ g pts, i = .points g pts → 1 ≤ pts.length ∧ pts.length ≤ 24) :
    i.body b t = t.answer .range := by
  obtain h | h := h
  · cases i with
    | begin | finish => simp only [DrawInput.body, consoleInput, h]
    | points g pts =>
      simp only [DrawInput.body, consoleInput, h]
      exact ite_self _
  · cases i with
    | begin | finish => exact absurd (fun _ _ e => nomatch e) h
    | points g pts =>
      refine if_neg fun hp => h fun _ _ e => ?_
      cases e
      exact hp

/-- R87: a seat that is not ADMITTED is answered STATE. -/
theorem DrawInput.body_state {i : DrawInput} {b : Byte} (hn : seatOfConsole b = some n)
    (hc : ∀ g pts, i = .points g pts → 1 ≤ pts.length ∧ pts.length ≤ 24) (hs : (t.st.seat n).state ≠ .admitted) :
    i.body b t = t.answer .state := by
  cases i with
  | begin | finish => simp only [DrawInput.body, consoleInput, hn, if_neg hs]
  | points g pts => simp only [DrawInput.body, consoleInput, hn, if_neg hs, if_pos (hc g pts rfl)]

/-- R82, R87: a START STROKE with a layer above 3 has a due cut served and is answered RANGE. -/
theorem DrawInput.body_badLayer {b g tool layer colour : Byte} (hn : seatOfConsole b = some n)
    (hs : (t.st.seat n).state = .admitted) (hl : 3 < layer.toNat) :
    (DrawInput.begin g tool layer colour).body b t = (t.serveCut n).answer .range := by
  simp only [DrawInput.body, consoleInput, hn, if_pos hs, startStrokeBody]
  exact if_neg (by omega)

theorem seatOfConsole_none {k : Nat} (hk : k < 256) (h : k < 36 ∨ 39 < k) :
    seatOfConsole (BitVec.ofNat 8 k) = none := by
  have hb : (BitVec.ofNat 8 k).toNat = k := by
    simp only [BitVec.toNat_ofNat]
    omega
  simp only [seatOfConsole, hb]
  exact dif_neg (by omega)

/-! ### The statement's parts -/

/-- R73, R77: board samples. -/
theorem boardInput_disposed {x : Sample} {row : Instr} (hx : BoardTurn s x)
    (hrow : (row, x.frame.phase) ∈ [(Instr.down, Phase.down), (.move, .move), (.up, .up)]) :
    let u := boardTaken s
    (∀ n, seatOfContact x.frame.contact = some n →
      (s.cls.state = .resetting ∨ (s.seat n).state = .muted ∨ (s.seat n).state = .barred →
        exec row s = .next (settle (discarded u n))) ∧
      (s.cls.state ≠ .resetting → (s.seat n).state = .vacant →
        exec row s = .next (settle (caught u .notAdmitted .board (some n) (some 0x10#8)))) ∧
      (s.cls.state ≠ .resetting → (s.seat n).state = .admitted → x.frame.tool = .finger →
        s.cls.options.fingerInk = false →
        exec row s = .next (settle (committed u (cutServed n ⟨u, []⟩))))) ∧
    (seatOfContact x.frame.contact = none →
      (s.cls.state = .resetting → exec row s = .next (settle u)) ∧
      (s.cls.state ≠ .resetting →
        exec row s = .next (settle (caught u .badSeat .board none (some 0x10#8))))) := by
  intro u
  have hcls : u.cls = s.cls := by simp [u, boardTaken]
  have hseat : ∀ m, u.seat m = s.seat m := seat_boardTaken s
  refine ⟨fun n hn => ⟨fun h => ?_, fun h1 h2 => ?_, exec_board_finger hx hrow hn⟩, fun hn => ⟨fun h => ?_, fun h => ?_⟩⟩
  all_goals refine exec_board_disposed hx hrow ?_; rw [hn]
  · refine dispose_discards ?_
    rw [hcls, hseat]
    exact h.imp_right .inr
  · exact dispose_vacant (by rw [hcls]; exact h1) (fun e => by cases e) (by rw [hseat]; exact h2)
  · exact dispose_nobody_resetting (by rw [hcls]; exact h)
  · exact dispose_nobody (by rw [hcls]; exact h)

/-- R45, R49, R73: tablet frames. -/
theorem tabletInput_disposed {f : TabletFrame} {row : Instr} {kind slot : Byte} (hf : TabletTurn s f)
    (hrow : FrameRow f row kind slot) :
    let u := tabletTaken s
    (∀ n, seatOfSlot slot = some n →
      (s.cls.state = .resetting ∨ (s.cls.state = .frozen ∧ row ≠ .hand) ∨
          (s.seat n).state = .barred ∨ ((s.seat n).state = .muted ∧ row ≠ .hand) →
        exec row s = .next (settle (discarded u n))) ∧
      (s.cls.state ≠ .resetting → (s.cls.state = .frozen → row = .hand) →
        (s.seat n).state = .vacant →
        exec row s = .next (settle (caught u .notAdmitted .tablet (some n) (some kind))))) ∧
    (seatOfSlot slot = none →
      (s.cls.state = .resetting → exec row s = .next (settle u)) ∧
      (s.cls.state ≠ .resetting →
        exec row s = .next (settle (caught u .badSeat .tablet none (some kind))))) := by
  intro u
  have hcls : u.cls = s.cls := by simp [u, tabletTaken]
  have hseat : ∀ m, u.seat m = s.seat m := seat_tabletTaken s
  refine ⟨fun n hn => ⟨fun h => ?_, fun h1 h2 h3 => ?_⟩, fun hn => ⟨fun h => ?_, fun h => ?_⟩⟩
  · refine exec_frame_disposed hf hrow (fun e m hm => ?_) (hn ▸ dispose_discards ?_)
    · rw [hn] at hm
      cases hm
      obtain h | ⟨-, h⟩ | h | ⟨-, h⟩ := h
      · exact .inl h
      · exact absurd e h
      · exact .inr (by simp [h])
      · exact absurd e h
    · rw [hcls, hseat]
      obtain h | ⟨h, hr⟩ | h | ⟨h, -⟩ := h
      · exact .inl h
      · exact .inr (.inl ⟨decide_eq_true hr, h⟩)
      · exact .inr (.inr (.inr h))
      · exact .inr (.inr (.inl h))
  · refine exec_frame_disposed hf hrow (fun _ m hm => ?_) ?_
    · rw [hn] at hm
      cases hm
      exact .inr (by simp [h3])
    · rw [hn]
      refine dispose_vacant (by rw [hcls]; exact h1) (fun e => ?_) (by rw [hseat]; exact h3)
      rw [hcls]
      exact fun hz => of_decide_eq_true e (h2 hz)
  · exact exec_frame_disposed hf hrow (fun _ m hm => by rw [hn] at hm; cases hm)
      (hn ▸ dispose_nobody_resetting (by rw [hcls]; exact h))
  · refine exec_frame_disposed hf hrow (fun _ m hm => by rw [hn] at hm; cases hm) ?_
    rw [hn]
    exact dispose_nobody (by rw [hcls]; exact h)

/-- Settles O17: what disposes of an input, for each way it comes in. -/
theorem inputIsDisposedOf : Obligations.InputIsDisposedOf := by
  refine ⟨fun s x row hx hrow => boardInput_disposed hx hrow, fun s f row kind slot hf hrow => ?_, ?_⟩
  · refine tabletInput_disposed hf ?_
    cases f <;> exact hrow
  intro s k i tag hk h reply count hl
  refine ⟨fun hc => ?_, fun m hm h36 hcount => ?_⟩
  · refine exec_consoleRow_refused h hl (DrawInput.body_range ?_)
    obtain hc | hc | hc := hc
    · exact .inl (seatOfConsole_none hk (.inl hc))
    · exact .inl (seatOfConsole_none hk (.inr hc))
    · exact .inr hc
  · subst hm
    have hn := seatOfConsole_eq h36
    have hseat := seat_decideGrant s .console m
    refine ⟨fun hs => exec_consoleRow_refused h hl (DrawInput.body_state hn hcount (by rwa [← hseat] at hs)), ?_⟩
    rintro g tool layer colour hs rfl hlay
    have hk' : Tx.Keeps none (Tx.start (decideGrant s .console)) ((Tx.start (decideGrant s .console)).serveCut m) :=
      Tx.keeps_serveCut m
    rw [exec_consoleRow h hl (DrawInput.body_badLayer hn (by rwa [← hseat] at hs) hlay),
      finishCommand_commit ((Tx.stamped_start _).keeps hk'), hk'.base,
      Tx.work_serveCut m (Tx.stamped_start _) (by simp [Tx.start])]
    rfl

end Sys2Proof.Machine
end

