-- ==== Sys2Proof/Proofs/SeatCommands.lean ====
section
/-! The console commands that change the state of a seat (R33 to R37). -/

namespace Sys2Proof.Machine

variable {s u v : State} {t t₁ : Tx} {n : SeatNo}

/-! ### Commands that write no entry -/

/-- A served command whose transaction writes no entry and leaves what the demands are tested on. -/
theorem serveCommand_silent {α : Type} {code tag : Byte} {ps data : Bytes} {format : Reader α} {body : α → Tx → Served}
    {a : α} {r : Result} {f : State → State} (h : ConsoleTurn s code tag ps) (hp : readAll format ps = some a)
    (hb : body a (Tx.start (decideGrant s .console)) = ((Tx.start (decideGrant s .console)).on f, r, data))
    (h1 : (f (decideGrant s .console)).store = s.store)
    (h2 : (f (decideGrant s .console)).cls.options.reserve = s.cls.options.reserve) :
    serveCommand code format body s = settle (answered ⟨tag, code, r, data⟩ (f (decideGrant s .console))) := by
  have hc : ((Tx.start (decideGrant s .console)).on f).commit = f (decideGrant s .console) := by
    rw [Tx.commit_quiet rfl]
    refine demandsAfter_same ?_ ?_ ?_ <;> simp [Tx.start, h1, h2]
  rw [serveCommand_of_turn h hp, hb, hc, finishCommand_eq]

/-- A notice given before or after the reply. -/
theorem answered_addNotice (r : Reply) (u : State) (n : SeatNo) (k : Notice) :
    answered r (addNotice u n k) = addNotice (answered r u) n k := by
  unfold addNotice
  split <;> rfl

/-! ### ADMIT SEAT, UNMUTE, UNBAR: a state and a notice -/

/-- A command on one seat that sets its state and gives a notice (R33, R37). -/
theorem serveSeat_moved {code tag b : Byte} {body : SeatNo → Tx → Served} {st : SeatState} {k : Notice}
    (h : ConsoleTurn s code tag [b]) (hn : seatOfByte b = some n)
    (hb : ∀ t : Tx, (t.st.seat n).state = (s.seat n).state →
      body n t = (t.on fun s => addNotice (setSeatState s n st) n k).answer .ok) :
    serveCommand code rSeat (fun b => onSeat b body) s =
      settle (addNotice ((replied s ⟨tag, code, .ok, []⟩).modSeat n fun v => { v with state := st }) n k) := by
  have hseat := seat_decideGrant s .console n
  rw [serveCommand_silent (f := fun s => addNotice (setSeatState s n st) n k) (r := .ok) (data := []) h
    (show readAll rSeat [b] = some b from readAll_r8 b) ?_ (by simp [setSeatState]) (by simp [setSeatState]), answered_addNotice]
  · rfl
  · simp only [onSeat, hn]
    exact hb _ (congrArg Seat.state hseat)

/-- A command on one seat that is refused, or that has nothing to do. -/
theorem serveSeat_quiet {code tag b : Byte} {body : SeatNo → Tx → Served} {r : Result} {data : Bytes}
    (h : ConsoleTurn s code tag [b]) (hn : seatOfByte b = some n)
    (hb : ∀ t : Tx, (t.st.seat n).state = (s.seat n).state → body n t = t.answer r data) :
    serveCommand code rSeat (fun b => onSeat b body) s = settle (replied s ⟨tag, code, r, data⟩) := by
  refine serveCommand_quiet h (readAll_r8 b) ?_
  simp only [onSeat, hn]
  exact hb _ (congrArg Seat.state (seat_decideGrant s .console n))

/-- A command on one seat, for a number that is no seat. -/
theorem serveSeat_range {code tag b : Byte} {body : SeatNo → Tx → Served} (h : ConsoleTurn s code tag [b])
    (hb : 39 < b.toNat) :
    serveCommand code rSeat (fun b => onSeat b body) s = settle (replied s ⟨tag, code, .range, []⟩) := by
  refine serveCommand_quiet h (readAll_r8 b) ?_
  simp only [onSeat, seatOfByte_none hb]
  rfl

/-! ### What a notice leaves -/

theorem addNotice_tablet (h : portOf n = .tablet) (s : State) (k : Notice) :
    addNotice s n k = { s.modSeat n (fun v => { v with notices := noticeSet v.notices k }) with
      noticeQueue := if (s.seat n).notices = 0 then s.noticeQueue ++ [n] else s.noticeQueue
      noticeBasis := s.noticeBasis.map fun b => { b with added := b.added ++ [(n, k)] } } := if_pos h

theorem seat_replied (s : State) (r : Reply) (m : SeatNo) : (replied s r).seat m = s.seat m :=
  seat_decideGrant s .console m

theorem noticeQueue_replied (s : State) (r : Reply) : (replied s r).noticeQueue = s.noticeQueue := by
  simp [replied, answered]

/-- R33: the admitted seat, whatever its port. -/
theorem admitted_addNotice (x : State) (n : SeatNo) :
    addNotice (x.modSeat n fun v => { v with state := .admitted }) n .admitted =
      { x.modSeat n (fun v => { v with
          state := .admitted
          notices := if portOf n = .tablet then (v.notices &&& ~~~(0x1F#11)) ||| 1#11 else v.notices }) with
        noticeQueue :=
          if portOf n = .tablet ∧ (x.seat n).notices = 0 then x.noticeQueue ++ [n] else x.noticeQueue
        noticeBasis :=
          (addNotice (x.modSeat n fun v => { v with state := .admitted }) n .admitted).noticeBasis } := by
  by_cases hp : portOf n = .tablet
  · simp only [addNotice_tablet hp, seat_modSeat, modSeat_modSeat, hp, true_and]
    rfl
  · simp only [addNotice_other _ n _ hp, hp, false_and, if_false]
    rfl

/-- Settles O28: the seat VACANT, ADMITTED, and MUTED or BARRED, and no seat. -/
theorem admitSeatAdmitsAVacantSeat : Obligations.AdmitSeatAdmitsAVacantSeat := by
  intro s tag b h reply
  refine ⟨fun n hn => ⟨fun hv => ⟨_, rfl, ?_⟩, fun hv => ?_, fun hv => ?_⟩,
    fun hb => congrArg Host.Outcome.next (serveSeat_range h hb)⟩
  · have hm := serveSeat_moved (body := admitBody) (st := .admitted) (k := .admitted) h hn fun t ht => by
      simp only [admitBody, ht, hv]
    have ha := admitted_addNotice (reply .ok) n
    rw [seat_replied, noticeQueue_replied] at ha
    rw [hm]
    generalize addNotice ((reply .ok).modSeat n fun v => { v with state := .admitted }) n .admitted = t at ha ⊢
    exact congrArg settle ha
  · exact congrArg Host.Outcome.next (serveSeat_quiet h hn fun t ht => by simp only [admitBody, ht, hv])
  · refine congrArg Host.Outcome.next (serveSeat_quiet h hn fun t ht => ?_)
    rcases hv with hv | hv <;> simp only [admitBody, ht, hv]

/-! ### VACATE SEAT and MUTE: the cut first -/

/-- A command on one seat that cuts its open item and then acts on the state (R34, R35, R96). -/
theorem serveSeat_cut {code tag b : Byte} {body : SeatNo → Tx → Served} {f : State → State}
    (h : ConsoleTurn s code tag [b]) (hn : seatOfByte b = some n)
    (hb : ∀ t : Tx, (t.st.seat n).state = (s.seat n).state →
      body n t = ((t.cutSeat n).on f).answer .ok (w48 ((t.cutSeat n).on f).revTaken))
    (h1 : ∀ u, (f u).store = u.store) (h2 : ∀ u, (f u).timebase = u.timebase) :
    let w := ended n .cut ⟨decideGrant s .console, []⟩
    serveCommand code rSeat (fun b => onSeat b body) s =
      settle (answered ⟨tag, code, .ok, w48 w.rev⟩ (committed (decideGrant s .console) ⟨f w.st, w.entries⟩)) := by
  intro w
  have hk : Tx.Keeps none (Tx.start (decideGrant s .console)) ((Tx.start (decideGrant s .console)).cutSeat n) :=
    Tx.keeps_cutSeat n
  have hS := (Tx.stamped_start _).keeps hk
  have hT : ((Tx.start (decideGrant s .console)).cutSeat n).work = w :=
    Tx.work_endItem n (by decide) (Tx.stamped_start _) (by simp [Tx.start])
  have hwork : (((Tx.start (decideGrant s .console)).cutSeat n).on f).work = ⟨f w.st, w.entries⟩ := by
    rw [Tx.work_on (h1 _), ← hT]
    rfl
  have hrev : (((Tx.start (decideGrant s .console)).cutSeat n).on f).revTaken = w.rev := by
    rw [← hT, ← hS.revTaken]
    rfl
  rw [serveCommand_commit (t := ((Tx.start (decideGrant s .console)).cutSeat n).on f) (r := .ok) (data := w48 w.rev) h
    (show readAll rSeat [b] = some b from readAll_r8 b) ?_ (hS.on (by rw [h1]) (h2 _)) hk.base, hwork]
  simp only [onSeat, hn]
  rw [hb _ (congrArg Seat.state (seat_decideGrant s .console n)), hrev]
  rfl

/-- R34: the rest of a VACATE SEAT after the cut. -/
def vacatedSeat (n : SeatNo) (u : State) : State :=
  addNotice { u.modSeat n (fun v => { v with
      state := .vacant, undo := [], lastClosed := none, cutDue := false, handUp := false }) with
    hands := u.hands.filter fun m => decide (m ≠ n) } n .vacated

theorem vacatedSeat_eq (n : SeatNo) (u : State) :
    addNotice (setSeatState (lowerHand (u.modSeat n fun v =>
      { v with undo := [], lastClosed := none, cutDue := false }) n) n .vacant) n .vacated = vacatedSeat n u := by
  have h : u.modSeat n (fun v => { v with
      state := .vacant, undo := [], lastClosed := none, cutDue := false, handUp := false }) =
      ((u.modSeat n fun v => { v with undo := [], lastClosed := none, cutDue := false }).modSeat n
        fun v => { v with handUp := false }).modSeat n fun v => { v with state := .vacant } := by
    rw [modSeat_modSeat, modSeat_modSeat]
  rw [vacatedSeat, h]
  rfl

theorem vacateBody_seated (h : (t.st.seat n).state ≠ .vacant) :
    vacateBody n t = ((t.cutSeat n).on (vacatedSeat n)).answer .ok (w48 ((t.cutSeat n).on (vacatedSeat n)).revTaken) := by
  have ht : ((((t.cutSeat n).on (·.modSeat n fun u => { u with undo := [], lastClosed := none, cutDue := false })).on
      (lowerHand · n)).on (setSeatState · n .vacant)).on (addNotice · n .vacated) =
      (t.cutSeat n).on (vacatedSeat n) := by
    simp only [Tx.on, vacatedSeat_eq]
  unfold vacateBody
  rw [if_neg h]
  dsimp only
  rw [ht]

/-- R34: the hands of a VACATE SEAT are those before the cut. -/
theorem hands_ended_cut (s : State) (n : SeatNo) : (ended n .cut ⟨decideGrant s .console, []⟩).st.hands = s.hands := by
  have hk : Tx.Keeps none (Tx.start (decideGrant s .console)) ((Tx.start (decideGrant s .console)).cutSeat n) :=
    Tx.keeps_cutSeat n
  have hT : ((Tx.start (decideGrant s .console)).cutSeat n).work = ended n .cut ⟨decideGrant s .console, []⟩ :=
    Tx.work_endItem n (by decide) (Tx.stamped_start _) (by simp [Tx.start])
  rw [← hT, Tx.work, hk.st.frame]
  simp [Tx.start]

/-- R47: what a notice leaves. -/
theorem addNotice_spelled (hp : portOf n = .tablet) (s : State) (k : Notice) : ∃ set : BitVec 11,
    (∀ j : Notice, set.getLsbD j.ix =
      (decide (j = k) || (decide (j.groupMask ≠ k.groupMask) && (s.seat n).notices.getLsbD j.ix))) ∧
    addNotice s n k = { s.modSeat n (fun v => { v with notices := set }) with
      noticeQueue := if (s.seat n).notices = 0 then s.noticeQueue ++ [n] else s.noticeQueue
      noticeBasis := s.noticeBasis.map fun b => { b with added := b.added ++ [(n, k)] } } := by
  have hs : s.modSeat n (fun v => { v with notices := noticeSet v.notices k }) =
      s.modSeat n fun v => { v with notices := noticeSet (s.seat n).notices k } := modSeat_congr rfl
  refine ⟨noticeSet (s.seat n).notices k, fun j => ?_, by rw [addNotice_tablet hp, hs]⟩
  rw [getLsbD_noticeSet, Bool.and_comm]

/-- Settles O30: each command in and out of its state, and what a notice leaves. -/
theorem seatsAreVacatedMutedAndReadmitted : Obligations.SeatsAreVacatedMutedAndReadmitted := by
  refine ⟨fun s tag row code b hrow h => ?_, fun s n k =>
    ⟨addNotice_other s n k, fun hp => addNotice_spelled hp s k⟩⟩
  simp only [List.mem_cons, Prod.mk.injEq, List.not_mem_nil, or_false] at hrow
  intro d reply
  obtain ⟨rfl, rfl⟩ | ⟨rfl, rfl⟩ | ⟨rfl, rfl⟩ | ⟨rfl, rfl⟩ := hrow
  all_goals refine ⟨fun hb => congrArg Host.Outcome.next (serveSeat_range h hb), fun n hn => ?_⟩
  all_goals intro x w cut moved
  all_goals have hh : w.st.hands = s.hands := hands_ended_cut s n
  case inl => 
    refine ⟨fun _ hv => congrArg Host.Outcome.next (serveSeat_quiet h hn fun t ht => if_pos (ht.trans hv)), fun _ hv => ?_,
      nofun, nofun, nofun, nofun, nofun, nofun⟩
    have hc := serveSeat_cut (body := vacateBody) (f := vacatedSeat n) h hn
      (fun t ht => vacateBody_seated (by rw [ht]; exact hv)) (by simp [vacatedSeat]) (by simp [vacatedSeat])
    simp only [cut, ← hh]
    exact congrArg Host.Outcome.next hc
  case inr.inl =>
    refine ⟨nofun, nofun, fun _ hv => congrArg Host.Outcome.next (serveSeat_quiet h hn fun t ht => if_neg (ht ▸ hv)),
      fun _ hv => congrArg Host.Outcome.next (serveSeat_cut
        (f := fun s => addNotice (setSeatState s n .muted) n .muted) h hn (fun t ht => if_pos (ht.trans hv))
        (by simp [setSeatState]) (by simp [setSeatState])), nofun, nofun, nofun, nofun⟩
  case inr.inr.inl =>
    exact ⟨nofun, nofun, nofun, nofun,
      fun _ hv => congrArg Host.Outcome.next (serveSeat_quiet h hn fun t ht => if_neg (ht ▸ hv)),
      fun _ hv => congrArg Host.Outcome.next (serveSeat_moved h hn fun t ht => if_pos (ht.trans hv)), nofun, nofun⟩
  case inr.inr.inr =>
    exact ⟨nofun, nofun, nofun, nofun, nofun, nofun,
      fun _ hv => congrArg Host.Outcome.next (serveSeat_quiet h hn fun t ht => if_neg (ht ▸ hv)),
      fun _ hv => congrArg Host.Outcome.next (serveSeat_moved h hn fun t ht => if_pos (ht.trans hv))⟩

end Sys2Proof.Machine
end

