-- ==== Sys2Proof/Proofs/SeatTable.lean ====
section
/-! The table of the seat commands (R37): which state each leaves a seat in, and what it spares. -/

namespace Sys2Proof.Machine

variable {s u w : State} {t t₁ : Tx} {n : SeatNo}

/-! ### Notices are for tablet seats -/

/-- The notices of the seats of the other ports, and the Console Link buffer, stay. -/
structure Spared (s u : State) : Prop where
  notices : ∀ m, portOf m ≠ .tablet → (u.seat m).notices = (s.seat m).notices
  out : u.consoleOut = s.consoleOut

theorem Spared.refl (s : State) : Spared s s := ⟨fun _ _ => rfl, rfl⟩

theorem Spared.trans (h : Spared s u) (k : Spared u w) : Spared s w :=
  ⟨fun m hm => (k.notices m hm).trans (h.notices m hm), k.out.trans h.out⟩

/-- An operation behind it that leaves seats and buffer. -/
theorem Spared.behind (h : Spared s u) (hs : w.seats = u.seats) (ho : w.consoleOut = u.consoleOut) : Spared s w :=
  h.trans ⟨fun m _ => congrArg Seat.notices (seat_congr hs m), ho⟩

theorem Spared.modSeat (h : Spared s u) {f : Seat → Seat}
    (hf : ∀ v, (f v).notices = v.notices := by exact fun _ => rfl) : Spared s (u.modSeat n f) := by
  refine h.trans ⟨fun m _ => ?_, rfl⟩
  by_cases e : m = n
  · rw [e, seat_modSeat, hf]
  · rw [seat_modSeat_ne u f e]

theorem Spared.addNotice (h : Spared s u) (n : SeatNo) (k : Notice) : Spared s (addNotice u n k) := by
  by_cases hp : portOf n = .tablet
  · refine h.trans ⟨fun m hm => ?_, by simp⟩
    rw [(addNotice_spec u n k hp).2.1 m fun e => hm (e ▸ hp)]
  · rw [addNotice_other u n k hp]
    exact h

theorem Spared.quotaFell (h : Spared s u) (n : SeatNo) : Spared s (quotaFell u n) := by
  unfold Machine.quotaFell
  split
  · exact .addNotice (.modSeat h) n _
  · exact h

theorem Spared.joinGroup (h : Spared s u) (g : Rev) (x : Handle) (r : Rev) (o : Origin) (b : Bool) :
    Spared s (joinGroup u g x r o b) := by
  unfold Machine.joinGroup
  split <;> exact h.behind rfl rfl

theorem Tx.spared_erase (t : Tx) (h : Handle) (g : Rev) (o : Origin) (b : Bool) : Spared t.st (t.erase h g o b).st := by
  have hj : Spared t.st (modStroke (joinGroup t.st g h t.rev o b) h.idx fun r => { r with
      state := .erased, group := some g, eraseRev := some t.rev, lastRev := t.rev }) :=
    ((Spared.refl t.st).joinGroup g h t.rev o b).behind rfl rfl
  unfold Tx.erase
  dsimp only
  split
  · exact .quotaFell (.modSeat hj) _
  · exact .refl _

theorem Tx.spared_eraseAll (keep : Stroke → Bool) (hs : List Handle) (t : Tx) (j k : Nat) :
    Spared t.st (Tx.eraseAll keep hs (t, j, k)).1.st := by
  induction hs generalizing t j k with
  | nil => exact .refl _
  | cons h hs ih =>
    have hskip : Spared t.st t.skip.st := (Spared.refl t.st).behind rfl rfl
    unfold Tx.eraseAll
    dsimp only
    split
    · exact (Tx.spared_erase ..).trans (ih _ _ _)
    · split
      · exact hskip.trans (ih _ _ _)
      · exact ih _ _ _

theorem Tx.spared_closeInk (t : Tx) (n : SeatNo) (h : Handle) (tag : Byte) (c : CloseCause) :
    Spared t.st (t.closeInk n h tag c).st := by
  have hm : Spared t.st (modStroke t.st h.idx fun r => { r with
      state := .closed, closeTime := some t.time, flags := r.flags.closedBy c, lastRev := t.rev }) :=
    (Spared.refl t.st).behind rfl rfl
  unfold Tx.closeInk
  split
  · dsimp only
    split
    · exact .modSeat hm
    · exact .modSeat (.modSeat hm)
  · exact .refl _

theorem Tx.spared_closeEraser (t : Tx) (n : SeatNo) (g : Option Rev) : Spared t.st (t.closeEraser n g).st := by
  unfold Tx.closeEraser
  split
  · exact .refl _
  · next g =>
    have hm : Spared t.st (modGroup t.st g fun x => { x with isOpen := false }) := (Spared.refl t.st).behind rfl rfl
    exact .modSeat hm

theorem Tx.spared_cutSeat (t : Tx) (n : SeatNo) : Spared t.st (t.cutSeat n).st := by
  unfold Tx.cutSeat Tx.endItem
  split
  · exact .refl _
  · dsimp only
    split
    · exact .modSeat (Tx.spared_closeInk ..)
    · exact .modSeat (Tx.spared_closeEraser ..)
    · exact .modSeat (.refl _)
    · exact .modSeat (.refl _)

/-! ### A seat takes a state -/

/-- The seat is in the state, the other seats in theirs, and what a seat command spares is spared. -/
structure Reseated (n : SeatNo) (st : SeatState) (s u : State) : Prop extends Spared s u where
  state : (u.seat n).state = st
  others : ∀ m, m ≠ n → (u.seat m).state = (s.seat m).state

/-- R33 to R37: what comes before the seat's new state keeps the states. -/
theorem Reseated.of_set (st : SeatState) (k : Notice) (h : Spared s u) (hs : ∀ m, (u.seat m).state = (s.seat m).state) :
    Reseated n st s (addNotice (setSeatState u n st) n k) := by
  have ha : ∀ m, ((addNotice (setSeatState u n st) n k).seat m).state = ((setSeatState u n st).seat m).state := fun m => by
    obtain ⟨b, hb⟩ := seat_addNotice (setSeatState u n st) n m k
    rw [hb]
  refine ⟨.addNotice (.modSeat h) n k, ?_, fun m hm => ?_⟩
  · rw [ha, setSeatState, seat_modSeat]
  · rw [ha, setSeatState, seat_modSeat_ne _ _ hm, hs]

/-- The same of a transaction. -/
structure Tx.Reseats (n : SeatNo) (st : SeatState) (t t₁ : Tx) : Prop where
  base : t₁.base = t.base
  stamped : t.Stamped → t₁.Stamped
  seats : Reseated n st t.st t₁.st

theorem Tx.Reseats.self {st : SeatState} (h : (t.st.seat n).state = st) : Tx.Reseats n st t t :=
  ⟨rfl, id, .refl _, h, fun _ _ => rfl⟩

/-- The state is set last, behind an operation that keeps the states. -/
theorem Tx.Reseats.of_set {a : Option SeatNo} {f : State → State} (st : SeatState) (k : Notice) (hk : Tx.Keeps a t t₁)
    (hp : Spared t.st t₁.st) (hf : Spared t₁.st (f t₁.st)) (hs : ∀ m, ((f t₁.st).seat m).state = (t₁.st.seat m).state)
    (h1 : (f t₁.st).store = t₁.st.store) (h2 : (f t₁.st).timebase = t₁.st.timebase) :
    Tx.Reseats n st t (t₁.on fun s => addNotice (setSeatState (f s) n st) n k) where
  base := hk.base
  stamped hst := (hst.keeps hk).on (by simp [setSeatState, h1]) (by simp [setSeatState, h2])
  seats := .of_set st k (hp.trans hf) fun m => (hs m).trans (hk.st.settings m).state

theorem Tx.Reseats.set (st : SeatState) (k : Notice) :
    Tx.Reseats n st t (t.on fun s => addNotice (setSeatState s n st) n k) :=
  .of_set (f := id) st k (.refl none t) (.refl _) (.refl _) (fun _ => rfl) rfl rfl

/-! ### The table -/

/-- The state each command moves a seat to, from each state it does so from (R37). -/
def seatTable : List (Instr × SeatState × SeatState) :=
  [(.admitSeat, .vacant, .admitted), (.admitSeat, .admitted, .admitted),
    (.vacateSeat, .vacant, .vacant), (.vacateSeat, .admitted, .vacant),
    (.vacateSeat, .muted, .vacant), (.vacateSeat, .barred, .vacant),
    (.mute, .admitted, .muted), (.unmute, .muted, .admitted),
    (.bar, .admitted, .barred), (.bar, .muted, .barred), (.unbar, .barred, .admitted)]

/-- A body does for a seat what the row of the table says. -/
structure FollowsTable (row : Instr) (body : SeatNo → Tx → Served) : Prop where
  refuses : ∀ n t, (∀ new, (row, (t.st.seat n).state, new) ∉ seatTable) → body n t = t.answer .state
  moves : ∀ n t new, (row, (t.st.seat n).state, new) ∈ seatTable →
    ∃ t₁ data, body n t = (t₁, .ok, data) ∧ Tx.Reseats n new t t₁ ∧ (new = (t.st.seat n).state → t₁ = t)

theorem followsTable_admit : FollowsTable .admitSeat admitBody where
  refuses n t h := by
    unfold admitBody
    cases hs : (t.st.seat n).state <;> simp [hs, seatTable] at h ⊢
  moves n t new h := by
    unfold admitBody
    cases hs : (t.st.seat n).state <;> simp [hs, seatTable] at h
    · subst h
      exact ⟨_, _, rfl, .set _ _, nofun⟩
    · subst h
      exact ⟨t, _, rfl, .self hs, fun _ => rfl⟩

theorem followsTable_mute : FollowsTable .mute muteBody where
  refuses n t h := if_neg fun hs => by simp [hs, seatTable] at h
  moves n t new h := by
    cases hs : (t.st.seat n).state <;> simp [hs, seatTable] at h
    subst h
    exact ⟨_, _, if_pos hs, .of_set (f := id) _ _ (Tx.keeps_cutSeat (a := none) n) (Tx.spared_cutSeat t n) (.refl _)
      (fun _ => rfl) rfl rfl, nofun⟩

theorem followsTable_unmute : FollowsTable .unmute unmuteBody where
  refuses n t h := if_neg fun hs => by simp [hs, seatTable] at h
  moves n t new h := by
    cases hs : (t.st.seat n).state <;> simp [hs, seatTable] at h
    subst h
    exact ⟨_, _, if_pos hs, .set _ _, nofun⟩

theorem followsTable_unbar : FollowsTable .unbar unbarBody where
  refuses n t h := if_neg fun hs => by simp [hs, seatTable] at h
  moves n t new h := by
    cases hs : (t.st.seat n).state <;> simp [hs, seatTable] at h
    subst h
    exact ⟨_, _, if_pos hs, .set _ _, nofun⟩

/-- R44: a lowered hand leaves states and notices. -/
theorem Spared.lowerHand (h : Spared s u) (n : SeatNo) : Spared s (lowerHand u n) :=
  Spared.behind (u := u.modSeat n fun v => { v with handUp := false }) (.modSeat h) rfl rfl

theorem state_lowerHand (s : State) (n m : SeatNo) : ((lowerHand s n).seat m).state = (s.seat m).state := by
  obtain ⟨h1, h2, -⟩ := lowerHand_spec s n
  by_cases e : m = n
  · rw [e, h1]
  · rw [h2 m e]

theorem followsTable_bar : FollowsTable .bar barBody where
  refuses n t h := by
    unfold barBody
    cases hs : (t.st.seat n).state <;> simp [hs, seatTable] at h ⊢
  moves n t new h := by
    have hk : Tx.Keeps none t ((t.eraseSeat n (List.finRange 16)).1.cutSeat n) :=
      (Tx.keeps_eraseSeat n _).trans (Tx.keeps_cutSeat n)
    have hp : Spared t.st ((t.eraseSeat n (List.finRange 16)).1.cutSeat n).st :=
      (Tx.spared_eraseAll _ _ t 0 0).trans (Tx.spared_cutSeat _ n)
    have hr := Tx.Reseats.of_set (n := n) (f := fun s => lowerHand s n) .barred .barred hk hp ((Spared.refl _).lowerHand n)
      (state_lowerHand _ n) (by simp) (by simp)
    have hv : (t.st.seat n).state = .admitted ∨ (t.st.seat n).state = .muted := by
      cases hs : (t.st.seat n).state <;> simp [hs, seatTable] at h ⊢
    have hnew : new = .barred := by
      rcases hv with hs | hs <;> simpa [hs, seatTable] using h
    subst hnew
    refine ⟨_, _, barBody_seated hv, ?_, fun e => by rcases hv with hs | hs <;> rw [hs] at e <;> cases e⟩
    simpa only [barredSeat_eq] using hr

theorem followsTable_vacate : FollowsTable .vacateSeat vacateBody where
  refuses n t h := by
    have := h .vacant
    cases hs : (t.st.seat n).state <;> simp [hs, seatTable] at this
  moves n t new h := by
    have hnew : new = .vacant := by
      cases hs : (t.st.seat n).state <;> simpa [hs, seatTable] using h
    subst hnew
    by_cases hv : (t.st.seat n).state = .vacant
    · exact ⟨t, _, if_pos hv, .self hv, fun _ => rfl⟩
    · have hr := Tx.Reseats.of_set (n := n) (t := t) (f := fun s => lowerHand (s.modSeat n fun v =>
          { v with undo := [], lastClosed := none, cutDue := false }) n) .vacant .vacated (Tx.keeps_cutSeat (a := none) n)
        (Tx.spared_cutSeat t n) (.lowerHand (.modSeat (.refl _)) n)
        (fun m => (state_lowerHand _ n m).trans (by
          by_cases e : m = n
          · rw [e, seat_modSeat]
          · rw [seat_modSeat_ne _ _ e])) (by simp) (by simp)
      refine ⟨_, _, vacateBody_seated hv, ?_, fun e => absurd e.symm hv⟩
      simpa only [vacatedSeat_eq] using hr

/-! ### The statement's parts -/

theorem committed_seats (b : State) (w : Work) : (committed b w).seats = w.st.seats := by
  unfold committed published
  dsimp only
  split <;> rfl

theorem committed_consoleOut (b : State) (w : Work) : (committed b w).consoleOut = w.st.consoleOut := by
  unfold committed published
  dsimp only
  split <;> rfl

/-- What the table says of one command on one seat. -/
theorem followsTable_served {row : Instr} {body : SeatNo → Tx → Served} {code tag b : Byte}
    (hf : FollowsTable row body) (h : ConsoleTurn s code tag [b]) (hn : seatOfByte b = some n) :
    let was := (s.seat n).state
    let t := serveCommand code rSeat (fun b => onSeat b body) s
    ∃ data, (∀ m, m ≠ n → (t.seat m).state = (s.seat m).state) ∧
      (∀ m, portOf m ≠ .tablet → (t.seat m).notices = (s.seat m).notices) ∧
      ((∀ new, (row, was, new) ∉ seatTable) → t = settle (replied s ⟨tag, code, .state, []⟩)) ∧
      (∀ new, (row, was, new) ∈ seatTable → (t.seat n).state = new ∧
        t.consoleOut = s.consoleOut ++ [.reply ⟨tag, code, .ok, data⟩] ∧
        (new = was → t = settle (replied s ⟨tag, code, .ok, data⟩))) := by
  intro was t
  have hseat : ∀ m, (decideGrant s .console).seat m = s.seat m := seat_decideGrant s .console
  have hwas : ((Tx.start (decideGrant s .console)).st.seat n).state = was := congrArg Seat.state (hseat n)
  by_cases hex : ∃ new, (row, was, new) ∈ seatTable
  · obtain ⟨new, hnew⟩ := hex
    obtain ⟨t₁, data, hb, hr, hsame⟩ := hf.moves n (Tx.start (decideGrant s .console)) new (by rw [hwas]; exact hnew)
    have ht : t = settle (answered ⟨tag, code, .ok, data⟩ (committed (decideGrant s .console) t₁.work)) :=
      serveCommand_commit h (readAll_r8 b) (by simp only [onSeat, hn]; exact hb) (hr.stamped (Tx.stamped_start _)) hr.base
    have hts : ∀ m, t.seat m = t₁.st.seat m := fun m => by
      rw [ht]
      exact seat_congr (committed_seats (decideGrant s .console) t₁.work) m
    have hto : t.consoleOut = s.consoleOut ++ [.reply ⟨tag, code, .ok, data⟩] := by
      rw [ht]
      show (committed _ t₁.work).consoleOut ++ _ = _
      rw [committed_consoleOut, Tx.work, hr.seats.out]
      simp [Tx.start]
    refine ⟨data, fun m hm => ?_, fun m hm => ?_, fun hno => absurd hnew (hno new), fun new' hnew' => ?_⟩
    · rw [hts, hr.seats.others m hm]
      exact congrArg Seat.state (hseat m)
    · rw [hts, hr.seats.notices m hm]
      exact congrArg Seat.notices (hseat m)
    · obtain ⟨t₂, data', hb', hr', hsame'⟩ := hf.moves n (Tx.start (decideGrant s .console)) new' (by rw [hwas]; exact hnew')
      have he : t₂ = t₁ := congrArg Prod.fst (hb'.symm.trans hb)
      subst he
      refine ⟨by rw [hts, hr'.seats.state], hto, fun e => ?_⟩
      have hb0 := hsame' (by rw [hwas]; exact e) ▸ hb
      exact serveCommand_quiet h (readAll_r8 b) (by simp only [onSeat, hn]; exact hb0)
  · have ht : t = settle (replied s ⟨tag, code, .state, []⟩) :=
      serveCommand_quiet h (readAll_r8 b) (by
        simp only [onSeat, hn]
        exact hf.refuses n _ (by rw [hwas]; exact fun new hnew => hex ⟨new, hnew⟩))
    have hts : ∀ m, t.seat m = s.seat m := fun m => by
      rw [ht]
      exact seat_replied s ⟨tag, code, .state, []⟩ m
    exact ⟨[], fun m _ => by rw [hts], fun m _ => by rw [hts], fun _ => ht, fun new hnew => absurd ⟨new, hnew⟩ hex⟩

/-- R37: a seat command row, with its body. -/
theorem exec_seatRow {row : Instr} {code : Byte} (h : (row, code) ∈ [(Instr.admitSeat, 0x01#8), (.vacateSeat, 0x02#8),
    (.mute, 0x04#8), (.unmute, 0x05#8), (.bar, 0x06#8), (.unbar, 0x07#8)]) :
    ∃ body, FollowsTable row body ∧
      ∀ s, exec row s = .next (serveCommand code rSeat (fun b => onSeat b body) s) := by
  simp only [List.mem_cons, Prod.mk.injEq, List.not_mem_nil, or_false] at h
  obtain ⟨rfl, rfl⟩ | ⟨rfl, rfl⟩ | ⟨rfl, rfl⟩ | ⟨rfl, rfl⟩ | ⟨rfl, rfl⟩ | ⟨rfl, rfl⟩ := h
  · exact ⟨admitBody, followsTable_admit, fun _ => rfl⟩
  · exact ⟨vacateBody, followsTable_vacate, fun _ => rfl⟩
  · exact ⟨muteBody, followsTable_mute, fun _ => rfl⟩
  · exact ⟨unmuteBody, followsTable_unmute, fun _ => rfl⟩
  · exact ⟨barBody, followsTable_bar, fun _ => rfl⟩
  · exact ⟨unbarBody, followsTable_unbar, fun _ => rfl⟩

/-- R37: UNBAR leaves the store, and gives a tablet seat the notice ADMITTED. -/
theorem unbar_admits {tag b : Byte} (h : ConsoleTurn s 0x07#8 tag [b]) (hn : seatOfByte b = some n)
    (hv : (s.seat n).state = .barred) :
    ∃ t, exec .unbar s = .next t ∧ t.store = s.store ∧
      (portOf n = .tablet → (t.seat n).notices.getLsbD 0 = true) := by
  refine ⟨_, congrArg Host.Outcome.next (serveSeat_moved (body := unbarBody) (st := .admitted) (k := .admitted) h hn
    fun t ht => if_pos (ht.trans hv)), ?_, fun hp => ?_⟩
  · simp [replied, answered]
  · have hs := (addNotice_spec ((replied s ⟨tag, 0x07#8, .ok, []⟩).modSeat n fun v => { v with state := .admitted }) n
      .admitted hp).1
    show ((addNotice _ n .admitted).seat n).notices.getLsbD (Notice.ix .admitted) = true
    rw [hs, getLsbD_noticeSet]
    rfl

/-- Settles O29: the table, a muted board seat's samples, a vacated console seat's drawing. -/
theorem seatCommandsFollowTheStateTable : Obligations.SeatCommandsFollowTheStateTable := by
  refine ⟨fun s tag row code b n hrow h hn => ?_, fun s x n row hx hn hv hrow => ?_, fun s n i tag hv h36 h hc => ?_⟩
  · obtain ⟨body, hf, he⟩ := exec_seatRow hrow
    obtain ⟨data, h1, h2, h3, h4⟩ := followsTable_served hf h hn
    refine ⟨_, data, he s, h1, h2, h3, h4, fun hu hb => ?_⟩
    subst hu
    have hcode : code = 0x07#8 := by simpa using hrow
    subst hcode
    obtain ⟨t, ht, hstore, hnotice⟩ := unbar_admits h hn hb
    rw [he s] at ht
    cases ht
    exact ⟨hstore, hnotice⟩
  · refine exec_board_disposed hx hrow ?_
    rw [hn]
    exact dispose_discards (.inr (.inr (.inl (by rw [seat_boardTaken]; exact hv))))
  · have hp : i.params n = BitVec.ofNat 8 n.val :: (i.params 0).tail := by cases i <;> rfl
    rw [hp] at h
    refine exec_consoleRow_refused h (fun g pts e => ?_) (DrawInput.body_state (seatOfConsole_eq h36) hc ?_)
    · have := (hc g pts e).2
      omega
    · show ((decideGrant s .console).seat n).state ≠ .admitted
      rw [seat_decideGrant, hv]
      decide

end Sys2Proof.Machine
end

