-- ==== Sys2Proof/Proofs/Hands.lean ====
section
/-! HAND, and the console commands of the Hand Queue (R45, R46). -/

namespace Sys2Proof.Machine

variable {s : State} {n : SeatNo}

/-! ### HAND -/

/-- R45: a HAND of an ADMITTED or MUTED seat is taken, whatever the class but RESETTING. -/
theorem exec_hand_taken {slot : Byte} {up : Bool} (h : TabletTurn s (.hand slot up)) (hn : seatOfSlot slot = some n)
    (hr : s.cls.state ≠ .resetting) (hv : (s.seat n).state = .admitted ∨ (s.seat n).state = .muted) :
    exec .hand s = .next (settle (raiseHand (tabletTaken s) n up)) := by
  have hcls : (tabletTaken s).cls = s.cls := by simp [tabletTaken]
  have hi : handInput slot up (tabletTaken s) = raiseHand (tabletTaken s) n up := by
    unfold handInput
    simp only [hn, hcls, if_neg hr, seat_tabletTaken]
    rcases hv with hv | hv <;> simp only [hv]
  show execHand s = _
  unfold execHand
  rw [tabletGrant_of_turn h (a := (slot, up)) rfl]
  exact congrArg (fun u => Host.Outcome.next (settle u)) hi

/-! ### The hand map -/

/-- The seats of a list that a fold has put into a seat set. -/
theorem getLsbD_foldl_seats (p : SeatNo → Bool) (ns : List SeatNo) (m : BitVec 40) (n : SeatNo) :
    (ns.foldl (fun m n => if p n then m ||| BitVec.twoPow 40 n.val else m) m).getLsbD n.val =
      (m.getLsbD n.val || (decide (n ∈ ns) && p n)) := by
  induction ns generalizing m with
  | nil => simp
  | cons a ns ih =>
    rw [List.foldl_cons, ih]
    by_cases e : n = a
    · subst e
      cases hp : p n <;> simp [n.isLt]
    · have hv : n.val ≠ a.val := fun h => e (Fin.ext h)
      cases hp : p a <;> simp [e, hv]

/-- R46: the flags of the tablet seats; those of the others are down. -/
theorem getLsbD_handMap (s : State) (n : SeatNo) :
    (handMap s).getLsbD n.val = (decide (portOf n = .tablet) && (s.seat n).handUp) := by
  rw [handMap, getLsbD_foldl_seats fun n => (s.seat n).handUp]
  simp [tabletSeats, allSeats]

theorem flatMap_w8 (ns : List SeatNo) :
    ns.flatMap (fun n : SeatNo => w8 n.val) = ns.map fun n => BitVec.ofNat 8 n.val := by
  induction ns with
  | nil => rfl
  | cons n ns ih => rw [List.flatMap_cons, ih]; rfl

/-! ### The commands -/

/-- R46: HAND POLL reports the map and the queue, and leaves both. -/
theorem handPoll_answers {tag : Byte} (h : ConsoleTurn s 0x17#8 tag []) : ∃ map : BitVec 40,
    (∀ n : SeatNo, map.getLsbD n.val = (decide (portOf n = .tablet) && (s.seat n).handUp)) ∧
    exec .handPoll s = .next (settle (replied s ⟨tag, 0x17#8, .ok,
      seatSetData map ++ w16 s.hands.length ++ s.hands.map fun n => BitVec.ofNat 8 n.val⟩)) := by
  refine ⟨handMap (decideGrant s .console), fun n => ?_,
    congrArg Host.Outcome.next (serveCommand_quiet h readAll_rNone ?_)⟩
  · rw [getLsbD_handMap, seat_decideGrant]
  · simp [Tx.answer, wSeatMask_eq, wList, flatMap_w8]

/-- R46: CALL NEXT lowers the hand at the head of the queue. -/
theorem callNext_calls {tag : Byte} (h : ConsoleTurn s 0x18#8 tag []) {rest : List SeatNo} (hq : s.hands = n :: rest) :
    exec .callNext s = .next (settle
      { (replied s ⟨tag, 0x18#8, .ok, [BitVec.ofNat 8 n.val]⟩).modSeat n (fun v => { v with handUp := false }) with
        hands := rest.filter fun m => decide (m ≠ n) }) := by
  have hd : (decideGrant s .console).hands = n :: rest := by simpa using hq
  have hf : (n :: rest).filter (fun m => decide (m ≠ n)) = rest.filter fun m => decide (m ≠ n) := by simp
  refine congrArg Host.Outcome.next ((serveCommand_silent (f := fun u => lowerHand u n) (r := .ok)
    (data := [BitVec.ofNat 8 n.val]) h readAll_rNone ?_ (by simp) (by simp)).trans ?_)
  · simp only [Tx.start_st, hd]
    rfl
  · rw [lowerHand, hd, hf]
    rfl

/-- R46: CLEAR HANDS lowers every hand. -/
theorem clearHands_clears {tag : Byte} (h : ConsoleTurn s 0x19#8 tag []) :
    exec .clearHands s = .next (settle
      { replied s ⟨tag, 0x19#8, .ok, []⟩ with seats := s.seats.map fun v => { v with handUp := false }, hands := [] }) := by
  have hd : (decideGrant s .console).seats = s.seats := by simp
  refine congrArg Host.Outcome.next ((serveCommand_silent (f := clearHands) (r := .ok) (data := []) h readAll_rNone rfl
    (by simp [clearHands]) (by simp [clearHands])).trans ?_)
  rw [clearHands, hd]
  rfl

/-- Settles O27: a HAND that changes nothing, one that raises, one that lowers; and the three commands. -/
theorem handsAreRaisedAndLowered : Obligations.HandsAreRaisedAndLowered := by
  refine ⟨fun s n slot up h hn hr hv => ?_, fun s tag => ⟨handPoll_answers, fun h => ⟨fun hq => ?_,
    fun n rest => callNext_calls h⟩, clearHands_clears⟩⟩
  · rw [exec_hand_taken h hn hr hv]
    have hseat := seat_tabletTaken s n
    have hhands : (tabletTaken s).hands = s.hands := by simp [tabletTaken]
    have hatt : (tabletTaken s).attention = s.attention := by simp [tabletTaken]
    refine ⟨fun hu => ?_, fun hu he => ?_, fun hu he => ?_⟩
    · unfold raiseHand
      rw [hseat, hu]
      cases up <;> rfl
    · subst he
      unfold raiseHand
      rw [if_pos rfl, if_neg (by rw [hseat, hu]; decide), hhands, ← hatt]
      rfl
    · subst he
      unfold raiseHand lowerHand
      rw [if_neg (by decide), if_pos (by rw [hseat, hu]), hhands]
  · have hd : (decideGrant s .console).hands = [] := by simpa using hq
    refine congrArg Host.Outcome.next (serveCommand_quiet h readAll_rNone ?_)
    simp only [Tx.start_st, hd]
    rfl

end Sys2Proof.Machine
end

