-- ==== Sys2Proof/Proofs/Settings.lean ====
section
/-! SET CLASS OPTIONS (R50) and CONFIGURE SEAT (R38, R41): what they check, clamp and write. -/

namespace Sys2Proof.Machine

variable {s u : State} {n : SeatNo}

/-! ### SET CLASS OPTIONS -/

theorem layerOfByte_some {b : Byte} (h : b.toNat ≤ 3) : ∃ l, layerOfByte b = some l ∧ l.val = b.toNat :=
  ⟨_, dif_pos (show b.toNat < 4 by omega), rfl⟩

/-- R50: a present default layer is taken, an absent one keeps the old. -/
theorem layerItem_some {old : LayerNo} {i : Option Byte} (h : ∀ b, i = some b → b.toNat ≤ 3) :
    ∃ l, layerItem old i = some l ∧ l.val = (i.map (·.toNat)).getD old.val := by
  cases i with
  | none => exact ⟨old, rfl, rfl⟩
  | some b => exact layerOfByte_some (h b rfl)

theorem applyOptions_none {o : ClassOptions} {i : OptionItems} {k : Fin 4} {b : Byte} (h : i.layers[k.val] = some b)
    (hb : 3 < b.toNat) : applyOptions o i = none := by
  have hn : ∀ old, layerItem old i.layers[k.val] = none := fun old => by rw [h]; exact layerOfByte_none hb
  refine Option.eq_none_iff_forall_ne_some.mpr fun o' ho => ?_
  unfold applyOptions at ho
  simp only [bind, Option.bind_eq_some_iff] at ho
  obtain ⟨a, ha, b, hb, c, hc, d, hd, -⟩ := ho
  match k, hn with
  | 0, hn => exact nomatch (hn o.layers[0]).symm.trans ha
  | 1, hn => exact nomatch (hn o.layers[1]).symm.trans hb
  | 2, hn => exact nomatch (hn o.layers[2]).symm.trans hc
  | 3, hn => exact nomatch (hn o.layers[3]).symm.trans hd

/-- R50: every present item written, clamped. -/
theorem applyOptions_some {o : ClassOptions} {i : OptionItems}
    (h : ∀ k : Fin 4, ∀ b, i.layers[k.val] = some b → b.toNat ≤ 3) :
    ∃ o' : ClassOptions, applyOptions o i = some o' ∧
      o'.fingerInk = i.fingerInk.getD o.fingerInk ∧
      o'.glitch = (i.glitch.map fun k => min k 255).getD o.glitch ∧
      o'.boardIdle = (i.boardIdle.map fun k => max 50 (min k 5000)).getD o.boardIdle ∧
      o'.tabletIdle = (i.tabletIdle.map fun k => max 100 (min k 10000)).getD o.tabletIdle ∧
      o'.consoleIdle = (i.consoleIdle.map fun k => max 100 (min k 10000)).getD o.consoleIdle ∧
      o'.reserve = (i.reserve.map fun k => min k 2048).getD o.reserve ∧
      ∀ k : Fin 4, o'.layers[k.val].val = (i.layers[k.val].map (·.toNat)).getD o.layers[k.val].val := by
  have hclamp : ∀ lo hi : Nat, clampTo lo hi = fun k => max lo (min k hi) := fun lo hi => by
    funext k
    rw [clampTo, Nat.min_comm]
  have hzero : ∀ hi : Nat, clampTo 0 hi = fun k => min k hi := fun hi => by
    rw [hclamp]
    simp
  obtain ⟨a, ha, ka⟩ := layerItem_some (old := o.layers[0]) (h 0)
  obtain ⟨b, hb, kb⟩ := layerItem_some (old := o.layers[1]) (h 1)
  obtain ⟨c, hc, kc⟩ := layerItem_some (old := o.layers[2]) (h 2)
  obtain ⟨d, hd, kd⟩ := layerItem_some (old := o.layers[3]) (h 3)
  have ha' : layerItem o.layers[0] i.layers[0] = some a := ha
  have hb' : layerItem o.layers[1] i.layers[1] = some b := hb
  have hc' : layerItem o.layers[2] i.layers[2] = some c := hc
  have hd' : layerItem o.layers[3] i.layers[3] = some d := hd
  unfold applyOptions
  simp only [ha', hb', hc', hd', Option.bind_eq_bind, Option.bind_some, hzero, hclamp]
  refine ⟨_, rfl, rfl, rfl, rfl, rfl, rfl, rfl, fun k => ?_⟩
  match k with
  | 0 => exact ka
  | 1 => exact kb
  | 2 => exact kc
  | 3 => exact kd

/-- Settles O35: a layer above 3, and the items written. -/
theorem classOptionsAreClampedAndWritten : Obligations.ClassOptionsAreClampedAndWritten := by
  intro s tag params items h hp
  have hcls : (decideGrant s .console).cls = s.cls := by simp
  refine ⟨fun ⟨k, b, hk, hb⟩ => congrArg Host.Outcome.next (serveCommand_quiet h hp ?_), fun hl => ?_⟩
  · simp only [Tx.start_st, applyOptions_none hk hb]
    rfl
  · obtain ⟨o, ho, h1, h2, h3, h4, h5, h6, h7⟩ := applyOptions_some (o := s.cls.options) hl
    refine ⟨o, h1, h2, h3, h4, h5, h6, h7, ?_⟩
    intro d
    have hc := serveCommand_commit (format := rOptionItems) (body := fun items t =>
        match applyOptions t.st.cls.options items with
        | none => t.answer .range
        | some o => (t.on fun s => { s with cls := { s.cls with options := o } }).answer .ok (wOptions o))
      (t := (Tx.start d).on fun s => { s with cls := { s.cls with options := o } }) (r := .ok) (data := optionData o) h hp
      (by simp only [Tx.start_st, hcls, ho, wOptions_eq]; rfl) ((Tx.stamped_start d).on rfl rfl) rfl
    rw [Tx.work_on rfl, Tx.start_st, hcls] at hc
    exact congrArg Host.Outcome.next hc

/-! ### CONFIGURE SEAT -/

/-- R38: the checks a CONFIGURE SEAT makes on its groups. -/
def SeatItems.Fit (i : SeatItems) : Prop :=
  (∀ sx sy ox oy, i.mapping = some (sx, sy, ox, oy) → sx ≤ 131071 ∧ sy ≤ 131071 ∧
    (-16384) ≤ ox ∧ ox ≤ 16383 ∧ (-16384) ≤ oy ∧ oy ≤ 16383) ∧
  (∀ a b c d p, i.window = some (a, b, c, d, p) → a ≤ b ∧ c ≤ d ∧ b ≤ 16383 ∧ d ≤ 9215) ∧
  (∀ c t lo hi ew, i.pen = some (c, t, lo, hi, ew) → c.toNat ≤ 63 ∧ lo ≠ 0#8 ∧ lo.toNat ≤ hi.toNat) ∧
  ∀ p, i.target = some p → p = 0xFF#8 ∨ p.toNat ≤ 15

theorem checkMapping_some {sx sy : Nat} {ox oy : Int} {m : Mapping} (h : checkMapping (sx, sy, ox, oy) = some m) :
    sx ≤ 131071 ∧ sy ≤ 131071 ∧ (-16384) ≤ ox ∧ ox ≤ 16383 ∧ (-16384) ≤ oy ∧ oy ≤ 16383 := by
  unfold checkMapping at h
  dsimp only at h
  split at h
  · assumption
  · cases h

theorem checkWindow_some {a b c d : Nat} {p : Policy} {w : Window} (h : checkWindow (a, b, c, d, p) = some w) :
    a ≤ b ∧ c ≤ d ∧ b ≤ 16383 ∧ d ≤ 9215 := by
  unfold checkWindow at h
  dsimp only at h
  split at h
  · assumption
  · cases h

theorem one_le_toNat {b : Byte} : 1 ≤ b.toNat ↔ b ≠ 0#8 := by
  constructor
  · rintro h rfl
    exact absurd h (by decide)
  · intro h
    by_contra hz
    exact h (BitVec.eq_of_toNat_eq (by simpa using hz))

theorem checkPen_some {c lo hi ew : Byte} {tool : InkTool} {p : Pen} (h : checkPen (c, tool, lo, hi, ew) = some p) :
    c.toNat ≤ 63 ∧ lo ≠ 0#8 ∧ lo.toNat ≤ hi.toNat := by
  unfold checkPen at h
  dsimp only at h
  split at h
  · next hc =>
    split at h
    · next hw => exact ⟨by omega, one_le_toNat.mp hw.1, hw.2⟩
    · cases h
  · cases h

theorem checkTarget_some {b : Byte} {t : Target} (h : checkTarget b = some t) : b = 0xFF#8 ∨ b.toNat ≤ 15 := by
  unfold checkTarget at h
  split at h
  · exact .inl ‹_›
  · obtain ⟨p, hp, -⟩ := Option.map_eq_some_iff.mp h
    unfold pageOfByte at hp
    split at hp
    · exact .inr (by omega)
    · cases hp

theorem checkGroup_passed {α β : Type} {f : α → Option β} {g : Option α} {c : Option β} (h : checkGroup f g = some c)
    {a : α} (ha : g = some a) : ∃ b, f a = some b := by
  subst ha
  obtain ⟨b, hb, -⟩ := Option.map_eq_some_iff.mp h
  exact ⟨b, hb⟩

/-- R38: groups that pass fit. -/
theorem fit_of_checkItems {i : SeatItems} {c : SeatSettings} (h : checkItems i = some c) : i.Fit := by
  unfold checkItems at h
  simp only [bind, Option.bind_eq_some_iff] at h
  obtain ⟨m, hm, w, hw, p, hp, g, hg, -⟩ := h
  refine ⟨fun sx sy ox oy e => ?_, fun a b c d q e => ?_, fun c t lo hi ew e => ?_, fun b e => ?_⟩
  · exact checkMapping_some (checkGroup_passed hm e).choose_spec
  · exact checkWindow_some (checkGroup_passed hw e).choose_spec
  · exact checkPen_some (checkGroup_passed hp e).choose_spec
  · exact checkTarget_some (checkGroup_passed hg e).choose_spec

/-- The settings that a CONFIGURE SEAT's groups spell (R38). -/
structure Spells (i : SeatItems) (c : SeatSettings) : Prop where
  mapping : c.mapping = i.mapping.map fun m => ⟨m.1, m.2.1, m.2.2.1, m.2.2.2⟩
  window : c.window = i.window.map fun w => ⟨w.1, w.2.1, w.2.2.1, w.2.2.2.1, w.2.2.2.2⟩
  pen : c.pen.map (fun p => (p.colour.val, p.tool, p.wmin, p.wmax, p.ew)) = i.pen.map
    fun p => (p.1.toNat, p.2.1, p.2.2.1.toNat, p.2.2.2.1.toNat, max 8 p.2.2.2.2.toNat)
  rights : c.rights = i.rights
  target : c.target.map (fun | .follow => 255 | .fixed p => p.val) = i.target.map (·.toNat)
  quota : c.quota = i.quota.map fun q => min q 8192

/-- R38: groups that fit pass, and are written as they spell. -/
theorem checkItems_of_fit {i : SeatItems} (h : i.Fit) : ∃ c, checkItems i = some c ∧ Spells i c := by
  obtain ⟨mapping, window, pen, rights, target, quota⟩ := i
  obtain ⟨h1, h2, h3, h4⟩ := h
  have hm : ∃ m, checkGroup checkMapping mapping = some m ∧
      m = mapping.map fun m => ⟨m.1, m.2.1, m.2.2.1, m.2.2.2⟩ := by
    cases mapping with
    | none => exact ⟨none, rfl, rfl⟩
    | some m => exact ⟨_, congrArg (Option.map some) (if_pos (h1 _ _ _ _ rfl)), rfl⟩
  have hw : ∃ w, checkGroup checkWindow window = some w ∧
      w = window.map fun w => ⟨w.1, w.2.1, w.2.2.1, w.2.2.2.1, w.2.2.2.2⟩ := by
    cases window with
    | none => exact ⟨none, rfl, rfl⟩
    | some w => exact ⟨_, congrArg (Option.map some) (if_pos (h2 _ _ _ _ _ rfl)), rfl⟩
  have hp : ∃ p, checkGroup checkPen pen = some p ∧
      p.map (fun p => (p.colour.val, p.tool, p.wmin, p.wmax, p.ew)) = pen.map
        fun p => (p.1.toNat, p.2.1, p.2.2.1.toNat, p.2.2.2.1.toNat, max 8 p.2.2.2.2.toNat) := by
    cases pen with
    | none => exact ⟨none, rfl, rfl⟩
    | some p =>
      obtain ⟨c, tool, lo, hi, ew⟩ := p
      obtain ⟨k1, k2, k3⟩ := h3 c tool lo hi ew rfl
      have hc : c.toNat < 64 := by omega
      have he : checkPen (c, tool, lo, hi, ew) = some ⟨⟨c.toNat, hc⟩, tool, lo.toNat, hi.toNat, max 8 ew.toNat⟩ :=
        (dif_pos hc).trans (if_pos ⟨one_le_toNat.mpr k2, k3⟩)
      exact ⟨_, congrArg (Option.map some) he, rfl⟩
  have ht : ∃ g, checkGroup checkTarget target = some g ∧
      g.map (fun | .follow => 255 | .fixed p => p.val) = target.map (·.toNat) := by
    cases target with
    | none => exact ⟨none, rfl, rfl⟩
    | some b =>
      by_cases hb : b = 0xFF#8
      · exact ⟨_, congrArg (Option.map some) (if_pos hb), by rw [hb]; rfl⟩
      · have hk : b.toNat < 16 := by
          have := (h4 b rfl).resolve_left hb
          omega
        refine ⟨_, congrArg (Option.map some) ((if_neg hb).trans (congrArg _ (dif_pos hk))), rfl⟩
  obtain ⟨m, hm, km⟩ := hm
  obtain ⟨w, hw, kw⟩ := hw
  obtain ⟨p, hp, kp⟩ := hp
  obtain ⟨g, hg, kg⟩ := ht
  refine ⟨⟨m, w, p, rights, g, quota.map (min · 8192)⟩, ?_, km, kw, kp, rfl, kg, rfl⟩
  simp only [checkItems, hm, hw, hp, hg, Option.bind_eq_bind, Option.bind_some]

theorem wSettings_eq (c : SeatSettings) : wSettings c = wOpt 10 mappingData c.mapping ++ wOpt 9 windowData c.window ++
    wOpt 5 penData c.pen ++ wOpt 2 rightsData c.rights ++ wOpt 1 targetData c.target ++ wOpt 2 w16 c.quota := by
  unfold wSettings
  rw [wMapping_eq, funext wWindow_eq, funext wPen_eq, funext wRights_eq, funext wTarget_eq]

/-- What CONFIGURE SEAT does to a state: the groups written, and the fall below a new quota (R38, R41). -/
def configuredState (c : SeatSettings) (n : SeatNo) (u : State) : State :=
  if c.quota.isSome then quotaFell (u.modSeat n (·.configured c)) n else u.modSeat n (·.configured c)

theorem configureBody_eq {i : SeatItems} {c : SeatSettings} (h : checkItems i = some c) (n : SeatNo) (t : Tx) :
    configureBody i n t = (t.on (configuredState c n)).answer .ok (wSettings c) := by
  have ht : (if c.quota.isSome then (t.on (·.modSeat n (·.configured c))).on (quotaFell · n)
      else t.on (·.modSeat n (·.configured c))) = t.on (configuredState c n) := by
    unfold configuredState
    split <;> rfl
  simp only [configureBody, h]
  rw [ht]

/-- R41: the flag goes where a new quota leaves it set and lies above the blocks held. -/
theorem configuredState_eq (c : SeatSettings) (n : SeatNo) (u : State) :
    configuredState c n u =
      if (u.seat n).quotaReached = true ∧ ∃ q, c.quota = some q ∧ (u.seat n).blocksHeld < q then
        addNotice ((u.modSeat n (·.configured c)).modSeat n fun v => { v with quotaReached := false }) n .quotaCleared
      else u.modSeat n (·.configured c) := by
  unfold configuredState quotaFell
  rw [seat_modSeat]
  cases hq : c.quota with
  | none => simp
  | some q => simp [Seat.configured, hq]

/-- Settles O32: a check that fails or no seat, and the groups written. -/
theorem configureSeatWritesThePresentGroups : Obligations.ConfigureSeatWritesThePresentGroups := by
  intro s tag params b items h hp fits
  refine ⟨fun hx => congrArg Host.Outcome.next (serveCommand_quiet h hp ?_), fun n hn hf => ?_⟩
  · dsimp only
    cases hb : seatOfByte b with
    | none => simp only [onSeat, hb]; rfl
    | some n =>
      have hnf : ¬fits := hx.resolve_left fun h39 => by rw [seatOfByte_none h39] at hb; cases hb
      have hc : checkItems items = none :=
        Option.eq_none_iff_forall_ne_some.mpr fun c hc => hnf (fit_of_checkItems hc)
      simp only [onSeat, hb, configureBody, hc]
      rfl
  · obtain ⟨c, hc, hsp⟩ := checkItems_of_fit hf
    refine ⟨c, hsp.mapping, hsp.window, hsp.pen, hsp.rights, hsp.target, hsp.quota, ?_⟩
    intro written
    have hst : ∀ u, (configuredState c n u).store = u.store ∧ (configuredState c n u).cls = u.cls := fun u => by
      unfold configuredState
      split <;> simp
    have hserved := serveCommand_silent (format := rSeatItems) (body := fun (b, items) => onSeat b (configureBody items))
      (f := configuredState c n) (r := .ok) (data := wSettings c) h hp
      (by simp only [onSeat, hn]; exact configureBody_eq hc n _) (by rw [(hst _).1]; simp) (by rw [(hst _).2]; simp)
    refine (congrArg Host.Outcome.next hserved).trans ?_
    rw [configuredState_eq, seat_decideGrant, wSettings_eq, apply_ite (answered _), answered_addNotice]
    rfl

end Sys2Proof.Machine
end

