-- ==== Sys2Proof/Proofs/Notices.lean ====
section
/-! Notices given to many seats in one transaction: SHOW PAGE (R51) and the first grant of a clearance (R53). -/

namespace Sys2Proof.Machine

variable {s u d : State} {ns : List SeatNo} {k : Notice}

/-! ### A notice for a list of seats -/

/-- The seats of a list have been given a notice, in order (R47). -/
structure GivenAll (ns : List SeatNo) (k : Notice) (s u : State) : Prop where
  frame : u = { s with
    seats := u.seats
    noticeQueue := s.noticeQueue ++ ns.filter fun n => decide ((s.seat n).notices = 0)
    noticeBasis := s.noticeBasis.map fun b => { b with added := b.added ++ ns.map fun n => (n, k) } }
  seat : ∀ m, u.seat m =
    if m ∈ ns then { s.seat m with notices := noticeSet (s.seat m).notices k } else s.seat m

theorem givenAll_nil (k : Notice) (s : State) : GivenAll [] k s s where
  frame := by cases h : s.noticeBasis <;> simp [← h]
  seat m := by simp

theorem givenAll_cons {n : SeatNo} (hn : n ∉ ns) (hp : portOf n = .tablet) (h : GivenAll ns k (addNotice s n k) u) :
    GivenAll (n :: ns) k s u where
  frame := by
    have hne : ∀ m ∈ ns, (addNotice s n k).seat m = s.seat m := fun m hm =>
      (addNotice_spec s n k hp).2.1 m fun e => hn (e ▸ hm)
    have hf : (ns.filter fun m => decide (((addNotice s n k).seat m).notices = 0)) =
        ns.filter fun m => decide ((s.seat m).notices = 0) := List.filter_congr fun m hm => by rw [hne m hm]
    have hq : (if (s.seat n).notices = 0 then s.noticeQueue ++ [n] else s.noticeQueue) ++
        ns.filter (fun m => decide ((s.seat m).notices = 0)) =
        s.noticeQueue ++ (n :: ns).filter fun m => decide ((s.seat m).notices = 0) := by
      rw [List.filter_cons]
      by_cases hz : (s.seat n).notices = 0
      · rw [if_pos hz, if_pos (decide_eq_true hz), List.append_assoc]
        rfl
      · rw [if_neg hz, if_neg fun e => hz (of_decide_eq_true e)]
    have hb : ((s.noticeBasis.map fun b => { b with added := b.added ++ [(n, k)] }).map fun b =>
        { b with added := b.added ++ ns.map fun n => (n, k) }) =
        s.noticeBasis.map fun b => { b with added := b.added ++ (n :: ns).map fun n => (n, k) } := by
      rw [Option.map_map]
      congr 1
      funext b
      simp
    have hframe := h.frame
    rw [hf, addNotice_tablet hp] at hframe
    rw [← hq, ← hb]
    exact hframe
  seat m := by
    obtain ⟨h1, h2, -⟩ := addNotice_spec s n k hp
    rw [h.seat]
    by_cases e : m = n
    · subst e
      simp [hn, h1]
    · simp [e, h2 m e]

theorem givenAll_foldl (hn : ns.Nodup) (hp : ∀ n ∈ ns, portOf n = .tablet) (k : Notice) (s : State) :
    GivenAll ns k s (ns.foldl (fun s n => addNotice s n k) s) := by
  induction ns generalizing s with
  | nil => exact givenAll_nil k s
  | cons n ns ih =>
    obtain ⟨h1, h2⟩ := List.nodup_cons.mp hn
    exact givenAll_cons h1 (hp n List.mem_cons_self) (ih h2 (fun m hm => hp m (List.mem_cons_of_mem n hm)) _)

theorem nodup_tabletSeats : tabletSeats.Nodup := (List.nodup_finRange 40).filter _

theorem portOf_tabletSeats {n : SeatNo} (h : n ∈ tabletSeats) : portOf n = .tablet := by
  simpa using List.of_mem_filter h

/-- A notice that is its whole group joins the set, and no other kind leaves it. -/
theorem noticeSet_single (set : BitVec 11) (h : k.groupMask = BitVec.twoPow 11 k.ix) :
    noticeSet set k = set ||| BitVec.twoPow 11 k.ix := by
  rw [noticeSet, h]
  ext i hi
  simp only [BitVec.getElem_or, BitVec.getElem_and, BitVec.getElem_not]
  cases set[i] <;> cases (BitVec.twoPow 11 k.ix)[i] <;> rfl

/-! ### SHOW PAGE -/

/-- R51: the seats PAGE_SHOWN is given to. -/
def seated (s : State) (n : SeatNo) : Bool := decide ((s.seat n).state = .admitted ∨ (s.seat n).state = .muted)

theorem noticePage_eq (s : State) (n : SeatNo) :
    noticePage s n = if seated s n then addNotice s n .pageShown else s := by
  unfold noticePage seated
  cases (s.seat n).state <;> rfl

theorem seated_addNotice (s : State) (n : SeatNo) (k : Notice) : seated (addNotice s n k) = seated s := by
  funext m
  obtain ⟨b, hb⟩ := seat_addNotice s n m k
  unfold seated
  rw [hb]

theorem foldl_noticePage (ns : List SeatNo) (s : State) :
    ns.foldl noticePage s = (ns.filter (seated s)).foldl (fun s n => addNotice s n .pageShown) s := by
  induction ns generalizing s with
  | nil => rfl
  | cons n ns ih =>
    rw [List.foldl_cons, ih, noticePage_eq, List.filter_cons]
    split
    · rw [seated_addNotice, List.foldl_cons]
    · rfl

/-- R51: every seated tablet seat has PAGE_SHOWN. -/
theorem givenAll_showPage (s : State) :
    GivenAll (tabletSeats.filter (seated s)) .pageShown s (tabletSeats.foldl noticePage s) := by
  rw [foldl_noticePage]
  exact givenAll_foldl (nodup_tabletSeats.filter _) (fun n hn => portOf_tabletSeats (List.mem_of_mem_filter hn)) _ s

/-- An entry that no watch tests changes no watch and latches nothing (R169). -/
theorem published_unwatched {e : ChangeEntry} (h : ∀ v, watchMatches u.store v e = false) :
    (published ⟨u, [e]⟩).watches = u.watches ∧ (published ⟨u, [e]⟩).attention = u.attention := by
  have hwatch : (Vector.ofFn fun n : Fin 4 => watchAfter u.store [e] u.watches[n.val]) = u.watches := by
    ext i hi
    simp [watchAfter, h]
  have hlatch : watchesLatched u [e] = u.attention.pending := by
    simp [watchesLatched, h]
  unfold published
  simp only [hwatch, hlatch, and_self]

/-- The PAGE_SHOWN entry of a transaction at this state (R51, R133). -/
def pageEntry (u : State) (p : PageNo) : ChangeEntry :=
  { kind := .pageShown, rev := upcoming u, time := u.timebase, page := some p }

theorem GivenAll.stays (h : GivenAll ns k s u) :
    u.store = s.store ∧ u.timebase = s.timebase ∧ u.watches = s.watches ∧ u.attention = s.attention := by
  rw [h.frame]
  exact ⟨rfl, rfl, rfl, rfl⟩

/-- The state with another page shown. -/
def withPage (p : PageNo) (s : State) : State := { s with cls := { s.cls with shown := p } }

theorem seat_withPage (p : PageNo) (s : State) (n : SeatNo) : (withPage p s).seat n = s.seat n := rfl

theorem seated_withPage (p : PageNo) (s : State) : seated (withPage p s) = seated s := rfl

/-- The transaction of a SHOW PAGE. -/
theorem showPageBody_eq (p : PageNo) (d : State) :
    showPageBody p (Tx.start d) = ((((Tx.start d).on (withPage p)).call
      (.pageShown p)).on (tabletSeats.foldl noticePage)).answer .ok (w48 (upcoming d)) := by
  unfold showPageBody
  generalize tabletSeats = ns
  rfl

theorem Tx.on_congr {t : Tx} {f g : State → State} (h : f t.st = g t.st) : t.on f = t.on g := by
  simp only [Tx.on, h]

/-- What a SHOW PAGE leaves (R51), where `u` has the page and the notices. -/
theorem exec_showPage {tag b : Byte} {p : PageNo} (h : ConsoleTurn s 0x0B#8 tag [b]) (hb : b.toNat = p.val)
    (hu : tabletSeats.foldl noticePage (withPage p (decideGrant s .console)) = u) :
    exec .showPage s = .next (settle (answered ⟨tag, 0x0B#8, .ok, w48 (upcoming s)⟩
      (committed (decideGrant s .console) ⟨u, [pageEntry s p]⟩))) := by
  have hg := givenAll_showPage (withPage p (decideGrant s .console))
  rw [hu] at hg
  obtain ⟨h1, h2, -⟩ := hg.stays
  have hup : upcoming (decideGrant s .console) = upcoming s := by simp [upcoming]
  have ht : (decideGrant s .console).timebase = s.timebase := by simp
  have hbody := showPageBody_eq p (decideGrant s .console)
  have hwork : ((((Tx.start (decideGrant s .console)).on (withPage p)).call
      (.pageShown p)).on fun _ => u).work = ⟨u, [pageEntry s p]⟩ := by
    rw [pageEntry, ← hup, ← ht]
    rfl
  have hon : (((Tx.start (decideGrant s .console)).on (withPage p)).call
      (.pageShown p)).on (tabletSeats.foldl noticePage) =
      (((Tx.start (decideGrant s .console)).on (withPage p)).call
      (.pageShown p)).on fun _ => u := Tx.on_congr hu
  rw [hon, hup] at hbody
  have hs := serveCommand_commit (format := r8) (body := fun b t =>
      match pageOfByte b with
      | none => t.answer .range
      | some p => showPageBody p t) h (readAll_r8 b) (by simp only [pageOfByte_eq hb]; exact hbody)
    ⟨congrArg Store.rev h1, h2⟩ rfl
  rw [hwork] at hs
  exact congrArg Host.Outcome.next hs

/-- Settles O34: no page, and a page shown. -/
theorem showPageShowsAndNotices : Obligations.ShowPageShowsAndNotices := by
  intro s tag b h d
  have hp : readAll r8 [b] = some b := readAll_r8 b
  refine ⟨fun hb => congrArg Host.Outcome.next (serveCommand_quiet h hp ?_), ?_⟩
  · simp only [pageOfByte_none hb]
    rfl
  intro p hb given
  have hg := givenAll_showPage (withPage p d)
  have hexec := exec_showPage h hb (u := tabletSeats.foldl noticePage (withPage p d)) rfl
  generalize tabletSeats.foldl noticePage (withPage p d) = u at hg hexec
  obtain ⟨-, -, hw, ha⟩ := hg.stays
  have hseat : ∀ n, d.seat n = s.seat n := seat_decideGrant s .console
  have hlist : tabletSeats.filter (seated d) = allSeats.filter given := by
    rw [tabletSeats, List.filter_filter]
    refine List.filter_congr fun n _ => ?_
    simp only [seated, hseat, given, Bool.decide_and, Bool.and_comm]
  have hmem : ∀ n, n ∈ allSeats.filter given ↔ given n = true := fun n => by simp [allSeats]
  rw [seated_withPage, hlist] at hg
  have hseats : (settle (answered ⟨tag, 0x0B#8, .ok, w48 (upcoming s)⟩ (committed d ⟨u, [pageEntry s p]⟩))).seats =
    u.seats := committed_seats d ⟨u, [pageEntry s p]⟩
  have hcommit := published_unwatched (u := u) (e := pageEntry s p) fun v => rfl
  refine ⟨_, hexec, fun n => ?_, ?_, hcommit.1.trans ?_, hcommit.2.trans ?_⟩
  · rw [seat_congr hseats, hg.seat, seat_withPage, hseat]
    simp only [hmem, noticeSet_single (k := .pageShown) _ rfl]
    rfl
  · rw [hseats]
    have hu : u = { d with
        cls := { s.cls with shown := p }
        seats := u.seats
        noticeQueue := s.noticeQueue ++ allSeats.filter fun n => given n && decide ((s.seat n).notices = 0)
        noticeBasis := noticesKept s ((allSeats.filter given).map fun n => (n, .pageShown)) } := by
      have hf := hg.frame
      simp only [List.filter_filter, seat_withPage, hseat, Bool.and_comm (decide _)] at hf
      have hq : (withPage p d).noticeQueue = s.noticeQueue := decideGrant_noticeQueue s .console
      have hb : (withPage p d).noticeBasis = noticesKept s [] := decideGrant_noticeBasis s .console
      have hc : d.cls = s.cls := decideGrant_cls s .console
      rw [hq, hb, withPage, hc] at hf
      exact hf
    exact congrArg (fun v => settle (answered ⟨tag, 0x0B#8, .ok, w48 (upcoming s)⟩
      (committed d ⟨v, [pageEntry s p]⟩))) hu
  · exact hw.trans (decideGrant_watches s .console)
  · exact ha.trans (decideGrant_attention s .console)

/-! ### The first grant of a clearance -/

/-- The walks of both contexts ended with RESET, but for the withdrawals of their requests (R53, R141). -/
def walksReset (c : State) : State :=
  { c with
    display := if c.display.running then doneCtx c.display .reset .none else c.display
    displayOut := c.displayOut ++ (if c.display.running then
      [⟨c.display.tag, .done (walkDone c.display .reset .none)⟩] else [])
    snapshot := if c.snapshot.running then doneCtx c.snapshot .reset .none else c.snapshot
    attention := { c.attention with pending := if c.snapshot.running then
      c.attention.pending ||| BitVec.twoPow 11 9 else c.attention.pending }
    consoleOut := c.consoleOut ++ (if c.snapshot.running then
      [.scan ⟨c.snapshot.tag, .done (walkDone c.snapshot .reset .none)⟩] else []) }

/-- The flags of a requester withdrawn, where its walk has ended (R126, R141). -/
def withdrawnIf (b : Bool) (r : Requester) (s : State) : State := if b then withdraw s r else s

theorem doneRecord_eq (c : ScanCtx) (st : EndStatus) (why : Reason) : doneRecord c st why = walkDone c st why := by
  unfold doneRecord walkDone resumeRev resumeOf
  cases c.mode <;> simp only [WalkMode.isSweep] <;> rfl

/-- R53: what the reset of the walks leaves. -/
theorem resetWalks_eq (c : State) :
    resetWalks c = withdrawnIf c.snapshot.running .snapshot (withdrawnIf c.display.running .display (walksReset c)) := by
  have hsnap : ∀ u : State, u.snapshot = c.snapshot → endSnapshot u .reset = withdraw { u with
      snapshot := doneCtx c.snapshot .reset .none
      attention := { u.attention with pending := u.attention.pending ||| BitVec.twoPow 11 9 }
      consoleOut := u.consoleOut ++
        [.scan ⟨c.snapshot.tag, .done (walkDone c.snapshot .reset .none)⟩] } .snapshot := fun u hu => by
    rw [endSnapshot, hu, doneRecord_eq]
    rfl
  unfold resetWalks withdrawnIf walksReset
  rw [endDisplay, doneRecord_eq]
  cases hd : c.display.running <;> cases hs : c.snapshot.running
  · simp [hs]
  · simp only [Bool.false_eq_true, if_false, if_true, hs, List.append_nil]
    exact hsnap c rfl
  · simp only [if_true, Bool.false_eq_true, if_false, List.append_nil]
    show (if c.snapshot.running then _ else _) = _
    rw [hs]
    rfl
  · simp only [if_true]
    show (if c.snapshot.running then _ else _) = _
    rw [hs]
    exact hsnap _ rfl

/-- The seats, the Hand Queue and the open groups at the first grant of a clearance (R53). -/
def seatsCleared (v : State) : State :=
  { v with
    seats := v.seats.map Seat.cleared
    eraseQueue := v.eraseQueue.map fun g => { g with isOpen := false }
    hands := [] }

/-- Every tablet seat given CLASS_RESET (R53). -/
def resetNoticed (v : State) : State := tabletSeats.foldl (fun s n => addNotice s n .classReset) v

/-- The due-expiry set emptied (R53). -/
def nothingDue (u : State) : State := { u with maint := { u.maint with due := 0 } }

/-- What follows the reset of the walks in the first grant of a clearance (R53). -/
def clearanceTail (v : State) : State := nothingDue (resetNoticed (seatsCleared v))

/-- The class RESETTING, with the state it came from. -/
def resettingFrom (prior : ClassState) (c : State) : State :=
  { c with cls := { c.cls with state := .resetting, prior := prior } }

theorem firstClearance_tail (prior : ClassState) (c : State) :
    firstClearance prior c = clearanceTail (resetWalks (resettingFrom prior c)) := by
  unfold firstClearance clearanceTail resetNoticed
  generalize tabletSeats = ns
  rfl

theorem foldl_addNotice_withdraw (ns : List SeatNo) (k : Notice) (u : State) (r : Requester) :
    ns.foldl (fun s n => addNotice s n k) (withdraw u r) = withdraw (ns.foldl (fun s n => addNotice s n k) u) r := by
  have h : ∀ u n, addNotice (withdraw u r) n k = withdraw (addNotice u n k) r := fun u n => by
    unfold addNotice
    by_cases hp : portOf n = .tablet
    · rw [if_pos hp, if_pos hp]; rfl
    · rw [if_neg hp, if_neg hp]
  induction ns generalizing u with
  | nil => rfl
  | cons n ns ih => rw [List.foldl_cons, List.foldl_cons, h, ih]

theorem clearanceTail_withdraw (v : State) (r : Requester) :
    clearanceTail (withdraw v r) = withdraw (clearanceTail v) r := by
  have h1 : seatsCleared (withdraw v r) = withdraw (seatsCleared v) r := rfl
  have h2 : resetNoticed (withdraw (seatsCleared v) r) = withdraw (resetNoticed (seatsCleared v)) r :=
    foldl_addNotice_withdraw tabletSeats .classReset _ r
  have h3 : ∀ u, nothingDue (withdraw u r) = withdraw (nothingDue u) r := fun _ => rfl
  rw [clearanceTail, h1, h2, h3, clearanceTail]

theorem clearanceTail_withdrawnIf (b : Bool) (r : Requester) (v : State) :
    clearanceTail (withdrawnIf b r v) = withdrawnIf b r (clearanceTail v) := by
  cases b with
  | false => rfl
  | true => exact clearanceTail_withdraw v r

/-- R53: the first grant of a clearance, with the withdrawals last. -/
theorem firstClearance_withdrawn (prior : ClassState) (c : State) :
    firstClearance prior c = withdrawnIf c.snapshot.running .snapshot
      (withdrawnIf c.display.running .display (clearanceTail (walksReset (resettingFrom prior c)))) := by
  rw [firstClearance_tail, resetWalks_eq, clearanceTail_withdrawnIf, clearanceTail_withdrawnIf]
  rfl

/-- R126: the withdrawals at the end of the grant make those of the walks. -/
theorem settle_withdrawnIf {b : Bool} {r : Requester} (h : b = true → requests s r = false) :
    settle (withdrawnIf b r s) = settle s := by
  cases b with
  | false => rfl
  | true => exact settle_withdraw (h rfl)

/-- The seats of a clearance (R53). -/
theorem givenAll_clearance (v : State) :
    GivenAll tabletSeats .classReset (seatsCleared v) (resetNoticed (seatsCleared v)) :=
  givenAll_foldl nodup_tabletSeats (fun _ => portOf_tabletSeats) _ _

theorem seat_seatsCleared (v : State) (n : SeatNo) : (seatsCleared v).seat n = (v.seat n).cleared := by
  simp [seatsCleared, State.seat]

theorem mem_tabletSeats {n : SeatNo} : n ∈ tabletSeats ↔ portOf n = .tablet := by
  simp [tabletSeats, allSeats]

/-- What the first grant of a clearance leaves of seats, hands, notices, groups and due seats (R53). -/
def ClearedFrom (v t : State) : Prop :=
  (∀ n, t.seat n = { v.seat n with
    item := none, undo := [], lastClosed := none, cutDue := false, handUp := false
    notices := if portOf n = .tablet then (v.seat n).notices ||| BitVec.twoPow 11 10 else (v.seat n).notices }) ∧
  t = { v with
    seats := t.seats
    hands := []
    noticeQueue := v.noticeQueue ++ allSeats.filter fun n => decide (portOf n = .tablet ∧ (v.seat n).notices = 0)
    noticeBasis := v.noticeBasis.map fun b => { b with
      added := b.added ++ (allSeats.filter fun n => decide (portOf n = .tablet)).map fun n => (n, .classReset) }
    eraseQueue := v.eraseQueue.map fun g => { g with isOpen := false }
    maint := { v.maint with due := 0 } }

/-- R53: the first grant of a clearance, where nothing is withdrawn yet, from the notices given. -/
theorem clearedFrom_nothingDue {v u : State} (hg : GivenAll tabletSeats .classReset (seatsCleared v) u) :
    ClearedFrom v (nothingDue u) := by
  have hq : (tabletSeats.filter fun n => decide (((seatsCleared v).seat n).notices = 0)) =
      allSeats.filter fun n => decide (portOf n = .tablet ∧ (v.seat n).notices = 0) := by
    rw [tabletSeats, List.filter_filter]
    refine List.filter_congr fun n _ => ?_
    rw [seat_seatsCleared, Bool.decide_and, Bool.and_comm]
    rfl
  refine ⟨fun n => (hg.seat n).trans ?_, ?_⟩
  · rw [seat_seatsCleared]
    by_cases hp : portOf n = .tablet
    · rw [if_pos (mem_tabletSeats.mpr hp), if_pos hp, noticeSet_single (k := .classReset) _ rfl]
      rfl
    · rw [if_neg fun h => hp (mem_tabletSeats.mp h), if_neg hp]
      rfl
  · have hf := hg.frame
    rw [hq] at hf
    exact congrArg nothingDue hf

theorem clearedFrom_clearanceTail (v : State) : ClearedFrom v (clearanceTail v) :=
  clearedFrom_nothingDue (givenAll_clearance v)

/-- R126, R141: the withdrawals of the walks, where what follows them does not read the flags. -/
theorem settle_firstClearance (prior : ClassState) (c : State) {f : State → State}
    (hf : ∀ u r, f (withdraw u r) = withdraw (f u) r)
    (hc : ∀ u, (f u).display = u.display ∧ (f u).snapshot = u.snapshot) :
    settle (f (firstClearance prior c)) = settle (f (clearanceTail (walksReset (resettingFrom prior c)))) := by
  have hif : ∀ (b : Bool) (r : Requester) (u : State), f (withdrawnIf b r u) = withdrawnIf b r (f u) := fun b r u => by
    cases b with
    | false => rfl
    | true => exact hf u r
  have ht := (clearedFrom_clearanceTail (walksReset (resettingFrom prior c))).2
  rw [firstClearance_withdrawn, hif, hif, settle_withdrawnIf fun h => ?_, settle_withdrawnIf fun h => ?_]
  · simp only [requests, (hc _).1]
    rw [ht]
    simp [walksReset, resettingFrom, h, doneCtx]
  · have hr : requests (withdrawnIf c.display.running .display
        (f (clearanceTail (walksReset (resettingFrom prior c))))) .snapshot =
        requests (f (clearanceTail (walksReset (resettingFrom prior c)))) .snapshot := by
      cases c.display.running <;> rfl
    rw [hr]
    simp only [requests, (hc _).2]
    rw [ht]
    simp [walksReset, resettingFrom, h, doneCtx]

/-- R53, R56: the power-on clearance starts. -/
theorem exec_powerOnClearance {rest : List QueuedCommand} (hw : winner s = some .console)
    (hq : s.consoleQueue = .clearance false :: rest) :
    exec .powerOnClearance s = .next (settle (firstClearance .opened
      { decideGrant s .console with consoleQueue := .clearance true :: rest })) := by
  show execPowerOnClearance s = _
  unfold execPowerOnClearance
  simp only [hq, if_pos hw]

/-- R53: RESET CLASS starts, and is answered. -/
theorem exec_resetClass {tag : Byte} {rest : List QueuedCommand} (hw : winner s = some .console)
    (hr : s.cls.state ≠ .resetting) (hq : s.consoleQueue = .cmd tag 0x0C#8 [] :: rest) :
    exec .resetClass s = .next (settle (placeReply
      { firstClearance s.cls.state (decideGrant s .console) with
        commandGrant := some { left := false, replied := true } }
      ⟨tag, 0x0C#8, .accepted, []⟩)) := by
  have hg := consoleGrant_of_turn (s := s) (code := 0x0C#8) (tag := tag) (params := []) ⟨hw, hr, by rw [hq]; rfl⟩
  have hc : (decideGrant s .console).cls = s.cls := by simp
  show execResetClass s = _
  unfold execResetClass
  simp only [hg, hc, List.isEmpty_nil, if_true]

/-- What the first grant of a clearance leaves, as the statement names it: the queue, the reply and the mark of the
grant are those of the clearance (R53). -/
def FirstGrant (s : State) (prior : ClassState) (queue : List QueuedCommand) (reply : List ConsoleFrame)
    (grant : Option CommandGrant) (t : State) : Prop :=
  (∀ n, t.seat n = { s.seat n with
    item := none, undo := [], lastClosed := none, cutDue := false, handUp := false
    notices := if portOf n = .tablet then (s.seat n).notices ||| BitVec.twoPow 11 10 else (s.seat n).notices }) ∧
  t = settle { decideGrant s .console with
    seats := t.seats
    cls := { s.cls with state := .resetting, prior := prior }
    hands := []
    noticeQueue := s.noticeQueue ++ allSeats.filter fun n => decide (portOf n = .tablet ∧ (s.seat n).notices = 0)
    noticeBasis := noticesKept s ((allSeats.filter fun n => decide (portOf n = .tablet)).map fun n =>
      (n, .classReset))
    eraseQueue := s.eraseQueue.map fun g => { g with isOpen := false }
    maint := { s.maint with due := 0 }
    display := if s.display.running then doneCtx s.display .reset .none else s.display
    displayOut := s.displayOut ++ (if s.display.running then
      [⟨s.display.tag, .done (walkDone s.display .reset .none)⟩] else [])
    snapshot := if s.snapshot.running then doneCtx s.snapshot .reset .none else s.snapshot
    attention := { s.attention with pending := if s.snapshot.running then
      s.attention.pending ||| BitVec.twoPow 11 9 else s.attention.pending }
    consoleQueue := queue
    consoleOut := s.consoleOut ++ (if s.snapshot.running then
      [.scan ⟨s.snapshot.tag, .done (walkDone s.snapshot .reset .none)⟩] else []) ++ reply
    commandGrant := grant }

theorem firstGrant_settled (s : State) (prior : ClassState) (queue : List QueuedCommand) (reply : List ConsoleFrame)
    (grant : Option CommandGrant) {w : State}
    (hw : clearanceTail (walksReset (resettingFrom prior { decideGrant s .console with consoleQueue := queue })) = w) :
    FirstGrant s prior queue reply grant
      (settle { w with consoleOut := w.consoleOut ++ reply, commandGrant := grant }) := by
  have hseat : ∀ n, (decideGrant s .console).seat n = s.seat n := seat_decideGrant s .console
  have hv : ∀ n, (walksReset (resettingFrom prior { decideGrant s .console with consoleQueue := queue })).seat n =
    s.seat n := hseat
  obtain ⟨h1, h2⟩ := clearedFrom_clearanceTail
    (walksReset (resettingFrom prior { decideGrant s .console with consoleQueue := queue }))
  rw [hw] at h1 h2
  simp only [hv] at h1 h2
  refine ⟨h1, congrArg settle ?_⟩
  have hd := decideGrant_same s .console
  generalize decideGrant s .console = d at hd h2 ⊢
  generalize d.arbiter = a at hd
  subst hd
  exact congrArg (fun w : State => { w with consoleOut := w.consoleOut ++ reply, commandGrant := grant }) h2

/-- R56: the power-on clearance sends no reply, and marks no command's grant. -/
theorem firstGrant_unanswered (s : State) (prior : ClassState) (queue : List QueuedCommand) {w : State}
    (hw : clearanceTail (walksReset (resettingFrom prior { decideGrant s .console with consoleQueue := queue })) = w) :
    FirstGrant s prior queue [] none (settle w) := by
  have hg := firstGrant_settled s prior queue [] none hw
  have h0 := (clearedFrom_clearanceTail
    (walksReset (resettingFrom prior { decideGrant s .console with consoleQueue := queue }))).2
  rw [hw] at h0
  have hn : w.commandGrant = none := by
    rw [h0]
    exact decideGrant_commandGrant s .console
  have he : { w with consoleOut := w.consoleOut ++ [], commandGrant := none } = w := by rw [List.append_nil, ← hn]
  rwa [he] at hg

theorem placeReply_marked (w : State) (grant : Option CommandGrant) (r : Reply) :
    placeReply { w with commandGrant := grant } r =
      { w with consoleOut := w.consoleOut ++ [.reply r], commandGrant := grant } := rfl

theorem decideGrant_sameQueue (s : State) :
    { decideGrant s .console with consoleQueue := s.consoleQueue } = decideGrant s .console := by
  rw [← decideGrant_consoleQueue s .console]

/-- Settles O5: the two clearances end their first grant alike, up to the queue and the reply. -/
theorem firstClearanceGrantClearsSeatsAndWalks : Obligations.FirstClearanceGrantClearsSeatsAndWalks := by
  intro s hw first
  refine ⟨fun rest hq => ⟨_, exec_powerOnClearance hw hq, ?_⟩, fun tag rest hr hq => ⟨_, exec_resetClass hw hr hq, ?_⟩⟩
  · have hs := settle_firstClearance .opened { decideGrant s .console with consoleQueue := .clearance true :: rest }
      (f := id) (fun _ _ => rfl) fun _ => ⟨rfl, rfl⟩
    have hg := firstGrant_unanswered s .opened (.clearance true :: rest) rfl
    rw [id, id] at hs
    rw [← hs] at hg
    exact hg
  · have hs := settle_firstClearance s.cls.state (decideGrant s .console)
      (f := fun u => placeReply { u with commandGrant := some { left := false, replied := true } }
        ⟨tag, 0x0C#8, .accepted, []⟩) (fun _ _ => rfl) fun _ => ⟨rfl, rfl⟩
    have hg := firstGrant_settled s s.cls.state s.consoleQueue [.reply ⟨tag, 0x0C#8, .accepted, []⟩]
      (some { left := false, replied := true }) rfl
    rw [decideGrant_sameQueue] at hg
    rw [← placeReply_marked, ← hs] at hg
    exact hg

end Sys2Proof.Machine
end

