-- ==== Sys2Proof/Proofs/Arbiter.lean ====
section
/-! The grant decision (R118 to R126): who requests, who wins, and what becomes of the flags. -/

namespace Sys2Proof.Machine

variable {s : State} {r q : Requester}

/-! ### Who requests -/

/-- The first grant of the power-on clearance is still to come (R56). -/
theorem unstarted_iff : unstarted s = true ↔ s.consoleQueue.head? = some (.clearance false) := by
  rcases hq : s.consoleQueue with _ | ⟨⟨b⟩ | _, _⟩
  · simp [unstarted, hq]
  · cases b <;> simp [unstarted, hq]
  · simp [unstarted, hq]

theorem clearanceRuns_iff : clearanceRuns s = true ↔
    s.cls.state = .resetting ∧ s.consoleQueue.head? ≠ some (.clearance false) := by
  rw [clearanceRuns, Bool.and_eq_true, decide_eq_true_eq, Bool.not_eq_true', ← Bool.not_eq_true, unstarted_iff]

/-- R118, R119: the console requests for a clearance always, else with a reply slot free or in a clearance. -/
theorem requests_console_iff : requests s .console = true ↔
    (∃ b, s.consoleQueue.head? = some (.clearance b)) ∨
      (s.consoleQueue ≠ [] ∧ (s.cls.state = .resetting ∨ replySlotsUsed s < 16)) := by
  show consoleRequests s = true ↔ _
  rcases hq : s.consoleQueue with _ | ⟨_ | _, _⟩
  · simp [consoleRequests, hq]
  · simp [consoleRequests, hq]
  · simp [consoleRequests, hq, replySlotsFree, Config.replySlots]

theorem requests_board_iff : requests s .board = true ↔ s.boardQueue ≠ [] := by simp [requests]

theorem requests_tablet_iff : requests s .tablet = true ↔ s.tabletQueue ≠ [] := by simp [requests]

/-- R118: a walking context requests while its link has room for a burst. -/
theorem requests_display_iff : requests s .display = true ↔
    s.display.state = .walking ∧ displayUsed s + 16 ≤ 48 := by
  have hf : Config.burst ≤ displayFree s ↔ displayUsed s + 16 ≤ 48 := by
    show 16 ≤ 48 - displayUsed s ↔ _
    omega
  simp [requests, hf]

theorem requests_snapshot_iff : requests s .snapshot = true ↔
    s.snapshot.state = .walking ∧ shareUsed s + 16 ≤ 32 := by
  have hf : Config.burst ≤ shareFree s ↔ shareUsed s + 16 ≤ 32 := by
    show 16 ≤ 32 - shareUsed s ↔ _
    omega
  simp [requests, hf]

theorem anyCutDue_iff : anyCutDue s = true ↔ ∃ n, (s.seat n).cutDue = true := by
  simp [anyCutDue, allSeats]

theorem demandActive_iff : demandActive s = true ↔
    s.maint.poolDemand = true ∨ s.maint.tableDemand = true ∨ s.maint.tableFull = true := by
  simp [demandActive, or_assoc]

/-- R115, R163: the pin does not hold a group back. -/
theorem not_heldByPin_iff {g : EraseGroup} : heldByPin s g = false ↔
    ∀ p, s.snapshot.state = .walking → s.snapshot.bound = some p → revAbove g.lastRev p = false := by
  unfold heldByPin pin
  cases hs : s.snapshot.state <;> cases hb : s.snapshot.bound <;> simp

/-- R115: the head group can be taken where it is closed, the pin lets it go, and no clearance runs. -/
theorem takeableHead_isSome_iff (hr : s.cls.state ≠ .resetting) : (takeableHead s).isSome = true ↔
    ∃ g rest, s.eraseQueue = g :: rest ∧ g.isOpen = false ∧ heldByPin s g = false := by
  rcases hq : s.eraseQueue with _ | ⟨g, rest⟩
  · simp [takeableHead, hq]
  · cases ho : g.isOpen <;> cases hp : heldByPin s g <;> simp [takeableHead, hq, hr, ho, hp]

/-- R97, R114, R115, R118: the Maintenance Unit requests for cuts, expiries and reclaim, and not in a clearance. -/
theorem requests_maintenance_iff : requests s .maintenance = true ↔ ¬s.cls.state = .resetting ∧
    ((∃ n, (s.seat n).cutDue = true) ∨ s.maint.due ≠ 0 ∨ s.maint.underReclaim ≠ none ∨
      ((s.maint.poolDemand = true ∨ s.maint.tableDemand = true ∨ s.maint.tableFull = true) ∧
        ∃ g rest, s.eraseQueue = g :: rest ∧ g.isOpen = false ∧
          ∀ p, s.snapshot.state = .walking → s.snapshot.bound = some p → revAbove g.lastRev p = false)) := by
  simp only [← not_heldByPin_iff, ← demandActive_iff, ← anyCutDue_iff]
  simp only [requests, Bool.and_eq_true, decide_eq_true_eq, Bool.or_eq_true, or_assoc, reclaimWork,
    ← Option.isSome_iff_ne_none]
  exact and_congr_right fun hr => by rw [takeableHead_isSome_iff hr]

/-! ### The winner -/

/-- The place of a requester in the order of the decisions at a state, the later grants of a clearance last (R118,
R119). -/
def Requester.place (s : State) (q : Requester) : Nat :=
  if q = .console ∧ clearanceRuns s = true then 6 else q.ix

/-- The decisions are made in the order of the places, and no requester is left out. -/
theorem requestOrder_sorted (s : State) :
    (requestOrder s).Pairwise (fun a b => a.place s < b.place s) ∧ ∀ q, q ∈ requestOrder s := by
  cases h : clearanceRuns s
  · simp only [requestOrder, Requester.place, h]
    exact ⟨by decide, fun q => by cases q <;> decide⟩
  · simp only [requestOrder, Requester.place, h]
    exact ⟨by decide, fun q => by cases q <;> decide⟩

/-- The first element of an ordered list that has a property is the least one that has it. -/
theorem find?_eq_some_iff_least {α : Type} {f : α → Nat} {p : α → Bool} {L : List α} {a : α}
    (hL : L.Pairwise fun a b => f a < f b) :
    L.find? p = some a ↔ a ∈ L ∧ p a = true ∧ ∀ b ∈ L, p b = true → f a ≤ f b := by
  induction L with
  | nil => simp
  | cons c L ih =>
    obtain ⟨hc, hL⟩ := List.pairwise_cons.mp hL
    have ih := ih hL
    cases hp : p c with
    | true =>
      rw [List.find?_cons_of_pos hp]
      constructor
      · rintro ⟨⟩
        refine ⟨.head _, hp, fun b hb _ => ?_⟩
        rcases List.mem_cons.mp hb with rfl | hb
        · exact le_rfl
        · exact (hc b hb).le
      · rintro ⟨ha, -, hm⟩
        rcases List.mem_cons.mp ha with rfl | ha
        · rfl
        · exact absurd (hm c (.head _) hp) (hc a ha).not_ge
    | false =>
      have hne : ∀ b, p b = true → b ≠ c := fun b hb e => by simp [e, hp] at hb
      rw [List.find?_cons_of_neg (by simp [hp]), ih]
      simp only [List.mem_cons]
      constructor
      · rintro ⟨ha, hpa, hm⟩
        exact ⟨.inr ha, hpa, fun b hb hpb => hm b (hb.resolve_left (hne b hpb)) hpb⟩
      · rintro ⟨ha, hpa, hm⟩
        exact ⟨ha.resolve_left (hne a hpa), hpa, fun b hb hpb => hm b (.inr hb) hpb⟩

/-- R118: the first requester with a property is the one of the least place. -/
theorem find?_requestOrder_iff {p : Requester → Bool} : (requestOrder s).find? p = some r ↔
    p r = true ∧ ∀ q, p q = true → r.place s ≤ q.place s := by
  obtain ⟨hs, hall⟩ := requestOrder_sorted s
  simp [find?_eq_some_iff_least hs, hall]

theorem find?_requestOrder_none_iff {p : Requester → Bool} : (requestOrder s).find? p = none ↔
    ∀ q, p q = false := by
  simp [List.find?_eq_none, (requestOrder_sorted s).2]

theorem bit_getLsbD (r q : Requester) : r.bit.getLsbD q.ix = decide (q = r) := by
  cases r <;> cases q <;> rfl

theorem isElevated_eq (s : State) (q : Requester) : isElevated s q = s.arbiter.elevated.getLsbD q.ix := by
  have hx : ∀ (e : BitVec 6), decide (e &&& q.bit ≠ 0) = e.getLsbD q.ix := by
    cases q <;> decide
  exact hx _

/-- R120, R126: the winner is the first elevated requester, else the first requester. -/
theorem winner_eq_some_iff : winner s = some r ↔ requests s r = true ∧ ∀ q, requests s q = true →
    (isElevated s q = true → isElevated s r = true) ∧
      (isElevated s q = isElevated s r → r.place s ≤ q.place s) := by
  unfold winner
  split
  · next a ha =>
    obtain ⟨hpa, hm⟩ := find?_requestOrder_iff.mp ha
    obtain ⟨hra, hea⟩ := Bool.and_eq_true_iff.mp hpa
    constructor
    · rintro ⟨⟩
      refine ⟨hra, fun q hq => ⟨fun _ => hea, fun he => hm q ?_⟩⟩
      rw [hq, he, hea]
      rfl
    · rintro ⟨hr, hl⟩
      have her := (hl a hra).1 hea
      rw [← ha, find?_requestOrder_iff, hr, her]
      refine ⟨rfl, fun q hq => ?_⟩
      obtain ⟨hrq, heq⟩ := Bool.and_eq_true_iff.mp hq
      exact (hl q hrq).2 (heq.trans her.symm)
  · next hn =>
    have hno : ∀ q, requests s q = true → isElevated s q = false := fun q hq => by
      simpa [hq] using find?_requestOrder_none_iff.mp hn q
    rw [find?_requestOrder_iff]
    refine and_congr_right fun hr => forall_congr' fun q => imp_congr_right fun hq => ?_
    simp [hno q hq, hno r hr]

theorem winner_eq_none_iff : winner s = none ↔ ∀ q, requests s q = false := by
  unfold winner
  split
  · next a ha =>
    have hra := (Bool.and_eq_true_iff.mp (find?_requestOrder_iff.mp ha).1).1
    simp only [reduceCtorEq, false_iff, not_forall]
    exact ⟨a, by simp [hra]⟩
  · exact find?_requestOrder_none_iff

/-! ### The flags -/

/-- The bits a fold over requesters has put into a flag set. -/
theorem getLsbD_foldl_requesters (p : Requester → Bool) (L : List Requester) (m : BitVec 6) (q : Requester) :
    (L.foldl (fun m r => if p r then m ||| r.bit else m) m).getLsbD q.ix =
      (m.getLsbD q.ix || (decide (q ∈ L) && p q)) := by
  induction L generalizing m with
  | nil => simp
  | cons a L ih =>
    rw [List.foldl_cons, ih]
    by_cases e : q = a
    · subst e
      cases hp : p q <;> simp [bit_getLsbD]
    · cases hp : p a <;> simp [bit_getLsbD, e]

theorem requestSet_getLsbD (s : State) (q : Requester) : (requestSet s).getLsbD q.ix = requests s q := by
  rw [requestSet, getLsbD_foldl_requesters]
  simp [(requestOrder_sorted s).2]

/-- A flag set without a requester's bit. -/
theorem getLsbD_without (m : BitVec 6) (r q : Requester) :
    (m &&& ~~~r.bit).getLsbD q.ix = (decide (q ≠ r) && m.getLsbD q.ix) := by
  have hq : q.ix < 6 := by cases q <;> decide
  rw [BitVec.getLsbD_and, BitVec.getLsbD_not, bit_getLsbD, Bool.and_comm]
  simp [hq]

/-- R125: the decision counts the grant while protection is enabled, and samples at the period; the flags go by
whether it samples. -/
theorem decideGrant_arbiter (s : State) (r : Requester) :
    (decideGrant s r).arbiter =
      if s.arbiter.enabled = true then
        if s.arbiter.period ≤ s.arbiter.counter + 1 then { s.arbiter with
          counter := 0
          waiting := requestSet s &&& ~~~r.bit
          elevated := s.arbiter.elevated &&& ~~~r.bit |||
            requestSet s &&& ~~~r.bit &&& (s.arbiter.waiting &&& ~~~r.bit) }
        else { s.arbiter with
          counter := s.arbiter.counter + 1
          waiting := s.arbiter.waiting &&& ~~~r.bit, elevated := s.arbiter.elevated &&& ~~~r.bit }
      else { s.arbiter with
        waiting := s.arbiter.waiting &&& ~~~r.bit, elevated := s.arbiter.elevated &&& ~~~r.bit } := by
  unfold decideGrant
  dsimp only
  split <;> [split; skip] <;> rfl

/-- R125: outside a sample, a decision takes the winner's flags alone. -/
theorem decideGrant_unsampled (h : ¬(s.arbiter.enabled = true ∧ s.arbiter.period ≤ s.arbiter.counter + 1)) :
    (decideGrant s r).arbiter.waiting = s.arbiter.waiting &&& ~~~r.bit ∧
      (decideGrant s r).arbiter.elevated = s.arbiter.elevated &&& ~~~r.bit := by
  rw [decideGrant_arbiter]
  split
  · next he => rw [if_neg fun hp => h ⟨he, hp⟩]; exact ⟨rfl, rfl⟩
  · exact ⟨rfl, rfl⟩

/-- Settles O48: each part is one of the equations above, read bit by bit. -/
theorem grantDecisionFollowsTheOrder : Obligations.GrantDecisionFollowsTheOrder := by
  refine ⟨fun s => ⟨requests_console_iff, requests_board_iff, requests_display_iff, requests_tablet_iff,
    requests_snapshot_iff, requests_maintenance_iff⟩, fun s r => ⟨?_, winner_eq_none_iff,
    decideGrant_same s r, ?_, ?_, ?_, fun hn q => ?_, fun hf q => ?_⟩,
    fun s r => ⟨⟨settle_same s, fun q => ?_⟩, rfl, fun q => ⟨getLsbD_without _ r q, getLsbD_without _ r q⟩⟩⟩
  · simp only [← isElevated_eq, ← clearanceRuns_iff]
    exact winner_eq_some_iff
  · rw [decideGrant_arbiter]
    split <;> [split; skip] <;> rfl
  · rw [decideGrant_arbiter]
    split <;> [split; skip] <;> rfl
  · rw [decideGrant_arbiter]
    cases he : s.arbiter.enabled with
    | false => rfl
    | true =>
      simp only [if_true, Bool.true_eq_false, if_false]
      split <;> rfl
  · obtain ⟨hw, he⟩ := decideGrant_unsampled (r := r) hn
    rw [hw, he]
    exact ⟨getLsbD_without _ r q, getLsbD_without _ r q⟩
  · rw [decideGrant_arbiter, if_pos hf.1, if_pos hf.2]
    simp only [BitVec.getLsbD_or, BitVec.getLsbD_and (x := _ &&& _), getLsbD_without, requestSet_getLsbD]
    refine ⟨trivial, ?_⟩
    cases decide (q ≠ r) <;> simp
  · simp only [settle, BitVec.getLsbD_and, requestSet_getLsbD]
    exact ⟨Bool.and_comm _ _, Bool.and_comm _ _⟩

end Sys2Proof.Machine
end

