-- ==== Sys2Proof/Proofs/NoticeRead.lean ====
section
/-! NOTICE_READ (R48): the answer takes its place among the unread ones (R188), and the listed seats lose their
sets. -/

namespace Sys2Proof.Machine

variable {s u : State} {kept : List Answer}

/-! ### The place of an answer -/

/-- The first element with a property leaves a list, the ones before it having none. -/
theorem removeFirst_append {α : Type} {p : α → Bool} {pre post : List α} {a : α} (ha : p a = true)
    (hpre : ∀ x ∈ pre, p x = false) : removeFirst p (pre ++ a :: post) = pre ++ post := by
  induction pre with
  | nil => simp [removeFirst, ha]
  | cons x xs ih =>
    rw [List.cons_append, removeFirst, hpre x (.head _), if_neg Bool.false_ne_true,
      ih fun y hy => hpre y (.tail _ hy)]
    rfl

theorem isPlain_iff {a : Answer} : a.isPlain = true ↔ (∃ g k, a = .taken g k) ∨ ∃ g, a = .held g := by
  cases a <;> simp [Answer.isPlain]

theorem isList_iff {a : Answer} : a.isList = true ↔ ∃ g items, a = .noticeList g items := by
  cases a <;> simp [Answer.isList]

theorem isEmptyList_iff {a : Answer} : a.isEmptyList = true ↔ ∃ g, a = .noticeList g [] := by
  rcases a with _ | _ | ⟨_, _ | _⟩ <;> simp [Answer.isEmptyList]

/-- R188: the answers that have begun stay where room is made. -/
theorem makeRoom_full {begun waiting : List Answer} {b : Bool} (h : 64 ≤ (begun ++ waiting).length)
    (hb : begun.length = if b = true then 1 else 0) : makeRoom b (begun ++ waiting) =
      begun ++ if waiting.any Answer.isPlain then removeFirst Answer.isPlain waiting
        else removeFirst Answer.isEmptyList waiting := by
  have hs : (if b then (begun ++ waiting).take 1 else []) = begun ∧
      (if b then (begun ++ waiting).drop 1 else begun ++ waiting) = waiting := by
    cases b with
    | false => rw [List.length_eq_zero_iff.mp hb]; exact ⟨rfl, rfl⟩
    | true =>
      obtain ⟨a, rfl⟩ := List.length_eq_one_iff.mp hb
      exact ⟨rfl, rfl⟩
  have hl : ¬(begun ++ waiting).length < Config.answerSlots := Nat.not_lt.mpr h
  simp only [makeRoom, if_neg hl, hs.1, hs.2]
  exact (apply_ite (begun ++ ·) _ _ _).symm

/-- R188: the answers that stay where one more is placed are those the model keeps. -/
theorem makeRoom_of_makesRoom (h : MakesRoom u kept) : makeRoom (decide (u.shifted.tablet ≠ 0)) u.answers = kept := by
  rcases h with ⟨hl, rfl⟩ | ⟨begun, pre, a, post, hl, ha, rfl, hb, hc⟩
  · exact if_pos hl
  · rw [List.append_assoc] at ha
    have hb : begun.length = if decide (u.shifted.tablet ≠ 0) = true then 1 else 0 := by
      rw [hb]
      by_cases h0 : u.shifted.tablet = 0 <;> simp [h0]
    rw [ha] at hl ⊢
    rw [makeRoom_full hl hb, List.append_assoc]
    refine congrArg (begun ++ ·) ?_
    rcases hc with ⟨hp, hn⟩ | ⟨he, hn, hno⟩
    · have hp := isPlain_iff.mpr hp
      rw [if_pos (List.any_eq_true.mpr ⟨a, by simp, hp⟩), removeFirst_append hp]
      exact fun x hx => Bool.eq_false_iff.mpr fun h => hn x hx (isPlain_iff.mp h)
    · obtain ⟨g, rfl⟩ := he
      have hnone : ¬(pre ++ Answer.noticeList g [] :: post).any Answer.isPlain = true := by
        rw [List.any_eq_true]
        rintro ⟨x, hx, hp⟩
        rcases List.mem_append.mp hx with hx | hx
        · exact hno x (List.mem_append_left _ hx) (isPlain_iff.mp hp)
        · rcases List.mem_cons.mp hx with rfl | hx
          · cases hp
          · exact hno x (List.mem_append_right _ hx) (isPlain_iff.mp hp)
      rw [if_neg hnone, removeFirst_append rfl]
      exact fun x hx => Bool.eq_false_iff.mpr fun h =>
        (isEmptyList_iff.mp h).elim fun g hg => hn x hx g hg

/-- R188: an answer is placed behind those that stay. -/
theorem placeAnswer_of_makesRoom {w : State} (h : MakesRoom u kept) (ha : w.answers = u.answers)
    (hs : w.shifted = u.shifted) (a : Answer) : placeAnswer w a = { w with answers := kept ++ [a] } := by
  rw [placeAnswer, ha, hs, makeRoom_of_makesRoom h]

/-! ### The bytes clocked -/

/-- R183, R187: the answer bytes shifted out during a frame's own bytes. -/
theorem shiftOut_tablet (k : Nat) (s : State) : shiftOut .tablet k s = answersClocked s k := by
  unfold shiftOut answersClocked
  have he : (outboundFrames s .tablet).isEmpty = true ↔ s.answers = [] := by simp [outboundFrames]
  simp only [he]
  split
  · rfl
  · split <;> rfl

/-- Bytes shifted out touch nothing but the answers. -/
theorem answersClocked_same (s : State) (k : Nat) : answersClocked s k = { s with
    answers := (answersClocked s k).answers, shifted := (answersClocked s k).shifted } := by
  unfold answersClocked
  split <;> [skip; split] <;> rfl

/-! ### The read -/

/-- R48: what has passed of a NOTICE_READ that lists nothing new. -/
theorem any_isList_iff : u.answers.any Answer.isList = true ↔ ∃ a ∈ u.answers, ∃ g items, a = .noticeList g items := by
  simp only [List.any_eq_true, isList_iff]

/-- R48: one NOTICE_LIST stands unread, so an empty one is answered. -/
theorem exec_noticeRead_listed {tag : AnswerTag} {k : Nat} (hu : answersClocked s k = u) (h : MakesRoom u kept)
    (hl : u.answers.any Answer.isList = true) : exec (.noticeRead tag k) s = .next (settle
      { u with answers := kept ++ [.noticeList tag.tag []] }) := by
  show execNoticeRead tag k s = _
  unfold execNoticeRead
  simp only [shiftOut_tablet, hu, if_pos hl, placeAnswer_of_makesRoom h rfl rfl]

/-- R48: no NOTICE_LIST stands unread, so the notices that wait are served. -/
theorem exec_noticeRead_served {tag : AnswerTag} {k : Nat} {items : List NoticeItem} {w : State}
    (hu : answersClocked s k = u) (h : MakesRoom u kept) (hl : ¬u.answers.any Answer.isList = true)
    (hw : serveNotices u tag.running = (items, w)) (ha : w.answers = u.answers) (hs : w.shifted = u.shifted) :
    exec (.noticeRead tag k) s = .next (settle { w with answers := kept ++ [.noticeList tag.tag items] }) := by
  show execNoticeRead tag k s = _
  unfold execNoticeRead
  simp only [shiftOut_tablet, hu, if_neg hl, hw, placeAnswer_of_makesRoom h ha hs]

/-- R48: where no transaction ran, or none is remembered, what stands now is served. -/
theorem serveNotices_now {running : Bool} (h : running = false ∨ s.noticeBasis = none) :
    serveNotices s running = ((s.noticeQueue.take 8).map (noticeItem s), takeNotices s) := by
  unfold serveNotices
  rcases h with rfl | h
  · rfl
  · rw [h, ite_self]
    rfl

/-- R48: where a transaction ran, what stood before it is served. -/
theorem serveNotices_before {b : NoticeBasis} (h : s.noticeBasis = some b) :
    serveNotices s true = ((b.queue.take 8).map Prod.snd, takeNoticesBefore b s) := by
  unfold serveNotices
  rw [h]
  rfl

/-- R48: what stood before the transaction, once the listed seats are gone from it. -/
def beforeRead (left : List (SeatNo × NoticeItem)) (s : State) : State :=
  { s with
    noticeQueue := left.map Prod.fst
    noticeBasis := none
    seats := Vector.ofFn fun n : SeatNo => { s.seats[n.val] with notices := waitingSet left n } }

theorem takeNoticesBefore_eq (b : NoticeBasis) (s : State) : takeNoticesBefore b s =
    { b.added.foldl (fun v p => addNotice v p.1 p.2) (beforeRead (b.queue.drop 8) s) with
      noticeBasis := some { b with queue := b.queue.drop 8 } } := rfl

theorem waitingSet_eq_find (left : List (SeatNo × NoticeItem)) (n : SeatNo) : waitingSet left n =
    ((left.find? fun p => decide (p.1 = n)).map fun p => p.2.notices).getD 0 := by
  unfold waitingSet
  induction left with
  | nil => rfl
  | cons p left ih =>
    obtain ⟨m, i⟩ := p
    by_cases e : m = n
    · subst e
      simp
    · have e' : (n == m) = false := by simpa using Ne.symm e
      simpa [List.lookup_cons, List.find?_cons, e, e'] using ih

theorem seat_beforeRead (left : List (SeatNo × NoticeItem)) (s : State) (n : SeatNo) :
    (beforeRead left s).seat n = { s.seat n with notices := waitingSet left n } := by
  simp [beforeRead, State.seat]

/-- Notices given keep what a link has to shift out. -/
theorem foldl_addNotice_answers (added : List (SeatNo × Notice)) (v : State) :
    (added.foldl (fun v p => addNotice v p.1 p.2) v).answers = v.answers ∧
      (added.foldl (fun v p => addNotice v p.1 p.2) v).shifted = v.shifted := by
  induction added generalizing v with
  | nil => exact ⟨rfl, rfl⟩
  | cons p added ih =>
    obtain ⟨ha, hs⟩ := ih (addNotice v p.1 p.2)
    exact ⟨ha.trans (addNotice_answers v p.1 p.2), hs.trans (addNotice_shifted v p.1 p.2)⟩

/-- Settles O10, by whether a NOTICE_LIST stands unread and whether a transaction ran. -/
theorem noticeReadEmptiesTheListedSets : Obligations.NoticeReadEmptiesTheListedSets := by
  intro s tag running k kept
  have hu := answersClocked_same s k
  generalize hclock : answersClocked s k = u at hu ⊢
  intro _ _ hroom
  have hseat : ∀ n, u.seat n = s.seat n := fun n => by rw [hu]; rfl
  have hq : u.noticeQueue = s.noticeQueue := (congrArg State.noticeQueue hu :)
  have hb : u.noticeBasis = s.noticeBasis := (congrArg State.noticeBasis hu :)
  have hcls : u.cls = s.cls := (congrArg State.cls hu :)
  have hno : (∀ a ∈ u.answers, ∀ g items, a ≠ .noticeList g items) → ¬u.answers.any Answer.isList = true :=
    fun h hl => (any_isList_iff.mp hl).elim fun a ⟨ha, g, items, e⟩ => h a ha g items e
  refine ⟨fun hl hr => ?_, fun b hl hr hs => ?_,
    fun hl => exec_noticeRead_listed hclock hroom (any_isList_iff.mpr hl)⟩
  · have hw := takeNotices_frame u
    have hitems : noticeItem u = fun n => ⟨n.val - 4, (s.seat n).notices, (s.seat n).state, s.cls.shown⟩ := by
      funext n
      rw [noticeItem, hseat, hcls]
    have hserved := serveNotices_now (s := u) (running := running) (by rwa [hb])
    have hseats := seat_takeNotices u
    rw [hq] at hw
    rw [hq, hitems] at hserved
    simp only [hq, hseat] at hseats
    generalize takeNotices u = w at hw hserved hseats
    exact ⟨_, exec_noticeRead_served hclock hroom (hno hl) hserved (congrArg State.answers hw :)
      (congrArg State.shifted hw :), hseats,
      congrArg (fun w : State => settle { w with answers := _ }) hw⟩
  · subst hr
    have hserved := serveNotices_before (hb.trans hs)
    obtain ⟨ha, hsh⟩ := foldl_addNotice_answers b.added (beforeRead (b.queue.drop 8) u)
    refine ⟨beforeRead (b.queue.drop 8) u, fun n => by rw [seat_beforeRead, hseat, waitingSet_eq_find], rfl, ?_⟩
    rw [takeNoticesBefore_eq] at hserved
    generalize b.added.foldl (fun v p => addNotice v p.1 p.2) (beforeRead (b.queue.drop 8) u) = w at ha hsh hserved ⊢
    simp only [beforeRead] at ha hsh
    exact exec_noticeRead_served (tag := ⟨tag, true⟩) hclock hroom (hno hl) hserved ha hsh

end Sys2Proof.Machine
end

