-- ==== Sys2Proof/Proofs/Starts.lean ====
section
/-! START and START STROKE (R76, R82, R87): a new item begins in place of the old one. -/

namespace Sys2Proof.Machine

variable {s u : State} {w : Work} {t t' : Tx} {n : SeatNo} {tag tool layer colour : Byte}

/-! ### What the end of an item leaves of a seat -/

/-- The end of an item writes of a seat the item, the last-closed pair and the undo stack. -/
theorem seat_ended (n : SeatNo) (c : CloseCause) (w : Work) (m : SeatNo) : ∃ i l q,
    (ended n c w).st.seat m = { w.st.seat m with item := i, lastClosed := l, undo := q } := by
  have hmod : ∀ (v : State) (f : Seat → Seat), v.seats = (w.st.modSeat n f).seats →
      (∀ x, ∃ i l q, f x = { x with item := i, lastClosed := l, undo := q }) →
      ∃ i l q, v.seat m = { w.st.seat m with item := i, lastClosed := l, undo := q } := by
    intro v f hv hf
    rw [seat_congr hv m]
    by_cases e : m = n
    · subst e
      rw [seat_modSeat]
      exact hf _
    · rw [seat_modSeat_ne _ _ e]
      exact ⟨_, _, _, rfl⟩
  unfold ended
  dsimp only
  split
  · split
    · exact hmod _ _ rfl fun _ => ⟨_, _, _, rfl⟩
    · exact hmod _ _ rfl fun _ => ⟨_, _, _, rfl⟩
  · exact hmod _ _ rfl fun _ => ⟨_, _, _, rfl⟩
  · exact hmod _ _ rfl fun _ => ⟨_, _, _, rfl⟩
  · exact ⟨_, _, _, rfl⟩

/-- A due cut served writes no more than the flag besides. -/
theorem seat_cutServed (n : SeatNo) (w : Work) (m : SeatNo) : ∃ i l q d,
    (cutServed n w).st.seat m = { w.st.seat m with item := i, lastClosed := l, undo := q, cutDue := d } := by
  unfold cutServed
  split
  · obtain ⟨i, l, q, he⟩ := seat_ended n .cut w m
    by_cases e : m = n
    · subst e
      rw [seat_modSeat, he]
      exact ⟨_, _, _, _, rfl⟩
    · rw [seat_modSeat_ne _ _ e, he]
      exact ⟨_, _, _, _, rfl⟩
  · exact ⟨_, _, _, _, rfl⟩

/-! ### The input delivered -/

/-- A START or START STROKE: what its transaction comes to; a START STROKE names a layer and reports its result and
its revision (R73, R82, R87). -/
theorem exec_delivered_start {row : Instr} {r : Result} {data : Bytes} {fin : State → State} {out : StartOut}
    (hd : Delivered s n (.begin tag tool layer colour) row r data u fin) (hs : (s.seat n).state = .admitted)
    (he : ((Tx.start u).serveCut n).beginInput (originOf row) n tag tool layer colour s.timebase = (t', out))
    (hr : row ≠ .start → layer.toNat < 4 ∧ r = out.result ∧ data = w48 t'.revTaken) :
    exec row s = .next (settle (fin (committed u t'.work))) := by
  have hk : Tx.Keeps (some n) (Tx.start u) t' := by
    have := (Tx.keeps_serveCut (a := some n) (t := Tx.start u) n).trans
      (Tx.keeps_beginInput (originOf row) n tag tool layer colour s.timebase)
    rwa [he] at this
  have hst := (Tx.stamped_start u).keeps hk
  have hbase : t'.base = u := hk.base
  rcases hd with ⟨rfl, ho, hu, rfl, slot, hslot, hturn⟩ | ⟨rfl, h36, hu, tg, rfl, hturn⟩
  · have hopen : u.cls.state = .opened := by simpa [hu, tabletTaken] using ho
    have hadm : (u.seat n).state = .admitted := by rw [hu, seat_tabletTaken, hs]
    have hdis : dispose u (tabletOrigin 0x20#8) (some n) true = none :=
      dispose_none (by simp [hopen]) (fun _ => by simp [hopen]) hadm
    have hx : ((Tx.start u).serveCut n).time = s.timebase := by
      rw [Tx.time, (Tx.keeps_serveCut (a := none) n).base, Tx.start, hu]
      simp [tabletTaken]
    have he' : ((Tx.start u).serveCut n).beginInput (tabletOrigin 0x20#8) n tag tool layer colour s.timebase =
        (t', out) := he
    have hc := settle_after_commit (f := id) hst (fun _ => rfl) fun _ => rfl
    show execStart s = _
    unfold execStart
    rw [tabletGrant_of_turn hturn (a := (slot, tag, tool, layer, colour)) rfl, ← hu]
    simp only [slotInput, hslot, hdis, hx, he']
    rw [hbase] at hc
    exact congrArg Host.Outcome.next hc
  · obtain ⟨hlayer, hres, hdata⟩ := hr (fun e => nomatch e)
    have hadm : (u.seat n).state = .admitted := by rw [hu, seat_decideGrant, hs]
    have hx : ((Tx.start u).serveCut n).time = s.timebase := by
      rw [Tx.time, (Tx.keeps_serveCut (a := none) n).base, Tx.start, hu]
      simp
    have he' : ((Tx.start u).serveCut n).beginInput commandOrigin n tag tool layer colour s.timebase = (t', out) := he
    have hb : (DrawInput.begin tag tool layer colour).body (BitVec.ofNat 8 n.val) (Tx.start u) = (t', r, data) := by
      simp only [DrawInput.body, consoleInput, seatOfConsole_eq h36]
      rw [if_pos (show ((Tx.start u).st.seat n).state = .admitted from hadm), startStrokeBody, if_pos hlayer]
      simp only [hx, he', Tx.answer, hres, hdata]
    rw [exec_consoleRow hturn (fun _ _ e => nomatch e) (hu ▸ hb), finishCommand_commit hst, hbase]

/-! ### What becomes of it -/

theorem beginInput_badLayer (h : layerOfByte layer = none) (o : Origins) (x : Time) :
    t.beginInput o n tag tool layer colour x = (t.on (captureFault · .denied o.link (some n) o.frame), .denied) := by
  simp only [Tx.beginInput, h]

theorem beginInput_denied {l : LayerNo} (h : layerOfByte layer = some l)
    (hm : inMask (t.st.seat n).rights.layers l = false) (o : Origins) (x : Time) :
    t.beginInput o n tag tool layer colour x = (t.on (captureFault · .denied o.link (some n) o.frame), .denied) := by
  simp only [Tx.beginInput, h, hm, Bool.not_false, if_true]

/-- The ink tool a START draws with: that of its code, or else the seat's (R76). -/
def startInk (v : Seat) (tool : Byte) : InkTool :=
  if tool = 0#8 then .ink else if tool = 1#8 then .highlight else v.pen.tool

theorem startTool_eq (v : Seat) (tool : Byte) :
    startTool v tool = if tool = 2#8 then .eraser else (startInk v tool).pen := by
  unfold startTool startInk
  by_cases h0 : tool = 0#8
  · simp [h0, InkTool.pen]
  · by_cases h1 : tool = 1#8
    · simp [h1, InkTool.pen]
    · simp [h0, h1]

theorem pen_injective : Function.Injective InkTool.pen := by
  intro p q
  cases p <;> cases q <;> decide

theorem pen_ne_eraser (p : InkTool) : p.pen ≠ .eraser := by cases p <;> decide

/-- The tool a START names is the eraser for the code 2 alone (R76). -/
theorem startTool_eraser_iff {v : Seat} : startTool v tool = .eraser ↔ tool = 2#8 := by
  rw [startTool_eq]
  by_cases h : tool = 2#8 <;> simp [h, pen_ne_eraser]

/-- R41, R82: an ink START at quota is counted. -/
theorem beginInput_full {l : LayerNo} (h : layerOfByte layer = some l)
    (hm : inMask (t.st.seat n).rights.layers l = true)
    (hf : tool ≠ 2#8 ∧ (t.st.seat n).quota ≤ (t.st.seat n).blocksHeld) (o : Origins) (x : Time) :
    t.beginInput o n tag tool layer colour x = (t.on (countDiscard · n), .atQuota) := by
  have hq : startTool (t.st.seat n) tool ≠ .eraser ∧ atQuota t.st n = true :=
    ⟨fun e => hf.1 (startTool_eraser_iff.mp e), decide_eq_true hf.2⟩
  simp only [Tx.beginInput, h, hm, Bool.not_true, Bool.false_eq_true, if_false]
  rw [if_pos hq]

/-- The item a START of this tool, layer and colour begins (R76, R82). -/
def startKind (v : Seat) (page : PageNo) (tag tool colour : Byte) (l : LayerNo) : ItemKind :=
  if tool = 2#8 then .eraser tag l page none else .armed tag (startInk v tool) l (colourOr v colour)

theorem startKind_eraser {v : Seat} (h : startTool v tool = .eraser) (page : PageNo) (l : LayerNo) :
    startKind v page tag tool colour l = .eraser tag l page none := if_pos (startTool_eraser_iff.mp h)

theorem startKind_armed {v : Seat} {p : InkTool} (h : startTool v tool = p.pen) (page : PageNo) (l : LayerNo) :
    startKind v page tag tool colour l = .armed tag p l (colourOr v colour) := by
  have h2 : tool ≠ 2#8 := fun e => pen_ne_eraser p (h.symm.trans (startTool_eraser_iff.mpr e))
  rw [startTool_eq, if_neg h2] at h
  rw [startKind, if_neg h2, pen_injective h]

/-- R82: a START that acts ends the old item and sets the new one. -/
theorem beginInput_acts {l : LayerNo} (h : layerOfByte layer = some l)
    (hm : inMask (t.st.seat n).rights.layers l = true)
    (hf : ¬(tool ≠ 2#8 ∧ (t.st.seat n).quota ≤ (t.st.seat n).blocksHeld)) (o : Origins) (x : Time) :
    t.beginInput o n tag tool layer colour x =
      (((t.endItem n .superseded).on (setItem · n (some
        { kind := startKind (t.st.seat n) (targetPage t.st n) tag tool colour l }))).on (setDeadline · n x),
        .acted) := by
  have hq : ¬(startTool (t.st.seat n) tool ≠ .eraser ∧ atQuota t.st n = true) := fun e =>
    hf ⟨fun e2 => e.1 (startTool_eraser_iff.mpr e2), of_decide_eq_true e.2⟩
  simp only [Tx.beginInput, h, hm, Bool.not_true, Bool.false_eq_true, if_false]
  rw [if_neg hq]
  cases htl : startTool (t.st.seat n) tool with
  | eraser => simp only [startKind_eraser htl]
  | highlight => simp only [startKind_armed (p := .highlight) htl]
  | ink => simp only [startKind_armed (p := .ink) htl]

/-- R75, R82: the new item stands, and its deadline is set. -/
theorem Tx.work_begun (t : Tx) (n : SeatNo) (k : ItemKind) (x : Time) :
    ((t.on (setItem · n (some { kind := k }))).on (setDeadline · n x)).work =
      ⟨timed (itemNow t.work.st n (some { kind := k }) false) n x, t.work.entries⟩ := by
  rw [Tx.work_deadline]
  have h := congrArg Work.entries (Tx.work_on (t := t) (f := (setItem · n (some { kind := k }))) rfl)
  exact congrArg (fun es => (⟨timed (itemNow t.work.st n (some { kind := k }) false) n x, es⟩ : Work)) h

theorem Tx.Stamped.begun (h : t.Stamped) (n : SeatNo) (k : ItemKind) (x : Time) :
    ((t.on (setItem · n (some { kind := k }))).on (setDeadline · n x)).Stamped :=
  (h.on (f := (setItem · n (some { kind := k }))) rfl rfl).on (f := (setDeadline · n x))
    (by rw [setDeadline_eq]; rfl) (by rw [setDeadline_eq]; rfl)

/-- Where a delivery begins, the seats, the class and the time are those of the grant. -/
theorem Delivered.start {i : DrawInput} {row : Instr} {r : Result} {data : Bytes} {fin : State → State}
    (hd : Delivered s n i row r data u fin) : (∀ m, u.seat m = s.seat m) ∧ u.cls = s.cls := by
  rcases hd with ⟨-, -, rfl, -⟩ | ⟨-, -, rfl, -⟩
  · exact ⟨seat_tabletTaken s, by simp [tabletTaken]⟩
  · exact ⟨seat_decideGrant s .console, by simp⟩

theorem layerOfByte_lt {l : LayerNo} (h : layerOfByte layer = some l) : layer.toNat < 4 := by
  by_contra hl
  rw [layerOfByte, dif_neg hl] at h
  cases h

/-- Settles O19, by what refuses the input. -/
theorem startBeginsAnItem : Obligations.StartBeginsAnItem := by
  intro s n tag tool layer colour row r data u fin hs hd w v o refused
  obtain ⟨hseat, hcls⟩ := hd.start
  have hk : Tx.Keeps none (Tx.start u) ((Tx.start u).serveCut n) := Tx.keeps_serveCut n
  have hS := (Tx.stamped_start u).keeps hk
  have hw : ((Tx.start u).serveCut n).work = w :=
    Tx.work_serveCut n (Tx.stamped_start u) fun k hk => absurd hk List.not_mem_nil
  have hend : (((Tx.start u).serveCut n).endItem n .superseded).work = ended n .superseded w :=
    Tx.work_endItem_afterCut u n (by decide)
  have hexec := fun t' out => exec_delivered_start (t' := t') (out := out) hd hs
  have hpage : targetPage ((Tx.start u).serveCut n).st n = targetPage s n := by
    rw [targetPage_keeps hk.st, targetPage, targetPage, Tx.start, hseat, hcls]
  have hv : ∃ i l q d, w.st.seat n = { v with item := i, lastClosed := l, undo := q, cutDue := d } := by
    have := seat_cutServed n ⟨u, []⟩ n
    rwa [hseat] at this
  obtain ⟨_, _, _, _, hv⟩ := hv
  generalize (Tx.start u).serveCut n = c at hk hS hw hend hexec hpage
  have hrev : c.revTaken = w.rev := by rw [hS.revTaken, hw]
  rw [← hw] at hv
  change c.st.seat n = _ at hv
  have hmask : (c.st.seat n).rights = v.rights := by rw [hv]
  have hquota : (c.st.seat n).quota = v.quota ∧ (c.st.seat n).blocksHeld = v.blocksHeld := by rw [hv]; exact ⟨rfl, rfl⟩
  have hdenied : (c.on (captureFault · .denied o.link (some n) o.frame)).work = refused := by
    rw [Tx.work_on (f := (captureFault · .denied o.link (some n) o.frame)) rfl]
    exact congrArg (fun x : Work => (⟨caught x.st .denied o.link (some n) o.frame, x.entries⟩ : Work)) hw
  refine ⟨fun l hl => ⟨fun hm hf hr => ?_, fun hm hf hr hdata => ?_, fun hm hr hdata => ?_⟩, fun hl hrow => ?_⟩
  · intro w' hdata
    have hb := beginInput_acts (t := c) (n := n) (tag := tag) (tool := tool) (colour := colour) hl
      (by rwa [hmask]) (by rwa [hquota.1, hquota.2]) o s.timebase
    have hkind : startKind (c.st.seat n) (targetPage s n) tag tool colour l =
        startKind v (targetPage s n) tag tool colour l := by rw [hv]; rfl
    rw [hpage, hkind] at hb
    have hwork := Tx.work_begun (c.endItem n .superseded) n (startKind v (targetPage s n) tag tool colour l) s.timebase
    rw [hend] at hwork
    have hS' := (hS.keeps (Tx.keeps_endItem (a := none) n .superseded)).begun n (startKind v (targetPage s n) tag tool colour l) s.timebase
    have hx := hexec _ _ hb fun _ => ⟨layerOfByte_lt hl, hr, by
      rw [hS'.revTaken, hwork]
      exact hdata⟩
    rw [hwork] at hx
    exact hx
  · have hb := beginInput_full (t := c) (n := n) (tag := tag) (tool := tool) (colour := colour) hl
      (by rwa [hmask]) (by rwa [hquota.1, hquota.2]) o s.timebase
    have hx := hexec _ _ hb fun _ => ⟨layerOfByte_lt hl, hr, hdata.trans (congrArg w48 hrev.symm)⟩
    rw [Tx.work_on (f := (countDiscard · n)) rfl] at hx
    rw [← hw]
    exact hx
  · have hb := beginInput_denied (t := c) (n := n) (tag := tag) (tool := tool) (colour := colour) hl
      (by rwa [hmask]) o s.timebase
    have hx := hexec _ _ hb fun _ => ⟨layerOfByte_lt hl, hr, hdata.trans (congrArg w48 hrev.symm)⟩
    rwa [hdenied] at hx
  · have hb := beginInput_badLayer (t := c) (n := n) (tag := tag) (tool := tool) (colour := colour) hl o s.timebase
    have hx := hexec _ _ hb fun h => absurd hrow h
    rwa [hdenied] at hx

end Sys2Proof.Machine
end

