-- ==== Sys2Proof/Proofs/Cuts.lean ====
section
/-! Several open items ended in one transaction (R49, R94, R96): the strokes called for so far are shut, so that what
is reported of them stands while others close. FREEZE and THAW (R49). -/

namespace Sys2Proof.Machine

variable {s u : State} {t t₁ : Tx} {n : SeatNo} {h : Handle} {tag : Byte} {c : CloseCause}

/-! ### The end of an item, by whether a stroke closes -/

/-- Every entry called for names a CLOSED stroke. -/
def Tx.CallsShut (t : Tx) : Prop :=
  ∀ c ∈ t.calls, ∀ h, c.handle = some h → (t.st.store.stroke h.idx).state = .closed

theorem Tx.callsShut_start (s : State) : (Tx.start s).CallsShut := fun _ hc => absurd hc List.not_mem_nil

/-- What becomes of the CLOSED strokes when one that is not CLOSED changes: they stay. -/
theorem Tx.CallsShut.stands (hc : t.CallsShut) {b : Store} {i : RecIdx} (hi : (t.st.store.stroke i).state ≠ .closed)
    (hb : ∀ j, j ≠ i → b.stroke j = t.st.store.stroke j) :
    ∀ c ∈ t.calls, c.Stands t.st.store b ∧ ∀ k, c.handle = some k → (b.stroke k.idx).state = .closed := by
  intro c hm
  have hk : ∀ k, c.handle = some k → b.stroke k.idx = t.st.store.stroke k.idx := fun k hk =>
    hb _ fun e => hi (e ▸ hc c hm k hk)
  exact ⟨Call.stands_of_reported fun k e => by rw [hk k e], fun k e => by rw [hk k e]; exact hc c hm k e⟩

/-- The end of an item that is no open ink stroke calls for nothing and leaves the store. -/
theorem Tx.endItem_unopened (ho : ∀ h tag, ¬InkOpen t.st n h tag) (c : CloseCause) : ∃ v : State,
    t.endItem n c = { t with st := v } ∧ v.store = t.st.store ∧ ended n c t.work = ⟨v, t.entries⟩ := by
  cases hi : (t.st.seat n).item with
  | none => exact ⟨t.st, Tx.endItem_none c hi, rfl, ended_none c (w := t.work) hi⟩
  | some i =>
    obtain ⟨k, l, d, p, x⟩ := i
    have hk : (t.work.st.seat n).item.map OpenItem.kind = some k := by simp [Tx.work, hi]
    cases k with
    | ink h tag =>
      have hno : ¬(t.st.store.live h = true ∧ (t.st.store.stroke h.idx).state = .opened) := fun e => ho h tag ⟨hk, e⟩
      refine ⟨itemGone t.st n, ?_, rfl, ?_⟩
      · simp only [Tx.endItem, hi, Tx.closeInk, if_neg hno]
        rfl
      · simp only [ended, hk]
        exact if_neg hno
    | eraser tag y z g =>
      cases g with
      | none =>
        refine ⟨itemGone t.st n, ?_, rfl, ?_⟩
        · simp only [Tx.endItem, hi, Tx.closeEraser]
          rfl
        · simp only [ended, hk]
          rfl
      | some g =>
        refine ⟨{ t.st.modSeat n (fun v =>
            { v with item := none, undo := (UndoEntry.erase g :: v.undo).take Config.undoDepth }) with
          eraseQueue := t.st.eraseQueue.map fun x => if x.id = g then { x with isOpen := false } else x }, ?_, rfl, ?_⟩
        · simp only [Tx.endItem, hi, Tx.closeEraser, Tx.on, setItem, pushUndo, modGroup, modSeat_modSeat]
          rfl
        · simp only [ended, hk]
          rfl
    | armed _ _ _ _ =>
      refine ⟨itemGone t.st n, ?_, rfl, ?_⟩
      · simp only [Tx.endItem, hi]
        rfl
      · simp only [ended, hk]
        rfl
    | held _ =>
      refine ⟨itemGone t.st n, ?_, rfl, ?_⟩
      · simp only [Tx.endItem, hi]
        rfl
      · simp only [ended, hk]
        rfl

/-- The end of an open ink stroke. -/
theorem Tx.endItem_inkOpen (hs : c ≠ .split) (hst : t.Stamped) (ho : InkOpen t.st n h tag) :
    t.endItem n c = { t with
      st := { t.st.modSeat n (closedSeat · h tag) with
        store := t.st.store.setStroke h.idx (closedStroke t.st (t.st.store.stroke h.idx) c) }
      calls := .closed h :: t.calls
      closed := some h } := by
  obtain ⟨hk, hl, ho⟩ := ho
  obtain ⟨⟨_, _, _, _, _⟩, hi, rfl⟩ := Option.map_eq_some_iff.mp hk
  rw [← Tx.closeInk_itemGone hs hst hl ho]
  simp only [Tx.endItem, hi]

/-- R89: the end of an item, behind strokes that are shut. -/
theorem Tx.CallsShut.endItem (hc : t.CallsShut) (hst : t.Stamped) (n : SeatNo) (hs : c ≠ .split) :
    (t.endItem n c).work = ended n c t.work ∧ (t.endItem n c).CallsShut := by
  by_cases ho : ∃ h tag, InkOpen t.st n h tag
  · obtain ⟨h, tag, ho⟩ := ho
    have hst' := hc.stands (i := h.idx) (by rw [ho.2.2]; decide)
      (b := t.st.store.setStroke h.idx (closedStroke t.st (t.st.store.stroke h.idx) c))
      fun j hj => stroke_setStroke_ne _ _ hj
    rw [Tx.endItem_inkOpen hs hst ho, ended_ink (w := t.work) ho.1 ho.2.1 ho.2.2]
    refine ⟨?_, ?_⟩
    · have hn := Tx.entries_append (t := t) (cs := [.closed h]) (t₁ := { t with
          st := { t.st.modSeat n (closedSeat · h tag) with
            store := t.st.store.setStroke h.idx (closedStroke t.st (t.st.store.stroke h.idx) c) }
          calls := .closed h :: t.calls
          closed := some h }) rfl rfl fun k hk => (hst' k hk).1
      simp only [Tx.work, hn, Work.mk.injEq, List.append_cancel_left_eq, true_and]
      simp [Call.entry, strokeEntry, closedEntry, hst.rev, hst.time]
    · intro k hk m hm
      rcases List.mem_cons.mp hk with rfl | hk
      · cases hm
        show (Store.stroke (t.st.store.setStroke h.idx _) h.idx).state = _
        rw [stroke_setStroke]
        rfl
      · exact (hst' k hk).2 m hm
  · obtain ⟨v, he, hv, hw⟩ := Tx.endItem_unopened (t := t) (n := n) (fun h tag e => ho ⟨h, tag, e⟩) c
    rw [he, hw]
    refine ⟨?_, ?_⟩
    · simp only [Tx.work, Tx.entries, Tx.rev, Tx.time, hv]
    · intro k hk m hm
      show (v.store.stroke m.idx).state = _
      rw [hv]
      exact hc k hk m hm

/-- R96: the cuts of a list of seats, in order. -/
theorem Tx.CallsShut.cutSeats (hc : t.CallsShut) (hst : t.Stamped) (ns : List SeatNo) :
    (ns.foldl Tx.cutSeat t).work = ns.foldl (fun w n => ended n .cut w) t.work := by
  induction ns generalizing t with
  | nil => rfl
  | cons n ns ih =>
    obtain ⟨hw, hc'⟩ := hc.endItem hst n (c := .cut) (by decide)
    rw [List.foldl_cons, List.foldl_cons, ← hw]
    exact ih hc' (hst.keeps (Tx.keeps_cutSeat (a := none) n))

/-! ### FREEZE and THAW -/

theorem Tx.keeps_cutSeats (t : Tx) (ns : List SeatNo) : Tx.Keeps none t (ns.foldl Tx.cutSeat t) := by
  induction ns generalizing t with
  | nil => exact .refl _ t
  | cons n ns ih => exact (Tx.keeps_cutSeat n).trans (ih _)

theorem Tx.keeps_cutTablets (t : Tx) : Tx.Keeps none t t.cutTablets := Tx.keeps_cutSeats t tabletSeats

theorem Tx.CallsShut.cutTablets (hc : t.CallsShut) (hst : t.Stamped) :
    t.cutTablets.work = tabletSeats.foldl (fun w n => ended n .cut w) t.work := hc.cutSeats hst tabletSeats

/-- What FREEZE does (R49). -/
def freezeBody (t : Tx) : Served :=
  if t.st.cls.state = .opened then
    (t.cutTablets.on (setClassState · .frozen)).answer .ok (w48 (t.cutTablets.on (setClassState · .frozen)).revTaken)
  else t.answer .state

theorem exec_freeze (s : State) : exec .freeze s =
    .next (serveCommand 0x09#8 rNone (fun _ => freezeBody) s) := rfl

/-- R49: the tablet seats are cut and the class is frozen. -/
theorem exec_freeze_opened {tag : Byte} (h : ConsoleTurn s 0x09#8 tag []) (ho : s.cls.state = .opened) {w : Work}
    (hw : tabletSeats.foldl (fun w n => ended n .cut w) ⟨decideGrant s .console, []⟩ = w) :
    exec .freeze s = .next (settle (answered ⟨tag, 0x09#8, .ok, w48 w.rev⟩
      (committed (decideGrant s .console) ⟨{ w.st with cls := { s.cls with state := .frozen } }, w.entries⟩))) := by
  have hcls : (decideGrant s .console).cls = s.cls := by simp
  have hk := Tx.keeps_cutTablets (Tx.start (decideGrant s .console))
  have hcut := (Tx.callsShut_start (decideGrant s .console)).cutTablets (Tx.stamped_start _)
  have hbody : freezeBody (Tx.start (decideGrant s .console)) = _ := if_pos (hcls ▸ ho)
  rw [Tx.work_start, hw] at hcut
  generalize (Tx.start (decideGrant s .console)).cutTablets = t at hk hcut hbody
  have hS := (Tx.stamped_start _).keeps hk
  have hwc : t.st.cls = s.cls := by
    rw [hk.st.frame]
    exact hcls
  have hfin := serveCommand_commit (format := rNone) (body := fun _ => freezeBody) (a := ()) h rfl hbody
    (hS.on (f := (setClassState · .frozen)) rfl rfl) hk.base
  have hrev : (t.on (setClassState · .frozen)).revTaken = w.rev := by
    rw [← hcut, ← hS.revTaken]
    rfl
  have hset : setClassState t.st .frozen = { t.st with cls := { s.cls with state := .frozen } } := by
    rw [setClassState, hwc]
  rw [hrev, Tx.work_on (f := (setClassState · .frozen)) rfl, hset] at hfin
  rw [exec_freeze, hfin, ← hcut]
  rfl

/-- Settles O33: FREEZE by the cuts of the tablet seats; THAW touches the class state alone. -/
theorem freezeAndThawChangeTheClassState : Obligations.FreezeAndThawChangeTheClassState := by
  intro s tag d
  have hcls : (decideGrant s .console).cls = s.cls := by simp
  refine ⟨fun h => ⟨fun ho => ?_, fun ho => ?_⟩, fun h => ⟨fun ho => ?_, fun ho => ?_⟩⟩
  · have hb : freezeBody (Tx.start d) = (Tx.start d).answer .state := if_neg (hcls ▸ ho)
    rw [exec_freeze, serveCommand_quiet h rfl hb]
  · exact exec_freeze_opened h ho rfl
  · have hf := serveCommand_silent (format := rNone) (r := .ok) (data := []) (f := (setClassState · .opened)) h rfl
      (body := fun _ t => if t.st.cls.state = .frozen then (t.on (setClassState · .opened)).answer .ok
        else t.answer .state) (a := ()) (if_pos (show (Tx.start d).st.cls.state = .frozen from hcls ▸ ho))
      (by simp [setClassState]) (by simp [setClassState])
    have hset : setClassState d .opened = { d with cls := { s.cls with state := .opened } } := by
      rw [setClassState, hcls]
    rw [hset] at hf
    exact congrArg Host.Outcome.next hf
  · exact congrArg Host.Outcome.next (serveCommand_quiet (format := rNone) h rfl
      (body := fun _ t => if t.st.cls.state = .frozen then (t.on (setClassState · .opened)).answer .ok
        else t.answer .state) (a := ()) (if_neg (show ¬(Tx.start d).st.cls.state = .frozen from hcls ▸ ho)))

end Sys2Proof.Machine
end

