-- ==== Sys2Proof/Proofs/Held.lean ====
section
/-! A held point taken (R81, R85, R90): the glitch filter, the refused open and the dot stroke, as the statements name
them: `heldReleased`. -/

namespace Sys2Proof.Machine

variable {s u : State} {t t₁ : Tx} {n : SeatNo} {h : Handle} {tag : Byte} {c : CloseCause}

/-! ### A record written twice -/

theorem filter_insertAt {k : Nat} {α : Type} (i : Fin k) (v : α) (t : Table k α) :
    (insertAt i v t).filter (fun p => decide (p.1 ≠ i)) = t.filter fun p => decide (p.1 ≠ i) := by
  induction t with
  | nil => simp [insertAt]
  | cons q t ih =>
    obtain ⟨j, w⟩ := q
    rw [insertAt]
    split
    · exact List.filter_cons_of_neg (by simp)
    · rw [List.filter_cons, List.filter_cons, ih]

theorem assignAt_assignAt {k : Nat} {α : Type} [DecidableEq α] (d : α) (t : Table k α) (i : Fin k) (v w : α) :
    assignAt d (assignAt d t i v) i w = assignAt d t i w := by
  have hr : (assignAt d t i v).filter (fun p => decide (p.1 ≠ i)) = t.filter fun p => decide (p.1 ≠ i) := by
    unfold assignAt
    dsimp only
    split
    · rw [List.filter_filter]
      simp
    · rw [filter_insertAt, List.filter_filter]
      simp
  rw [assignAt, hr]
  rfl

theorem setStroke_setStroke (st : Store) (i : RecIdx) (r r' : Stroke) :
    (st.setStroke i r).setStroke i r' = st.setStroke i r' := by
  simp only [Store.setStroke, assignAt_assignAt]

/-- A stroke added and then closed is the closed stroke added. -/
theorem strokeAdded_setStroke (u : State) (n : SeatNo) {r r' : Stroke} (hp : r'.page = r.page) (hl : r'.layer = r.layer)
    (e : Entry) : { strokeAdded u n r e with store := (strokeAdded u n r e).store.setStroke (nextHandle u).idx r' } =
      strokeAdded u n r' e := by
  have hs := setStroke_setStroke (blockTaken u n).store (nextHandle u).idx r r'
  simp only [strokeAdded, hp, hl, Store.setStroke, Store.setBlock, Store.setZ, Store.zlist] at hs ⊢
  simp only [Store.mk.injEq, and_true] at hs
  rw [hs]

/-! ### A refused open -/

/-- R90: a refusal calls for nothing and leaves the store. -/
theorem Tx.work_refuse_lose (t : Tx) (o : Origins) (n : SeatNo) (why : Shortage) (k : Nat) :
    ((t.refuse o n why).lose n k).work = ⟨refusedFor t.st o n why k, t.entries⟩ := by
  obtain ⟨hc, hb⟩ := Tx.refuse_lose_calls t o n why k
  have hst := Tx.refuse_lose_st t o n why k
  have he : ((t.refuse o n why).lose n k).entries = t.entries := by
    simp only [Tx.entries, Tx.rev, Tx.time, hc, hb, hst, store_refusedFor]
  rw [Tx.work, hst, he]

theorem Tx.CallsShut.of_same (hc : t.CallsShut) (h1 : t₁.calls = t.calls) (h2 : t₁.st.store = t.st.store) :
    t₁.CallsShut := by
  intro k hk m hm
  rw [h2]
  exact hc k (h1 ▸ hk) m hm

/-! ### The dot -/

/-- The stroke a held point becomes (R85). -/
def dotStroke (s : State) (n : SeatNo) (p : HeldPoint) (cause : CloseCause) : Stroke :=
  closedStroke s (newRecord s n (heldSpec s n p) p.x p.y p.w p.clamped) cause

/-- R85: the dot stroke opened and closed in one transaction. -/
theorem Tx.makeDot_opens (hst : t.Stamped) (hs : c ≠ .split) (hr : openRefusal t.st n = none) (o : Origins)
    (p : HeldPoint) : t.makeDot o n p c = { t with
      st := (strokeAdded t.st n (dotStroke t.st n p c) (.abs p.x p.y p.w false)).modSeat n
        (closedSeat · (nextHandle t.st) (BitVec.ofNat 8 n.val))
      calls := .closed (nextHandle t.st) :: .opened (nextHandle t.st) 1 :: t.calls
      stored := t.stored + 1
      closed := some (nextHandle t.st) } := by
  have hopen := Tx.openStroke_eq hst hr (heldSpec t.st n p) p.x p.y p.w p.clamped
  have hkeep : Tx.Keeps (some n) t _ := Tx.keeps_openStroke hopen
  have hrec : (t.withStroke n (heldSpec t.st n p) p.x p.y p.w p.clamped).st.store.stroke (nextHandle t.st).idx =
    newRecord t.st n (heldSpec t.st n p) p.x p.y p.w p.clamped := stroke_strokeAdded_same ..
  have hdot := strokeAdded_setStroke t.st n (r := newRecord t.st n (heldSpec t.st n p) p.x p.y p.w p.clamped)
    (r' := dotStroke t.st n p c) rfl rfl (.abs p.x p.y p.w false)
  have hclose := Tx.closeInk_itemGone (t := t.withStroke n (heldSpec t.st n p) p.x p.y p.w p.clamped) (n := n)
    (h := nextHandle t.st) (tag := BitVec.ofNat 8 n.val) hs (hst.keeps hkeep)
    ((Store.live_iff _ _).mpr ⟨congrArg Stroke.gen hrec, by rw [hrec]; nofun⟩) (congrArg Stroke.state hrec)
  rw [hrec] at hclose
  unfold Tx.makeDot
  simp only [hr]
  rw [show t.openStroke n ⟨targetPage t.st n, p.layer, p.tool, p.colour, BitVec.ofNat 8 n.val, false, none⟩ p.x p.y p.w
    p.clamped = _ from hopen]
  exact hclose.trans (congrArg (fun v : State => { t with
    st := v.modSeat n (closedSeat · (nextHandle t.st) (BitVec.ofNat 8 n.val))
    calls := .closed (nextHandle t.st) :: .opened (nextHandle t.st) 1 :: t.calls
    stored := t.stored + 1
    closed := some (nextHandle t.st) }) hdot)

/-- The record an open takes is FREE (R12). -/
theorem Store.ZAgree.next_free (hz : u.store.ZAgree) (hr : openRefusal u n = none) :
    (u.store.stroke (nextHandle u).idx).state = .free := hz.head_free (take_of_openRefusal hr).1

/-- R85, R133: a dot stroke's entries come behind those of strokes that are shut. -/
theorem Tx.CallsShut.makeDot (hc : t.CallsShut) (hst : t.Stamped) (hz : t.st.store.ZAgree) (hs : c ≠ .split)
    (hr : openRefusal t.st n = none) (o : Origins) (p : HeldPoint) :
    (t.makeDot o n p c).work =
      ⟨(strokeAdded t.st n (dotStroke t.st n p c) (.abs p.x p.y p.w false)).modSeat n
        (closedSeat · (nextHandle t.st) (BitVec.ofNat 8 n.val)),
        t.entries ++ [openedEntry t.st (nextHandle t.st) (dotStroke t.st n p c),
          closedEntry t.st (nextHandle t.st) (dotStroke t.st n p c)]⟩ ∧ (t.makeDot o n p c).CallsShut := by
  have hstands := hc.stands (i := (nextHandle t.st).idx) (by rw [hz.next_free hr]; decide)
    (b := (strokeAdded t.st n (dotStroke t.st n p c) (.abs p.x p.y p.w false)).store)
    fun j hj => stroke_strokeAdded_other hj n _ _
  have hrec := stroke_strokeAdded_same t.st n (dotStroke t.st n p c) (.abs p.x p.y p.w false)
  have hd := Tx.makeDot_opens hst hs hr o p
  generalize t.makeDot o n p c = t₁ at hd
  have hst1 : t₁.st.store = (strokeAdded t.st n (dotStroke t.st n p c) (.abs p.x p.y p.w false)).store := by rw [hd]; rfl
  have hcalls : t₁.calls = [.closed (nextHandle t.st), .opened (nextHandle t.st) 1] ++ t.calls := by rw [hd]; rfl
  rw [← hst1] at hstands hrec
  refine ⟨?_, ?_⟩
  · have he := Tx.entries_append hcalls (by rw [hd]) fun k hk => (hstands k hk).1
    rw [Tx.work, he]
    refine congrArg₂ Work.mk (by rw [hd]) (congrArg (t.entries ++ ·) ?_)
    simp only [List.reverse_cons, List.reverse_nil, List.nil_append, List.cons_append, List.map_cons, List.map_nil,
      Call.entry, strokeEntry, hrec, hst.rev, hst.time]
    rfl
  · intro k hk m hm
    rw [hcalls] at hk
    rcases List.mem_append.mp hk with hk | hk
    · have hm' : m = nextHandle t.st := by
        simp only [List.mem_cons, List.not_mem_nil, or_false] at hk
        rcases hk with rfl | rfl <;> exact (Option.some.inj hm).symm
      rw [hm', hrec]
      rfl
    · exact (hstands k hk).2 m hm

/-- R81, R90: a held point taken is the `heldReleased` of the statements. -/
theorem Tx.CallsShut.releaseHeld (hc : t.CallsShut) (hst : t.Stamped) (hz : t.st.store.ZAgree) (hs : c ≠ .split)
    (o : Origins) (n : SeatNo) (p : HeldPoint) (sample : Time) :
    (t.releaseHeld o n p sample c).work = heldReleased o n p sample c t.work ∧
      (t.releaseHeld o n p sample c).CallsShut := by
  unfold Tx.releaseHeld heldReleased
  by_cases hg : t.st.cls.options.glitch * 1000 ≤ (sample - p.holdTime).toNat
  · rw [if_pos hg]
    dsimp only
    rw [if_neg (show ¬(sample - p.holdTime).toNat < t.work.st.cls.options.glitch * 1000 from Nat.not_lt.mpr hg)]
    rw [show shortage t.work.st n true = openRefusal t.st n from shortage_open t.st n]
    cases hr : openRefusal t.st n with
    | some why =>
      have hd : t.makeDot o n p c = ((t.refuse o n why).lose n 1).on (setItem · n none) := by
        unfold Tx.makeDot
        simp only [hr]
      have hw := Tx.work_on (t := (t.refuse o n why).lose n 1) (f := (setItem · n none)) rfl
      have hl := Tx.work_refuse_lose t o n why 1
      rw [hd, hw]
      refine ⟨?_, hc.of_same (Tx.refuse_lose_calls t o n why 1).1 ?_⟩
      · exact congrArg (fun w : Work => (⟨itemGone w.st n, w.entries⟩ : Work)) hl
      · exact (congrArg State.store (Tx.refuse_lose_st t o n why 1)).trans (store_refusedFor ..)
    | none => exact hc.makeDot hst hz hs hr o p
  · rw [if_neg hg]
    exact ⟨if_pos (Nat.not_le.mp hg) |>.symm, hc⟩

end Sys2Proof.Machine
end

