-- ==== Sys2Proof/Proofs/Downs.lean ====
section
/-! A DOWN, or a MOVE handled as one (R78, R79): the contact's old item ends and the new one begins. -/

namespace Sys2Proof.Machine

variable {s u : State} {t t' : Tx} {n : SeatNo} {row : Instr} {x : Sample} {eraser : Bool} {tool : PenTool}

/-! ### The sample delivered -/

/-- The ink tool of a contact sample that is not of the eraser (R77). -/
def sampleInk (v : Seat) (x : Sample) : InkTool := if x.frame.tool = .finger then .ink else v.pen.tool

/-- The tool of a contact sample (R77). -/
def sampleTool (v : Seat) (x : Sample) (eraser : Bool) : PenTool :=
  if eraser = true then .eraser else (sampleInk v x).pen

theorem contactTool_sampleTool (h : BoardInput s n row x eraser) (hc : u.cls = s.cls) (v : Seat) :
    contactTool u v x.frame.tool = some (sampleTool v x eraser) := by
  obtain ⟨-, -, -, -, ht⟩ := h
  cases eraser with
  | true =>
    rw [if_pos rfl] at ht
    simp [contactTool, ht, sampleTool]
  | false =>
    rw [if_neg Bool.false_ne_true] at ht
    rcases ht with ht | ⟨ht, hf⟩
    · simp [contactTool, ht, sampleTool, sampleInk]
    · simp [contactTool, ht, hc, hf, sampleTool, sampleInk, InkTool.pen]

/-- One sample that draws: a due cut of the seat is served, and the row handles what the contact's tool is (R73,
R77). -/
theorem exec_contact {handle : SeatNo → PenTool → Sample → Tx → Tx} (h : BoardInput s n row x eraser)
    (hs : (s.seat n).state = .admitted)
    (hrow : exec row s = .next (boardGrant x.frame.phase (contactInput handle) s))
    (hh : handle n (sampleTool (s.seat n) x eraser) x ((Tx.start (boardTaken s)).serveCut n) = t')
    (hk : Tx.Keeps (some n) ((Tx.start (boardTaken s)).serveCut n) t') :
    exec row s = .next (settle (committed (boardTaken s) t'.work)) := by
  have hcut : Tx.Keeps (some n) (Tx.start (boardTaken s)) ((Tx.start (boardTaken s)).serveCut n) := Tx.keeps_serveCut n
  have hc := settle_after_commit (f := id) ((Tx.stamped_start _).keeps (hcut.trans hk)) (fun _ => rfl) fun _ => rfl
  have hcls : (boardTaken s).cls = s.cls := by simp [boardTaken]
  have hseat := seat_boardTaken s n
  have hdis : dispose (boardTaken s) boardOrigin (some n) false = none :=
    dispose_none (by rw [hcls]; exact h.2.1) (fun e => by cases e) (by rw [hseat, hs])
  have htool := contactTool_sampleTool (u := ((Tx.start (boardTaken s)).serveCut n).st) h
    (by rw [hcut.st.frame]; exact hcls) (((Tx.start (boardTaken s)).serveCut n).st.seat n)
  have hpen : (((Tx.start (boardTaken s)).serveCut n).st.seat n).pen = (s.seat n).pen := by
    rw [(hcut.st.settings n).pen, Tx.start, hseat]
  have hst : sampleTool (((Tx.start (boardTaken s)).serveCut n).st.seat n) x eraser =
      sampleTool (s.seat n) x eraser := by simp only [sampleTool, sampleInk, hpen]
  rw [hrow, boardGrant_of_turn h.1]
  simp only [contactInput, h.2.2.1, hdis, htool, hst, hh]
  rw [(hcut.trans hk).base] at hc
  exact congrArg Host.Outcome.next hc

/-- R79: the MOVE of a contact that has no item, or one of the other kind, is handled as a DOWN. -/
theorem moveInput_actsAsDown (ha : ActsAsDown (t.st.seat n) .move eraser) (htool : tool = .eraser ↔ eraser = true) :
    t.moveInput n tool x = t.downInput n tool x := by
  obtain ha | ⟨-, ha⟩ := ha
  · cases ha
  unfold Tx.moveInput
  cases hi : (t.st.seat n).item with
  | none => rfl
  | some i =>
    rw [hi] at ha
    obtain ⟨k, l, d, p, y⟩ := i
    cases k with
    | armed => rfl
    | held => exact if_pos (htool.mpr ha)
    | ink => exact if_pos (htool.mpr ha)
    | eraser =>
      refine if_neg fun e => ?_
      have he : eraser = false := ha
      rw [htool.mp e] at he
      cases he

theorem sampleTool_eraser_iff {v : Seat} : sampleTool v x eraser = .eraser ↔ eraser = true := by
  unfold sampleTool
  cases eraser with
  | true => simp
  | false => simp [pen_ne_eraser]

/-- R78, R79: a DOWN, or a MOVE that is handled as one. -/
theorem exec_down (h : BoardInput s n row x eraser) (hs : (s.seat n).state = .admitted)
    (ha : ActsAsDown (((Tx.start (boardTaken s)).serveCut n).st.seat n) row eraser)
    (hd : ((Tx.start (boardTaken s)).serveCut n).downInput n (sampleTool (s.seat n) x eraser) x = t') :
    exec row s = .next (settle (committed (boardTaken s) t'.work)) := by
  have hph := h.2.2.2.1
  simp only [List.mem_cons, Prod.mk.injEq, List.not_mem_nil, or_false] at hph
  have hk := hd ▸ Tx.keeps_downInput (t := (Tx.start (boardTaken s)).serveCut n) n (sampleTool (s.seat n) x eraser) x
  rcases hph with ⟨rfl, hph⟩ | ⟨rfl, hph⟩ | ⟨rfl, -⟩
  · exact exec_contact (handle := fun n tool x t => t.downInput n tool x) h hs (by rw [hph]; rfl) hd hk
  · exact exec_contact (handle := fun n tool x t => t.moveInput n tool x) h hs (by rw [hph]; rfl)
      ((moveInput_actsAsDown ha sampleTool_eraser_iff).trans hd) hk
  · rcases ha with ha | ⟨ha, -⟩ <;> cases ha

/-! ### The old item -/

/-- R73: a due cut served, behind strokes that are shut. -/
theorem Tx.CallsShut.serveCut (hc : t.CallsShut) (hst : t.Stamped) (n : SeatNo) :
    (t.serveCut n).work = cutServed n t.work ∧ (t.serveCut n).CallsShut := by
  obtain ⟨hw, hc'⟩ := hc.endItem hst n (c := .cut) (by decide)
  unfold Tx.serveCut cutServed
  by_cases hd : (t.st.seat n).cutDue = true
  · rw [if_pos hd, if_pos (show (t.work.st.seat n).cutDue = true from hd), ← hw]
    exact ⟨rfl, hc'⟩
  · rw [if_neg hd, if_neg (show ¬(t.work.st.seat n).cutDue = true from hd)]
    exact ⟨rfl, hc⟩

/-- R78: the contact's old item is ended, a held point as at an UP of that moment. -/
theorem Tx.CallsShut.endContact (hc : t.CallsShut) (hst : t.Stamped) (hz : t.st.store.ZAgree) (n : SeatNo)
    (sample : Time) : (t.endContact n sample).work = contactEnded n sample t.work := by
  unfold Tx.endContact contactEnded
  cases hi : (t.st.seat n).item with
  | none =>
    rw [show (t.work.st.seat n).item = none from hi]
    exact (hc.endItem hst n (by decide)).1
  | some i =>
    rw [show (t.work.st.seat n).item = some i from hi]
    obtain ⟨k, l, d, p, y⟩ := i
    cases k with
    | held q => exact (hc.releaseHeld hst hz (by decide) boardOrigin n q sample).1
    | ink | armed | eraser => exact (hc.endItem hst n (by decide)).1

theorem item_heldReleased (o : Origins) (n : SeatNo) (p : HeldPoint) (sample : Time) (c : CloseCause) (w : Work) :
    ((heldReleased o n p sample c w).st.seat n).item = none := by
  unfold heldReleased
  dsimp only
  split
  · exact congrArg Seat.item (seat_modSeat w.st n fun v => { v with item := none })
  · split
    · exact congrArg Seat.item (seat_modSeat ..)
    · exact congrArg Seat.item (seat_modSeat ..)

theorem item_ended (n : SeatNo) (c : CloseCause) (w : Work) : ((ended n c w).st.seat n).item = none := by
  unfold ended
  dsimp only
  split
  · split
    · exact congrArg Seat.item (seat_modSeat w.st n _)
    · exact congrArg Seat.item (seat_modSeat ..)
  · exact congrArg Seat.item (seat_modSeat w.st n _)
  · exact congrArg Seat.item (seat_modSeat ..)
  · next h => exact Option.map_eq_none_iff.mp h

theorem item_contactEnded (n : SeatNo) (sample : Time) (w : Work) :
    ((contactEnded n sample w).st.seat n).item = none := by
  unfold contactEnded
  split
  · exact item_heldReleased ..
  · exact item_ended ..

/-! ### The new item -/

theorem mapPoint_congr {a b : Seat} (h : SameSettings a b) (tool : PenTool) (r : RawPoint) :
    mapPoint b tool r = mapPoint a tool r := by
  simp only [mapPoint, h.mapping, h.window, h.pen]

theorem mapPoint_lifted {v : Seat} {r : RawPoint} (h : r.pressure = 0) : mapPoint v tool r = .lifted := by
  unfold mapPoint
  exact if_pos (by simp [pressureOf, h])

/-- R78: the ink point of a DOWN is held, or leaves the contact without an item. -/
def heldStarted (n : SeatNo) (x : Sample) (p : InkTool) (t : Tx) : Tx :=
  match mapPoint (t.st.seat n) p.pen x.frame.point with
  | .point px py w clamped => (t.on (clippedBy · n clamped)).on (setItem · n (some
      { kind := .held ⟨px, py, w, clamped, x.stamp, p, colourOr (t.st.seat n) x.frame.hint, defaultLayer t.st n⟩ }))
  | .dropped => t.on (clippedBy · n true)
  | .lifted => t

theorem newContact_ink (p : InkTool) : t.newContact n p.pen x = (heldStarted n x p t).on (setDeadline · n x.stamp) := by
  unfold Tx.newContact heldStarted
  cases p <;> simp only [InkTool.pen, Tx.mapped_eq] <;>
    cases mapPoint (t.st.seat n) _ x.frame.point <;> simp only [MapOut.wasOutside, Tx.on, clippedBy_false]

/-- A contact without an item is one whose item is none. -/
theorem itemNow_none (hi : (u.seat n).item = none) (out : Bool) : itemNow u n none out = clippedBy u n out := by
  unfold itemNow clippedBy
  refine modSeat_congr ?_
  simp only [hi]

theorem Tx.work_heldStarted (hi : (t.st.seat n).item = none) (p : InkTool) :
    let out := mapPoint (t.st.seat n) p.pen x.frame.point
    (∀ px py w c, out = .point px py w c → (heldStarted n x p t).work = ⟨itemNow t.st n (some
      { kind := .held ⟨px, py, w, c, x.stamp, p, colourOr (t.st.seat n) x.frame.hint, defaultLayer t.st n⟩ }) c,
      t.entries⟩) ∧
    (out = .lifted → (heldStarted n x p t).work = ⟨itemNow t.st n none false, t.entries⟩) ∧
    (out = .dropped → (heldStarted n x p t).work = ⟨itemNow t.st n none true, t.entries⟩) := by
  refine ⟨fun px py w c h => ?_, fun h => ?_, fun h => ?_⟩
  · simp only [heldStarted, h]
    refine congrArg (Work.mk · t.entries) ?_
    simp only [Tx.on, setItem, clippedBy, itemNow, modSeat_modSeat]
  · simp only [heldStarted, h, itemNow_none hi, clippedBy_false]
    rfl
  · simp only [heldStarted, h, itemNow_none hi]
    rfl

/-- R78, R101: an eraser opens its context and tests its point. -/
def eraserStarted (n : SeatNo) (x : Sample) (t : Tx) : Tx :=
  (t.on (setItem · n (some
    { kind := .eraser (BitVec.ofNat 8 n.val) (defaultLayer t.st n) (targetPage t.st n) none }))).eraserPoint n x.frame.point

theorem newContact_eraser : t.newContact n .eraser x = (eraserStarted n x t).on (setDeadline · n x.stamp) := rfl

theorem ZAgree_listAgrees (h : u.store.ZAgree) (page : PageNo) (l : LayerNo) : ListAgrees u page l :=
  ⟨h.nodup page l, fun _ hh => (h.live hh).1⟩

theorem setItem_clipped (u : State) (n : SeatNo) (i : Option OpenItem) (out : Bool) :
    clippedBy (setItem u n i) n out = itemNow u n i out := by
  simp only [setItem, clippedBy, itemNow, modSeat_modSeat]

theorem Tx.work_eraserStarted (hst : t.Stamped) (hz : t.st.store.ZAgree) :
    let out := mapPoint (t.st.seat n) .eraser x.frame.point
    let tag : Byte := BitVec.ofNat 8 n.val
    let l := defaultLayer t.st n
    let page := targetPage t.st n
    let context : Option OpenItem := some { kind := .eraser tag l page none }
    (∀ px py w c, out = .point px py w c → (eraserStarted n x t).work =
      eraserPassed n tag l page none px py w ⟨itemNow t.st n context c, t.entries⟩) ∧
    (out = .lifted → (eraserStarted n x t).work = ⟨itemNow t.st n context false, t.entries⟩) ∧
    (out = .dropped → (eraserStarted n x t).work = ⟨itemNow t.st n context true, t.entries⟩) := by
  intro out tag l page context
  have hs : (t.on (setItem · n context)).Stamped := ⟨hst.rev_eq, hst.time_eq⟩
  have hi : ((t.on (setItem · n context)).st.seat n).item.map OpenItem.kind = some (.eraser tag l page none) := by
    simp [Tx.on, context]
  have hm : mapPoint ((t.on (setItem · n context)).st.seat n) .eraser x.frame.point = out := by
    simp only [Tx.on, seat_setItem]
    rfl
  refine ⟨fun px py w c h => ?_, fun h => ?_, fun h => ?_⟩
  · have hl := ZAgree_listAgrees hz page l
    have hp := Tx.eraserPoint_point hi hl (hm.trans h)
    have hc : ((t.on (setItem · n context)).on (clippedBy · n c)).Stamped := ⟨hst.rev_eq, hst.time_eq⟩
    have hw := Tx.work_passed (o := none) hc (by rw [Tx.on, (seat_clippedBy _ n c).1, hi])
      (ListAgrees.allIn (s := clippedBy (t.on (setItem · n context)).st n c) (n := n) hl px py w .closed)
      ((t.st.store.zlist page l).countP (eraserHits (clippedBy (t.on (setItem · n context)).st n c) n px py w .opened))
    show ((t.on (setItem · n context)).eraserPoint n x.frame.point).work = _
    rw [hp, eraserPassed_eq, ← setItem_clipped]
    exact hw
  · show ((t.on (setItem · n context)).eraserPoint n x.frame.point).work = _
    rw [Tx.eraserPoint_lifted (hm.trans h), ← setItem_clipped, clippedBy_false]
    rfl
  · show ((t.on (setItem · n context)).eraserPoint n x.frame.point).work = _
    rw [Tx.eraserPoint_dropped hi (hm.trans h), ← setItem_clipped]
    rfl

/-! ### The statement -/

/-- Where a DOWN's new item begins: what its transaction has reached, the old item gone, and what it still reads of
the state before (R78). -/
structure ContactFree (s : State) (n : SeatNo) (w : Work) (t : Tx) : Prop where
  work : t.work = w
  stamped : t.Stamped
  zAgree : t.st.store.ZAgree
  item : (t.st.seat n).item = none
  settings : SameSettings (s.seat n) (t.st.seat n)
  cls : t.st.cls = s.cls

theorem ContactFree.defaultLayer {w : Work} (h : ContactFree s n w t) :
    defaultLayer t.st n = s.cls.options.layers[n.val % 4] := by rw [Machine.defaultLayer, h.cls]

theorem ContactFree.targetPage {w : Work} (h : ContactFree s n w t) : targetPage t.st n = targetPage s n := by
  rw [Machine.targetPage, Machine.targetPage, h.settings.target, h.cls]

/-- R78: once its old item is ended the contact is free. -/
theorem Tx.CallsShut.contactFree (hc : t.CallsShut) (hst : t.Stamped) (hz : t.st.store.ZAgree)
    (hr : t.st.cls.state ≠ .resetting) (hset : SameSettings (s.seat n) (t.st.seat n)) (hcls : t.st.cls = s.cls)
    (sample : Time) : ContactFree s n (contactEnded n sample t.work) (t.endContact n sample) where
  work := hc.endContact hst hz n sample
  stamped := hst.keeps (Tx.keeps_endContact (a := none) n sample)
  zAgree := (Tx.moves_endContact n sample hr).st.ink.zAgree hz
  item := by
    have := item_contactEnded n sample t.work
    rwa [← hc.endContact hst hz n sample] at this
  settings := hset.trans ((Tx.keeps_endContact (a := none) n sample).st.settings n)
  cls := by rw [(Tx.keeps_endContact (a := none) n sample).st.frame]; exact hcls

/-- R78: an ink DOWN that begins holds its point, or leaves the contact without an item. -/
theorem ContactFree.work_ink {w1 : Work} (h : ContactFree s n w1 t) (p : InkTool) :
    let out := mapPoint (s.seat n) p.pen x.frame.point
    (∀ px py w c, out = .point px py w c → (t.newContact n p.pen x).work = ⟨timed (itemNow w1.st n (some
      { kind := .held ⟨px, py, w, c, x.stamp, p, colourOr (s.seat n) x.frame.hint, s.cls.options.layers[n.val % 4]⟩ })
      c) n x.stamp, w1.entries⟩) ∧
    (out = .lifted → (t.newContact n p.pen x).work = ⟨timed (itemNow w1.st n none false) n x.stamp, w1.entries⟩) ∧
    (out = .dropped → (t.newContact n p.pen x).work = ⟨timed (itemNow w1.st n none true) n x.stamp, w1.entries⟩) := by
  intro out
  have hwork := Tx.work_deadline (heldStarted n x p t) n x.stamp
  have hcol : colourOr (t.st.seat n) x.frame.hint = colourOr (s.seat n) x.frame.hint := by
    simp only [colourOr, h.settings.pen]
  obtain ⟨h1, h2, h3⟩ := Tx.work_heldStarted (x := x) h.item p
  rw [mapPoint_congr h.settings] at h1 h2 h3
  rw [hcol, h.defaultLayer] at h1
  rw [newContact_ink, hwork, ← h.work]
  exact ⟨fun px py w c e => congrArg (fun v : Work => (⟨timed v.st n x.stamp, v.entries⟩ : Work)) (h1 px py w c e),
    fun e => congrArg (fun v : Work => (⟨timed v.st n x.stamp, v.entries⟩ : Work)) (h2 e),
    fun e => congrArg (fun v : Work => (⟨timed v.st n x.stamp, v.entries⟩ : Work)) (h3 e)⟩

/-- R78, R101: an eraser DOWN opens its context and tests its point. -/
theorem ContactFree.work_eraser {w1 : Work} (h : ContactFree s n w1 t) :
    let out := mapPoint (s.seat n) .eraser x.frame.point
    let tag : Byte := BitVec.ofNat 8 n.val
    let l : LayerNo := s.cls.options.layers[n.val % 4]
    let context : Option OpenItem := some { kind := .eraser tag l (Machine.targetPage s n) none }
    (∀ px py w c, out = .point px py w c →
      let w3 := eraserPassed n tag l (Machine.targetPage s n) none px py w ⟨itemNow w1.st n context c, w1.entries⟩
      (t.newContact n .eraser x).work = ⟨timed w3.st n x.stamp, w3.entries⟩) ∧
    (out = .lifted → (t.newContact n .eraser x).work =
      ⟨timed (itemNow w1.st n context false) n x.stamp, w1.entries⟩) ∧
    (out = .dropped → (t.newContact n .eraser x).work =
      ⟨timed (itemNow w1.st n context true) n x.stamp, w1.entries⟩) := by
  intro out tag l context
  have hwork := Tx.work_deadline (eraserStarted n x t) n x.stamp
  obtain ⟨h1, h2, h3⟩ := Tx.work_eraserStarted (n := n) (x := x) h.stamped h.zAgree
  rw [mapPoint_congr h.settings, h.defaultLayer, h.targetPage] at h1
  rw [mapPoint_congr h.settings, h.defaultLayer, h.targetPage] at h2 h3
  rw [newContact_eraser, hwork, ← h.work]
  exact ⟨fun px py w c e => congrArg (fun v : Work => (⟨timed v.st n x.stamp, v.entries⟩ : Work)) (h1 px py w c e),
    fun e => congrArg (fun v : Work => (⟨timed v.st n x.stamp, v.entries⟩ : Work)) (h2 e),
    fun e => congrArg (fun v : Work => (⟨timed v.st n x.stamp, v.entries⟩ : Work)) (h3 e)⟩

/-- What a DOWN finds once a due cut of its seat is served: what the cut left, and what it still reads of the state
before (R73). -/
structure ContactReached (s : State) (n : SeatNo) (w : Work) (t : Tx) : Prop where
  work : t.work = w
  stamped : t.Stamped
  shut : t.CallsShut
  zAgree : t.st.store.ZAgree
  running : t.st.cls.state ≠ .resetting
  settings : SameSettings (s.seat n) (t.st.seat n)
  held : (t.st.seat n).blocksHeld = (s.seat n).blocksHeld
  cls : t.st.cls = s.cls

/-- R73, R97: the due cut of the contact is served. -/
theorem contactReached_serveCut (n : SeatNo) (hz : ZListsAgree s) (hr : s.cls.state ≠ .resetting) :
    ContactReached s n (cutServed n ⟨boardTaken s, []⟩) ((Tx.start (boardTaken s)).serveCut n) := by
  have hcls : (boardTaken s).cls = s.cls := by simp [boardTaken]
  have hseat := seat_boardTaken s n
  have hk : Tx.Keeps none (Tx.start (boardTaken s)) ((Tx.start (boardTaken s)).serveCut n) := Tx.keeps_serveCut n
  have hm : Tx.Moves (Tx.start (boardTaken s)) ((Tx.start (boardTaken s)).serveCut n) := Tx.moves_serveCut n
  obtain ⟨hw, hc⟩ := (Tx.callsShut_start (boardTaken s)).serveCut (Tx.stamped_start (boardTaken s)) n
  obtain ⟨_, _, _, _, hv⟩ := seat_cutServed n (Tx.start (boardTaken s)).work n
  rw [← hw] at hv
  have hz : (boardTaken s).store.ZAgree := by simpa [boardTaken] using (zListsAgree_iff s).mp hz
  refine ⟨hw, (Tx.stamped_start _).keeps hk, hc, hm.st.ink.zAgree hz, hm.not_resetting (hcls.symm ▸ hr),
    hseat ▸ hk.st.settings n, ?_, ?_⟩
  · exact (congrArg Seat.blocksHeld hv).trans (congrArg Seat.blocksHeld hseat :)
  · rw [hk.st.frame]
    exact hcls

/-- R41, R73: the layer and the quota a DOWN is tested on are those of the state before. -/
theorem ContactReached.downInput {w : Work} (h : ContactReached s n w t) (tool : PenTool) (x : Sample) :
    t.downInput n tool x =
      if !inMask (s.seat n).rights.layers s.cls.options.layers[n.val % 4] then
        t.on (captureFault · .denied .board (some n) (some 0x10#8))
      else if tool ≠ .eraser ∧ decide ((s.seat n).quota ≤ (s.seat n).blocksHeld) = true then t.on (countDiscard · n)
      else (t.endContact n x.stamp).newContact n tool x := by
  rw [Tx.downInput, h.settings.rights, Machine.defaultLayer, h.cls, atQuota, h.settings.quota, h.held]

theorem ContactReached.free {w : Work} (h : ContactReached s n w t) (sample : Time) :
    ContactFree s n (contactEnded n sample w) (t.endContact n sample) :=
  h.work ▸ h.shut.contactFree h.stamped h.zAgree h.running h.settings h.cls sample

/-- Settles O23, by what refuses the DOWN, its tool and what becomes of its point. -/
theorem downHoldsTheFirstPoint : Obligations.DownHoldsTheFirstPoint := by
  intro s n row x eraser hs hz hb u w ha v l tag pen out eraserItem
  have hreach : ContactReached s n w _ := contactReached_serveCut n hz hb.2.1
  have hd := fun t' => exec_down (t' := t') hb hs
  generalize (Tx.start (boardTaken s)).serveCut n = c at hreach hd
  have hw := hreach.work
  have hd := fun t' => hd t' (show ActsAsDown (c.work.st.seat n) row eraser from hw ▸ ha)
  rw [hreach.downInput, show inMask (s.seat n).rights.layers s.cls.options.layers[n.val % 4] =
    inMask v.rights.layers l from rfl] at hd
  refine ⟨fun hmask => ?_, fun hmask he hq => ?_, fun hmask hq => ?_⟩
  · rw [hmask] at hd
    have hx := hd _ (if_pos rfl)
    rw [Tx.work_on (f := (captureFault · .denied .board (some n) (some 0x10#8))) rfl] at hx
    rw [← hw]
    exact hx
  · rw [hmask] at hd
    have hne : sampleTool v x eraser ≠ .eraser := by
      rw [ne_eq, sampleTool_eraser_iff, he]
      exact Bool.false_ne_true
    have hx := hd _ ((if_neg Bool.false_ne_true).trans (if_pos ⟨hne, decide_eq_true hq⟩))
    rw [Tx.work_on (f := (countDiscard · n)) rfl] at hx
    rw [← hw]
    exact hx
  · rw [hmask] at hd
    have hnot : ¬(sampleTool v x eraser ≠ .eraser ∧ decide (v.quota ≤ v.blocksHeld) = true) := by
      rintro ⟨hne, hfull⟩
      have he : eraser = false := by
        rw [ne_eq, sampleTool_eraser_iff] at hne
        exact Bool.eq_false_iff.mpr hne
      exact absurd (of_decide_eq_true hfull) (Nat.not_le.mpr (hq he))
    have hx := hd _ ((if_neg Bool.false_ne_true).trans (if_neg hnot))
    have hfree := hreach.free x.stamp
    intro w1 now
    cases eraser with
    | false =>
      obtain ⟨h1, h2, h3⟩ := hfree.work_ink (x := x) (sampleInk v x)
      rw [show sampleTool v x false = (sampleInk v x).pen from rfl] at hx
      refine ⟨fun px py wd clamped e => ⟨fun _ => ?_, fun h => absurd h Bool.false_ne_true⟩, fun e => ?_, fun e => ?_⟩
      · rw [hx, h1 px py wd clamped e]
        rfl
      · rw [hx, h2 (mapPoint_lifted e)]
        rfl
      · rw [hx, h3 e]
        rfl
    | true =>
      obtain ⟨h1, h2, h3⟩ := hfree.work_eraser (x := x)
      rw [show sampleTool v x true = .eraser from rfl] at hx
      refine ⟨fun px py wd clamped e => ⟨fun h => absurd h.symm Bool.false_ne_true, fun _ => ?_⟩, fun e => ?_,
        fun e => ?_⟩
      · rw [hx, h1 px py wd clamped e]
      · rw [hx, h2 (mapPoint_lifted e)]
        rfl
      · rw [hx, h3 e]
        rfl

end Sys2Proof.Machine
end

