-- ==== Sys2Proof/Proofs/Expiries.lean ====
section
/-! The cuts and the expiries of a Maintenance grant (R94, R97): one transaction that ends the items of many seats. -/

namespace Sys2Proof.Machine

variable {s d u : State} {t : Tx} {n : SeatNo}

/-- A transaction in which the items of seats are ended one after the other: the strokes called for are shut, the Z
lists agree, and the class runs. -/
structure Tx.Serves (t : Tx) : Prop where
  stamped : t.Stamped
  shut : t.CallsShut
  zAgree : t.st.store.ZAgree
  running : t.st.cls.state ≠ .resetting

theorem Tx.serves_start (hz : u.store.ZAgree) (hr : u.cls.state ≠ .resetting) : (Tx.start u).Serves :=
  ⟨Tx.stamped_start u, Tx.callsShut_start u, hz, hr⟩

/-- R97: a due cut. -/
theorem Tx.Serves.serveCut (h : t.Serves) (n : SeatNo) :
    (t.serveCut n).work = cutServed n t.work ∧ (t.serveCut n).Serves := by
  obtain ⟨hw, hc⟩ := h.shut.serveCut h.stamped n
  have hm : Tx.Moves t (t.serveCut n) := Tx.moves_serveCut n
  exact ⟨hw, h.stamped.keeps (Tx.keeps_serveCut (a := none) n), hc, hm.st.ink.zAgree h.zAgree,
    hm.not_resetting h.running⟩

/-- R94: the expiry of a due seat's item, behind strokes that are shut. -/
theorem Tx.CallsShut.expireSeat (hc : t.CallsShut) (hst : t.Stamped) (hz : t.st.store.ZAgree) (n : SeatNo) :
    (t.expireSeat n).work = dueServed n t.work ∧ (t.expireSeat n).CallsShut := by
  unfold Tx.expireSeat dueServed
  rw [show (t.work.st.seat n).item = (t.st.seat n).item from rfl, hst.time]
  cases hi : (t.st.seat n).item with
  | none => exact ⟨rfl, hc⟩
  | some i =>
    dsimp only
    by_cases hl : later i.deadline t.st.timebase = true
    · rw [if_pos hl, if_pos (show later i.deadline t.work.st.timebase = true from hl)]
      exact ⟨rfl, hc⟩
    · rw [if_neg hl, if_neg (show ¬later i.deadline t.work.st.timebase = true from hl)]
      cases i.kind with
      | held p => exact hc.releaseHeld hst hz (by decide) ⟨.console, none⟩ n p t.st.timebase
      | ink | armed | eraser => exact hc.endItem hst n (by decide)

theorem Tx.Serves.expireSeat (h : t.Serves) (n : SeatNo) :
    (t.expireSeat n).work = dueServed n t.work ∧ (t.expireSeat n).Serves := by
  obtain ⟨hw, hc⟩ := h.shut.expireSeat h.stamped h.zAgree n
  have hm : Tx.Moves t (t.expireSeat n) := Tx.moves_expireSeat n h.running
  exact ⟨hw, h.stamped.keeps (Tx.keeps_expireSeat (a := none) n), hc, hm.st.ink.zAgree h.zAgree,
    hm.not_resetting h.running⟩

/-- Seats served one after the other. -/
theorem Tx.Serves.foldl {f : Tx → SeatNo → Tx} {g : Work → SeatNo → Work}
    (hf : ∀ t n, t.Serves → (f t n).work = g t.work n ∧ (f t n).Serves) (ns : List SeatNo) (h : t.Serves) :
    (ns.foldl f t).work = ns.foldl g t.work ∧ (ns.foldl f t).Serves := by
  induction ns generalizing t with
  | nil => exact ⟨rfl, h⟩
  | cons n ns ih =>
    obtain ⟨hw, hs⟩ := hf t n h
    rw [List.foldl_cons, List.foldl_cons, ← hw]
    exact ih hs

/-- The cuts and expiries of a Maintenance grant, before the due-expiry set is emptied (R94). -/
def Tx.dueDone (cuts dues : List SeatNo) (t : Tx) : Tx := dues.foldl Tx.expireSeat (cuts.foldl Tx.serveCut t)

theorem Tx.keeps_dueDone (cuts dues : List SeatNo) (t : Tx) : Tx.Keeps none t (t.dueDone cuts dues) :=
  (Tx.keeps_foldl (fun _ n => Tx.keeps_serveCut n) cuts t).trans
    (Tx.keeps_foldl (fun _ n => Tx.keeps_expireSeat n) dues _)

theorem Tx.Serves.dueDone (h : t.Serves) (cuts dues : List SeatNo) : (t.dueDone cuts dues).work =
    dues.foldl (fun w n => dueServed n w) (cuts.foldl (fun w n => cutServed n w) t.work) := by
  obtain ⟨h1, h2⟩ := Tx.Serves.foldl (f := Tx.serveCut) (g := fun w n => cutServed n w) (fun _ n h => h.serveCut n) cuts h
  obtain ⟨h3, -⟩ := Tx.Serves.foldl (f := Tx.expireSeat) (g := fun w n => dueServed n w) (fun _ n h => h.expireSeat n) dues h2
  exact h3.trans (congrArg (dues.foldl fun w n => dueServed n w) h1)

theorem serveDue_eq (d : State) : serveDue d = (((Tx.start d).dueDone (cutDueSeats d) (dueSeats d)).on fun s =>
    { s with maint := { s.maint with due := 0 } }).commit := rfl

theorem exec_maintenanceGrant (hw : winner s = some .maintenance) :
    exec .maintenanceGrant s = .next (settle (maintain (decideGrant s .maintenance))) := by
  show execMaintenanceGrant s = _
  unfold execMaintenanceGrant
  rw [if_pos hw]

/-- R94: a Maintenance grant that serves cuts and expiries. -/
theorem settle_serveDue (hz : d.store.ZAgree) (hr : d.cls.state ≠ .resetting) {w : Work}
    (hw : (dueSeats d).foldl (fun w n => dueServed n w) ((cutDueSeats d).foldl (fun w n => cutServed n w) ⟨d, []⟩) = w) :
    settle (serveDue d) = settle (committed d
      ⟨{ w.st with maint := { w.st.maint with due := 0 } }, w.entries⟩) := by
  have hk := Tx.keeps_dueDone (cutDueSeats d) (dueSeats d) (Tx.start d)
  have hwork := (Tx.serves_start hz hr).dueDone (cutDueSeats d) (dueSeats d)
  rw [Tx.work_start, hw] at hwork
  rw [serveDue_eq]
  generalize (Tx.start d).dueDone (cutDueSeats d) (dueSeats d) = t at hk hwork
  have hS := (Tx.stamped_start d).keeps hk
  have hc := settle_after_commit (f := id)
    (hS.on (f := fun s => { s with maint := { s.maint with due := 0 } }) rfl rfl) (fun _ => rfl) fun _ => rfl
  rw [Tx.work_on (f := fun s => { s with maint := { s.maint with due := 0 } }) rfl, Tx.on_base, hk.base] at hc
  rw [← hwork]
  exact hc

end Sys2Proof.Machine
end

