-- ==== Sys2Proof/Proofs/Reclaiming.lean ====
section
/-! A reclaim grant (R114 to R116): the members freed, the group they leave, and the sweeps whose positions move with
the Z lists (R145). -/

namespace Sys2Proof.Machine

variable {s d u : State} {st : Store} {is : List RecIdx} {g : EraseGroup}

/-! ### A list with one member less -/

/-- What stands before a place once a member is gone: the place falls by one where the member stood before it. -/
theorem take_filter_findIdx {α : Type} {p : α → Bool} {L : List α} (hp : (L.filter p).length = 1) (z : Nat) :
    (L.filter fun x => !p x).take (if L.findIdx p < z then z - 1 else z) = (L.take z).filter fun x => !p x := by
  induction L generalizing z with
  | nil => simp at hp
  | cons a L ih =>
    cases z with
    | zero => simp
    | succ z =>
      cases ha : p a with
      | true =>
        have hL : ∀ x ∈ L, p x = false := by
          rw [List.filter_cons_of_pos ha, List.length_cons, Nat.add_eq_right, List.length_eq_zero_iff,
            List.filter_eq_nil_iff] at hp
          exact fun x hx => Bool.eq_false_iff.mpr (hp x hx)
        have hf : ∀ M : List α, (∀ x ∈ M, p x = false) → M.filter (fun x => !p x) = M := fun M hM =>
          List.filter_eq_self.mpr fun x hx => by rw [hM x hx]; rfl
        simp [List.findIdx_cons, ha, hf L hL, hf (L.take z) fun x hx => hL x (List.mem_of_mem_take hx)]
      | false =>
        rw [List.filter_cons_of_neg (by simp [ha])] at hp
        have := ih hp z
        simp only [List.findIdx_cons, ha, cond_false, List.take_succ_cons]
        rw [List.filter_cons_of_pos (by simp [ha]), List.filter_cons_of_pos (by simp [ha]), ← this]
        split
        · next hlt =>
          rw [if_pos (by omega), show z + 1 - 1 = (z - 1) + 1 by omega, List.take_succ_cons]
        · next hlt => rw [if_neg (by omega), List.take_succ_cons]

theorem countP_take_findIdx {α : Type} {p : α → Bool} {L : List α} (hp : (L.filter p).length = 1) (z : Nat) :
    (L.take z).countP p = if L.findIdx p < z then 1 else 0 := by
  induction L generalizing z with
  | nil => simp at hp
  | cons a L ih =>
    cases z with
    | zero => simp
    | succ z =>
      cases ha : p a with
      | true =>
        have hL : ∀ x ∈ L.take z, ¬p x = true := by
          rw [List.filter_cons_of_pos ha, List.length_cons, Nat.add_eq_right, List.length_eq_zero_iff,
            List.filter_eq_nil_iff] at hp
          exact fun x hx => hp x (List.mem_of_mem_take hx)
        simp [List.findIdx_cons, ha, List.countP_eq_zero.mpr hL]
      | false =>
        rw [List.filter_cons_of_neg (by simp [ha])] at hp
        simp [List.findIdx_cons, ha, ih hp z]

/-- A record is listed once on its own Z list (R27). -/
theorem Store.ZAgree.listed_once {i : RecIdx} (h : st.ZAgree) (hi : (st.stroke i).state ≠ .free) :
    ((st.zlist (st.stroke i).page (st.stroke i).layer).filter fun x => decide (x.idx = i)).length = 1 := by
  have hn := h.nodup (st.stroke i).page (st.stroke i).layer
  have hm : i ∈ (st.zlist (st.stroke i).page (st.stroke i).layer).map Handle.idx :=
    List.mem_map.mpr ⟨_, h.listed hi, rfl⟩
  have hc := List.count_eq_one_of_mem hn hm
  rw [← List.countP_eq_length_filter]
  rw [List.count, List.countP_map] at hc
  exact (List.countP_congr fun x _ => by simp).trans hc

/-! ### The positions of the sweeps -/

/-- One of these records, on this page and layer. -/
def goneFrom (st : Store) (is : List RecIdx) (p : PageNo) (l : LayerNo) (x : Handle) : Bool :=
  decide (x.idx ∈ is ∧ (st.stroke x.idx).page = p ∧ (st.stroke x.idx).layer = l)

/-- The place of a sweep once these records are gone from its list: it falls by as many as stood before it (R145). -/
def fallen (st : Store) (is : List RecIdx) (q : Position) : Nat :=
  q.z - ((st.zlist q.page q.layer).take q.z).countP (goneFrom st is q.page q.layer)

/-- The context of a sweep whose list these records leave (R145). -/
def shifted (st : Store) (is : List RecIdx) (c : ScanCtx) : ScanCtx :=
  { c with pos := { c.pos with z := fallen st is c.pos } }

/-- The record stands on this list, once. -/
theorem goneFrom_listed {i : RecIdx} {p : PageNo} {l : LayerNo} (hp : p = (st.stroke i).page ∧ l = (st.stroke i).layer) :
    goneFrom st [i] p l = fun x => decide (x.idx = i) := by
  funext x
  by_cases e : x.idx = i <;> simp [goneFrom, e, hp.1, hp.2]

/-- The record stands on another list. -/
theorem goneFrom_elsewhere {i : RecIdx} {p : PageNo} {l : LayerNo}
    (hp : ¬(p = (st.stroke i).page ∧ l = (st.stroke i).layer)) : goneFrom st [i] p l = fun _ => false := by
  funext x
  refine decide_eq_false fun ⟨e, e1, e2⟩ => ?_
  rw [List.mem_singleton.mp e] at e1 e2
  exact hp ⟨e1.symm, e2.symm⟩

theorem fallen_listed {i : RecIdx} {q : Position} (h : st.ZAgree) (hi : (st.stroke i).state ≠ .free)
    (hp : q.page = (st.stroke i).page ∧ q.layer = (st.stroke i).layer) : fallen st [i] q =
      if (st.zlist q.page q.layer).findIdx (fun x => decide (x.idx = i)) < q.z then q.z - 1 else q.z := by
  have hone : ((st.zlist q.page q.layer).filter fun x => decide (x.idx = i)).length = 1 := by
    rw [hp.1, hp.2]
    exact h.listed_once hi
  rw [fallen, goneFrom_listed hp, countP_take_findIdx hone]
  split <;> rfl

theorem fallen_elsewhere {i : RecIdx} {q : Position}
    (hp : ¬(q.page = (st.stroke i).page ∧ q.layer = (st.stroke i).layer)) : fallen st [i] q = q.z := by
  simp [fallen, goneFrom_elsewhere hp]

theorem shiftPosition_unswept {p : PageNo} {l : LayerNo} {z : Nat} {c : ScanCtx} (h : c.mode.isSweep = false) :
    shiftPosition p l z c = c := if_neg fun e => by simp [h] at e

theorem shifted_nil (st : Store) (c : ScanCtx) : shifted st [] c = c := by
  have hz : fallen st [] c.pos = c.pos.z := by
    rw [fallen, List.countP_eq_zero.mpr fun x _ => by simp [goneFrom]]
    rfl
  rw [shifted, hz]

/-- The context of a scan once one record is freed (R145). -/
def swept (st : Store) (i : RecIdx) (c : ScanCtx) : ScanCtx :=
  if (st.stroke i).state = .free then c
  else shiftPosition (st.stroke i).page (st.stroke i).layer
    ((st.zlist (st.stroke i).page (st.stroke i).layer).findIdx fun h => decide (h.idx = i)) c

/-- The context of a scan once these records are freed, one after the other. -/
def sweptList : Store → List RecIdx → ScanCtx → ScanCtx
  | _, [], c => c
  | st, i :: is, c => sweptList (st.freed i) is (swept st i c)

/-- R145: one record freed, and one sweep. -/
theorem swept_eq_shifted {i : RecIdx} {c : ScanCtx} (h : st.ZAgree) (hi : (st.stroke i).state ≠ .free)
    (hc : c.mode.isSweep = true) : swept st i c = shifted st [i] c := by
  rw [swept, if_neg hi, shiftPosition, shifted]
  by_cases hp : c.pos.page = (st.stroke i).page ∧ c.pos.layer = (st.stroke i).layer
  · rw [fallen_listed h hi hp, hp.1, hp.2]
    by_cases hlt : (st.zlist (st.stroke i).page (st.stroke i).layer).findIdx (fun h => decide (h.idx = i)) < c.pos.z
    · rw [if_pos ⟨hc, rfl, rfl, hlt⟩, if_pos hlt]
    · rw [if_neg fun e => hlt e.2.2.2, if_neg hlt]
  · rw [fallen_elsewhere hp, if_neg fun e => hp ⟨e.2.1, e.2.2.1⟩]

/-- What is counted of the records behind the first. -/
theorem goneFrom_freed {i : RecIdx} {p : PageNo} {l : LayerNo} {x : Handle} (hx : x.idx ≠ i) :
    goneFrom (st.freed i) is p l x = goneFrom st (i :: is) p l x := by
  simp [goneFrom, hx, Store.stroke_freed_other hx]

theorem fallen_fallen {i : RecIdx} (h : st.ZAgree) (hu : st.InUse (i :: is)) (q : Position) :
    fallen (st.freed i) is { q with z := fallen st [i] q } = fallen st (i :: is) q := by
  have hi := hu.used i List.mem_cons_self
  have hnot := (List.nodup_cons.mp hu.nodup).1
  by_cases hp : q.page = (st.stroke i).page ∧ q.layer = (st.stroke i).layer
  · have hone : ((st.zlist q.page q.layer).filter fun x => decide (x.idx = i)).length = 1 := by
      rw [hp.1, hp.2]
      exact h.listed_once hi
    have hlist : (st.freed i).zlist q.page q.layer = (st.zlist q.page q.layer).filter fun x => !decide (x.idx = i) := by
      rw [Store.zlist_freed_used hi]
      refine List.filter_congr fun x _ => ?_
      simp [hp.1, hp.2]
    have hz : fallen st [i] q = q.z - ((st.zlist q.page q.layer).take q.z).countP fun x => decide (x.idx = i) := by
      rw [fallen, goneFrom_listed hp]
    have hall := List.countP_eq_countP_filter_add ((st.zlist q.page q.layer).take q.z)
      (goneFrom st (i :: is) q.page q.layer) fun x => decide (x.idx = i)
    have h1 : (((st.zlist q.page q.layer).take q.z).filter fun x => decide (x.idx = i)).countP
        (goneFrom st (i :: is) q.page q.layer) =
        ((st.zlist q.page q.layer).take q.z).countP fun x => decide (x.idx = i) := by
      rw [List.countP_filter]
      refine List.countP_congr fun x _ => ?_
      by_cases e : x.idx = i <;> simp [goneFrom, e, hp.1, hp.2]
    have h2 : (((st.zlist q.page q.layer).take q.z).filter fun x => !decide (x.idx = i)).countP
        (goneFrom (st.freed i) is q.page q.layer) =
        (((st.zlist q.page q.layer).take q.z).filter fun x => !decide (x.idx = i)).countP
        (goneFrom st (i :: is) q.page q.layer) :=
      List.countP_congr fun x hx => by
        rw [goneFrom_freed (by simpa using (List.mem_filter.mp hx).2)]
    have htake := take_filter_findIdx hone q.z
    rw [← fallen_listed h hi hp] at htake
    rw [fallen]
    dsimp only
    rw [hlist, htake, h2, hz, fallen, hall, h1, Nat.sub_sub]
  · have hlist : (st.freed i).zlist q.page q.layer = st.zlist q.page q.layer := by
      rw [Store.zlist_freed_used hi]
      refine List.filter_eq_self.mpr fun x _ => decide_eq_true fun e => hp ⟨e.2.1.symm, e.2.2.symm⟩
    have hcount : ((st.zlist q.page q.layer).take q.z).countP (goneFrom (st.freed i) is q.page q.layer) =
        ((st.zlist q.page q.layer).take q.z).countP (goneFrom st (i :: is) q.page q.layer) :=
      List.countP_congr fun x _ => by
        by_cases e : x.idx = i
        · have e1 : goneFrom (st.freed i) is q.page q.layer x = false := decide_eq_false fun h => hnot (e ▸ h.1)
          have e2 : goneFrom st (i :: is) q.page q.layer x = false := decide_eq_false fun h => by
            rw [e] at h
            exact hp ⟨h.2.1.symm, h.2.2.symm⟩
          rw [e1, e2]
        · rw [goneFrom_freed e]
    rw [fallen]
    dsimp only
    rw [hlist, fallen_elsewhere hp, hcount, fallen]

/-- R145: a sweep falls by one record after the other. -/
theorem shifted_shifted {i : RecIdx} (h : st.ZAgree) (hu : st.InUse (i :: is)) (c : ScanCtx) :
    shifted (st.freed i) is (shifted st [i] c) = shifted st (i :: is) c := by
  have hf := fallen_fallen h hu c.pos
  simp only [shifted] at hf ⊢
  rw [hf]

theorem sweptList_eq_shifted {c : ScanCtx} (h : st.ZAgree) (hu : st.InUse is) (hc : c.mode.isSweep = true) :
    sweptList st is c = shifted st is c := by
  induction is generalizing st c with
  | nil => exact (shifted_nil st c).symm
  | cons i is ih =>
    rw [sweptList, swept_eq_shifted h (hu.used i List.mem_cons_self) hc,
      ih (c := shifted st [i] c) (h.freed i) hu.tail hc, shifted_shifted h hu]

theorem sweptList_unswept {c : ScanCtx} (hc : c.mode.isSweep = false) : sweptList st is c = c := by
  induction is generalizing st with
  | nil => rfl
  | cons i is ih =>
    have hs : swept st i c = c := by
      unfold swept
      rw [shiftPosition_unswept hc, ite_self]
    rw [sweptList, hs, ih]

/-! ### The records of a grant -/

theorem freeRecord_eq (s : State) (i : RecIdx) : freeRecord s i = { s with
    store := s.store.freed i, display := swept s.store i s.display, snapshot := swept s.store i s.snapshot } := by
  unfold freeRecord swept Store.freed
  dsimp only
  split <;> rfl

/-- What records freed one by one leave (R19, R145). -/
theorem foldl_freeRecord (is : List RecIdx) (s : State) : is.foldl freeRecord s = { s with
    store := s.store.freedList is
    display := sweptList s.store is s.display, snapshot := sweptList s.store is s.snapshot } := by
  induction is generalizing s with
  | nil => rfl
  | cons i is ih =>
    rw [List.foldl_cons, ih, freeRecord_eq]
    rfl

/-- A sweep's position is all that records freed change of a scan context (R145). -/
theorem sweptList_frame (st : Store) (is : List RecIdx) (c : ScanCtx) :
    sweptList st is c = { c with pos := (sweptList st is c).pos } := by
  have hs : ∀ st i (c : ScanCtx), swept st i c = { c with pos := (swept st i c).pos } := fun st i c => by
    unfold swept shiftPosition
    split <;> [skip; split] <;> rfl
  induction is generalizing st c with
  | nil => rfl
  | cons i is ih =>
    have h := ih (st.freed i) (swept st i c)
    rw [sweptList]
    generalize sweptList (st.freed i) is (swept st i c) = u at h ⊢
    rw [hs] at h
    exact h

/-- What one reclaim grant leaves, where it frees these members of the group under reclaim (R114, R116). -/
theorem freeMembers_eq (hg : s.maint.underReclaim = some g) (hm : g.members ≠ []) :
    let now := (g.members.take 16).map Handle.idx
    freeMembers s = { s with
      store := s.store.freedList now
      maint := { s.maint with
        underReclaim := if g.members.drop 16 = [] then none else some { g with members := g.members.drop 16 }
        tableFull := false }
      display := sweptList s.store now s.display, snapshot := sweptList s.store now s.snapshot } := by
  intro now
  have hfold : (g.members.take 16).foldl (fun s h => freeRecord s h.idx) s = now.foldl freeRecord s :=
    (List.foldl_map ..).symm
  have hne : (g.members.take Config.reclaimPerGrant).isEmpty = false := by
    cases hc : g.members with
    | nil => exact absurd hc hm
    | cons a l => rfl
  unfold freeMembers
  simp only [hg, hne]
  rw [show g.members.take Config.reclaimPerGrant = g.members.take 16 from rfl, hfold, foldl_freeRecord]
  simp only [List.isEmpty_iff, Bool.false_eq_true, if_false]
  rfl

/-- R115: the group that is reclaimed from: the one under reclaim, or else the head of the queue. -/
theorem detachHead_eq {queue : List EraseGroup} (hw : requests s .maintenance = true) (hc : anyCutDue s = false)
    (hd : s.maint.due = 0) (hg : (s.maint.underReclaim = some g ∧ queue = s.eraseQueue) ∨
      (s.maint.underReclaim = none ∧ s.eraseQueue = g :: queue)) :
    detachHead s = { s with eraseQueue := queue, maint := { s.maint with underReclaim := some g } } := by
  unfold detachHead
  rcases hg with ⟨hg, rfl⟩ | ⟨hn, hq⟩
  · rw [← hg]
    exact if_pos (by rw [hg]; rfl)
  · simp only [requests, hc, hd, reclaimWork, hn, Bool.and_eq_true] at hw
    simp only [ne_eq, not_true, decide_false, Option.isSome_none, Bool.false_or, Bool.and_eq_true] at hw
    obtain ⟨-, hdem, htake⟩ := hw
    have ht : takeableHead s = some g := by
      unfold takeableHead at htake ⊢
      rw [hq] at htake ⊢
      dsimp only at htake ⊢
      split at htake
      · cases htake
      · next h => rw [if_neg h]
    rw [if_neg (by rw [hn]; exact Bool.false_ne_true), if_pos hdem, ht, hq]
    rfl

/-- What a reclaim grant leaves, where `g` is the group reclaimed from and `queue` the Erase Queue without it (R116). -/
def reclaimed (d : State) (g : EraseGroup) (queue : List EraseGroup) : State :=
  let now := (g.members.take 16).map Handle.idx
  { d with
    store := d.store.freedList now
    eraseQueue := queue
    maint := { d.maint with
      underReclaim := if g.members.drop 16 = [] then none else some { g with members := g.members.drop 16 }
      tableFull := false }
    display := sweptList d.store now d.display, snapshot := sweptList d.store now d.snapshot }

theorem requests_decideGrant_maintenance (s : State) (r : Requester) :
    requests (decideGrant s r) .maintenance = requests s .maintenance := by
  rw [decideGrant_same]
  rfl

/-- R94, R116: with neither a cut nor an expiry due, a Maintenance grant reclaims. -/
theorem exec_reclaims {queue : List EraseGroup} (hw : winner s = some .maintenance)
    (hc : ∀ m, (s.seat m).cutDue = false) (hd : s.maint.due = 0)
    (hg : (s.maint.underReclaim = some g ∧ queue = s.eraseQueue) ∨
      (s.maint.underReclaim = none ∧ s.eraseQueue = g :: queue)) (hm : g.members ≠ [])
    (hu : s.store.InUse ((g.members.take 16).map Handle.idx)) :
    exec .maintenanceGrant s = .next (settle (committed (decideGrant s .maintenance)
      ⟨reclaimed (decideGrant s .maintenance) g queue, []⟩)) := by
  have hcut : anyCutDue (decideGrant s .maintenance) = false := by simp [anyCutDue, hc]
  have hdue : (decideGrant s .maintenance).maint.due = 0 := by simp [hd]
  have hdet := detachHead_eq (s := decideGrant s .maintenance) (g := g) (queue := queue)
    ((requests_decideGrant_maintenance s _).trans (requests_of_winner hw)) hcut hdue (by simpa using hg)
  have hu' : (decideGrant s .maintenance).store.InUse ((g.members.take 16).map Handle.idx) := by simpa using hu
  have hrun : maintain (decideGrant s .maintenance) = ((Tx.start (decideGrant s .maintenance)).on reclaimGrant).commit :=
    if_neg (by rw [hcut, hdue]; simp)
  rw [exec_maintenanceGrant hw, hrun]
  generalize decideGrant s .maintenance = d at *
  have hrec : reclaimGrant d = reclaimed d g queue := by
    rw [reclaimGrant, hdet, freeMembers_eq (g := g) rfl hm]
    rfl
  have hrev : (reclaimed d g queue).store.rev = d.store.rev := by
    show (d.store.freedList _).rev = _
    rw [Store.freedList_eq hu']
  have hs : ((Tx.start d).on reclaimGrant).Stamped :=
    (Tx.stamped_start d).on (by rw [Tx.start, hrec, hrev]) (by rw [Tx.start, hrec]; rfl)
  have hcm := settle_after_commit (f := id) hs (fun _ => rfl) fun _ => rfl
  rw [Tx.on_base, Tx.work, Tx.on_st, show (Tx.start d).st = d from rfl, hrec] at hcm
  exact congrArg Host.Outcome.next hcm

/-- The members of a group of distinct ERASED strokes are in use (R99). -/
theorem AllIn.inUse {hs : List Handle} (h : AllIn s .erased hs) (k : Nat) :
    s.store.InUse ((hs.take k).map Handle.idx) where
  nodup := h.1.sublist ((List.take_sublist k hs).map _)
  used i hi := by
    obtain ⟨x, hx, rfl⟩ := List.mem_map.mp hi
    rw [(h.2 x (List.mem_of_mem_take hx)).2]
    decide

/-- A record freed by this grant stood on this list. -/
theorem goneFrom_map (st : Store) (hs : List Handle) (p : PageNo) (l : LayerNo) (x : Handle) :
    goneFrom st (hs.map Handle.idx) p l x =
      decide (∃ h ∈ hs, h.idx = x.idx ∧ (st.stroke h.idx).page = p ∧ (st.stroke h.idx).layer = l) := by
  refine decide_eq_decide.mpr ⟨fun ⟨hm, h1, h2⟩ => ?_, fun ⟨h, hm, e, h1, h2⟩ => ?_⟩
  · obtain ⟨h, hh, e⟩ := List.mem_map.mp hm
    exact ⟨h, hh, e, e ▸ h1, e ▸ h2⟩
  · exact ⟨List.mem_map.mpr ⟨h, hm, e⟩, e ▸ h1, e ▸ h2⟩

/-- What a reclaim grant leaves of the state besides the store: the groups and the positions of the sweeps. -/
theorem reclaimed_frame (d : State) (g : EraseGroup) (queue : List EraseGroup) : reclaimed d g queue = { d with
    store := (reclaimed d g queue).store, eraseQueue := queue
    maint := { d.maint with
      underReclaim := if g.members.drop 16 = [] then none else some { g with members := g.members.drop 16 }
      tableFull := false }
    display := { d.display with pos := (reclaimed d g queue).display.pos }
    snapshot := { d.snapshot with pos := (reclaimed d g queue).snapshot.pos } } := by
  have hd := sweptList_frame d.store ((g.members.take 16).map Handle.idx) d.display
  have hs := sweptList_frame d.store ((g.members.take 16).map Handle.idx) d.snapshot
  unfold reclaimed
  dsimp only
  rw [← hd, ← hs]

/-- R94, R97: with a cut or an expiry due, a Maintenance grant serves the cuts and then the expiries. -/
theorem exec_serves (hw : winner s = some .maintenance) (h : (∃ n, (s.seat n).cutDue = true) ∨ s.maint.due ≠ 0)
    (hz : ZListsAgree s) {w : Work}
    (hfold : (dueSeats (decideGrant s .maintenance)).foldl (fun w n => dueServed n w)
      ((cutDueSeats (decideGrant s .maintenance)).foldl (fun w n => cutServed n w) ⟨decideGrant s .maintenance, []⟩) = w) :
    exec .maintenanceGrant s = .next (settle (committed (decideGrant s .maintenance)
      ⟨{ w.st with maint := { w.st.maint with due := 0 } }, w.entries⟩)) := by
  have hrun : maintain (decideGrant s .maintenance) = serveDue (decideGrant s .maintenance) := if_pos (by
    rw [Bool.or_eq_true, anyCutDue_iff, decide_eq_true_eq]
    simpa using h)
  rw [exec_maintenanceGrant hw, hrun, settle_serveDue (by simpa using (zListsAgree_iff s).mp hz)
    (by simpa using not_resetting_of_maintenance hw) hfold]

/-- Settles O47: cuts and expiries by seat, reclaim by record. -/
theorem maintenanceExpiresCutsAndReclaims : Obligations.MaintenanceExpiresCutsAndReclaims := by
  intro s hw d seats cuts w
  refine ⟨fun h hz => ?_, fun g queue hc hd hg hm hall => ?_⟩
  · have hcuts : cutDueSeats d = seats fun n => (s.seat n).cutDue := by
      simp only [cutDueSeats, d, seat_decideGrant]
      rfl
    have hdues : dueSeats d = seats fun n => s.maint.due.getLsbD n.val := by
      simp only [dueSeats, d, decideGrant_maint]
      rfl
    exact exec_serves hw h hz (by rw [hcuts, hdues])
  · intro now rest freed moved
    have hu := hall.inUse 16
    have hx := exec_reclaims hw hc hd hg hm hu
    have hgone : ∀ p l, goneFrom s.store (now.map Handle.idx) p l = fun x => freed x p l := fun p l =>
      funext fun x => goneFrom_map s.store now p l x
    have hmoved : ∀ c : ScanCtx, ZListsAgree s → c.mode.isSweep = true →
        (sweptList s.store (now.map Handle.idx) c).pos = moved c := fun c hz hc => by
      rw [sweptList_eq_shifted ((zListsAgree_iff s).mp hz) hu hc, shifted, fallen, hgone]
    have hstore : (reclaimed d g queue).store = s.store.freedList (now.map Handle.idx) :=
      congrArg (Store.freedList · _) (decideGrant_store s .maintenance)
    have hdis : (reclaimed d g queue).display = sweptList s.store (now.map Handle.idx) s.display :=
      congrArg₂ (sweptList · _) (decideGrant_store s .maintenance) (decideGrant_display s .maintenance)
    have hsnap : (reclaimed d g queue).snapshot = sweptList s.store (now.map Handle.idx) s.snapshot :=
      congrArg₂ (sweptList · _) (decideGrant_store s .maintenance) (decideGrant_snapshot s .maintenance)
    have hframe := reclaimed_frame d g queue
    rw [show d.maint = s.maint from decideGrant_maint s .maintenance,
      show d.display = s.display from decideGrant_display s .maintenance,
      show d.snapshot = s.snapshot from decideGrant_snapshot s .maintenance] at hframe
    generalize reclaimed d g queue = v at hx hstore hdis hsnap hframe
    refine ⟨_, hx, fun i => ?_, fun p l => ?_, fun hz => ⟨fun h => ?_, fun h => ?_⟩, fun h => ?_, ?_,
      congrArg (fun u => settle (committed d ⟨u, []⟩)) hframe⟩
    · show v.store.stroke i = _
      rw [hstore, Store.stroke_freedList hu]
    · show v.store.zlist p l = _
      rw [hstore, Store.zlist_freedList hu]
      exact List.filter_congr fun x _ => (decide_not ..).trans (congrArg (! ·) (congrFun (hgone p l) x))
    · exact (congrArg ScanCtx.pos hdis).trans (hmoved s.display hz h)
    · exact (congrArg ScanCtx.pos hsnap).trans (hmoved s.snapshot hz h)
    · refine (congrArg ScanCtx.pos hdis).trans ?_
      rw [sweptList_unswept h]
    · show v.store = _
      have hf := Store.freedList_eq hu
      rw [List.flatMap_map, ← hstore] at hf
      exact hf

end Sys2Proof.Machine
end
